-- ==== Sys2Proof/Word.lean ====
section
/-! DEFINITION. Word.lean: the machine's word types (00_scope.md R8 to R10). -/

namespace Sys2Proof

/-! A register value, an address or a data-memory cell is an XLEN-bit two's-complement integer (00_scope.md R8, R10). XLEN
is a parameter, so these are plain `Int`s, and every arithmetic result is reduced to XLEN bits where it is made
(`Config.wrap`, Decode.lean). That they all lie in the range of XLEN bits is an invariant (Safety.lean; assumption
log 17). -/

/-- The 32-bit immediate field of a bundle (30_encoding.md R80). -/
abbrev Imm := BitVec 32

/-- A decoded-instruction bundle (30_encoding.md R80). -/
abbrev Bundle := BitVec 64

/-- The 5-bit opcode field (30_encoding.md R80, R83). -/
abbrev OpField := BitVec 5

/-- An architectural register number as the 4-bit fields of a bundle hold it (30_encoding.md R81). -/
abbrev Reg := Fin 16

/-! A physical-register tag, a reorder-buffer index and a checkpoint id are plain `Nat`s (00_scope.md R9). That a tag
stays below NUM_PHYS, an index below ROB_SIZE and an id below NUM_CKPT are invariants (Safety.lean). -/

end Sys2Proof
end

