-- ==== Sys2Proof/Config.lean ====
section
/-! DEFINITION. Config.lean: the named parameters of 00_scope.md R8, their default values and their constraints. -/

namespace Sys2Proof

/-- Which physical register commit frees (00_scope.md R8 FREE_POLICY; 53_recovery_commit.md R272). -/
inductive FreePolicy where
  | prev
  | destIfRemapped
deriving DecidableEq, Repr

/-- How recovery restores the register file (00_scope.md R8 RESTORE_POLICY; 53_recovery_commit.md R265). -/
inductive RestorePolicy where
  | selective
  | verbatim
deriving DecidableEq, Repr

/-- The parameters a model takes as arguments (00_scope.md R8). DM_INIT and CYCLE_BUDGET are inputs of
`State.boot`. -/
structure Config where
  /-- XLEN -/
  xlen : Nat
  /-- NUM_ARCH -/
  numArch : Nat
  /-- NUM_PHYS -/
  numPhys : Nat
  /-- ROB_SIZE -/
  robSize : Nat
  /-- IQ_SIZE -/
  iqSize : Nat
  /-- NUM_CKPT -/
  numCkpt : Nat
  /-- MEM_WORDS -/
  memWords : Nat
  /-- PC_BASE -/
  pcBase : Int
  /-- INSN_STRIDE -/
  insnStride : Nat
  /-- INT_LAT -/
  intLat : Nat
  /-- MUL_LAT -/
  mulLat : Nat
  /-- MEM_STAGES -/
  memStages : Nat
  /-- BR_STAGES -/
  brStages : Nat
  /-- FETCH_WIDTH -/
  fetchWidth : Nat
  /-- DISPATCH_WIDTH -/
  dispatchWidth : Nat
  /-- COMMIT_WIDTH -/
  commitWidth : Nat
  freePolicy : FreePolicy
  restorePolicy : RestorePolicy
deriving DecidableEq, Repr

/-- The "value" column of 00_scope.md R8. -/
def Config.default : Config where
  xlen := 32
  numArch := 16
  numPhys := 32
  robSize := 16
  iqSize := 8
  numCkpt := 4
  memWords := 4096
  pcBase := 4000
  insnStride := 4
  intLat := 1
  mulLat := 3
  memStages := 2
  brStages := 2
  fetchWidth := 1
  dispatchWidth := 1
  commitWidth := 1
  freePolicy := .prev
  restorePolicy := .selective

/-- A value is an XLEN-bit two's-complement integer (00_scope.md R10). -/
abbrev Config.fits (c : Config) (v : Int) : Prop :=
  -((2 ^ (c.xlen - 1) : Nat) : Int) ≤ v ∧ v < ((2 ^ (c.xlen - 1) : Nat) : Int)

/-- The constraints the host checks before reset (70_reset_and_hazards.md R323). -/
def Config.sizesOk (c : Config) : Bool :=
  decide (1 ≤ c.numArch) && decide (c.numArch ≤ 16) && decide (c.numArch + 1 ≤ c.numPhys)
    && decide (1 ≤ c.robSize) && decide (1 ≤ c.iqSize) && decide (1 ≤ c.numCkpt)
    && decide (1 ≤ c.memWords) && decide (1 ≤ c.mulLat)

/-- What the spec's other rules need of the parameters to say anything: an instruction stride to divide by
(50_cycle_and_fetch.md R186), an XLEN that a sign-extended 32-bit immediate fits in (30_encoding.md R85), a reset pc
of XLEN bits (10_state.md R27); and of INT_LAT, the stage counts and the widths the values the rules are written for
(10_state.md R39; 50_cycle_and_fetch.md R186; 53_recovery_commit.md R270). DESIGN CHOICE, assumption logs 1 and 14. -/
def Config.rulesApply (c : Config) : Bool :=
  decide (1 ≤ c.insnStride) && decide (32 ≤ c.xlen)
    && decide (-((2 ^ (c.xlen - 1) : Nat) : Int) ≤ c.pcBase) && decide (c.pcBase < ((2 ^ (c.xlen - 1) : Nat) : Int))
    && decide (c.intLat = 1) && decide (c.memStages = 2) && decide (c.brStages = 2)
    && decide (c.fetchWidth = 1) && decide (c.dispatchWidth = 1) && decide (c.commitWidth = 1)

/-- The configurations the machine runs with. -/
def Config.ok (c : Config) : Bool := c.sizesOk && c.rulesApply

end Sys2Proof
end

