-- ==== Sys2Proof/Syntax.lean ====
section
/-! DEFINITION. Syntax.lean: OOO-ISA v1 (30_encoding.md R83, R84, R86): the opcodes, their unit classes, and
the instructions with the fields each of them uses. -/

namespace Sys2Proof

/-- The 18 assigned opcodes (30_encoding.md R83). -/
inductive Op where
  | nop | add | sub | and | or | xor | mul | movc | cmp
  | load | ldr | store | str | jump | jal | bz | bnz | halt
deriving DecidableEq, Repr

/-- The four functional-unit classes (52_issue_units.md R230). -/
inductive UnitClass where
  | int | mul | mem | br
deriving DecidableEq, Repr

/-- One constructor per row of the opcode table, holding exactly the fields the row uses, in the order of
the assembler syntax (30_encoding.md R84, R86, R92). -/
inductive Instr where
  | nop
  | add (rd rs1 rs2 : Reg)
  | sub (rd rs1 rs2 : Reg)
  | and (rd rs1 rs2 : Reg)
  | or (rd rs1 rs2 : Reg)
  | xor (rd rs1 rs2 : Reg)
  | mul (rd rs1 rs2 : Reg)
  | movc (rd : Reg) (imm : Imm)
  | cmp (rs1 rs2 : Reg)
  | load (rd rs1 : Reg) (imm : Imm)
  | ldr (rd rs1 rs2 : Reg)
  | store (rs1 rs2 : Reg) (imm : Imm)
  | str (rs1 rs2 rs3 : Reg)
  | jump (rs1 : Reg) (imm : Imm)
  | jal (rd rs1 : Reg) (imm : Imm)
  | bz (imm : Imm)
  | bnz (imm : Imm)
  | halt
deriving DecidableEq, Repr

/-- The opcode of an instruction. -/
def Instr.op : Instr → Op
  | .nop => .nop
  | .add _ _ _ => .add
  | .sub _ _ _ => .sub
  | .and _ _ _ => .and
  | .or _ _ _ => .or
  | .xor _ _ _ => .xor
  | .mul _ _ _ => .mul
  | .movc _ _ => .movc
  | .cmp _ _ => .cmp
  | .load _ _ _ => .load
  | .ldr _ _ _ => .ldr
  | .store _ _ _ => .store
  | .str _ _ _ => .str
  | .jump _ _ => .jump
  | .jal _ _ _ => .jal
  | .bz _ => .bz
  | .bnz _ => .bnz
  | .halt => .halt

end Sys2Proof
end

