-- ==== Sys2Proof/WellFormed.lean ====
section
/-! DEFINITION. WellFormed.lean: which instructions are legal for a given NUM_ARCH (30_encoding.md R81, R87). -/

namespace Sys2Proof

/-- The register fields an instruction uses (30_encoding.md R84, R86). -/
def Instr.regs : Instr → List Reg
  | .nop => []
  | .add rd rs1 rs2 => [rd, rs1, rs2]
  | .sub rd rs1 rs2 => [rd, rs1, rs2]
  | .and rd rs1 rs2 => [rd, rs1, rs2]
  | .or rd rs1 rs2 => [rd, rs1, rs2]
  | .xor rd rs1 rs2 => [rd, rs1, rs2]
  | .mul rd rs1 rs2 => [rd, rs1, rs2]
  | .movc rd _ => [rd]
  | .cmp rs1 rs2 => [rs1, rs2]
  | .load rd rs1 _ => [rd, rs1]
  | .ldr rd rs1 rs2 => [rd, rs1, rs2]
  | .store rs1 rs2 _ => [rs1, rs2]
  | .str rs1 rs2 rs3 => [rs1, rs2, rs3]
  | .jump rs1 _ => [rs1]
  | .jal rd rs1 _ => [rd, rs1]
  | .bz _ => []
  | .bnz _ => []
  | .halt => []

/-- Every register field the instruction uses is below NUM_ARCH (30_encoding.md R87). -/
def Instr.wf (numArch : Nat) (i : Instr) : Bool :=
  i.regs.all fun r => decide (r.val < numArch)

end Sys2Proof
end

