-- ==== Sys2Proof/Decode.lean ====
section
/-! DEFINITION. Decode.lean: the decoder of 30_encoding.md R91, total on every 64-bit bundle, and the encoder of
30_encoding.md R80. -/

namespace Sys2Proof

/-- The opcode number of an opcode (30_encoding.md R83). -/
def Op.code : Op → OpField
  | .nop => 0x00 | .add => 0x01 | .sub => 0x02 | .and => 0x03 | .or => 0x04 | .xor => 0x05
  | .mul => 0x06 | .movc => 0x07 | .cmp => 0x08 | .load => 0x09 | .ldr => 0x0A | .store => 0x0B
  | .str => 0x0C | .jump => 0x0D | .jal => 0x0E | .bz => 0x0F | .bnz => 0x10 | .halt => 0x11

/-- The opcode a number is assigned to; 0x12..0x1F are unassigned (30_encoding.md R83). -/
def Op.ofCode? (c : OpField) : Option Op :=
  match c.toNat with
  | 0x00 => some .nop | 0x01 => some .add | 0x02 => some .sub | 0x03 => some .and
  | 0x04 => some .or | 0x05 => some .xor | 0x06 => some .mul | 0x07 => some .movc
  | 0x08 => some .cmp | 0x09 => some .load | 0x0A => some .ldr | 0x0B => some .store
  | 0x0C => some .str | 0x0D => some .jump | 0x0E => some .jal | 0x0F => some .bz
  | 0x10 => some .bnz | 0x11 => some .halt | _ => none

/-- The unit class of an opcode (52_issue_units.md R230). -/
def Op.unit : Op → UnitClass
  | .nop | .add | .sub | .and | .or | .xor | .movc | .cmp | .halt => .int
  | .mul => .mul
  | .load | .ldr | .store | .str => .mem
  | .jump | .jal | .bz | .bnz => .br

/-- Bits 63:59 (30_encoding.md R80). -/
def Bundle.opcode (w : Bundle) : OpField := w.extractLsb' 59 5

/-- Bits 58:55 (30_encoding.md R80). -/
def Bundle.rd (w : Bundle) : Reg := (w.extractLsb' 55 4).toFin

/-- Bits 54:51 (30_encoding.md R80). -/
def Bundle.rs1 (w : Bundle) : Reg := (w.extractLsb' 51 4).toFin

/-- Bits 50:47 (30_encoding.md R80). -/
def Bundle.rs2 (w : Bundle) : Reg := (w.extractLsb' 47 4).toFin

/-- Bits 46:43 (30_encoding.md R80). -/
def Bundle.rs3 (w : Bundle) : Reg := (w.extractLsb' 43 4).toFin

/-- Bits 31:0 (30_encoding.md R80). -/
def Bundle.imm (w : Bundle) : Imm := w.extractLsb' 0 32

/-- The immediate as a value: sext_32 (30_encoding.md R85). -/
def immValue (imm : Imm) : Int := imm.toInt

/-- The reduction of a mathematical integer to XLEN bits: `s32` of 00_scope.md R10, for every XLEN. -/
def Config.wrap (c : Config) (v : Int) : Int := Int.bmod v (2 ^ c.xlen)

/-- The XLEN-bit two's-complement pattern of a value (00_scope.md R10). -/
def Config.bits (c : Config) (v : Int) : BitVec c.xlen := BitVec.ofInt c.xlen v

/-- The instruction of an opcode with the fields that 30_encoding.md R86 names, the others ignored (R82). -/
def Instr.ofFields (op : Op) (rd rs1 rs2 rs3 : Reg) (imm : Imm) : Instr :=
  match op with
  | .nop => .nop
  | .add => .add rd rs1 rs2
  | .sub => .sub rd rs1 rs2
  | .and => .and rd rs1 rs2
  | .or => .or rd rs1 rs2
  | .xor => .xor rd rs1 rs2
  | .mul => .mul rd rs1 rs2
  | .movc => .movc rd imm
  | .cmp => .cmp rs1 rs2
  | .load => .load rd rs1 imm
  | .ldr => .ldr rd rs1 rs2
  | .store => .store rs1 rs2 imm
  | .str => .str rs1 rs2 rs3
  | .jump => .jump rs1 imm
  | .jal => .jal rd rs1 imm
  | .bz => .bz imm
  | .bnz => .bnz imm
  | .halt => .halt

/-- Why a bundle is illegal (30_encoding.md R88). -/
inductive DecodeError where
  /-- the opcode is 0x12..0x1F -/
  | unassignedOpcode
  /-- a register field the opcode uses is at or above NUM_ARCH -/
  | registerOutOfRange
deriving DecidableEq, Repr

/-- Decoding a bundle (30_encoding.md R91). -/
def decode (numArch : Nat) (w : Bundle) : Except DecodeError Instr :=
  match Op.ofCode? w.opcode with
  | none => .error .unassignedOpcode
  | some op =>
    if (Instr.ofFields op w.rd w.rs1 w.rs2 w.rs3 w.imm).wf numArch then
      .ok (Instr.ofFields op w.rd w.rs1 w.rs2 w.rs3 w.imm)
    else .error .registerOutOfRange

/-- The concatenation {opcode, rd, rs1, rs2, rs3, reserved, imm} of 30_encoding.md R80, reserved bits 0. -/
def Bundle.ofFields (op : OpField) (rd rs1 rs2 rs3 : Reg) (imm : Imm) : Bundle :=
  op ++ (BitVec.ofFin rd : BitVec 4) ++ (BitVec.ofFin rs1 : BitVec 4) ++ (BitVec.ofFin rs2 : BitVec 4)
    ++ (BitVec.ofFin rs3 : BitVec 4) ++ (0 : BitVec 11) ++ imm

/-- The bundle of an instruction, every field it does not use 0 (30_encoding.md R80, R82, R84). -/
def encode (i : Instr) : Bundle :=
  match i with
  | .nop => Bundle.ofFields Op.nop.code 0 0 0 0 0
  | .add rd rs1 rs2 => Bundle.ofFields Op.add.code rd rs1 rs2 0 0
  | .sub rd rs1 rs2 => Bundle.ofFields Op.sub.code rd rs1 rs2 0 0
  | .and rd rs1 rs2 => Bundle.ofFields Op.and.code rd rs1 rs2 0 0
  | .or rd rs1 rs2 => Bundle.ofFields Op.or.code rd rs1 rs2 0 0
  | .xor rd rs1 rs2 => Bundle.ofFields Op.xor.code rd rs1 rs2 0 0
  | .mul rd rs1 rs2 => Bundle.ofFields Op.mul.code rd rs1 rs2 0 0
  | .movc rd imm => Bundle.ofFields Op.movc.code rd 0 0 0 imm
  | .cmp rs1 rs2 => Bundle.ofFields Op.cmp.code 0 rs1 rs2 0 0
  | .load rd rs1 imm => Bundle.ofFields Op.load.code rd rs1 0 0 imm
  | .ldr rd rs1 rs2 => Bundle.ofFields Op.ldr.code rd rs1 rs2 0 0
  | .store rs1 rs2 imm => Bundle.ofFields Op.store.code 0 rs1 rs2 0 imm
  | .str rs1 rs2 rs3 => Bundle.ofFields Op.str.code 0 rs1 rs2 rs3 0
  | .jump rs1 imm => Bundle.ofFields Op.jump.code 0 rs1 0 0 imm
  | .jal rd rs1 imm => Bundle.ofFields Op.jal.code rd rs1 0 0 imm
  | .bz imm => Bundle.ofFields Op.bz.code 0 0 0 0 imm
  | .bnz imm => Bundle.ofFields Op.bnz.code 0 0 0 0 imm
  | .halt => Bundle.ofFields Op.halt.code 0 0 0 0 0

/-- The 64-bit bundle of a table word of `nbits` bits: the hardware is handed whole bundles, so no byte
order enters (20_memory.md R64; 30_encoding.md R90), and the bits above `nbits` are 0. -/
def bundleOfTableWord (nbits w : Nat) : Bundle := BitVec.ofNat 64 (w % 2 ^ nbits)

/-- What the decoder reads from a word of the opcode table, with the default NUM_ARCH. -/
def decodeTableWord (nbits w : Nat) : Option Instr :=
  match decode Config.default.numArch (bundleOfTableWord nbits w) with
  | .ok i => some i
  | .error _ => none

end Sys2Proof
end

