-- ==== Sys2Proof/Machine/State.lean ====
section
/-! DEFINITION. Machine/State.lean: every piece of state of OOO-PC as plain data (10_state.md), the inputs a run is
given, the reset state, and why a step can stop. -/

namespace Sys2Proof.Machine

/-- One physical register (10_state.md R21). -/
structure PhysReg where
  value : Int
  /-- the value has been produced -/
  valid : Bool
  /-- on the free list -/
  free : Bool
deriving DecidableEq, Repr

/-- The fetch-to-dispatch latch (10_state.md R28). -/
structure Latch where
  valid : Bool
  bundle : Bundle
  pc : Int
deriving DecidableEq, Repr

/-- The exception codes of the 2-bit `exc` field; code 3 is unused (60_exceptions.md R290). -/
inductive Exc where
  | none
  | illegal
  | memRange
deriving DecidableEq, Repr

/-- A reorder-buffer entry (10_state.md R29). `op` is the raw 5-bit field, since an illegal bundle's entry
holds it too (51_rename_dispatch.md R212). -/
structure RobEntry where
  op : OpField
  pc : Int
  pdst : Option Nat
  adst : Option Reg
  pprev : Option Nat
  done : Bool
  addr : Option Int
  exc : Exc
deriving DecidableEq, Repr

/-- An operand descriptor (10_state.md R34). -/
structure Operand where
  tag : Option Nat
  ready : Bool
  value : Int
deriving DecidableEq, Repr

/-- The dispatch status of an issue-queue entry (10_state.md R33). -/
inductive IqStatus where
  | waiting
  | issued
deriving DecidableEq, Repr

/-- An issue-queue entry (10_state.md R33). -/
structure IqEntry where
  op : Op
  pc : Int
  imm : Int
  a : Operand
  b : Operand
  stag : Option Nat
  pdst : Option Nat
  rob : Nat
  ckptTag : Option Nat
  status : IqStatus
deriving DecidableEq, Repr

/-- A checkpoint slot (10_state.md R36). -/
structure Ckpt where
  busy : Bool
  owner : Nat
  ratSnap : List Nat
  prfSnap : List PhysReg
deriving DecidableEq, Repr

/-- What an issued instruction carries into a unit (10_state.md R38). -/
structure Occupant where
  op : Op
  pc : Int
  imm : Int
  a : Int
  b : Int
  pdst : Option Nat
  stag : Option Nat
  rob : Nat
deriving DecidableEq, Repr

/-- The stage of a two-stage unit (10_state.md R39). -/
inductive Stage where
  | one
  | two
deriving DecidableEq, Repr

/-- `U.INT` (10_state.md R39). -/
structure IntUnit where
  occ : Option Occupant
deriving DecidableEq, Repr

/-- `U.MUL` (10_state.md R39). -/
structure MulUnit where
  occ : Option Occupant
  remaining : Nat
deriving DecidableEq, Repr

/-- `U.MEM` (10_state.md R39). -/
structure MemUnit where
  occ : Option Occupant
  stage : Stage
  addr : Int
  sval : Int
deriving DecidableEq, Repr

/-- `U.BR` (10_state.md R39). -/
structure BrUnit where
  occ : Option Occupant
  stage : Stage
  taken : Bool
  target : Int
deriving DecidableEq, Repr

/-- The record of a fault taken at commit (10_state.md R40; 60_exceptions.md R294). -/
structure FaultRecord where
  code : Exc
  pc : Int
deriving DecidableEq, Repr

/-- Data memory: the cells that do not hold 0, as (cell address, value) pairs with rising addresses
(20_memory.md R61; assumption log 10). -/
abbrev Memory := List (Nat × Int)

/-- The run modes of 50_cycle_and_fetch.md R193, with the CYCLE_BUDGET of the capped ones (R191). -/
inductive RunMode where
  | untilDone (budget : Option Nat)
  | fixedCycles (budget : Nat)
  | singleStep
deriving DecidableEq, Repr

/-- The host's answer after a tick in single-step mode (50_cycle_and_fetch.md R194). -/
inductive Reply where
  | continue
  | quit
deriving DecidableEq, Repr

/-- The state tuple of 10_state.md R20, after the inputs fixed before reset (50_cycle_and_fetch.md R191). -/
structure State where
  /-- input: the parameters (00_scope.md R8; 10_state.md R43) -/
  cfg : Config
  /-- input: the program image (20_memory.md R60) -/
  program : List Bundle
  /-- input: the run mode (50_cycle_and_fetch.md R193) -/
  mode : RunMode
  /-- input: the host's single-step answers not yet read (50_cycle_and_fetch.md R194) -/
  replies : List Reply
  /-- the model's own field: the host has answered `quit` (50_cycle_and_fetch.md R196; assumption log 5) -/
  quit : Bool
  /-- PRF (10_state.md R21) -/
  prf : List PhysReg
  /-- RAT (10_state.md R24) -/
  rat : List Nat
  /-- Z (10_state.md R26) -/
  z : Bool
  /-- the fetch program counter (10_state.md R27) -/
  pc : Int
  /-- FL (10_state.md R28) -/
  fl : Latch
  fetchStopped : Bool
  fetchSuppress : Bool
  /-- ROB; `none` is an invalid entry (10_state.md R29, R30) -/
  rob : List (Option RobEntry)
  head : Nat
  tail : Nat
  count : Nat
  /-- IQ, oldest first (10_state.md R33) -/
  iq : List IqEntry
  /-- CK (10_state.md R36) -/
  ck : List Ckpt
  uInt : IntUnit
  uMul : MulUnit
  uMem : MemUnit
  uBr : BrUnit
  /-- DM (20_memory.md R61) -/
  dm : Memory
  cycle : Nat
  committed : Nat
  halted : Bool
  fault : Option FaultRecord
deriving DecidableEq, Repr

/-- Why a step stops with a fault of the model. Both are raised by `tickWith` in states that no run from
reset reaches, where the spec's rules define nothing (assumption log 11). -/
inductive Fault where
  /-- memory stage 2 calls MemRead or MemWrite outside 0..MEM_WORDS-1, where 20_memory.md R63 does not
  define them. Safe: the model stops, no value is invented. -/
  | dataAddress
  /-- branch stage 2 calls Recover, or releases a checkpoint, for an entry that is not occupied or owns no busy
  checkpoint slot, against 53_recovery_commit.md R260. Safe: the model stops. -/
  | checkpointMissing
deriving DecidableEq, Repr

/-- Why a step is refused. -/
inductive Refusal where
  /-- raised by `exec` for an instruction that has no meaning yet. Safe: the model stops. -/
  | notModelled (mnemonic : String)
  /-- raised by `clocked` when the parameters break 70_reset_and_hazards.md R323 (93_implementation_defined.md
  X13: the host must not start such a configuration), or have a value for which the spec has no rule (assumption
  logs 1, 14). Safe: the model stops. -/
  | configuration
deriving DecidableEq, Repr

/-- The register file after reset (10_state.md R42). -/
def resetPrf (c : Config) : List PhysReg :=
  (List.range c.numPhys).map fun p =>
    { value := 0, valid := decide (p < c.numArch), free := !decide (p < c.numArch) }

/-- A checkpoint slot after reset: only `busy` is given by 10_state.md R42, the other fields are unread
(DESIGN CHOICE, assumption log 6). -/
def resetCkpt : Ckpt := { busy := false, owner := 0, ratSnap := [], prfSnap := [] }

/-- The reset state for the given inputs (10_state.md R42; 70_reset_and_hazards.md R320, R321). The fields of an
empty latch and of empty units are unread (DESIGN CHOICE, assumption logs 7 and 8). -/
def State.boot (c : Config) (program : List Bundle) (dmInit : Memory) (mode : RunMode)
    (replies : List Reply) : State where
  cfg := c
  program := program
  mode := mode
  replies := replies
  quit := false
  prf := resetPrf c
  rat := List.range c.numArch
  z := false
  pc := c.pcBase
  fl := { valid := false, bundle := 0, pc := 0 }
  fetchStopped := false
  fetchSuppress := false
  rob := List.replicate c.robSize none
  head := 0
  tail := 0
  count := 0
  iq := []
  ck := List.replicate c.numCkpt resetCkpt
  uInt := { occ := none }
  uMul := { occ := none, remaining := 0 }
  uMem := { occ := none, stage := .one, addr := 0, sval := 0 }
  uBr := { occ := none, stage := .one, taken := false, target := 0 }
  dm := dmInit
  cycle := 0
  committed := 0
  halted := false
  fault := none

/-- The machine right after reset with the default parameters, DM all 0 and no program loaded
(10_state.md R42; 70_reset_and_hazards.md R320, R322; assumption log 2). -/
def State.reset : State := State.boot Config.default [] [] (.untilDone none) []

end Sys2Proof.Machine
end

