-- ==== Sys2Proof/Machine/Ops.lean ====
section
/-! DEFINITION. Machine/Ops.lean: the named operations over registers, reorder buffer and memory that every rule is
written in (00_scope.md R11, R12), the one operation that takes an exception, and what the host observes. -/

namespace Sys2Proof.Machine

/-! ### Data memory (20_memory.md) -/

/-- What a cell that the memory does not list holds: the reset contents of 10_state.md R42. -/
def unlistedCell : Int := 0

/-- Reading a cell. -/
def Memory.read : Memory → Nat → Int
  | [], _ => unlistedCell
  | (k, v) :: m, a => if k = a then v else Memory.read m a

/-- Writing a cell, keeping the canonical form: rising addresses, no cell that holds `unlistedCell`. -/
def Memory.write : Memory → Nat → Int → Memory
  | [], a, v => if v = unlistedCell then [] else [(a, v)]
  | (k, w) :: m, a, v =>
    if a < k then (if v = unlistedCell then (k, w) :: m else (a, v) :: (k, w) :: m)
    else if a = k then (if v = unlistedCell then m else (a, v) :: m)
    else (k, w) :: Memory.write m a v

/-- The canonical form: addresses strictly rising and below MEM_WORDS, no listed cell holding `unlistedCell`
(20_memory.md R61; assumption log 10). -/
def Memory.wf (memWords : Nat) : Memory → Bool
  | [] => true
  | (k, v) :: m =>
    decide (k < memWords) && decide (v ≠ unlistedCell) && m.all (fun c => decide (k < c.1))
      && Memory.wf memWords m

/-- The signed effective address is a cell index 0..MEM_WORDS-1 (42_memory_ops.md R141). -/
def addrInRange (memWords : Nat) (addr : Int) : Bool :=
  decide (0 ≤ addr) && decide (addr < (memWords : Int))

/-- MemRead(addr, 1) (20_memory.md R63), called only for addresses in range. -/
def State.memRead (s : State) (addr : Int) : Int := s.dm.read addr.toNat

/-- MemWrite(addr, 1, v) (20_memory.md R63), called only for addresses in range. -/
def State.memWrite (s : State) (addr : Int) (v : Int) : State :=
  { s with dm := s.dm.write addr.toNat v }

/-! ### Registers (10_state.md R21 to R25) -/

/-- What a tag outside the register file names: never a valid or a free register (assumption log 12). -/
def PhysReg.absent : PhysReg := { value := 0, valid := false, free := false }

/-- PRF[p]. -/
def State.preg (s : State) (p : Nat) : PhysReg := s.prf.getD p PhysReg.absent

/-- RAT[a]. A register outside the RAT, which no legal instruction names, maps to tag 0 (DESIGN CHOICE, assumption
log 12). -/
def State.mapping (s : State) (a : Reg) : Nat := s.rat.getD a.val 0

/-- The architectural value X(a) (10_state.md R25). -/
def State.xValue (s : State) (a : Reg) : Int := (s.preg (s.mapping a)).value

/-- The validity of X(a) (10_state.md R25). -/
def State.xValid (s : State) (a : Reg) : Bool := (s.preg (s.mapping a)).valid

/-- The lowest-numbered free physical register (51_rename_dispatch.md R205). -/
def State.freeReg (s : State) : Option Nat := s.prf.findIdx? (·.free)

/-- AllocPhys on the chosen register: in use and not valid, value left as it is (51_rename_dispatch.md R205;
assumption log 16). -/
def PhysReg.allocated (r : PhysReg) : PhysReg := { r with free := false, valid := false }

/-- The record after a WriteBack (52_issue_units.md R239). -/
def PhysReg.written (v : Int) (r : PhysReg) : PhysReg := { r with value := v, valid := true }

/-- The record after commit's freeing rule: only the `free` bit changes (53_recovery_commit.md R272). -/
def PhysReg.freed (r : PhysReg) : PhysReg := { r with free := true }

/-- The record of a discarded instruction's destination under the selective policy (53_recovery_commit.md R265). -/
def PhysReg.discarded (r : PhysReg) : PhysReg := { r with free := true, valid := false }

/-- The register file with the record of a tag changed, when there is a tag. -/
def updatePrf (prf : List PhysReg) (p : Option Nat) (f : PhysReg → PhysReg) : List PhysReg :=
  match p with
  | none => prf
  | some p => prf.modify p f

/-! ### Write-back and completion (52_issue_units.md section 2) -/

/-- The tag match at one waiting operand (52_issue_units.md R239). -/
def Operand.wake (p : Option Nat) (v : Int) (o : Operand) : Operand :=
  if p.isSome && o.tag == p && !o.ready then { o with ready := true, value := v } else o

/-- The tag match at one issue-queue entry (52_issue_units.md R239). -/
def IqEntry.wake (p : Option Nat) (v : Int) (e : IqEntry) : IqEntry :=
  { e with a := e.a.wake p v, b := e.b.wake p v }

/-- WriteBack(p, v): write PRF[p] and broadcast to the issue queue (52_issue_units.md R239). -/
def State.writeBack (s : State) (p : Option Nat) (v : Int) : State :=
  { s with prf := updatePrf s.prf p (PhysReg.written v), iq := s.iq.map (IqEntry.wake p v) }

/-- ROB[r], when the entry is valid (10_state.md R29). -/
def State.robAt (s : State) (r : Nat) : Option RobEntry := s.rob.getD r none

/-- Changing a valid ROB entry. At an index that holds none, which no run reaches, nothing changes (DESIGN CHOICE,
assumption log 12). -/
def State.modifyRob (s : State) (r : Nat) (f : RobEntry → RobEntry) : State :=
  { s with rob := s.rob.modify r (Option.map f) }

/-- Complete(r) (52_issue_units.md R240). -/
def State.complete (s : State) (r : Nat) : State :=
  s.modifyRob r fun e => { e with done := true }

/-! ### The reorder buffer (10_state.md R30, R31) -/

/-- age(r) (10_state.md R31). The formula is used for every r, though the rule defines it for occupied ones (DESIGN
CHOICE, assumption log 12). -/
def State.age (s : State) (r : Nat) : Nat := (r + s.cfg.robSize - s.head) % s.cfg.robSize

/-- The index of the entry at age k (10_state.md R30). -/
def State.robIndex (s : State) (k : Nat) : Nat := (s.head + k) % s.cfg.robSize

/-- The index after r (10_state.md R30). -/
def State.nextIndex (s : State) (r : Nat) : Nat := (r + 1) % s.cfg.robSize

/-- r is an occupied index (10_state.md R30). -/
def State.occupied (s : State) (r : Nat) : Bool :=
  decide (r < s.cfg.robSize) && decide (s.age r < s.count)

/-- Every valid ROB entry older than index r satisfies the condition (10_state.md R31). An occupied index without an
entry, which no run reaches, does not count (DESIGN CHOICE, assumption log 12). -/
def State.allOlder (s : State) (r : Nat) (cond : RobEntry → Bool) : Bool :=
  (List.range (s.age r)).all fun k =>
    match s.robAt (s.robIndex k) with
    | none => true
    | some e => cond e

/-- The head entry, when the ROB is not empty (53_recovery_commit.md R270). Where the head index then holds no entry,
which no run reaches, there is none (DESIGN CHOICE, assumption log 12). -/
def State.headEntry (s : State) : Option RobEntry :=
  if s.count = 0 then none else s.robAt s.head

/-! ### The checkpoint store (10_state.md R36, R37) -/

/-- The slot that the control-flow instruction at ROB index b owns (10_state.md R37): of two, which no run reaches, the
lowest-numbered (DESIGN CHOICE, assumption log 12). -/
def State.ownedSlot (s : State) (b : Nat) : Option Nat :=
  s.ck.findIdx? fun c => c.busy && c.owner == b

/-- The lowest-numbered slot that is not busy (51_rename_dispatch.md R208). -/
def State.freeSlot (s : State) : Option Nat := s.ck.findIdx? fun c => !c.busy

/-- Of the slots from `k` on, the busy one whose owner has the largest age, `best` being the best so far. -/
def youngestSlot (age : Nat → Nat) : List Ckpt → Nat → Option (Nat × Nat) → Option (Nat × Nat)
  | [], _, best => best
  | c :: cs, k, best =>
    youngestSlot age cs (k + 1)
      (if c.busy then
        match best with
        | none => some (k, age c.owner)
        | some (j, a) => if a < age c.owner then some (k, age c.owner) else some (j, a)
      else best)

/-- The current checkpoint id: the busy slot whose owner has the largest age (10_state.md R37); of two owners with one
age, which no run reaches, the lowest-numbered slot (DESIGN CHOICE, assumption log 12). -/
def State.currentCkpt (s : State) : Option Nat :=
  (youngestSlot s.age s.ck 0 none).map Prod.fst

/-! ### Exceptions (60_exceptions.md). There is no return from one (R298). -/

/-- `raise E(info)`: record the exception in the instruction's own ROB entry (60_exceptions.md R292). -/
def State.raiseExc (s : State) (r : Nat) (x : Exc) : State :=
  s.modifyRob r fun e => { e with exc := x }

/-- Taking the exception of the head entry, at commit: the fault record is written and the clock stops; the
entry is not retired (60_exceptions.md R294, R295; 53_recovery_commit.md R271). -/
def State.takeFault (s : State) (e : RobEntry) : State :=
  { s with fault := some { code := e.exc, pc := e.pc } }

/-- The 2-bit code of an exception (60_exceptions.md R290). -/
def Exc.code : Exc → BitVec 2
  | .none => 0
  | .illegal => 1
  | .memRange => 2

/-! ### The host (50_cycle_and_fetch.md section 3) -/

/-- The observation outputs of 50_cycle_and_fetch.md R192. -/
structure Observation where
  /-- X(a) with its validity, for a = 0..NUM_ARCH-1 -/
  regs : List (Int × Bool)
  dm : Memory
  z : Bool
  committed : Nat
  cycle : Nat
  halted : Bool
  fault : Option FaultRecord
deriving DecidableEq, Repr

/-- What the host reads after a tick (50_cycle_and_fetch.md R192). -/
def State.observe (s : State) : Observation where
  regs := s.rat.map fun p => ((s.preg p).value, (s.preg p).valid)
  dm := s.dm
  z := s.z
  committed := s.committed
  cycle := s.cycle
  halted := s.halted
  fault := s.fault

/-- CYCLE_BUDGET of the capped run modes (50_cycle_and_fetch.md R191, R193). -/
def RunMode.budget : RunMode → Option Nat
  | .untilDone b => b
  | .fixedCycles b => some b
  | .singleStep => none

/-- The cycle budget has run out (50_cycle_and_fetch.md R195). -/
def State.budgetOut (s : State) : Bool :=
  match s.mode.budget with
  | none => false
  | some b => decide (b ≤ s.cycle)

/-- The ways a run ends (50_cycle_and_fetch.md R196). -/
inductive RunEnd where
  | halted
  | faulted
  | budget
  | quit
deriving DecidableEq, Repr

/-- How the run has ended, if it has (50_cycle_and_fetch.md R196). A halted machine with a fault, or an answered `quit`
with a spent budget, which no run reaches, counts as the first of these in this order (DESIGN CHOICE, assumption
log 12). -/
def State.runEnd (s : State) : Option RunEnd :=
  if s.halted then some .halted
  else if s.fault.isSome then some .faulted
  else if s.quit then some .quit
  else if s.budgetOut then some .budget
  else none

/-- A tick ends after the commit phase once HALT has committed or a fault has been taken
(50_cycle_and_fetch.md R183 to R185). -/
def State.ended (s : State) : Bool := s.halted || s.fault.isSome

/-- What the clock does next. -/
inductive Clock where
  /-- a tick runs, and these are the host's answers still unread -/
  | tick (rest : List Reply)
  /-- the run has ended (50_cycle_and_fetch.md R183, R196) -/
  | stopped
  /-- single-step mode: the host has not answered the last tick yet (R194) -/
  | waiting
  /-- single-step mode: the host answers quit (R194) -/
  | quits (rest : List Reply)
deriving DecidableEq, Repr

/-- What the clock does next (50_cycle_and_fetch.md R183, R193 to R195). In single-step mode every tick but
the first reads one answer of the host (assumption log 5). -/
def State.clock (s : State) : Clock :=
  match s.runEnd with
  | some _ => .stopped
  | none =>
    match s.mode with
    | .untilDone _ => .tick s.replies
    | .fixedCycles _ => .tick s.replies
    | .singleStep =>
      if s.cycle = 0 then .tick s.replies
      else match s.replies with
        | [] => .waiting
        | .continue :: rest => .tick rest
        | .quit :: rest => .quits rest

end Sys2Proof.Machine
end

