-- ==== Sys2Proof/Machine/Fetch.lean ====
section
/-! DEFINITION. Machine/Fetch.lean: the fetch phase, phase 8 of the tick (50_cycle_and_fetch.md section 2). -/

namespace Sys2Proof.Machine

/-- The program index that an address names, the program's end apart (10_state.md R27; 50_cycle_and_fetch.md
R186). -/
def Config.insnIndex (c : Config) (pc : Int) : Option Nat :=
  if pc < c.pcBase then none
  else if (pc - c.pcBase) % (c.insnStride : Int) ≠ 0 then none
  else some ((pc - c.pcBase) / (c.insnStride : Int)).toNat

/-- The bundle that fetch reads at an address; none where the address names no instruction
(50_cycle_and_fetch.md R186, R187). -/
def State.bundleAt (s : State) (pc : Int) : Option Bundle :=
  match Config.insnIndex s.cfg pc with
  | none => none
  | some i => s.program[i]?

/-- The address of the next sequential instruction, wrapping (10_state.md R27). -/
def State.nextPc (s : State) (pc : Int) : Int := s.cfg.wrap (pc + s.cfg.insnStride)

/-- Latching a fetched bundle; a HALT stops fetch (50_cycle_and_fetch.md R186, R188). -/
def State.latch (s : State) (w : Bundle) : State :=
  { s with
    fl := { valid := true, bundle := w, pc := s.pc }
    pc := s.nextPc s.pc
    fetchStopped := s.fetchStopped || w.opcode == Op.halt.code }

/-- The fetch phase (50_cycle_and_fetch.md R186 to R190). -/
def fetchPhase (s : State) : State :=
  if s.fetchSuppress then { s with fetchSuppress := false }
  else if s.fl.valid || s.fetchStopped then s
  else match s.bundleAt s.pc with
    | none => s
    | some w => s.latch w

end Sys2Proof.Machine
end

