-- ==== Sys2Proof/Machine/Flags.lean ====
section
/-! DEFINITION. Machine/Flags.lean: the one flag, Z, and the conditions that read it. -/

namespace Sys2Proof.Machine

/-- CMP's flag: 1 when the two values are equal, else 0 (10_state.md R26; 40_integer.md R117). -/
def zeroFlag (a b : Int) : Bool := a == b

/-- BZ is taken when Z = 1 (43_control_flow.md R160). -/
def takenIfZero (z : Bool) : Bool := z

/-- BNZ is taken when Z = 0 (43_control_flow.md R161). -/
def takenIfNotZero (z : Bool) : Bool := !z

end Sys2Proof.Machine
end

