-- ==== Sys2Proof/Machine/Recovery.lean ====
section
/-! DEFINITION. Machine/Recovery.lean: the recovery protocol and checkpoint release, run by branch stage 2
(53_recovery_commit.md section 1). -/

namespace Sys2Proof.Machine

/-- The ROB entries younger than index b, oldest first: the set D (53_recovery_commit.md R263). An occupied index without
an entry, which no run reaches, adds nothing to it (DESIGN CHOICE, assumption log 12). -/
def State.youngerEntries (s : State) (b : Nat) : List RobEntry :=
  ((List.range s.count).filter fun j => decide (s.age b < j)).filterMap fun j => s.robAt (s.robIndex j)

/-- The age of r is greater than that of b: r is younger (53_recovery_commit.md R261, R262), by the same formula where r
is not occupied, which no run reaches (DESIGN CHOICE, assumption log 12). -/
def State.youngerThan (s : State) (b r : Nat) : Bool := decide (s.age b < s.age r)

/-- Step 1: the issue queue keeps what is not younger than b (53_recovery_commit.md R261). -/
def State.flushedIq (s : State) (b : Nat) : List IqEntry :=
  s.iq.filter fun e => !s.youngerThan b e.rob

/-- Step 2: an occupant younger than b is cleared (53_recovery_commit.md R262). -/
def State.flushedOcc (s : State) (b : Nat) (o : Option Occupant) : Option Occupant :=
  o.filter fun o => !s.youngerThan b o.rob

/-- Step 3: the entries of D become invalid (53_recovery_commit.md R263). -/
def State.truncatedRob (s : State) (b : Nat) : List (Option RobEntry) :=
  s.rob.mapIdx fun r e => if s.youngerThan b r && decide (s.age r < s.count) then none else e

/-- Step 4b under `selective`: the destinations of D return to the free list (53_recovery_commit.md R265). -/
def releaseAll (prf : List PhysReg) (d : List RobEntry) : List PhysReg :=
  d.foldl (fun prf e => updatePrf prf e.pdst PhysReg.discarded) prf

/-- Step 4b: the register file by RESTORE_POLICY (53_recovery_commit.md R265). -/
def State.restoredPrf (s : State) (b : Nat) (c : Ckpt) : List PhysReg :=
  match s.cfg.restorePolicy with
  | .selective => releaseAll s.prf (s.youngerEntries b)
  | .verbatim => c.prfSnap

/-- Step 4c: b's own slot and the slots of every younger control-flow instruction are released
(53_recovery_commit.md R266). -/
def State.releasedCk (s : State) (b : Nat) : List Ckpt :=
  s.ck.map fun c => if c.busy && decide (s.age b ≤ s.age c.owner) then { c with busy := false } else c

/-- Steps 1 to 5 for the branch at b with its checkpoint c. D and the slot are those of the state the protocol
starts from (53_recovery_commit.md R261 to R268). -/
def State.recoverFrom (s : State) (b : Nat) (target : Int) (c : Ckpt) : State :=
  { s with
    iq := s.flushedIq b
    uInt := { occ := s.flushedOcc b s.uInt.occ }
    uMul := { s.uMul with occ := s.flushedOcc b s.uMul.occ }
    uMem := { s.uMem with occ := s.flushedOcc b s.uMem.occ }
    rob := s.truncatedRob b
    tail := s.nextIndex b
    count := s.age b + 1
    rat := c.ratSnap
    prf := s.restoredPrf b c
    ck := s.releasedCk b
    pc := target
    fl := { s.fl with valid := false }
    fetchStopped := false
    fetchSuppress := true }

/-- Recover(b, target), with the checkpoint that b owns (53_recovery_commit.md R260). Without one the rule does
not apply: `tickWith` stops before this is called (assumption log 11). -/
def State.recover (s : State) (b : Nat) (target : Int) : State :=
  match s.ck.find? (fun c => c.busy && c.owner == b) with
  | none => s
  | some c => s.recoverFrom b target c

/-- Not-taken release of the slot that b owns (53_recovery_commit.md R269). -/
def State.releaseOwned (s : State) (b : Nat) : State :=
  match s.ownedSlot b with
  | none => s
  | some k => { s with ck := s.ck.modify k fun c => { c with busy := false } }

end Sys2Proof.Machine
end

