-- ==== Sys2Proof/Machine/BranchUnit.lean ====
section
/-! DEFINITION. Machine/BranchUnit.lean: the branch unit's two stages, phase 2 of the tick (43_control_flow.md;
52_issue_units.md R245, R246). -/

namespace Sys2Proof.Machine

/-- Stage 1's result: the decision and the target are recorded (52_issue_units.md R245). -/
def State.resolved (s : State) (taken : Bool) (target : Int) : State :=
  { s with uBr := { s.uBr with stage := .two, taken := taken, target := target } }

/-- Stage 1 of BZ (43_control_flow.md R160). -/
def executeBz (o : Occupant) (s : State) : State := s.resolved (takenIfZero s.z) (s.cfg.wrap (o.pc + o.imm))

/-- Stage 1 of BNZ (43_control_flow.md R161). -/
def executeBnz (o : Occupant) (s : State) : State := s.resolved (takenIfNotZero s.z) (s.cfg.wrap (o.pc + o.imm))

/-- Stage 1 of JUMP (43_control_flow.md R162). -/
def executeJump (o : Occupant) (s : State) : State := s.resolved true (s.cfg.wrap (o.a + o.imm))

/-- Stage 1 of JAL, with the write of the link (43_control_flow.md R163). -/
def executeJal (o : Occupant) (s : State) : State :=
  (s.writeBack o.pdst (s.nextPc o.pc)).resolved true (s.cfg.wrap (o.a + o.imm))

/-- Stage 1 (52_issue_units.md R245). Opcodes of other classes never enter this unit (R230): they stay in stage 1
(DESIGN CHOICE, assumption log 12). -/
def brStage1 (o : Occupant) (s : State) : State :=
  match o.op with
  | .bz => executeBz o s
  | .bnz => executeBnz o s
  | .jump => executeJump o s
  | .jal => executeJal o s
  | .nop | .add | .sub | .and | .or | .xor | .mul | .movc | .cmp | .load | .ldr | .store | .str
  | .halt => s

/-- The unit leaves and the entry completes, before recovery or release (52_issue_units.md R246). -/
def State.brDone (s : State) (o : Occupant) : State :=
  { s.complete o.rob with uBr := { s.uBr with occ := none } }

/-- Stage 2 (52_issue_units.md R246). It goes by `taken` whatever the opcode (one of another class, which no run reaches,
included: DESIGN CHOICE, assumption log 12). -/
def brStage2 (o : Occupant) (s : State) : State :=
  if s.uBr.taken then (s.brDone o).recover o.rob s.uBr.target else (s.brDone o).releaseOwned o.rob

/-- The branch unit's step (52_issue_units.md R245, R246). -/
def branchPhase (s : State) : State :=
  match s.uBr.occ with
  | none => s
  | some o =>
    match s.uBr.stage with
    | .one => brStage1 o s
    | .two => brStage2 o s

/-- Stage 2's premise, if it runs: its entry is occupied and owns a checkpoint slot (53_recovery_commit.md R260;
assumption log 11). -/
def State.branchDefined (s : State) : Bool :=
  match s.uBr.occ, s.uBr.stage with
  | some o, .two => s.occupied o.rob && (s.ownedSlot o.rob).isSome
  | _, _ => true

end Sys2Proof.Machine
end

