-- ==== Sys2Proof/Machine/Commit.lean ====
section
/-! DEFINITION. Machine/Commit.lean: the commit phase, phase 1 of the tick (53_recovery_commit.md section 2). -/

namespace Sys2Proof.Machine

/-- The register that retiring an entry releases, by FREE_POLICY (53_recovery_commit.md R272). An entry with `pdst` but
without the `pprev` or `adst` that the rule reads, which no run reaches, releases nothing under `prev` and its `pdst`
under `dest_if_remapped` (DESIGN CHOICE, assumption log 12). -/
def State.releasedTag (s : State) (e : RobEntry) : Option Nat :=
  match e.pdst with
  | none => none
  | some p =>
    match s.cfg.freePolicy with
    | .prev => e.pprev
    | .destIfRemapped => if e.adst.map s.mapping ≠ some p then some p else none

/-- Retiring the head entry: freeing rule, `committed`, head, count, and HALT's stop
(53_recovery_commit.md R272 to R274). -/
def State.retire (s : State) (e : RobEntry) : State :=
  { s with
    prf := updatePrf s.prf (s.releasedTag e) PhysReg.freed
    committed := s.committed + 1
    rob := s.rob.set s.head none
    head := s.nextIndex s.head
    count := s.count - 1
    halted := s.halted || e.op == Op.halt.code }

/-- The commit phase (53_recovery_commit.md R270, R271). -/
def commitPhase (s : State) : State :=
  match s.headEntry with
  | none => s
  | some e =>
    if e.done then
      match e.exc with
      | .none => s.retire e
      | .illegal => s.takeFault e
      | .memRange => s.takeFault e
    else s

end Sys2Proof.Machine
end

