-- ==== Sys2Proof/Machine/IntegerUnit.lean ====
section
/-! DEFINITION. Machine/IntegerUnit.lean: what the integer unit does for each of its instructions (the "Execute" blocks
of 40_integer.md R111 to R119), and its step, phase 5 of the tick (52_issue_units.md R241). -/

namespace Sys2Proof.Machine

/-- ADD (40_integer.md R111). -/
def executeAdd (o : Occupant) (s : State) : State := s.writeBack o.pdst (s.cfg.wrap (o.a + o.b))

/-- SUB (40_integer.md R112). -/
def executeSub (o : Occupant) (s : State) : State := s.writeBack o.pdst (s.cfg.wrap (o.a - o.b))

/-- AND (40_integer.md R113). -/
def executeAnd (o : Occupant) (s : State) : State :=
  s.writeBack o.pdst (s.cfg.bits o.a &&& s.cfg.bits o.b).toInt

/-- OR (40_integer.md R114). -/
def executeOr (o : Occupant) (s : State) : State :=
  s.writeBack o.pdst (s.cfg.bits o.a ||| s.cfg.bits o.b).toInt

/-- XOR (40_integer.md R115). -/
def executeXor (o : Occupant) (s : State) : State :=
  s.writeBack o.pdst (s.cfg.bits o.a ^^^ s.cfg.bits o.b).toInt

/-- MOVC (40_integer.md R116). -/
def executeMovc (o : Occupant) (s : State) : State := s.writeBack o.pdst o.imm

/-- CMP (40_integer.md R117). -/
def executeCmp (o : Occupant) (s : State) : State := { s with z := zeroFlag o.a o.b }

/-- NOP (40_integer.md R118). -/
def executeNop (_o : Occupant) (s : State) : State := s

/-- HALT (40_integer.md R119): the machine stops when the entry commits, not here. -/
def executeHalt (_o : Occupant) (s : State) : State := s

/-- The instruction's own write (52_issue_units.md R241). Opcodes of other classes never enter this unit (R230): they
write nothing (DESIGN CHOICE, assumption log 12). -/
def executeInt (o : Occupant) (s : State) : State :=
  match o.op with
  | .add => executeAdd o s
  | .sub => executeSub o s
  | .and => executeAnd o s
  | .or => executeOr o s
  | .xor => executeXor o s
  | .movc => executeMovc o s
  | .cmp => executeCmp o s
  | .nop => executeNop o s
  | .halt => executeHalt o s
  | .mul | .load | .ldr | .store | .str | .jump | .jal | .bz | .bnz => s

/-- The integer unit's step (52_issue_units.md R241). -/
def intPhase (s : State) : State :=
  match s.uInt.occ with
  | none => s
  | some o => { (executeInt o s).complete o.rob with uInt := { occ := none } }

end Sys2Proof.Machine
end

