-- ==== Sys2Proof/Machine/Issue.lean ====
section
/-! DEFINITION. Machine/Issue.lean: the issue phase, phase 6 of the tick (52_issue_units.md section 1). -/

namespace Sys2Proof.Machine

/-- Both source operands are ready (52_issue_units.md R233). -/
def IqEntry.ready (e : IqEntry) : Bool := e.a.ready && e.b.ready

/-- A control-flow opcode in a ROB entry's raw field. -/
def isControlFlowCode (c : OpField) : Bool :=
  c == Op.bz.code || c == Op.bnz.code || c == Op.jump.code || c == Op.jal.code

/-- The condition a BZ or BNZ puts on an older entry: a CMP is done (52_issue_units.md R235). -/
def cmpDone (e : RobEntry) : Bool := !(e.op == Op.cmp.code) || e.done

/-- The condition a CMP puts on an older entry: a CMP or control-flow instruction is done
(52_issue_units.md R236). -/
def cmpAndFlowDone (e : RobEntry) : Bool :=
  !(e.op == Op.cmp.code || isControlFlowCode e.op) || e.done

/-- The ordering condition of the entry's opcode besides readiness (52_issue_units.md R234 to R236). -/
def State.orderingMet (s : State) (e : IqEntry) : Bool :=
  match e.op with
  | .load | .ldr | .store | .str => decide (e.rob = s.head) && decide (0 < s.count)
  | .bz | .bnz => s.allOlder e.rob cmpDone
  | .cmp => s.allOlder e.rob cmpAndFlowDone
  | .nop | .add | .sub | .and | .or | .xor | .mul | .movc | .jump | .jal | .halt => true

/-- The entry is eligible (52_issue_units.md R233 to R236). -/
def State.eligible (s : State) (e : IqEntry) : Bool := e.ready && s.orderingMet e

/-- The unit of a class has no occupant (52_issue_units.md R231). -/
def State.unitFree (s : State) (u : UnitClass) : Bool :=
  match u with
  | .int => s.uInt.occ.isNone
  | .mul => s.uMul.occ.isNone
  | .mem => s.uMem.occ.isNone
  | .br => s.uBr.occ.isNone

/-- The occupant an entry becomes: the operand values are captured here (52_issue_units.md R237). -/
def IqEntry.occupant (e : IqEntry) : Occupant :=
  { op := e.op, pc := e.pc, imm := e.imm, a := e.a.value, b := e.b.value, pdst := e.pdst,
    stag := e.stag, rob := e.rob }

/-- The entry moves into the unit of its class (52_issue_units.md R237). -/
def State.issueTo (s : State) (e : IqEntry) : State :=
  match e.op.unit with
  | .int => { s with uInt := { occ := some e.occupant } }
  | .mul => { s with uMul := { occ := some e.occupant, remaining := s.cfg.mulLat } }
  | .mem => { s with uMem := { s.uMem with occ := some e.occupant, stage := .one } }
  | .br => { s with uBr := { s.uBr with occ := some e.occupant, stage := .one } }

/-- The scan over the entries not yet visited, oldest first; `s.iq` holds the visited ones that stay
(52_issue_units.md R232, R237). -/
def issueScan : List IqEntry → State → State
  | [], s => s
  | e :: es, s =>
    if s.eligible e && s.unitFree e.op.unit then issueScan es (s.issueTo e)
    else issueScan es { s with iq := s.iq ++ [e] }

/-- The issue phase (52_issue_units.md R232). -/
def issuePhase (s : State) : State := issueScan s.iq { s with iq := [] }

end Sys2Proof.Machine
end

