-- ==== Sys2Proof/Machine/MemoryUnit.lean ====
section
/-! DEFINITION. Machine/MemoryUnit.lean: the memory unit's two stages, phase 3 of the tick (42_memory_ops.md;
52_issue_units.md R243, R244). -/

namespace Sys2Proof.Machine

/-- The opcode is a store (42_memory_ops.md R142). -/
def Op.isStore : Op → Bool
  | .store | .str => true
  | .nop | .add | .sub | .and | .or | .xor | .mul | .movc | .cmp | .load | .ldr | .jump | .jal
  | .bz | .bnz | .halt => false

/-- The offset: the displacement, or the index register's value (42_memory_ops.md R141). The rule gives none for an
opcode of another class, which no run brings into this unit (52_issue_units.md R230): there it is the immediate
(DESIGN CHOICE, assumption log 12). -/
def Occupant.offset (o : Occupant) : Int :=
  match o.op with
  | .ldr | .str => o.b
  | .load | .store => o.imm
  | .nop | .add | .sub | .and | .or | .xor | .mul | .movc | .cmp | .jump | .jal | .bz | .bnz
  | .halt => o.imm

/-- The effective address (42_memory_ops.md R141). -/
def State.effAddr (s : State) (o : Occupant) : Int := s.cfg.wrap (o.a + o.offset)

/-- The store-data register has been written (42_memory_ops.md R142). A store without a store-data tag, which no run
reaches, never finds it so (DESIGN CHOICE, assumption log 12). -/
def State.storeDataReady (s : State) (o : Occupant) : Bool :=
  match o.stag with
  | none => false
  | some p => (s.preg p).valid

/-- The store data (42_memory_ops.md R142), called only once the data is ready. -/
def State.storeData (s : State) (o : Occupant) : Int :=
  match o.stag with
  | none => 0
  | some p => (s.preg p).value

/-- Stage 1, first half: the address is computed and recorded (42_memory_ops.md R141). -/
def State.recordAddr (s : State) (o : Occupant) : State :=
  { s.modifyRob o.rob (fun e => { e with addr := some (s.effAddr o) }) with
    uMem := { s.uMem with addr := s.effAddr o } }

/-- Stage 1, second half: the range check, then on to stage 2 (42_memory_ops.md R141; 60_exceptions.md R293). -/
def State.checkRange (s : State) (o : Occupant) : State :=
  if addrInRange s.cfg.memWords (s.effAddr o) then { s with uMem := { s.uMem with stage := .two } }
  else { s.raiseExc o.rob .memRange with uMem := { s.uMem with stage := .two } }

/-- Stage 1 of a load (42_memory_ops.md R141). -/
def loadStage1 (o : Occupant) (s : State) : State := (s.recordAddr o).checkRange o

/-- Stage 1 of a store: without its data it stays in stage 1, a bubble (42_memory_ops.md R141, R142). -/
def storeStage1 (o : Occupant) (s : State) : State :=
  if s.storeDataReady o then
    State.checkRange
      { s.recordAddr o with uMem := { (s.recordAddr o).uMem with sval := s.storeData o } } o
  else s.recordAddr o

/-- Stage 1 (52_issue_units.md R243). An occupant of another class, which no run reaches, takes the steps of a load here:
it records its address and its range check can raise MEM_RANGE (DESIGN CHOICE, assumption log 12). -/
def memStage1 (o : Occupant) (s : State) : State :=
  if Op.isStore o.op then storeStage1 o s else loadStage1 o s

/-- The access is not forbidden by an exception of the instruction's own entry (52_issue_units.md R244; 60_exceptions.md
R293). Where the occupant's index holds no entry, which no run reaches and of which the rules say nothing, the answer is
no: stage 2 then accesses nothing and frees the unit (DESIGN CHOICE, assumption log 12). -/
def State.noExc (s : State) (r : Nat) : Bool :=
  match s.robAt r with
  | none => false
  | some e => decide (e.exc = .none)

/-- Stage 2 of LOAD (42_memory_ops.md R143). -/
def executeLoad (o : Occupant) (s : State) : State := s.writeBack o.pdst (s.memRead s.uMem.addr)

/-- Stage 2 of LDR (42_memory_ops.md R144). -/
def executeLdr (o : Occupant) (s : State) : State := s.writeBack o.pdst (s.memRead s.uMem.addr)

/-- Stage 2 of STORE (42_memory_ops.md R145). -/
def executeStore (_o : Occupant) (s : State) : State := s.memWrite s.uMem.addr s.uMem.sval

/-- Stage 2 of STR (42_memory_ops.md R146). -/
def executeStr (_o : Occupant) (s : State) : State := s.memWrite s.uMem.addr s.uMem.sval

/-- The access of stage 2 (52_issue_units.md R244). Opcodes of other classes never enter this unit (R230): they access
nothing (DESIGN CHOICE, assumption log 12). -/
def executeMem (o : Occupant) (s : State) : State :=
  match o.op with
  | .load => executeLoad o s
  | .ldr => executeLdr o s
  | .store => executeStore o s
  | .str => executeStr o s
  | .nop | .add | .sub | .and | .or | .xor | .mul | .movc | .cmp | .jump | .jal | .bz | .bnz
  | .halt => s

/-- Stage 2 (52_issue_units.md R244). -/
def memStage2 (o : Occupant) (s : State) : State :=
  if s.noExc o.rob then
    { (executeMem o s).complete o.rob with uMem := { s.uMem with occ := none } }
  else { s.complete o.rob with uMem := { s.uMem with occ := none } }

/-- The memory unit's step (52_issue_units.md R243). -/
def memPhase (s : State) : State :=
  match s.uMem.occ with
  | none => s
  | some o =>
    match s.uMem.stage with
    | .one => memStage1 o s
    | .two => memStage2 o s

/-- The access that stage 2 is about to perform, if any, is at a cell that exists: the premise of
20_memory.md R63 (assumption log 11). -/
def State.accessDefined (s : State) : Bool :=
  match s.uMem.occ, s.uMem.stage with
  | some o, .two => !s.noExc o.rob || addrInRange s.cfg.memWords s.uMem.addr
  | _, _ => true

end Sys2Proof.Machine
end

