-- ==== Sys2Proof/Machine/MultiplierUnit.lean ====
section
/-! DEFINITION. Machine/MultiplierUnit.lean: the multiplier's step, phase 4 of the tick (41_multiply.md R130, R131;
52_issue_units.md R242). -/

namespace Sys2Proof.Machine

/-- MUL's write: the low XLEN bits of the product (41_multiply.md R130, R131). -/
def executeMul (o : Occupant) (s : State) : State := s.writeBack o.pdst (s.cfg.wrap (o.a * o.b))

/-- The multiplier's last step on a MUL (52_issue_units.md R242). -/
def finishMul (o : Occupant) (s : State) : State :=
  { (executeMul o s).complete o.rob with uMul := { occ := none, remaining := 0 } }

/-- The multiplier's step (52_issue_units.md R242). An occupant whose counter is already 0, which no run reaches and for
which the rule says nothing, finishes at once; and an occupant of another class, which no run brings into this unit
(R230), is multiplied like a MUL (DESIGN CHOICE, assumption log 12). -/
def mulPhase (s : State) : State :=
  match s.uMul.occ with
  | none => s
  | some o =>
    if s.uMul.remaining - 1 = 0 then finishMul o s
    else { s with uMul := { s.uMul with remaining := s.uMul.remaining - 1 } }

end Sys2Proof.Machine
end

