-- ==== Sys2Proof/Machine/Operands.lean ====
section
/-! DEFINITION. Machine/Operands.lean: the nine operand formats (30_encoding.md R84), how each maps to the operand
descriptors of dispatch (R86), and source resolution (51_rename_dispatch.md R204, R215). -/

namespace Sys2Proof.Machine

/-- What dispatch reads from an instruction's fields: the row of the operand map (30_encoding.md R86). -/
structure Operands where
  /-- column A -/
  a : Option Reg
  /-- column B -/
  b : Option Reg
  /-- column SD, the store-data register -/
  sd : Option Reg
  /-- column D, the destination -/
  d : Option Reg
  /-- the immediate, where the opcode uses it -/
  imm : Option Imm
deriving DecidableEq, Repr

/-- Format RRR: ADD, SUB, AND, OR, XOR, MUL, LDR (30_encoding.md R84, R86). -/
def Operands.rrr (rd rs1 rs2 : Reg) : Operands :=
  { a := some rs1, b := some rs2, sd := none, d := some rd, imm := none }

/-- Format RI: MOVC (30_encoding.md R84, R86). -/
def Operands.ri (rd : Reg) (imm : Imm) : Operands :=
  { a := none, b := none, sd := none, d := some rd, imm := some imm }

/-- Format RR: CMP (30_encoding.md R84, R86). -/
def Operands.rr (rs1 rs2 : Reg) : Operands :=
  { a := some rs1, b := some rs2, sd := none, d := none, imm := none }

/-- Format RRI: LOAD, JAL (30_encoding.md R84, R86). -/
def Operands.rri (rd rs1 : Reg) (imm : Imm) : Operands :=
  { a := some rs1, b := none, sd := none, d := some rd, imm := some imm }

/-- Format SRI: STORE, data rs1, base rs2 (30_encoding.md R84, R86). -/
def Operands.sri (rs1 rs2 : Reg) (imm : Imm) : Operands :=
  { a := some rs2, b := none, sd := some rs1, d := none, imm := some imm }

/-- Format SRR: STR, data rs1, base rs2, index rs3 (30_encoding.md R84, R86). -/
def Operands.srr (rs1 rs2 rs3 : Reg) : Operands :=
  { a := some rs2, b := some rs3, sd := some rs1, d := none, imm := none }

/-- Format JI: JUMP (30_encoding.md R84, R86). -/
def Operands.ji (rs1 : Reg) (imm : Imm) : Operands :=
  { a := some rs1, b := none, sd := none, d := none, imm := some imm }

/-- Format I: BZ, BNZ (30_encoding.md R84, R86). -/
def Operands.i (imm : Imm) : Operands :=
  { a := none, b := none, sd := none, d := none, imm := some imm }

/-- Format N: NOP, HALT (30_encoding.md R84, R86). -/
def Operands.n : Operands :=
  { a := none, b := none, sd := none, d := none, imm := none }

/-- The descriptor of an operand the instruction does not use (10_state.md R34). -/
def Operand.unused : Operand := { tag := none, ready := true, value := 0 }

/-- Source resolution through the RAT (51_rename_dispatch.md R204). -/
def State.resolve (s : State) (src : Option Reg) : Operand :=
  match src with
  | none => Operand.unused
  | some r =>
    if (s.preg (s.mapping r)).valid then
      { tag := some (s.mapping r), ready := true, value := (s.preg (s.mapping r)).value }
    else { tag := some (s.mapping r), ready := false, value := 0 }

end Sys2Proof.Machine
end

