-- ==== Sys2Proof/Machine/Rename.lean ====
section
/-! DEFINITION. Machine/Rename.lean: decode, rename and dispatch, phase 7 of the tick (51_rename_dispatch.md). -/

namespace Sys2Proof.Machine

/-- Why dispatch stalls (51_rename_dispatch.md R203). -/
inductive StallReason where
  | noFreeRegister
  | noFreeCheckpoint
  | iqFull
  | robFull
deriving DecidableEq, Repr

/-- Control-flow opcodes need a checkpoint slot (51_rename_dispatch.md R201, R208). -/
def Op.needsCkpt (op : Op) : Bool := decide (op.unit = .br)

/-- The resources the instruction needs and does not find (51_rename_dispatch.md R201, R203). -/
def State.stallReasons (s : State) (op : Op) (x : Operands) : List StallReason :=
  (if x.d.isSome && s.freeReg.isNone then [.noFreeRegister] else [])
    ++ (if Op.needsCkpt op && s.freeSlot.isNone then [.noFreeCheckpoint] else [])
    ++ (if s.iq.length = s.cfg.iqSize then [.iqFull] else [])
    ++ (if s.count = s.cfg.robSize then [.robFull] else [])

/-- The tag AllocPhys gives an instruction with a destination (51_rename_dispatch.md R205, R206). -/
def State.newTag (s : State) (x : Operands) : Option Nat :=
  match x.d with
  | none => none
  | some _ => s.freeReg

/-- The register file after AllocPhys (51_rename_dispatch.md R205). -/
def State.renamedPrf (s : State) (x : Operands) : List PhysReg :=
  updatePrf s.prf (s.newTag x) PhysReg.allocated

/-- The RAT after the rename of the destination (51_rename_dispatch.md R206). Renaming a register outside the RAT, which
no legal instruction names, changes nothing (DESIGN CHOICE, assumption log 12). -/
def State.renamedRat (s : State) (x : Operands) : List Nat :=
  match x.d, s.newTag x with
  | some rd, some p => s.rat.set rd.val p
  | _, _ => s.rat

/-- The store-data tag (51_rename_dispatch.md R215). -/
def State.storeTag (s : State) (x : Operands) : Option Nat := x.sd.map s.mapping

/-- The checkpoint store after dispatch: a control-flow instruction takes the lowest free slot and copies the
RAT and PRF as they stand after its own rename (51_rename_dispatch.md R208). -/
def State.checkpointed (s : State) (op : Op) (x : Operands) : List Ckpt :=
  match Op.needsCkpt op, s.freeSlot with
  | true, some k =>
    s.ck.set k { busy := true, owner := s.tail, ratSnap := s.renamedRat x, prfSnap := s.renamedPrf x }
  | _, _ => s.ck

/-- The new ROB entry (51_rename_dispatch.md R206, R210). -/
def State.newRobEntry (s : State) (op : Op) (x : Operands) : RobEntry :=
  { op := op.code, pc := s.fl.pc, pdst := s.newTag x, adst := x.d, pprev := x.d.map s.mapping,
    done := false, addr := none, exc := .none }

/-- The immediate of the new issue-queue entry: the decoded field of the bundle, used or not (30_encoding.md R85;
51_rename_dispatch.md R200, R214). An immediate the instruction uses is the instruction's own; the latched bundle is
the instruction's encoding whenever a step runs (assumption log 13). -/
def State.entryImm (s : State) (x : Operands) : Int := immValue (x.imm.getD s.fl.bundle.imm)

/-- The new issue-queue entry (51_rename_dispatch.md R204, R209, R211). The sources are resolved before the
destination is renamed (R207). -/
def State.newIqEntry (s : State) (op : Op) (x : Operands) : IqEntry :=
  { op := op, pc := s.fl.pc, imm := s.entryImm x, a := s.resolve x.a, b := s.resolve x.b,
    stag := s.storeTag x, pdst := s.newTag x, rob := s.tail, ckptTag := s.currentCkpt,
    status := .waiting }

/-- The state after a dispatch that finds every resource (51_rename_dispatch.md R204 to R214). -/
def State.dispatched (s : State) (op : Op) (x : Operands) : State :=
  { s with
    prf := s.renamedPrf x
    rat := s.renamedRat x
    ck := s.checkpointed op x
    rob := s.rob.set s.tail (some (s.newRobEntry op x))
    tail := s.nextIndex s.tail
    count := s.count + 1
    iq := s.iq ++ [s.newIqEntry op x]
    fl := { s.fl with valid := false } }

/-- The dispatch phase for a legal instruction: nothing without a latched instruction (51_rename_dispatch.md
R200), nothing at all when a resource is missing (R202), else the whole dispatch (R214). -/
def dispatchLegal (op : Op) (x : Operands) (s : State) : State :=
  if s.fl.valid && (s.stallReasons op x).isEmpty then s.dispatched op x else s

/-- The ROB entry of an illegal bundle (51_rename_dispatch.md R212; 60_exceptions.md R291). -/
def State.illegalEntry (s : State) : RobEntry :=
  { op := s.fl.bundle.opcode, pc := s.fl.pc, pdst := none, adst := none, pprev := none,
    done := true, addr := none, exc := .illegal }

/-- The dispatch phase for an illegal bundle, which needs only a ROB slot (51_rename_dispatch.md R212). -/
def dispatchIllegal (s : State) : State :=
  if s.fl.valid && decide (s.count ≠ s.cfg.robSize) then
    { s with
      rob := s.rob.set s.tail (some s.illegalEntry)
      tail := s.nextIndex s.tail
      count := s.count + 1
      fl := { s.fl with valid := false } }
  else s

/-- The dispatch phase when the latch is empty (51_rename_dispatch.md R200). -/
def dispatchNothing (s : State) : State := s

end Sys2Proof.Machine
end

