-- ==== Sys2Proof/Machine/Tick.lean ====
section
/-! DEFINITION. Machine/Tick.lean: one tick, its phases in order (50_cycle_and_fetch.md R180, R181), and the clock that
runs it or not (R183, R193 to R195). The dispatch phase is an argument: it is the one phase that depends on the
latched instruction. -/

namespace Sys2Proof.Machine

/-- The first action of a tick (50_cycle_and_fetch.md R180). -/
def beginTick (s : State) : State := { s with cycle := s.cycle + 1 }

/-- The state after phase 1. -/
def afterCommit (s : State) : State := commitPhase (beginTick s)

/-- The state after phase 2. -/
def afterBranch (s : State) : State := branchPhase (afterCommit s)

/-- The state after phase 6, which dispatch reads. -/
def beforeDispatch (s : State) : State :=
  issuePhase (intPhase (mulPhase (memPhase (afterBranch s))))

/-- One tick with the given dispatch phase. A tick in which HALT commits or a fault is taken ends after phase 1
(50_cycle_and_fetch.md R181, R184, R185). -/
def tickWith (dispatch : State → State) (s : State) : Host.Outcome State Fault Refusal :=
  if (afterCommit s).ended then .next (afterCommit s)
  else if !(afterCommit s).branchDefined then .fault .checkpointMissing
  else if !(afterBranch s).accessDefined then .fault .dataAddress
  else .next (fetchPhase (dispatch (beforeDispatch s)))

/-- The clock: a tick runs only while the run has not ended (50_cycle_and_fetch.md R183, R195) and, in
single-step mode, when the host says so (R194). A configuration that the host must not start is refused
(70_reset_and_hazards.md R323). -/
def clocked (dispatch : State → State) (s : State) : Host.Outcome State Fault Refusal :=
  if s.cfg.ok then
    match s.clock with
    | .tick rest => tickWith dispatch { s with replies := rest }
    | .stopped => .next s
    | .waiting => .next s
    | .quits rest => .next { s with quit := true, replies := rest }
  else .refused .configuration

/-- The tick of a legal instruction in the latch: what every meaning is, with its opcode and its row of the
operand map (51_rename_dispatch.md R214). -/
def execWith (op : Op) (x : Operands) (s : State) : Host.Outcome State Fault Refusal :=
  clocked (dispatchLegal op x) s

end Sys2Proof.Machine
end

