-- ==== Sys2Proof/Machine/ControlFlow.lean ====
section
/-! DEFINITION. Machine/ControlFlow.lean: the meanings of the branch-unit instructions (43_control_flow.md): the tick
that takes the instruction in. What the unit then does is in Machine/BranchUnit.lean. -/

namespace Sys2Proof.Machine

/-- JUMP (43_control_flow.md R162). -/
def execJump (rs1 : Reg) (imm : Imm) (s : State) : Host.Outcome State Fault Refusal :=
  execWith .jump (Operands.ji rs1 imm) s

/-- JAL (43_control_flow.md R163). -/
def execJal (rd rs1 : Reg) (imm : Imm) (s : State) : Host.Outcome State Fault Refusal :=
  execWith .jal (Operands.rri rd rs1 imm) s

/-- BZ (43_control_flow.md R160). -/
def execBz (imm : Imm) (s : State) : Host.Outcome State Fault Refusal :=
  execWith .bz (Operands.i imm) s

/-- BNZ (43_control_flow.md R161). -/
def execBnz (imm : Imm) (s : State) : Host.Outcome State Fault Refusal :=
  execWith .bnz (Operands.i imm) s

end Sys2Proof.Machine
end

