-- ==== Sys2Proof/Machine/Integer.lean ====
section
/-! DEFINITION. Machine/Integer.lean: the meanings of the integer-unit instructions (40_integer.md): the tick that takes
the instruction in. What the unit then does is in Machine/IntegerUnit.lean. -/

namespace Sys2Proof.Machine

/-- NOP (40_integer.md R118). -/
def execNop (s : State) : Host.Outcome State Fault Refusal := execWith .nop Operands.n s

/-- ADD (40_integer.md R111). -/
def execAdd (rd rs1 rs2 : Reg) (s : State) : Host.Outcome State Fault Refusal :=
  execWith .add (Operands.rrr rd rs1 rs2) s

/-- SUB (40_integer.md R112). -/
def execSub (rd rs1 rs2 : Reg) (s : State) : Host.Outcome State Fault Refusal :=
  execWith .sub (Operands.rrr rd rs1 rs2) s

/-- AND (40_integer.md R113). -/
def execAnd (rd rs1 rs2 : Reg) (s : State) : Host.Outcome State Fault Refusal :=
  execWith .and (Operands.rrr rd rs1 rs2) s

/-- OR (40_integer.md R114). -/
def execOr (rd rs1 rs2 : Reg) (s : State) : Host.Outcome State Fault Refusal :=
  execWith .or (Operands.rrr rd rs1 rs2) s

/-- XOR (40_integer.md R115). -/
def execXor (rd rs1 rs2 : Reg) (s : State) : Host.Outcome State Fault Refusal :=
  execWith .xor (Operands.rrr rd rs1 rs2) s

/-- MOVC (40_integer.md R116). -/
def execMovc (rd : Reg) (imm : Imm) (s : State) : Host.Outcome State Fault Refusal :=
  execWith .movc (Operands.ri rd imm) s

/-- CMP (40_integer.md R117). -/
def execCmp (rs1 rs2 : Reg) (s : State) : Host.Outcome State Fault Refusal :=
  execWith .cmp (Operands.rr rs1 rs2) s

/-- HALT (40_integer.md R119). -/
def execHalt (s : State) : Host.Outcome State Fault Refusal := execWith .halt Operands.n s

end Sys2Proof.Machine
end

