-- ==== Sys2Proof/Machine/LoadStore.lean ====
section
/-! DEFINITION. Machine/LoadStore.lean: the meanings of the memory-unit instructions (42_memory_ops.md): the tick that
takes the instruction in. What the unit then does is in Machine/MemoryUnit.lean. -/

namespace Sys2Proof.Machine

/-- LOAD (42_memory_ops.md R143). -/
def execLoad (rd rs1 : Reg) (imm : Imm) (s : State) : Host.Outcome State Fault Refusal :=
  execWith .load (Operands.rri rd rs1 imm) s

/-- LDR (42_memory_ops.md R144). -/
def execLdr (rd rs1 rs2 : Reg) (s : State) : Host.Outcome State Fault Refusal :=
  execWith .ldr (Operands.rrr rd rs1 rs2) s

/-- STORE (42_memory_ops.md R145). -/
def execStore (rs1 rs2 : Reg) (imm : Imm) (s : State) : Host.Outcome State Fault Refusal :=
  execWith .store (Operands.sri rs1 rs2 imm) s

/-- STR (42_memory_ops.md R146). -/
def execStr (rs1 rs2 rs3 : Reg) (s : State) : Host.Outcome State Fault Refusal :=
  execWith .str (Operands.srr rs1 rs2 rs3) s

end Sys2Proof.Machine
end

