-- ==== Sys2Proof/Machine/Multiply.lean ====
section
/-! DEFINITION. Machine/Multiply.lean: the meaning of MUL (41_multiply.md): the tick that takes it in. What the unit then
does is in Machine/MultiplierUnit.lean. -/

namespace Sys2Proof.Machine

/-- MUL (41_multiply.md R130). -/
def execMul (rd rs1 rs2 : Reg) (s : State) : Host.Outcome State Fault Refusal :=
  execWith .mul (Operands.rrr rd rs1 rs2) s

end Sys2Proof.Machine
end

