-- ==== Sys2Proof/Machine/Load.lean ====
section
/-! DEFINITION. Machine/Load.lean: putting one bundle where the next step takes its instruction (50_cycle_and_fetch.md
R191: the program image is the host's input). -/

namespace Sys2Proof.Machine

/-- The program image with the bundle at index i, when i is inside it or right at its end; beyond that the image stays
as it is (DESIGN CHOICE, assumption log 2). -/
def placeBundle (program : List Bundle) (i : Nat) (w : Bundle) : List Bundle :=
  if i = program.length then program ++ [w] else program.set i w

/-- The bundle loaded at pc and fetched from there: it stands in the program image and in the fetch latch, as the
fetch phase leaves it (50_cycle_and_fetch.md R186; assumption log 2). -/
def State.loadAndFetch (s : State) (w : Bundle) : State :=
  match Config.insnIndex s.cfg s.pc with
  | none => s.latch w
  | some i => State.latch { s with program := placeBundle s.program i w } w

end Sys2Proof.Machine
end

