-- ==== Sys2Proof/Machine/Step.lean ====
section
/-! DEFINITION. Machine/Step.lean: one step is one tick (50_cycle_and_fetch.md R180). -/

namespace Sys2Proof.Machine

/-- One tick. The latched bundle decides the dispatch phase: the meaning of the instruction it decodes to, the
illegal-bundle dispatch, or nothing when the latch is empty (51_rename_dispatch.md R200, R212, R214). -/
def step (s : State) : Host.Outcome State Fault Refusal :=
  if s.fl.valid then
    match decode s.cfg.numArch s.fl.bundle with
    | .ok i => exec i s
    | .error _ => clocked dispatchIllegal s
  else clocked dispatchNothing s

/-- The state with a table word loaded at pc and fetched, so that the next step takes it in
(assumption log 2). -/
def State.withFetchWord (s : State) (nbits w : Nat) : State :=
  s.loadAndFetch (bundleOfTableWord nbits w)

end Sys2Proof.Machine
end

