-- ==== Sys2Proof/Safety.lean ====
section
/-! DEFINITION. Safety.lean: the terms that claims about runs use: several ticks, the in-flight entries, the invariants
of the state that the spec names, and a drained machine. -/

namespace Sys2Proof.Machine

/-- k steps, stopping at the first fault or refusal. -/
def ticks : Nat → State → Host.Outcome State Fault Refusal
  | 0, s => .next s
  | k + 1, s =>
    match step s with
    | .next t => ticks k t
    | .fault f => .fault f
    | .refused r => .refused r

/-- The in-flight ROB entries, oldest first (10_state.md R30). -/
def State.entries (s : State) : List RobEntry :=
  (List.range s.count).filterMap fun k => s.robAt (s.robIndex k)

/-- The `pprev` of every in-flight entry with a destination (51_rename_dispatch.md R216 item 2). -/
def State.heldPrevious (s : State) : List Nat := s.entries.filterMap (·.pprev)

/-- Undoing one entry's rename in a RAT (51_rename_dispatch.md R206). -/
def undoRename (e : RobEntry) (rat : List Nat) : List Nat :=
  match e.adst, e.pprev with
  | some a, some q => rat.set a.val q
  | _, _ => rat

/-- Undoing the renames of entries given oldest first, the youngest undone first. -/
def undoRenames (es : List RobEntry) (rat : List Nat) : List Nat := es.foldr undoRename rat

/-- Each entry's rename gave its register the entry's own destination: seen by undoing what is younger. -/
def RenameChain (rat : List Nat) : List RobEntry → Prop
  | [] => True
  | e :: es =>
    (∀ a p, e.adst = some a → e.pdst = some p → (undoRenames es rat)[a.val]? = some p)
      ∧ RenameChain rat es

/-- The data memory is in its canonical form (20_memory.md R61; assumption log 10). -/
def State.MemInv (s : State) : Prop := s.dm.wf s.cfg.memWords = true

/-- The reorder buffer is a ring: `head` never passes `tail`, and exactly the occupied indices hold an entry
(10_state.md R29, R30, R32). The issue queue stays within its capacity (R33). -/
structure State.RingInv (s : State) : Prop where
  robLength : s.rob.length = s.cfg.robSize
  headBound : s.head < s.cfg.robSize
  countBound : s.count ≤ s.cfg.robSize
  tailIs : s.tail = (s.head + s.count) % s.cfg.robSize
  occupiedIff : ∀ r < s.cfg.robSize, (s.robAt r).isSome = true ↔ s.age r < s.count
  iqBound : s.iq.length ≤ s.cfg.iqSize

/-- Every table has its size and every tag in it names a physical register (10_state.md R21, R24, R36). -/
structure State.ShapeInv (s : State) : Prop where
  prfLength : s.prf.length = s.cfg.numPhys
  ratLength : s.rat.length = s.cfg.numArch
  ratTags : ∀ p ∈ s.rat, p < s.cfg.numPhys
  ckLength : s.ck.length = s.cfg.numCkpt
  snapRatLength : ∀ c ∈ s.ck, c.busy = true → c.ratSnap.length = s.cfg.numArch
  snapRatTags : ∀ c ∈ s.ck, c.busy = true → ∀ p ∈ c.ratSnap, p < s.cfg.numPhys
  snapPrfLength : ∀ c ∈ s.ck, c.busy = true → c.prfSnap.length = s.cfg.numPhys

/-- The occupants of the four units. -/
def State.occupants (s : State) : List Occupant :=
  s.uInt.occ.toList ++ s.uMul.occ.toList ++ s.uMem.occ.toList ++ s.uBr.occ.toList

/-- The opcode and ROB index of every instruction that waits in the issue queue or sits in a unit. -/
def State.pending (s : State) : List (Op × Nat) :=
  s.iq.map (fun e => (e.op, e.rob)) ++ s.occupants.map (fun o => (o.op, o.rob))

/-- The entry at r is occupied, has this opcode and is not complete. -/
def State.openEntry (s : State) (op : Op) (r : Nat) : Prop :=
  r < s.cfg.robSize ∧ s.age r < s.count ∧
    ∃ e, s.robAt r = some e ∧ e.op = op.code ∧ e.done = false

/-- What links the issue queue, the units, the reorder buffer and the checkpoints (10_state.md R35, R37, R39;
51_rename_dispatch.md R216 item 1; 20_memory.md R63). -/
structure State.PipeInv (s : State) : Prop where
  pendingOpen : ∀ x ∈ s.pending, s.openEntry x.1 x.2
  pendingDistinct : (s.pending.map Prod.snd).Nodup
  /-- the issue queue is in ROB age order (R35; R216 item 1) -/
  iqOrdered : s.iq.Pairwise fun d e => s.age d.rob < s.age e.rob
  /-- an occupied multiplier counts down from MUL_LAT and leaves at 0 (52_issue_units.md R242) -/
  mulCounting : ∀ o, s.uMul.occ = some o → 1 ≤ s.uMul.remaining ∧ s.uMul.remaining ≤ s.cfg.mulLat
  intClass : ∀ o, s.uInt.occ = some o → o.op.unit = .int
  mulClass : ∀ o, s.uMul.occ = some o → o.op.unit = .mul
  memClass : ∀ o, s.uMem.occ = some o → o.op.unit = .mem
  brClass : ∀ o, s.uBr.occ = some o → o.op.unit = .br
  /-- the memory unit's occupant is the ROB head (52_issue_units.md R234; 20_memory.md R69) -/
  memAtHead : ∀ o, s.uMem.occ = some o → o.rob = s.head
  /-- each control-flow instruction in flight owns a busy slot until its stage 2 (R37) -/
  branchOwns : ∀ x ∈ s.pending, x.1.unit = .br → ∃ c ∈ s.ck, c.busy = true ∧ c.owner = x.2
  /-- every busy slot's owner is an occupied entry of an unresolved control-flow instruction (R37) -/
  ownerOpen : ∀ c ∈ s.ck, c.busy = true → ∃ op : Op, op.unit = .br ∧ s.openEntry op c.owner
  /-- no two busy slots have the same owner (R37) -/
  ownersDistinct : ((s.ck.filter (·.busy)).map (·.owner)).Nodup
  /-- stage 2 accesses only cells that exist (20_memory.md R63) -/
  accessDefined : s.accessDefined = true

/-- The values an issue-queue entry holds are of XLEN bits. -/
abbrev IqEntry.fits (c : Config) (e : IqEntry) : Prop :=
  c.fits e.pc ∧ c.fits e.imm ∧ c.fits e.a.value ∧ c.fits e.b.value

/-- The values a unit's occupant holds are of XLEN bits. -/
abbrev Occupant.fits (c : Config) (o : Occupant) : Prop := c.fits o.pc ∧ c.fits o.imm ∧ c.fits o.a ∧ c.fits o.b

/-- Every register value, address and cell is an XLEN-bit two's-complement integer (00_scope.md R8, R10;
10_state.md R21, R27 to R29, R33, R34, R39; 20_memory.md R61; assumption log 17). -/
structure State.ValueInv (s : State) : Prop where
  regs : ∀ r ∈ s.prf, s.cfg.fits r.value
  snapRegs : ∀ c ∈ s.ck, ∀ r ∈ c.prfSnap, s.cfg.fits r.value
  pc : s.cfg.fits s.pc
  latchPc : s.cfg.fits s.fl.pc
  robPc : ∀ r e, s.robAt r = some e → s.cfg.fits e.pc
  robAddr : ∀ r e a, s.robAt r = some e → e.addr = some a → s.cfg.fits a
  iq : ∀ e ∈ s.iq, e.fits s.cfg
  units : ∀ o ∈ s.occupants, o.fits s.cfg
  memAddr : s.cfg.fits s.uMem.addr
  storeData : s.cfg.fits s.uMem.sval
  target : s.cfg.fits s.uBr.target
  cells : ∀ c ∈ s.dm, s.cfg.fits c.2
  faultPc : ∀ f, s.fault = some f → s.cfg.fits f.pc

/-- Renaming keeps its books, for the default policies (10_state.md R22; 51_rename_dispatch.md R216 items 2 and
3; 53_recovery_commit.md R264). -/
structure State.RenameInv (s : State) : Prop where
  /-- no register is mapped twice, or mapped and held, or held twice -/
  inUseDistinct : (s.rat ++ s.heldPrevious).Nodup
  /-- the registers in use are exactly the mapped ones and the held previous ones -/
  inUseIff : ∀ p < s.cfg.numPhys, (s.preg p).free = false ↔ p ∈ s.rat ++ s.heldPrevious
  heldInRange : ∀ p ∈ s.heldPrevious, p < s.cfg.numPhys
  /-- an entry has all of `pdst`, `adst`, `pprev` or none of them (R29) -/
  destWhole : ∀ e ∈ s.entries, e.pdst.isSome = e.adst.isSome ∧ e.pprev.isSome = e.adst.isSome
  destInRange : ∀ e ∈ s.entries, ∀ a, e.adst = some a → a.val < s.cfg.numArch
  chain : RenameChain s.rat s.entries
  /-- a busy slot's snapshot is the RAT as it stood right after its owner's dispatch (R264) -/
  snapshots : ∀ c ∈ s.ck, c.busy = true → c.ratSnap = undoRenames (s.youngerEntries c.owner) s.rat

/-- The opcode writes a destination register (30_encoding.md R86, column D). -/
def Op.writesDest : Op → Bool
  | .add | .sub | .and | .or | .xor | .mul | .movc | .load | .ldr | .jal => true
  | .nop | .cmp | .store | .str | .jump | .bz | .bnz | .halt => false

/-- The opcode, ROB index and destination tag of every instruction that waits in the issue queue or sits in a
unit. -/
def State.pendingDests (s : State) : List (Op × Nat × Option Nat) :=
  s.iq.map (fun e => (e.op, e.rob, e.pdst)) ++ s.occupants.map (fun o => (o.op, o.rob, o.pdst))

/-- An instruction in flight, older than index r, is to write register p. -/
def State.olderProducer (s : State) (r p : Nat) : Prop :=
  ∃ k w, k < s.age r ∧ k < s.count ∧ s.robAt (s.robIndex k) = some w ∧ w.pdst = some p

/-- Each instruction writes its own register once, and values reach the operands that wait for them, for the default
policies (51_rename_dispatch.md R216 items 4 and 5; 52_issue_units.md R239, R248). -/
structure State.OperandInv (s : State) : Prop where
  /-- a waiting or executing instruction carries the destination of its own entry -/
  carriedDest : ∀ x ∈ s.pendingDests, ∀ e, s.robAt x.2.1 = some e → e.pdst = x.2.2
  /-- it has a destination exactly when its opcode writes one -/
  destByOpcode : ∀ x ∈ s.pendingDests, x.2.2.isSome = Op.writesDest x.1
  /-- that destination is allocated and not released (R216 item 5) -/
  destInUse : ∀ x ∈ s.pendingDests, ∀ p, x.2.2 = some p → (s.preg p).free = false
  /-- and has no value yet, unless the instruction is a JAL in branch stage 2 (R248) -/
  destUnwritten : ∀ x ∈ s.pendingDests, (∀ o, s.uBr.occ = some o → s.uBr.stage = .two → o.rob ≠ x.2.1) →
    ∀ p, x.2.2 = some p → (s.preg p).valid = false
  /-- a complete instruction without an exception has written its destination -/
  doneWritten : ∀ e ∈ s.entries, e.done = true → e.exc = .none →
    ∀ p, e.pdst = some p → (s.preg p).valid = true
  /-- in branch stage 2 a link has been written -/
  linkWritten : ∀ o p, s.uBr.occ = some o → s.uBr.stage = .two → o.pdst = some p → (s.preg p).valid = true
  /-- a register in use without a value is to be written by an instruction in flight -/
  unwrittenInFlight : ∀ p ∈ s.rat ++ s.heldPrevious, (s.preg p).valid = false →
    ∃ e ∈ s.entries, e.pdst = some p
  /-- an operand that is not ready names a register without a value and with an older producer in flight
  (R216 item 4) -/
  waitingProduced : ∀ e ∈ s.iq, ∀ o, o = e.a ∨ o = e.b → o.ready = false →
    ∃ p, o.tag = some p ∧ (s.preg p).valid = false ∧ s.olderProducer e.rob p

/-- The whole invariant of the machine under the default policies. -/
structure State.Inv (s : State) : Prop where
  mem : s.MemInv
  ring : s.RingInv
  shape : s.ShapeInv
  pipe : s.PipeInv
  values : s.ValueInv
  rename : s.RenameInv
  operands : s.OperandInv

/-- Fetch brings nothing: it has stopped, or pc names no instruction (50_cycle_and_fetch.md R187, R188). -/
def State.FetchIdle (s : State) : Prop := s.fetchStopped = true ∨ s.bundleAt s.pc = none

/-- Some physical register is on the free list (10_state.md R21). -/
def State.SomeFree (s : State) : Prop := ∃ p < s.cfg.numPhys, (s.preg p).free = true

/-- Nothing is in flight, every mapped register holds a value, and one instruction stands in the latch with
nothing to follow it: the machine in which an instruction's whole life is its own. -/
structure State.Drained (s : State) : Prop where
  cfgOk : s.cfg.ok = true
  freeRun : s.mode = .untilDone none
  notHalted : s.halted = false
  notFaulted : s.fault = none
  notQuit : s.quit = false
  robEmpty : s.count = 0
  robLength : s.rob.length = s.cfg.robSize
  headBound : s.head < s.cfg.robSize
  tailIs : s.tail = s.head
  iqEmpty : s.iq = []
  intFree : s.uInt.occ = none
  mulFree : s.uMul.occ = none
  memFree : s.uMem.occ = none
  brFree : s.uBr.occ = none
  ckLength : s.ck.length = s.cfg.numCkpt
  ckFree : ∀ c ∈ s.ck, c.busy = false
  prfLength : s.prf.length = s.cfg.numPhys
  ratLength : s.rat.length = s.cfg.numArch
  ratTags : ∀ p ∈ s.rat, p < s.cfg.numPhys
  ratDistinct : s.rat.Nodup
  mappedInUse : ∀ p ∈ s.rat, (s.preg p).free = false
  mappedValid : ∀ p ∈ s.rat, (s.preg p).valid = true
  latched : s.fl.valid = true
  notSuppressed : s.fetchSuppress = false
  fetchIdle : s.FetchIdle

/-- What an instruction changes, architecturally. -/
structure Change where
  /-- the destination register and its new value, if there is one -/
  dst : Option (Reg × Int)
  /-- the flag afterwards -/
  z : Bool
  /-- the cell stored to and its new value, if there is one -/
  store : Option (Nat × Int)
  /-- the machine has halted -/
  halted : Bool
deriving DecidableEq, Repr

/-- From `s` to `t`, `cycles` ticks later, one instruction has run its whole life and changed exactly this: every
other register, the flag, every other cell and the inputs are as before, one more instruction is committed, and
nothing is left in flight. -/
structure State.Effect (s t : State) (cycles : Nat) (c : Change) : Prop where
  dstWritten : ∀ rd v, c.dst = some (rd, v) → t.xValue rd = v ∧ t.xValid rd = true
  othersKept : ∀ a : Reg, a.val < s.cfg.numArch → (∀ rd v, c.dst = some (rd, v) → a ≠ rd) →
    t.xValue a = s.xValue a ∧ t.xValid a = s.xValid a ∧ t.mapping a = s.mapping a
  mappedInUse : ∀ a : Reg, a.val < s.cfg.numArch → (t.preg (t.mapping a)).free = false
  zIs : t.z = c.z
  storedTo : ∀ a v, c.store = some (a, v) → t.dm.read a = v
  otherCellsKept : ∀ x, (∀ a v, c.store = some (a, v) → x ≠ a) → t.dm.read x = s.dm.read x
  committedOnce : t.committed = s.committed + 1
  cyclesIs : t.cycle = s.cycle + cycles
  haltedIs : t.halted = c.halted
  noFault : t.fault = none
  robEmpty : t.count = 0
  iqEmpty : t.iq = []
  unitsFree : t.occupants = []
  ckFree : ∀ k ∈ t.ck, k.busy = false
  inputsKept : t.cfg = s.cfg ∧ t.program = s.program ∧ t.mode = s.mode ∧ t.replies = s.replies
    ∧ t.quit = s.quit

end Sys2Proof.Machine
end

