-- ==== Sys2Proof/Certificates/Slice0/Obligations.lean ====
section
/-! DEFINITION. Certificates/Slice0/Obligations.lean: the statements for the provers, and the terms they are said in.
What a rule of the spec gives as a number, a formula or a table is written here again from the rule. -/

namespace Sys2Proof.Claims

open Sys2Proof.Machine

/-- s32 of a mathematical integer (00_scope.md R10), for every XLEN (R8): the integer read back from its XLEN low
bits. -/
def sx (c : Config) (v : Int) : Int := (BitVec.ofInt c.xlen v).toInt

/-! ### Encoding -/

/-- Opcodes that use rd (30_encoding.md R84). -/
def usesRd (c : OpField) : Bool := [1, 2, 3, 4, 5, 6, 7, 9, 0xA, 0xE].contains c.toNat

/-- Opcodes that use rs1 (30_encoding.md R84). -/
def usesRs1 (c : OpField) : Bool := [1, 2, 3, 4, 5, 6, 8, 9, 0xA, 0xB, 0xC, 0xD, 0xE].contains c.toNat

/-- Opcodes that use rs2 (30_encoding.md R84). -/
def usesRs2 (c : OpField) : Bool := [1, 2, 3, 4, 5, 6, 8, 0xA, 0xB, 0xC].contains c.toNat

/-- Opcodes that use rs3 (30_encoding.md R84). -/
def usesRs3 (c : OpField) : Bool := [0xC].contains c.toNat

/-- Opcodes that use the immediate (30_encoding.md R84). -/
def usesImm (c : OpField) : Bool := [7, 9, 0xB, 0xD, 0xE, 0xF, 0x10].contains c.toNat

/-- Two bundles agree on the opcode and on every field the opcode uses. -/
def AgreeOnUsed (v w : Bundle) : Prop :=
  v.opcode = w.opcode ∧ (usesRd w.opcode = true → v.rd = w.rd) ∧ (usesRs1 w.opcode = true → v.rs1 = w.rs1)
    ∧ (usesRs2 w.opcode = true → v.rs2 = w.rs2) ∧ (usesRs3 w.opcode = true → v.rs3 = w.rs3)
    ∧ (usesImm w.opcode = true → v.imm = w.imm)

/-- A bundle with 0 in every field its opcode does not use and in the reserved bits 42:32 (30_encoding.md R80, R82). -/
def UnusedZero (v : Bundle) : Prop :=
  (usesRd v.opcode = false → v.rd = 0) ∧ (usesRs1 v.opcode = false → v.rs1 = 0)
    ∧ (usesRs2 v.opcode = false → v.rs2 = 0) ∧ (usesRs3 v.opcode = false → v.rs3 = 0)
    ∧ (usesImm v.opcode = false → v.imm = 0) ∧ v.extractLsb' 32 11 = 0

/-! ### Dispatch -/

/-- The operand map of 30_encoding.md R86: A, B, SD, D and the immediate. -/
def operandRow : Instr → Operands
  | .nop => ⟨none, none, none, none, none⟩
  | .add rd rs1 rs2 => ⟨some rs1, some rs2, none, some rd, none⟩
  | .sub rd rs1 rs2 => ⟨some rs1, some rs2, none, some rd, none⟩
  | .and rd rs1 rs2 => ⟨some rs1, some rs2, none, some rd, none⟩
  | .or rd rs1 rs2 => ⟨some rs1, some rs2, none, some rd, none⟩
  | .xor rd rs1 rs2 => ⟨some rs1, some rs2, none, some rd, none⟩
  | .mul rd rs1 rs2 => ⟨some rs1, some rs2, none, some rd, none⟩
  | .movc rd imm => ⟨none, none, none, some rd, some imm⟩
  | .cmp rs1 rs2 => ⟨some rs1, some rs2, none, none, none⟩
  | .load rd rs1 imm => ⟨some rs1, none, none, some rd, some imm⟩
  | .ldr rd rs1 rs2 => ⟨some rs1, some rs2, none, some rd, none⟩
  | .store rs1 rs2 imm => ⟨some rs2, none, some rs1, none, some imm⟩
  | .str rs1 rs2 rs3 => ⟨some rs2, some rs3, some rs1, none, none⟩
  | .jump rs1 imm => ⟨some rs1, none, none, none, some imm⟩
  | .jal rd rs1 imm => ⟨some rs1, none, none, some rd, some imm⟩
  | .bz imm => ⟨none, none, none, none, some imm⟩
  | .bnz imm => ⟨none, none, none, none, some imm⟩
  | .halt => ⟨none, none, none, none, none⟩

/-- BZ, BNZ, JUMP and JAL (00_scope.md R15). -/
def isFlow (op : Op) : Bool := [Op.bz, .bnz, .jump, .jal].contains op

/-- A resource of 51_rename_dispatch.md R201 that the instruction needs is not available. -/
def Missing (p : State) (i : Instr) : Prop :=
  ((operandRow i).d.isSome = true ∧ ∀ r ∈ p.prf, r.free = false)
    ∨ (isFlow i.op = true ∧ ∀ c ∈ p.ck, c.busy = true)
    ∨ p.iq.length = p.cfg.iqSize ∨ p.count = p.cfg.robSize

/-- The tick of state s runs its dispatch phase, on state p (50_cycle_and_fetch.md R181). -/
structure ReachesDispatch (s p : State) : Prop where
  cfgOk : s.cfg.ok = true
  ticks : ∃ rest, s.clock = .tick rest ∧ p = beforeDispatch { s with replies := rest }
    ∧ (afterCommit { s with replies := rest }).ended = false
    ∧ (afterCommit { s with replies := rest }).branchDefined = true
    ∧ (afterBranch { s with replies := rest }).accessDefined = true

/-- The descriptor of a source operand (51_rename_dispatch.md R204; 10_state.md R34). -/
def descriptor (p : State) : Option Reg → Operand
  | none => ⟨none, true, 0⟩
  | some r => if p.xValid r then ⟨some (p.mapping r), true, p.xValue r⟩ else ⟨some (p.mapping r), false, 0⟩

/-- q is the tag that AllocPhys gives, with the register file and the RAT after the rename: the lowest-numbered
free register, or none without a destination (51_rename_dispatch.md R205, R206). -/
def Renamed (p u : State) : Option Reg → Option Nat → Prop
  | none, q => q = none ∧ u.prf = p.prf ∧ u.rat = p.rat
  | some rd, q => ∃ n, q = some n ∧ n < p.prf.length ∧ (p.preg n).free = true
      ∧ (∀ m < n, (p.preg m).free = false) ∧ u.rat = p.rat.set rd.val n
      ∧ u.prf = p.prf.set n ⟨(p.preg n).value, false, false⟩

/-- The checkpoint a control-flow instruction takes: the lowest-numbered free slot, after the rename
(51_rename_dispatch.md R208). -/
def Checkpointed (p u : State) (op : Op) : Prop :=
  if isFlow op then
    ∃ k, k < p.ck.length ∧ (∀ c, p.ck[k]? = some c → c.busy = false)
      ∧ (∀ j < k, ∀ c, p.ck[j]? = some c → c.busy = true)
      ∧ u.ck = p.ck.set k ⟨true, p.tail, u.rat, u.prf⟩
  else u.ck = p.ck

/-- The immediate of the new issue-queue entry: the instruction's own, or, where it uses none, the field of the
latched bundle (30_encoding.md R85; 51_rename_dispatch.md R214; assumption log 13). -/
def queuedImm (p : State) (i : Instr) : Int := ((operandRow i).imm.getD p.fl.bundle.imm).toInt

/-- u is p with the latched instruction i taken in (51_rename_dispatch.md R204 to R214). -/
def TakenIn (p u : State) (i : Instr) : Prop :=
  ∃ q, Renamed p u (operandRow i).d q ∧ Checkpointed p u i.op ∧
    u = { p with
      prf := u.prf
      rat := u.rat
      ck := u.ck
      rob := p.rob.set p.tail (some ⟨i.op.code, p.fl.pc, q, (operandRow i).d,
        (operandRow i).d.map p.mapping, false, none, .none⟩)
      tail := (p.tail + 1) % p.cfg.robSize
      count := p.count + 1
      iq := p.iq ++ [⟨i.op, p.fl.pc, queuedImm p i, descriptor p (operandRow i).a,
        descriptor p (operandRow i).b, (operandRow i).sd.map p.mapping, q, p.tail, p.currentCkpt, .waiting⟩]
      fl := { p.fl with valid := false } }

/-! ### Issue -/

/-- The class of an opcode: the table of 52_issue_units.md R230. -/
def classOf (op : Op) : UnitClass :=
  if op = .mul then .mul
  else if [Op.load, .ldr, .store, .str].contains op then .mem
  else if isFlow op then .br
  else .int

/-- The unit of a class has no occupant (52_issue_units.md R231). -/
def idle (s : State) : UnitClass → Bool
  | .int => s.uInt.occ.isNone
  | .mul => s.uMul.occ.isNone
  | .mem => s.uMem.occ.isNone
  | .br => s.uBr.occ.isNone

/-- Every ROB entry older than index r whose opcode is one of the codes has done = 1. -/
def olderDone (s : State) (r : Nat) (codes : List OpField) : Bool :=
  (List.range (s.age r)).all fun k =>
    match s.robAt ((s.head + k) % s.cfg.robSize) with
    | none => true
    | some w => !codes.contains w.op || w.done

/-- An entry is eligible: both operands are ready, for every unit (52_issue_units.md R233); a memory-class instruction
is the ROB head (R234); for BZ and BNZ every older CMP is done (R235); for CMP every older CMP, JUMP, JAL, BZ and BNZ
is done (R236). -/
def mayIssue (s : State) (e : IqEntry) : Bool :=
  e.a.ready && e.b.ready
    && (if classOf e.op = .mem then decide (e.rob = s.head) && decide (0 < s.count)
        else if e.op = .bz ∨ e.op = .bnz then olderDone s e.rob [0x08]
        else if e.op = .cmp then olderDone s e.rob [0x08, 0x0D, 0x0E, 0x0F, 0x10]
        else true)

/-- The issue-queue entry e, the k-th oldest, is the one its unit takes: its unit is free, it is eligible, and no older
entry of its class is (52_issue_units.md R232). -/
def isTaken (s : State) (e : IqEntry) (k : Nat) : Bool :=
  idle s (classOf e.op) && mayIssue s e
    && (s.iq.take k).all fun d => !(mayIssue s d && decide (classOf d.op = classOf e.op))

/-- What an issued entry carries into its unit (52_issue_units.md R237). -/
def carried (e : IqEntry) : Occupant := ⟨e.op, e.pc, e.imm, e.a.value, e.b.value, e.pdst, e.stag, e.rob⟩

/-! ### Units -/

/-- The XLEN-bit two's-complement pattern of a value (00_scope.md R10). -/
def pattern (c : Config) (v : Int) : BitVec c.xlen := BitVec.ofInt c.xlen v

/-- The value an integer-unit instruction writes, if it writes one (40_integer.md R111 to R119). -/
def intResult (c : Config) (o : Occupant) : Option Int :=
  match o.op with
  | .add => some (sx c (o.a + o.b))
  | .sub => some (sx c (o.a - o.b))
  | .and => some (pattern c o.a &&& pattern c o.b).toInt
  | .or => some (pattern c o.a ||| pattern c o.b).toInt
  | .xor => some (pattern c o.a ^^^ pattern c o.b).toInt
  | .movc => some o.imm
  | _ => none

/-- An operand waiting for tag p takes the value (52_issue_units.md R239). -/
def woken (p : Nat) (v : Int) (o : Operand) : Operand :=
  if o.tag = some p ∧ o.ready = false then ⟨o.tag, true, v⟩ else o

/-- From s to t the register p has been written with v and the issue queue has been told (52_issue_units.md R239). -/
def WrittenBack (s t : State) (p : Nat) (v : Int) : Prop :=
  t.prf.length = s.prf.length ∧ t.preg p = ⟨v, true, (s.preg p).free⟩ ∧ (∀ x, x ≠ p → t.preg x = s.preg x)
    ∧ t.iq = s.iq.map fun e => { e with a := woken p v e.a, b := woken p v e.b }

/-- From s to t nothing was written to a register and no operand was told. -/
def NothingWritten (s t : State) : Prop := t.prf = s.prf ∧ t.iq = s.iq

/-- From s to t the entry at r, and no other, has been marked complete (52_issue_units.md R240). -/
def Completed (s t : State) (r : Nat) : Prop :=
  t.rob.length = s.rob.length
    ∧ (∀ e, s.robAt r = some e → t.robAt r = some { e with done := true })
    ∧ ∀ x, x ≠ r → t.robAt x = s.robAt x

/-- The signed effective address names a cell (42_memory_ops.md R141). -/
def InRange (s : State) (addr : Int) : Prop := 0 ≤ addr ∧ addr < (s.cfg.memWords : Int)

/-! ### Whole lives -/

/-- In a machine with nothing else in flight: the meaning of i answers a next state, and k ticks later the instruction
has changed exactly c, with fetch where it was. -/
def LivesTo (s : State) (i : Instr) (k : Nat) (c : Change) : Prop :=
  ∃ t1 t, exec i s = .next t1 ∧ ticks k t1 = .next t ∧ s.Effect t (k + 1) c
    ∧ t.pc = s.pc ∧ t.fl.valid = false

/-- Fetch has read the target, if it names an instruction (43_control_flow.md R165; 50_cycle_and_fetch.md R186). -/
def FetchedFrom (s t : State) (target : Int) : Prop :=
  match s.bundleAt target with
  | none => t.pc = target ∧ t.fl.valid = false
  | some w => t.pc = sx s.cfg (target + s.cfg.insnStride) ∧ t.fl = ⟨true, w, target⟩

/-- In a machine with nothing else in flight: the meaning of i answers a next state, and 4 ticks later the instruction
has changed exactly c and fetch has gone to the target. -/
def RedirectsTo (s : State) (i : Instr) (c : Change) (target : Int) : Prop :=
  ∃ t1 t, exec i s = .next t1 ∧ ticks 4 t1 = .next t ∧ s.Effect t 5 c ∧ FetchedFrom s t target

/-- In a machine with nothing else in flight: the meaning of i answers a next state, and 4 ticks later the machine has
faulted on it with nothing of memory, flag or other registers changed and nothing committed. -/
def FaultsOn (s : State) (i : Instr) : Prop :=
  ∃ t1 t, exec i s = .next t1 ∧ ticks 4 t1 = .next t
    ∧ t.fault = some ⟨.memRange, s.fl.pc⟩ ∧ t.halted = false ∧ t.committed = s.committed
    ∧ t.cycle = s.cycle + 5 ∧ t.z = s.z ∧ t.dm = s.dm
    ∧ (∀ a : Reg, a.val < s.cfg.numArch → (operandRow i).d ≠ some a → t.xValue a = s.xValue a
        ∧ t.xValid a = s.xValid a)
    ∧ ∀ rd, (operandRow i).d = some rd → t.xValid rd = false

end Sys2Proof.Claims

open Sys2Proof Sys2Proof.Machine Sys2Proof.Claims

/-! ## Encoding -/

/-- The four bundles of 30_encoding.md R94, both ways. -/
def Obligations.SpecBundlesDecode : Prop :=
  (decode 16 0x3800000000000005 = .ok (.movc 0 5) ∧ encode (.movc 0 5) = 0x3800000000000005)
    ∧ (decode 16 0x3880000000000000 = .ok (.movc 1 0) ∧ encode (.movc 1 0) = 0x3880000000000000)
    ∧ (decode 16 0x0900800000000000 = .ok (.add 2 0 1) ∧ encode (.add 2 0 1) = 0x0900800000000000)
    ∧ (decode 16 0x8800000000000000 = .ok .halt ∧ encode .halt = 0x8800000000000000)

/-- Decoding what the encoder writes gives the instruction back, for every instruction that is well-formed for the
number of architectural registers (30_encoding.md R80, R83, R86, R91). -/
def Obligations.DecodeEncodeAgree : Prop :=
  ∀ (n : Nat) (i : Instr), i.wf n = true → decode n (encode i) = .ok i

/-- 30_encoding.md R87: a bundle is legal exactly when its opcode is assigned and every register field it uses is below
NUM_ARCH. -/
def Obligations.LegalBundlesDecode : Prop :=
  ∀ (n : Nat) (w : Bundle), (∃ i, decode n w = .ok i) ↔
    (w.opcode.toNat ≤ 0x11 ∧ (usesRd w.opcode = true → w.rd.val < n) ∧ (usesRs1 w.opcode = true → w.rs1.val < n)
      ∧ (usesRs2 w.opcode = true → w.rs2.val < n) ∧ (usesRs3 w.opcode = true → w.rs3.val < n))

/-- 30_encoding.md R82: bundles that differ only in ignored fields decode alike. -/
def Obligations.IgnoredFieldsDecodeAlike : Prop :=
  ∀ (n : Nat) (v w : Bundle), AgreeOnUsed v w → decode n v = decode n w

/-- 30_encoding.md R84, R91: the decoded instruction has the bundle's opcode and used fields, as its own bundle shows,
which holds 0 in every field the opcode does not use and in the reserved bits (R82). -/
def Obligations.DecodedKeepsUsedFields : Prop :=
  ∀ (n : Nat) (w : Bundle) (i : Instr), decode n w = .ok i →
    i.wf n = true ∧ AgreeOnUsed (encode i) w ∧ UnusedZero (encode i) ∧ decode n (encode i) = .ok i

/-! ## Reset -/

/-- 10_state.md R42, for every choice of the host's inputs. -/
def Obligations.ResetStateAsListed : Prop :=
  ∀ (c : Config) (program : List Bundle) (dmInit : Memory) (mode : RunMode) (replies : List Reply),
    let s := State.boot c program dmInit mode replies
    (∀ p < c.numPhys, s.preg p = if p < c.numArch then ⟨0, true, false⟩ else ⟨0, false, true⟩)
      ∧ s.prf.length = c.numPhys ∧ s.rat.length = c.numArch
      ∧ (∀ a : Reg, a.val < c.numArch → s.mapping a = a.val)
      ∧ s.z = false ∧ s.pc = c.pcBase
      ∧ s.fl.valid = false ∧ s.fetchStopped = false ∧ s.fetchSuppress = false
      ∧ s.head = 0 ∧ s.tail = 0 ∧ s.count = 0 ∧ s.rob.length = c.robSize ∧ (∀ r, s.robAt r = none)
      ∧ s.iq = [] ∧ s.ck.length = c.numCkpt ∧ (∀ k ∈ s.ck, k.busy = false)
      ∧ s.uInt.occ = none ∧ s.uMul.occ = none ∧ s.uMem.occ = none ∧ s.uBr.occ = none
      ∧ s.dm = dmInit ∧ s.cycle = 0 ∧ s.committed = 0 ∧ s.halted = false ∧ s.fault = none
      ∧ (c.ok = true → ∀ a : Reg, a.val < c.numArch → s.xValue a = 0 ∧ s.xValid a = true)

/-! ## The step -/

/-- When the latched bundle decodes to an instruction, the step is that instruction's meaning, with nothing around it
(51_rename_dispatch.md R200, R214; assumption log 3). -/
def Obligations.StepRunsDecodedInstruction : Prop :=
  ∀ (s : State) (i : Instr), s.fl.valid = true → decode s.cfg.numArch s.fl.bundle = .ok i → step s = exec i s

/-- Without a legal latched instruction the step is a tick whose dispatch phase takes the illegal bundle in, or does
nothing (51_rename_dispatch.md R200, R212; assumption log 3). -/
def Obligations.StepWithoutLegalInstruction : Prop :=
  ∀ s : State,
    (s.fl.valid = false → step s = clocked id s)
      ∧ (∀ x, s.fl.valid = true → decode s.cfg.numArch s.fl.bundle = .error x → step s = clocked dispatchIllegal s)

/-- 50_cycle_and_fetch.md R181: a tick that is not ended by its commit phase runs the eight phases in the spec's
order, each on the state the earlier ones left. -/
def Obligations.TickRunsPhasesInOrder : Prop :=
  ∀ (s : State) (rest : List Reply) (dispatch : State → State), s.cfg.ok = true → s.clock = .tick rest →
    let s1 := commitPhase { s with replies := rest, cycle := s.cycle + 1 }
    let s2 := branchPhase s1
    s1.halted = false → s1.fault = none → s1.branchDefined = true → s2.accessDefined = true →
    clocked dispatch s = .next (fetchPhase (dispatch (issuePhase (intPhase (mulPhase (memPhase s2))))))

/-- 50_cycle_and_fetch.md R183, in the model's form (assumption log 4): once halted or faulted, a step changes
nothing. -/
def Obligations.StoppedClockChangesNothing : Prop :=
  ∀ s : State, s.cfg.ok = true → s.halted = true ∨ s.fault.isSome = true → step s = .next s

/-- 50_cycle_and_fetch.md R193 to R195, in the model's form (assumption logs 4, 5, 15): a spent budget stops the clock
with the state as the last tick left it, and in single-step mode the host's answers decide. -/
def Obligations.HostStopsTheClock : Prop :=
  ∀ s : State, s.cfg.ok = true → s.halted = false → s.fault = none → s.quit = false →
    (∀ b, s.mode = .untilDone (some b) ∨ s.mode = .fixedCycles b → b ≤ s.cycle → step s = .next s)
      ∧ (s.mode = .singleStep → 0 < s.cycle →
          (s.replies = [] → step s = .next s)
            ∧ (∀ rest, s.replies = .quit :: rest → step s = .next { s with quit := true, replies := rest })
            ∧ (∀ rest, s.replies = .continue :: rest → s.clock = .tick rest))

/-- 70_reset_and_hazards.md R323 in the model's form (assumption log 14): a configuration outside the constraints is
refused. So is one whose other parameters have values for which the spec has no rule (the last three lines; assumption
logs 1, 14). -/
def Obligations.BadConfigurationRefused : Prop :=
  ∀ s : State,
    (s.cfg.numArch < 1 ∨ 16 < s.cfg.numArch ∨ s.cfg.numPhys < s.cfg.numArch + 1 ∨ s.cfg.robSize < 1
      ∨ s.cfg.iqSize < 1 ∨ s.cfg.numCkpt < 1 ∨ s.cfg.memWords < 1 ∨ s.cfg.mulLat < 1
      ∨ s.cfg.insnStride < 1 ∨ s.cfg.xlen < 32 ∨ ¬ s.cfg.fits s.cfg.pcBase
      ∨ s.cfg.intLat ≠ 1 ∨ s.cfg.memStages ≠ 2 ∨ s.cfg.brStages ≠ 2
      ∨ s.cfg.fetchWidth ≠ 1 ∨ s.cfg.dispatchWidth ≠ 1 ∨ s.cfg.commitWidth ≠ 1) →
    step s = .refused .configuration

/-! ## Commit -/

/-- 53_recovery_commit.md R271 and 50_cycle_and_fetch.md R185: a complete head entry with an exception code is taken
as a fault, and nothing else happens in that tick. -/
def Obligations.FaultTakenAtCommit : Prop :=
  ∀ (s : State) (rest : List Reply) (e : RobEntry), s.cfg.ok = true → s.clock = .tick rest → 0 < s.count →
    s.robAt s.head = some e → e.done = true → e.exc ≠ .none →
    step s = .next { s with replies := rest, cycle := s.cycle + 1, fault := some ⟨e.exc, e.pc⟩ }

/-- 53_recovery_commit.md R274 and 50_cycle_and_fetch.md R184: when a complete HALT commits, the machine halts and nothing
but the commit phase happens in that tick. -/
def Obligations.HaltCommitEndsTheRun : Prop :=
  ∀ (s : State) (rest : List Reply) (e : RobEntry), s.cfg.ok = true → s.clock = .tick rest → 0 < s.count →
    s.robAt s.head = some e → e.done = true → e.exc = .none → e.op = 0x11 →
    step s = .next { s with
      replies := rest
      cycle := s.cycle + 1
      prf := (commitPhase s).prf
      committed := s.committed + 1
      rob := s.rob.set s.head none
      head := (s.head + 1) % s.cfg.robSize
      count := s.count - 1
      halted := true }

/-- 53_recovery_commit.md R272, R273: retiring the head entry releases the register that FREE_POLICY names and advances
the head, and changes nothing else but HALT's `halted`. -/
def Obligations.CommitRetiresTheHead : Prop :=
  ∀ (s : State) (e : RobEntry), 0 < s.count → s.robAt s.head = some e → e.done = true → e.exc = .none →
    let t := commitPhase s
    (t = { s with
        prf := t.prf
        committed := s.committed + 1
        rob := s.rob.set s.head none
        head := (s.head + 1) % s.cfg.robSize
        count := s.count - 1
        halted := s.halted || decide (e.op = 0x11) })
      ∧ t.prf.length = s.prf.length
      ∧ (e.pdst = none → t.prf = s.prf)
      ∧ (∀ d q, e.pdst = some d → s.cfg.freePolicy = .prev → e.pprev = some q → q < s.prf.length →
          t.preg q = { s.preg q with free := true } ∧ ∀ p, p ≠ q → t.preg p = s.preg p)
      ∧ (∀ d a, e.pdst = some d → s.cfg.freePolicy = .destIfRemapped → e.adst = some a → d < s.prf.length →
          (s.mapping a = d → t.prf = s.prf)
            ∧ (s.mapping a ≠ d → t.preg d = { s.preg d with free := true } ∧ ∀ p, p ≠ d → t.preg p = s.preg p))

/-- 53_recovery_commit.md R270: with an empty ROB, or a head that is not complete, the commit phase does nothing. -/
def Obligations.CommitWaitsForTheHead : Prop :=
  ∀ s : State, (s.count = 0 ∨ ∃ e, s.robAt s.head = some e ∧ e.done = false) → commitPhase s = s

/-! ## Fetch -/

/-- 50_cycle_and_fetch.md R186, R188: fetch from the address of instruction i latches bundle i, advances pc, and stops
after a HALT. -/
def Obligations.FetchLatchesTheNamedInstruction : Prop :=
  ∀ (s : State) (i : Nat) (w : Bundle), s.fetchSuppress = false → s.fl.valid = false → s.fetchStopped = false →
    1 ≤ s.cfg.insnStride → s.program[i]? = some w → s.pc = s.cfg.pcBase + s.cfg.insnStride * i →
    fetchPhase s = { s with
      fl := ⟨true, w, s.pc⟩
      pc := sx s.cfg (s.pc + s.cfg.insnStride)
      fetchStopped := decide (w.opcode = 0x11) }

/-- 50_cycle_and_fetch.md R187: an address that names no instruction is a bubble. -/
def Obligations.FetchOfNoInstructionIsABubble : Prop :=
  ∀ s : State, s.fetchSuppress = false → 1 ≤ s.cfg.insnStride →
    (∀ i < s.program.length, s.pc ≠ s.cfg.pcBase + s.cfg.insnStride * i) → fetchPhase s = s

/-- 50_cycle_and_fetch.md R188 to R190: a suppressed fetch only clears the suppression, and fetch waits while the latch
is full or fetch has stopped. -/
def Obligations.FetchHoldsBack : Prop :=
  ∀ s : State,
    (s.fetchSuppress = true → fetchPhase s = { s with fetchSuppress := false })
      ∧ (s.fetchSuppress = false → s.fl.valid = true ∨ s.fetchStopped = true → fetchPhase s = s)

/-! ## Dispatch -/

/-- 51_rename_dispatch.md R204 to R211, R213, R215: every instruction that reaches dispatch and finds every
resource is taken in, whatever else is in flight: its meaning answers the next state that the dispatch phase and then
fetch leave. That its meaning is this tick, and what it takes from a latch that holds another bundle, are the model's
(assumption logs 3, 13). -/
def Obligations.DispatchTakesInstructionIn : Prop :=
  ∀ (i : Instr) (s p : State), ReachesDispatch s p → p.fl.valid = true → ¬ Missing p i →
    ∃ u, TakenIn p u i ∧ exec i s = .next (fetchPhase u)

/-- 51_rename_dispatch.md R202 and 50_cycle_and_fetch.md R190: when a resource is missing, dispatch changes nothing and
fetch holds pc and the latch. -/
def Obligations.StalledDispatchChangesNothing : Prop :=
  ∀ (i : Instr) (s p : State), ReachesDispatch s p → p.fl.valid = true → p.fetchSuppress = false → Missing p i →
    exec i s = .next p

/-- 51_rename_dispatch.md R202, R267 of 53_recovery_commit.md: an instruction whose latch a recovery of the same tick
has emptied is not taken in. -/
def Obligations.DiscardedLatchIsNotDispatched : Prop :=
  ∀ (i : Instr) (s p : State), ReachesDispatch s p → p.fl.valid = false → exec i s = .next (fetchPhase p)

/-- 51_rename_dispatch.md R212: an illegal bundle takes a complete ROB entry with the ILLEGAL code and nothing else, or
stalls when the ROB is full. -/
def Obligations.IllegalBundleTakesOnlyARobEntry : Prop :=
  ∀ s : State, s.fl.valid = true →
    (s.count = s.cfg.robSize → dispatchIllegal s = s)
      ∧ (s.count ≠ s.cfg.robSize → dispatchIllegal s = { s with
          rob := s.rob.set s.tail (some ⟨s.fl.bundle.opcode, s.fl.pc, none, none, none, true, none, .illegal⟩)
          tail := (s.tail + 1) % s.cfg.robSize
          count := s.count + 1
          fl := { s.fl with valid := false } })

/-- 10_state.md R37: the current checkpoint id is a busy slot whose owner has the largest age, or none when no slot is
busy. -/
def Obligations.CurrentCheckpointIsTheYoungest : Prop :=
  ∀ s : State,
    (s.currentCkpt = none ↔ ∀ c ∈ s.ck, c.busy = false)
      ∧ ∀ k, s.currentCkpt = some k → ∃ c, s.ck[k]? = some c ∧ c.busy = true
          ∧ ∀ d ∈ s.ck, d.busy = true → s.age d.owner ≤ s.age c.owner

/-! ## Issue -/

/-- 52_issue_units.md R232 to R237: each free unit takes the oldest eligible entry of its class, if there is one, and a
busy unit keeps its occupant. Eligible means both operands ready, whatever the unit, and the ordering conditions of
memory, BZ, BNZ and CMP. -/
def Obligations.IssueTakesTheOldestEligible : Prop :=
  ∀ s : State,
    let pick := fun u => (s.iq.find? fun e => mayIssue s e && decide (classOf e.op = u)).map carried
    let t := issuePhase s
    t.uInt.occ = (if s.uInt.occ.isNone then pick .int else s.uInt.occ)
      ∧ t.uMul.occ = (if s.uMul.occ.isNone then pick .mul else s.uMul.occ)
      ∧ t.uMem.occ = (if s.uMem.occ.isNone then pick .mem else s.uMem.occ)
      ∧ t.uBr.occ = (if s.uBr.occ.isNone then pick .br else s.uBr.occ)
      ∧ (s.uMul.occ = none → t.uMul.occ.isSome = true → t.uMul.remaining = s.cfg.mulLat)
      ∧ (s.uMem.occ = none → t.uMem.occ.isSome = true → t.uMem.stage = .one)
      ∧ (s.uBr.occ = none → t.uBr.occ.isSome = true → t.uBr.stage = .one)

/-- 10_state.md R35, 52_issue_units.md R232, R237: issue removes from the queue exactly the entries that the free units
take, each the oldest eligible one of its class, so at most one for each unit, and keeps the others in order; nothing
but the queue and the units changes. -/
def Obligations.IssueKeepsTheOthersInOrder : Prop :=
  ∀ s : State,
    let t := issuePhase s
    t.iq = (s.iq.zipIdx.filter fun x => !isTaken s x.1 x.2).map Prod.fst
      ∧ t.iq.Sublist s.iq
      ∧ s.iq.length ≤ t.iq.length + ([UnitClass.int, .mul, .mem, .br].filter fun u => idle s u).length
      ∧ (∀ e ∈ s.iq, mayIssue s e = false → e ∈ t.iq)
      ∧ t = { s with iq := t.iq, uInt := t.uInt, uMul := t.uMul, uMem := t.uMem, uBr := t.uBr }

/-- 52_issue_units.md R233, R234: a memory-class instruction enters its unit only with both address operands ready and
as the ROB head. -/
def Obligations.MemoryIssuesOnlyFromTheHead : Prop :=
  ∀ (s : State) (o : Occupant), s.uMem.occ = none → (issuePhase s).uMem.occ = some o →
    o.rob = s.head ∧ 0 < s.count ∧ o.op ∈ [Op.load, .ldr, .store, .str]
      ∧ ∃ e ∈ s.iq, carried e = o ∧ e.a.ready = true ∧ e.b.ready = true

/-- 52_issue_units.md R235, R236: a BZ, BNZ or CMP enters its unit only after every older CMP, and a CMP only after every
older control-flow instruction, is complete. -/
def Obligations.FlagInstructionsIssueInOrder : Prop :=
  ∀ (s : State) (o : Occupant) (r : Nat) (e : RobEntry), s.RingInv → o.rob < s.cfg.robSize →
    r < s.cfg.robSize → s.age r < s.age o.rob → s.robAt r = some e →
    (s.uBr.occ = none → (issuePhase s).uBr.occ = some o → o.op = .bz ∨ o.op = .bnz → e.op = 0x08 → e.done = true)
      ∧ (s.uInt.occ = none → (issuePhase s).uInt.occ = some o → o.op = .cmp →
          e.op ∈ [0x08, 0x0D, 0x0E, 0x0F, 0x10] → e.done = true)

/-! ## Functional units -/

/-- 52_issue_units.md R241 with 40_integer.md R111 to R119: the integer unit writes the result of ADD, SUB, AND, OR, XOR
and MOVC, writes Z for CMP, writes nothing for NOP and HALT, completes the entry and frees itself; nothing else
changes. -/
def Obligations.IntegerUnitExecutes : Prop :=
  ∀ (s : State) (o : Occupant), s.uInt.occ = some o → o.op.unit = .int →
    let t := intPhase s
    t = { s with prf := t.prf, iq := t.iq, z := t.z, rob := t.rob, uInt := ⟨none⟩ }
      ∧ Completed s t o.rob
      ∧ t.z = (if o.op = .cmp then decide (o.a = o.b) else s.z)
      ∧ (∀ v p, intResult s.cfg o = some v → o.pdst = some p → p < s.prf.length → WrittenBack s t p v)
      ∧ (intResult s.cfg o = none → NothingWritten s t)

/-- 41_multiply.md R130, R131 and 52_issue_units.md R242: the multiplier counts down; on its last step it writes the low
XLEN bits of the exact product, completes the entry and frees itself. -/
def Obligations.MultiplierExecutes : Prop :=
  ∀ (s : State) (o : Occupant), s.uMul.occ = some o →
    let t := mulPhase s
    (2 ≤ s.uMul.remaining → t = { s with uMul := ⟨some o, s.uMul.remaining - 1⟩ })
      ∧ (s.uMul.remaining = 1 →
          t = { s with prf := t.prf, iq := t.iq, rob := t.rob, uMul := t.uMul } ∧ t.uMul.occ = none
            ∧ Completed s t o.rob
            ∧ ∀ p, o.pdst = some p → p < s.prf.length → WrittenBack s t p (sx s.cfg (o.a * o.b)))

/-- 42_memory_ops.md R141, R142: memory stage 1 records the address, holds a store back while its data is not valid, and
otherwise goes on to stage 2, with the MEM_RANGE code on the entry when the address is out of range. -/
def Obligations.MemoryStageOne : Prop :=
  ∀ (s : State) (o : Occupant) (e : RobEntry), s.uMem.occ = some o → s.uMem.stage = .one → s.robAt o.rob = some e →
    o.op ∈ [Op.load, .ldr, .store, .str] →
    let off := if o.op = .load ∨ o.op = .store then o.imm else o.b
    let addr := sx s.cfg (o.a + off)
    let isStore := decide (o.op = .store ∨ o.op = .str)
    let t := memPhase s
    t = { s with rob := t.rob, uMem := t.uMem } ∧ t.rob.length = s.rob.length
      ∧ t.uMem.occ = some o ∧ t.uMem.addr = addr ∧ (∀ x, x ≠ o.rob → t.robAt x = s.robAt x)
      ∧ (∀ p, isStore = true → o.stag = some p → (s.preg p).valid = false →
          t.uMem.stage = .one ∧ t.robAt o.rob = some { e with addr := some addr })
      ∧ (isStore = false ∨ (∃ p, o.stag = some p ∧ (s.preg p).valid = true) →
          t.uMem.stage = .two
            ∧ (InRange s addr → t.robAt o.rob = some { e with addr := some addr })
            ∧ (¬ InRange s addr → t.robAt o.rob = some { e with addr := some addr, exc := .memRange }))
      ∧ (∀ p, isStore = true → o.stag = some p → (s.preg p).valid = true → t.uMem.sval = (s.preg p).value)

/-- 52_issue_units.md R244 with 42_memory_ops.md R143 to R146: stage 2 completes the entry and frees the unit; with no
exception a load writes the cell's value to its register and a store writes its data to its cell and to no other;
with an exception there is no access. -/
def Obligations.MemoryStageTwo : Prop :=
  ∀ (s : State) (o : Occupant) (e : RobEntry), s.MemInv → s.uMem.occ = some o → s.uMem.stage = .two →
    s.robAt o.rob = some e → o.op ∈ [Op.load, .ldr, .store, .str] → (e.exc = .none → InRange s s.uMem.addr) →
    let t := memPhase s
    t = { s with prf := t.prf, iq := t.iq, dm := t.dm, rob := t.rob, uMem := t.uMem }
      ∧ t.uMem.occ = none ∧ Completed s t o.rob
      ∧ (e.exc ≠ .none → NothingWritten s t ∧ t.dm = s.dm)
      ∧ (e.exc = .none → o.op = .load ∨ o.op = .ldr → t.dm = s.dm
          ∧ ∀ p, o.pdst = some p → p < s.prf.length →
              WrittenBack s t p (s.dm.read s.uMem.addr.toNat))
      ∧ (e.exc = .none → o.op = .store ∨ o.op = .str → NothingWritten s t
          ∧ t.dm.read s.uMem.addr.toNat = s.uMem.sval
          ∧ ∀ x, x ≠ s.uMem.addr.toNat → t.dm.read x = s.dm.read x)

/-- 52_issue_units.md R245 with 43_control_flow.md R160 to R163: branch stage 1 records the decision and the target, a
JAL also writes its link, and nothing is redirected or discarded. -/
def Obligations.BranchStageOne : Prop :=
  ∀ (s : State) (o : Occupant), s.uBr.occ = some o → s.uBr.stage = .one → isFlow o.op = true →
    let t := branchPhase s
    t = { s with prf := t.prf, iq := t.iq, uBr := t.uBr } ∧ t.uBr.occ = some o ∧ t.uBr.stage = .two
      ∧ t.uBr.taken = (if o.op = .bz then s.z else if o.op = .bnz then !s.z else true)
      ∧ t.uBr.target = (if o.op = .bz ∨ o.op = .bnz then sx s.cfg (o.pc + o.imm)
          else sx s.cfg (o.a + o.imm))
      ∧ (o.op ≠ .jal → NothingWritten s t)
      ∧ (∀ p, o.op = .jal → o.pdst = some p → p < s.prf.length →
          WrittenBack s t p (sx s.cfg (o.pc + s.cfg.insnStride)))

/-- 53_recovery_commit.md R269: a branch that is not taken completes, leaves the unit and releases the one checkpoint
slot it owns; nothing is discarded or redirected. -/
def Obligations.NotTakenReleasesItsCheckpoint : Prop :=
  ∀ (s : State) (o : Occupant) (k : Nat) (c : Ckpt), s.uBr.occ = some o → s.uBr.stage = .two →
    s.uBr.taken = false → s.ck[k]? = some c → c.busy = true → c.owner = o.rob →
    (∀ j d, s.ck[j]? = some d → d.busy = true → d.owner = o.rob → j = k) →
    let t := branchPhase s
    t = { s with rob := t.rob, uBr := { s.uBr with occ := none }, ck := s.ck.set k { c with busy := false } }
      ∧ Completed s t o.rob

/-! ## Recovery -/

/-- 53_recovery_commit.md R263 to R267: what a taken branch's stage 2 leaves in the RAT, the register file, the ROB's
bounds, the checkpoints and fetch, for both restore policies. -/
def Obligations.TakenBranchRecovers : Prop :=
  ∀ (s : State) (o : Occupant) (c : Ckpt), s.RingInv → s.uBr.occ = some o → s.uBr.stage = .two →
    s.uBr.taken = true → s.occupied o.rob = true → c ∈ s.ck → c.busy = true → c.owner = o.rob →
    (∀ d ∈ s.ck, d.busy = true → d.owner = o.rob → d = c) →
    let t := branchPhase s
    let discarded := fun p => ∃ r e, r < s.cfg.robSize ∧ s.age o.rob < s.age r ∧ s.robAt r = some e
      ∧ e.pdst = some p
    t = { s with
        iq := t.iq, uInt := t.uInt, uMul := t.uMul, uMem := t.uMem, uBr := { s.uBr with occ := none }
        rob := t.rob, tail := (o.rob + 1) % s.cfg.robSize, count := s.age o.rob + 1
        rat := c.ratSnap, prf := t.prf, ck := t.ck
        pc := s.uBr.target, fl := { s.fl with valid := false }, fetchStopped := false, fetchSuppress := true }
      ∧ (s.cfg.restorePolicy = .verbatim → t.prf = c.prfSnap)
      ∧ (s.cfg.restorePolicy = .selective → t.prf.length = s.prf.length ∧ ∀ p < s.prf.length,
          (discarded p → t.preg p = ⟨(s.preg p).value, false, true⟩) ∧ (¬ discarded p → t.preg p = s.preg p))
      ∧ t.ck = s.ck.map fun d => if d.busy = true ∧ s.age o.rob ≤ s.age d.owner then { d with busy := false } else d

/-- 53_recovery_commit.md R261 to R263, R266, R276 and 52_issue_units.md R246: after the stage 2 of a taken branch
nothing younger than it remains in the issue queue, the other units or the ROB, and no slot of its own or of anything
younger stays busy; everything older stays as it was, checkpoint slots included, and the branch's own entry stays,
complete. -/
def Obligations.RecoveryFlushesExactlyTheYounger : Prop :=
  ∀ (s : State) (o : Occupant), s.RingInv → s.uBr.occ = some o → s.uBr.stage = .two → s.uBr.taken = true →
    s.occupied o.rob = true → (∃ c ∈ s.ck, c.busy = true ∧ c.owner = o.rob) →
    let t := branchPhase s
    let older := fun r => s.age r ≤ s.age o.rob
    t.iq = s.iq.filter (fun e => decide (older e.rob))
      ∧ (∀ x, t.uInt.occ = some x ↔ s.uInt.occ = some x ∧ older x.rob)
      ∧ (∀ x, t.uMul.occ = some x ↔ s.uMul.occ = some x ∧ older x.rob)
      ∧ (∀ x, t.uMem.occ = some x ↔ s.uMem.occ = some x ∧ older x.rob)
      ∧ (∀ r < s.cfg.robSize, older r → r ≠ o.rob → t.robAt r = s.robAt r)
      ∧ (∀ r < s.cfg.robSize, ¬ older r → t.robAt r = none)
      ∧ (∃ e, s.robAt o.rob = some e ∧ t.robAt o.rob = some { e with done := true })
      ∧ t.ck.length = s.ck.length
      ∧ (∀ (k : Nat) (c : Ckpt), s.ck[k]? = some c →
          (c.busy = true → s.age c.owner < s.age o.rob) → t.ck[k]? = some c)
      ∧ (∀ (k : Nat) (c : Ckpt), s.ck[k]? = some c → s.age o.rob ≤ s.age c.owner →
          t.ck[k]? = some { c with busy := false })

/-! ## Whole lives of instructions, from a machine with nothing else in flight -/

/-- 40_integer.md R111 to R116 with R110 and 70_reset_and_hazards.md R333: ADD, SUB, AND, OR, XOR and MOVC are
dispatched, issue one tick later, execute in the next and commit in the one after; the destination holds the result and
nothing else has changed. -/
def Obligations.IntegerWritersRunToCommit : Prop :=
  ∀ (s : State) (rd rs1 rs2 : Reg) (imm : Imm), s.Drained → s.SomeFree → rd.val < s.cfg.numArch →
    rs1.val < s.cfg.numArch → rs2.val < s.cfg.numArch →
    let a := s.xValue rs1
    let b := s.xValue rs2
    let writes := fun v => (⟨some (rd, v), s.z, none, false⟩ : Change)
    LivesTo s (.add rd rs1 rs2) 3 (writes (sx s.cfg (a + b)))
      ∧ LivesTo s (.sub rd rs1 rs2) 3 (writes (sx s.cfg (a - b)))
      ∧ LivesTo s (.and rd rs1 rs2) 3 (writes (pattern s.cfg a &&& pattern s.cfg b).toInt)
      ∧ LivesTo s (.or rd rs1 rs2) 3 (writes (pattern s.cfg a ||| pattern s.cfg b).toInt)
      ∧ LivesTo s (.xor rd rs1 rs2) 3 (writes (pattern s.cfg a ^^^ pattern s.cfg b).toInt)
      ∧ LivesTo s (.movc rd imm) 3 (writes imm.toInt)

/-- 40_integer.md R117: CMP sets Z when the two values are equal and clears it otherwise, with or without a free
register, and changes nothing else. -/
def Obligations.CompareRunsToCommit : Prop :=
  ∀ (s : State) (rs1 rs2 : Reg), s.Drained → rs1.val < s.cfg.numArch → rs2.val < s.cfg.numArch →
    LivesTo s (.cmp rs1 rs2) 3 ⟨none, decide (s.xValue rs1 = s.xValue rs2), none, false⟩

/-- 40_integer.md R118, R119: NOP and HALT commit and change no register, flag or memory; HALT halts the machine. -/
def Obligations.NopAndHaltRunToCommit : Prop :=
  ∀ s : State, s.Drained →
    LivesTo s .nop 3 ⟨none, s.z, none, false⟩ ∧ LivesTo s .halt 3 ⟨none, s.z, none, true⟩

/-- 41_multiply.md R130, R131: MUL writes the low XLEN bits of the exact product and commits MUL_LAT + 2 ticks after its
dispatch. -/
def Obligations.MultiplyRunsToCommit : Prop :=
  ∀ (s : State) (rd rs1 rs2 : Reg), s.Drained → s.SomeFree → rd.val < s.cfg.numArch →
    rs1.val < s.cfg.numArch → rs2.val < s.cfg.numArch →
    LivesTo s (.mul rd rs1 rs2) (s.cfg.mulLat + 2)
      ⟨some (rd, sx s.cfg (s.xValue rs1 * s.xValue rs2)), s.z, none, false⟩

/-- 42_memory_ops.md R143, R144, R147: LOAD and LDR from a cell that exists put its value into the destination and
change nothing else. -/
def Obligations.LoadsRunToCommit : Prop :=
  ∀ (s : State) (rd rs1 rs2 : Reg) (imm : Imm), s.Drained → s.SomeFree → rd.val < s.cfg.numArch →
    rs1.val < s.cfg.numArch → rs2.val < s.cfg.numArch →
    let d := sx s.cfg (s.xValue rs1 + imm.toInt)
    let x := sx s.cfg (s.xValue rs1 + s.xValue rs2)
    (InRange s d → LivesTo s (.load rd rs1 imm) 4 ⟨some (rd, s.dm.read d.toNat), s.z, none, false⟩)
      ∧ (InRange s x → LivesTo s (.ldr rd rs1 rs2) 4 ⟨some (rd, s.dm.read x.toNat), s.z, none, false⟩)

/-- 42_memory_ops.md R145 to R147: STORE and STR to a cell that exists write the data register's value to that cell and
change no other cell, no register and no flag, with or without a free register. -/
def Obligations.StoresRunToCommit : Prop :=
  ∀ (s : State) (rs1 rs2 rs3 : Reg) (imm : Imm), s.Drained → s.MemInv → rs1.val < s.cfg.numArch →
    rs2.val < s.cfg.numArch → rs3.val < s.cfg.numArch →
    let d := sx s.cfg (s.xValue rs2 + imm.toInt)
    let x := sx s.cfg (s.xValue rs2 + s.xValue rs3)
    (InRange s d → LivesTo s (.store rs1 rs2 imm) 4 ⟨none, s.z, some (d.toNat, s.xValue rs1), false⟩)
      ∧ (InRange s x → LivesTo s (.str rs1 rs2 rs3) 4 ⟨none, s.z, some (x.toNat, s.xValue rs1), false⟩)

/-- 60_exceptions.md R293, R294: a memory-class instruction whose address is outside data memory accesses nothing and
the machine faults with MEM_RANGE at its commit. -/
def Obligations.OutOfRangeAccessFaults : Prop :=
  ∀ (s : State) (rd rs1 rs2 rs3 : Reg) (imm : Imm), s.Drained → rd.val < s.cfg.numArch →
    rs1.val < s.cfg.numArch → rs2.val < s.cfg.numArch → rs3.val < s.cfg.numArch →
    (s.SomeFree → ¬ InRange s (sx s.cfg (s.xValue rs1 + imm.toInt)) → FaultsOn s (.load rd rs1 imm))
      ∧ (s.SomeFree → ¬ InRange s (sx s.cfg (s.xValue rs1 + s.xValue rs2)) →
          FaultsOn s (.ldr rd rs1 rs2))
      ∧ (¬ InRange s (sx s.cfg (s.xValue rs2 + imm.toInt)) → FaultsOn s (.store rs1 rs2 imm))
      ∧ (¬ InRange s (sx s.cfg (s.xValue rs2 + s.xValue rs3)) → FaultsOn s (.str rs1 rs2 rs3))

/-- 43_control_flow.md R160, R161: BZ is taken exactly when Z is 1 and BNZ exactly when Z is 0; taken, fetch goes to
pc + imm; either way it commits and changes no register, flag or memory. -/
def Obligations.ConditionalBranchesRunToCommit : Prop :=
  ∀ (s : State) (imm : Imm), s.Drained →
    let target := sx s.cfg (s.fl.pc + imm.toInt)
    let nothing : Change := ⟨none, s.z, none, false⟩
    (s.z = true → RedirectsTo s (.bz imm) nothing target ∧ LivesTo s (.bnz imm) 4 nothing)
      ∧ (s.z = false → RedirectsTo s (.bnz imm) nothing target ∧ LivesTo s (.bz imm) 4 nothing)

/-- 43_control_flow.md R162, R163: JUMP and JAL send fetch to Rs1 + imm; JAL leaves the address of the instruction after
it in its destination under the selective restore policy. -/
def Obligations.JumpsRunToCommit : Prop :=
  ∀ (s : State) (rd rs1 : Reg) (imm : Imm), s.Drained → rd.val < s.cfg.numArch → rs1.val < s.cfg.numArch →
    let target := sx s.cfg (s.xValue rs1 + imm.toInt)
    RedirectsTo s (.jump rs1 imm) ⟨none, s.z, none, false⟩ target
      ∧ (s.SomeFree → s.cfg.restorePolicy = .selective →
          RedirectsTo s (.jal rd rs1 imm)
            ⟨some (rd, sx s.cfg (s.fl.pc + s.cfg.insnStride)), s.z, none, false⟩ target)

/-- 93_implementation_defined.md X12: under the verbatim restore policy a JAL commits and redirects fetch, but its own
link is lost: its destination is not valid. -/
def Obligations.VerbatimRestoreLosesTheLink : Prop :=
  ∀ (s : State) (rd rs1 : Reg) (imm : Imm), s.Drained → s.SomeFree → s.cfg.restorePolicy = .verbatim →
    rd.val < s.cfg.numArch → rs1.val < s.cfg.numArch →
    ∃ t1 t, exec (.jal rd rs1 imm) s = .next t1 ∧ ticks 4 t1 = .next t ∧ t.xValid rd = false
      ∧ t.committed = s.committed + 1 ∧ FetchedFrom s t (sx s.cfg (s.xValue rs1 + imm.toInt))

/-- 60_exceptions.md R291, R294: an illegal bundle faults two ticks after it is latched, with its own address and nothing
of the architectural state changed. -/
def Obligations.IllegalBundleFaults : Prop :=
  ∀ (s : State) (x : DecodeError), s.Drained → decode s.cfg.numArch s.fl.bundle = .error x →
    ∃ t1 t, step s = .next t1 ∧ ticks 1 t1 = .next t ∧ t.fault = some ⟨.illegal, s.fl.pc⟩
      ∧ t.halted = false ∧ t.committed = s.committed ∧ t.cycle = s.cycle + 2
      ∧ t.prf = s.prf ∧ t.rat = s.rat ∧ t.z = s.z ∧ t.dm = s.dm

/-! ## Whole-machine rules -/

/-- No step changes the program image, the parameters or the run mode: the image is read-only during a run (20_memory.md
R72), and the parameters and the run mode are inputs given before it (10_state.md R43; 50_cycle_and_fetch.md R191), which
the model holds in its state (assumption logs 1, 5). -/
def Obligations.InputsNeverChange : Prop :=
  ∀ s t : State, step s = .next t → t.program = s.program ∧ t.cfg = s.cfg ∧ t.mode = s.mode

/-- 60_exceptions.md R302: `cycle` grows by one in every tick, `committed` by one in a tick whose commit phase retires the
head entry and by none in another, and where the clock runs no tick (assumption log 4) neither changes. -/
def Obligations.CountersOnlyCount : Prop :=
  ∀ s t : State, step s = .next t →
    (∀ rest, s.clock = .tick rest →
        t.cycle = s.cycle + 1
          ∧ t.committed = s.committed + (match s.robAt s.head with
              | none => 0
              | some e => if 0 < s.count ∧ e.done = true ∧ e.exc = .none then 1 else 0))
      ∧ ((∀ rest, s.clock ≠ .tick rest) → t.cycle = s.cycle ∧ t.committed = s.committed)

/-- 10_state.md R26: Z is written only by a CMP in the integer unit, with the equality of its operands. -/
def Obligations.OnlyCompareWritesZ : Prop :=
  ∀ s t : State, step s = .next t → t.z ≠ s.z →
    ∃ o, s.uInt.occ = some o ∧ o.op = .cmp ∧ t.z = decide (o.a = o.b)

/-- 10_state.md R27: pc advances by INSN_STRIDE or is set to the target of a taken control-flow instruction in branch
stage 2, and nothing else writes it. -/
def Obligations.OnlyFetchAndRecoveryWritePc : Prop :=
  ∀ s t : State, step s = .next t →
    t.pc = s.pc ∨ t.pc = sx s.cfg (s.pc + s.cfg.insnStride)
      ∨ ∃ o, s.uBr.occ = some o ∧ s.uBr.stage = .two ∧ s.uBr.taken = true ∧ t.pc = s.uBr.target

/-- 20_memory.md R74, R75: data memory changes only by a store in memory stage 2 whose entry is the ROB head and has no
exception, and then only in the cell the store addresses, whatever the policies. -/
def Obligations.OnlyTheHeadStoreWritesMemory : Prop :=
  ∀ s t : State, s.MemInv → s.RingInv → s.PipeInv → step s = .next t → t.dm ≠ s.dm →
    ∃ o e, s.uMem.occ = some o ∧ s.uMem.stage = .two ∧ (o.op = .store ∨ o.op = .str)
      ∧ o.rob = s.head ∧ s.robAt s.head = some e ∧ e.exc = .none ∧ InRange s s.uMem.addr
      ∧ t.dm.read s.uMem.addr.toNat = s.uMem.sval
      ∧ ∀ x, x ≠ s.uMem.addr.toNat → t.dm.read x = s.dm.read x

/-! ## Invariants -/

/-- Every step keeps the data memory canonical: rising addresses below MEM_WORDS, no listed cell that holds 0
(20_memory.md R61, R63; assumption log 10). -/
def Obligations.StepKeepsMemoryCanonical : Prop :=
  ∀ s t : State, s.MemInv → step s = .next t → t.MemInv

/-- 10_state.md R30, R32: every step keeps the reorder buffer a ring whose count never goes below 0 or above ROB_SIZE,
with entries exactly at the occupied indices, and the issue queue within its capacity. -/
def Obligations.StepKeepsRing : Prop :=
  ∀ s t : State, s.RingInv → step s = .next t → t.RingInv

/-- Whatever the policies, every step keeps the structure of the machine: the memory's form, the ring, the sizes and tags of
the tables, the links between queue, units, reorder buffer and checkpoints with the queue in age order, and every value
within XLEN bits (00_scope.md R8; 10_state.md R30, R35 to R37; 51_rename_dispatch.md R216 item 1; 20_memory.md R63, R69).
That values are integers kept in that range is the model's form (assumption log 17). -/
def Obligations.StepKeepsStructure : Prop :=
  ∀ s t : State, s.MemInv → s.RingInv → s.ShapeInv → s.PipeInv → s.ValueInv → step s = .next t →
    t.MemInv ∧ t.RingInv ∧ t.ShapeInv ∧ t.PipeInv ∧ t.ValueInv

/-- Under the default policies every step keeps the machine's whole invariant: the ring, the sizes and tags of the tables,
the links between queue, units, reorder buffer and checkpoints with the queue in age order, the range of values, the books
of renaming, an older producer in flight for every operand that waits, and an allocated register, written once, for every
instruction that is to write one (10_state.md R22, R30 to R32, R37; 51_rename_dispatch.md R216 items 1 to 5;
52_issue_units.md R248; 53_recovery_commit.md R264). -/
def Obligations.StepKeepsInvariant : Prop :=
  ∀ s t : State, s.cfg.freePolicy = .prev → s.cfg.restorePolicy = .selective → s.Inv → step s = .next t → t.Inv

/-- 10_state.md R22: under the default policies, in every state that a run from a reset state reaches, no register that
the rename table maps is marked free, and no two architectural registers share one. -/
def Obligations.MappedRegistersAreNeverFree : Prop :=
  ∀ (c : Config) (program : List Bundle) (dmInit : Memory) (mode : RunMode) (replies : List Reply) (k : Nat)
    (t : State), c.ok = true → c.freePolicy = .prev → c.restorePolicy = .selective → dmInit.wf c.memWords = true →
    (∀ x ∈ dmInit, c.fits x.2) → ticks k (State.boot c program dmInit mode replies) = .next t →
    (∀ a : Reg, a.val < c.numArch → (t.preg (t.mapping a)).free = false)
      ∧ ∀ a b : Reg, a.val < c.numArch → b.val < c.numArch → t.mapping a = t.mapping b → a = b

/-- The model's own stops are never reached: with a legal configuration and the ring and the links of the machine intact,
every step answers a next state, whatever the policies (20_memory.md R63; 53_recovery_commit.md R260; assumption
log 11). -/
def Obligations.StepNeverFaultsInTheInvariant : Prop :=
  ∀ s : State, s.cfg.ok = true → s.RingInv → s.PipeInv → ∃ t, step s = .next t

/-- The reset state, for every legal choice of the host's inputs, satisfies the invariant (10_state.md R42). -/
def Obligations.BootSatisfiesInvariant : Prop :=
  ∀ (c : Config) (program : List Bundle) (dmInit : Memory) (mode : RunMode) (replies : List Reply),
    c.ok = true → dmInit.wf c.memWords = true → (∀ x ∈ dmInit, c.fits x.2) →
    (State.boot c program dmInit mode replies).Inv

/-- The reset state satisfies the invariant (10_state.md R42). -/
def Obligations.ResetSatisfiesInvariant : Prop := State.reset.Inv
end

