-- ==== Sys2Proof/Laws/Encoding.lean ====
section
/-! SUPPORT. Laws/Encoding.lean: each field of a bundle built from fields reads back (30_encoding.md R80). -/

namespace Sys2Proof

/-- The opcode number leads back to the opcode (30_encoding.md R83). -/
theorem Op.ofCode?_code (op : Op) : Op.ofCode? op.code = some op := by
  cases op <;> rfl

/-- An assigned number is the number of its opcode (30_encoding.md R83). -/
theorem Op.code_of_ofCode? {c : OpField} {op : Op} (h : Op.ofCode? c = some op) : op.code = c := by
  revert h; revert op; revert c; decide

/-- The bit at place k of a bundle built from fields (30_encoding.md R80). -/
theorem Bundle.getLsbD_ofFields (op : OpField) (rd rs1 rs2 rs3 : Reg) (imm : Imm) (k : Nat) :
    (Bundle.ofFields op rd rs1 rs2 rs3 imm).getLsbD k =
      if k < 32 then imm.getLsbD k
      else if k < 43 then false
      else if k < 47 then rs3.val.testBit (k - 43)
      else if k < 51 then rs2.val.testBit (k - 47)
      else if k < 55 then rs1.val.testBit (k - 51)
      else if k < 59 then rd.val.testBit (k - 55)
      else op.getLsbD (k - 59) := by
  have e1 : (k - 32 < 11) ↔ (k < 43) := by omega
  have e2 : (k - 43 < 4) ↔ (k < 47) := by omega
  have e3 : (k - 47 < 4) ↔ (k < 51) := by omega
  have e4 : (k - 51 < 4) ↔ (k < 55) := by omega
  have e5 : (k - 55 < 4) ↔ (k < 59) := by omega
  have s2 : k - 32 - 11 = k - 43 := by omega
  have s3 : k - 43 - 4 = k - 47 := by omega
  have s4 : k - 47 - 4 = k - 51 := by omega
  have s5 : k - 51 - 4 = k - 55 := by omega
  have s6 : k - 55 - 4 = k - 59 := by omega
  unfold Bundle.ofFields
  simp only [BitVec.getLsbD_append, e1, e2, e3, e4, e5, s2, s3, s4, s5, s6]
  simp [BitVec.getLsbD]

@[simp] theorem Bundle.opcode_ofFields (op : OpField) (rd rs1 rs2 rs3 : Reg) (imm : Imm) :
    (Bundle.ofFields op rd rs1 rs2 rs3 imm).opcode = op := by
  apply BitVec.eq_of_getLsbD_eq
  intro i hi
  rw [Bundle.opcode, BitVec.getLsbD_extractLsb', Bundle.getLsbD_ofFields]
  have h (n : Nat) (hn : n ≤ 59) : ¬ 59 + i < n := by omega
  simp [hi, h]

/-- A 4-bit field is read as the register number whose bits it holds. -/
theorem reg_eq_of_testBit {w : Bundle} {k : Nat} {r : Reg}
    (h : ∀ i, i < 4 → w.getLsbD (k + i) = r.val.testBit i) : (w.extractLsb' k 4).toFin = r := by
  have : w.extractLsb' k 4 = BitVec.ofFin r := by
    apply BitVec.eq_of_getLsbD_eq
    intro i hi
    rw [BitVec.getLsbD_extractLsb', h i hi]
    simp [hi, BitVec.getLsbD]
  rw [this]

@[simp] theorem Bundle.rd_ofFields (op : OpField) (rd rs1 rs2 rs3 : Reg) (imm : Imm) :
    (Bundle.ofFields op rd rs1 rs2 rs3 imm).rd = rd := by
  apply reg_eq_of_testBit
  intro i hi
  rw [Bundle.getLsbD_ofFields]
  have h (n : Nat) (hn : n ≤ 55) : ¬ 55 + i < n := by omega
  have h' : 55 + i < 59 := by omega
  simp [h, h']

@[simp] theorem Bundle.rs1_ofFields (op : OpField) (rd rs1 rs2 rs3 : Reg) (imm : Imm) :
    (Bundle.ofFields op rd rs1 rs2 rs3 imm).rs1 = rs1 := by
  apply reg_eq_of_testBit
  intro i hi
  rw [Bundle.getLsbD_ofFields]
  have h (n : Nat) (hn : n ≤ 51) : ¬ 51 + i < n := by omega
  have h' : 51 + i < 55 := by omega
  simp [h, h']

@[simp] theorem Bundle.rs2_ofFields (op : OpField) (rd rs1 rs2 rs3 : Reg) (imm : Imm) :
    (Bundle.ofFields op rd rs1 rs2 rs3 imm).rs2 = rs2 := by
  apply reg_eq_of_testBit
  intro i hi
  rw [Bundle.getLsbD_ofFields]
  have h (n : Nat) (hn : n ≤ 47) : ¬ 47 + i < n := by omega
  have h' : 47 + i < 51 := by omega
  simp [h, h']

@[simp] theorem Bundle.rs3_ofFields (op : OpField) (rd rs1 rs2 rs3 : Reg) (imm : Imm) :
    (Bundle.ofFields op rd rs1 rs2 rs3 imm).rs3 = rs3 := by
  apply reg_eq_of_testBit
  intro i hi
  rw [Bundle.getLsbD_ofFields]
  have h (n : Nat) (hn : n ≤ 43) : ¬ 43 + i < n := by omega
  have h' : 43 + i < 47 := by omega
  simp [h, h']

@[simp] theorem Bundle.imm_ofFields (op : OpField) (rd rs1 rs2 rs3 : Reg) (imm : Imm) :
    (Bundle.ofFields op rd rs1 rs2 rs3 imm).imm = imm := by
  apply BitVec.eq_of_getLsbD_eq
  intro i hi
  rw [Bundle.imm, BitVec.getLsbD_extractLsb', Bundle.getLsbD_ofFields]
  simp [hi]

/-- The reserved bits 42:32 are 0. -/
@[simp] theorem Bundle.reserved_ofFields (op : OpField) (rd rs1 rs2 rs3 : Reg) (imm : Imm) :
    (Bundle.ofFields op rd rs1 rs2 rs3 imm).extractLsb' 32 11 = 0 := by
  apply BitVec.eq_of_getLsbD_eq
  intro i hi
  rw [BitVec.getLsbD_extractLsb', Bundle.getLsbD_ofFields]
  have h : ¬ 32 + i < 32 := by omega
  have h' : 32 + i < 43 := by omega
  simp [h, h']

end Sys2Proof
end

