-- ==== Sys2Proof/Laws/Memory.lean ====
section
/-! SUPPORT. Laws/Memory.lean: reading after writing, and the canonical form that every memory operation keeps. -/

namespace Sys2Proof.Machine

theorem Memory.read_of_forall_lt {m : Memory} {a : Nat} (h : ∀ c ∈ m, a < c.1) :
    m.read a = unlistedCell := by
  induction m with
  | nil => rfl
  | cons c m ih =>
    obtain ⟨k, v⟩ := c
    have hk : a < k := h (k, v) (by simp)
    have : ¬ k = a := by omega
    simp only [Memory.read, this, if_false]
    exact ih fun c hc => h c (by simp [hc])

/-- What `Memory.wf` says of a non-empty memory. -/
theorem Memory.wf_cons {n k : Nat} {v : Int} {m : Memory} :
    Memory.wf n ((k, v) :: m) = true ↔
      k < n ∧ v ≠ unlistedCell ∧ (∀ c ∈ m, k < c.1) ∧ Memory.wf n m = true := by
  simp [Memory.wf, List.all_eq_true, and_assoc]

/-- A cell written reads as written (20_memory.md R63). -/
theorem Memory.read_write_same {n : Nat} {m : Memory} (h : m.wf n = true) (a : Nat) (v : Int) :
    (m.write a v).read a = v := by
  induction m with
  | nil =>
    unfold Memory.write
    split
    · next hv => simp [Memory.read, hv]
    · simp [Memory.read]
  | cons c m ih =>
    obtain ⟨k, w⟩ := c
    obtain ⟨-, -, hlt, hm⟩ := Memory.wf_cons.mp h
    unfold Memory.write
    split
    · next hak =>
      split
      · next hv =>
        rw [hv]
        apply Memory.read_of_forall_lt
        intro c hc
        rcases List.mem_cons.mp hc with rfl | hc
        · exact hak
        · exact Nat.lt_trans hak (hlt c hc)
      · simp [Memory.read]
    · split
      · next hak =>
        subst hak
        split
        · next hv => rw [hv]; exact Memory.read_of_forall_lt hlt
        · simp [Memory.read]
      · next hak =>
        have : ¬ k = a := fun e => hak e.symm
        simp only [Memory.read, this, if_false]
        exact ih hm

/-- A write leaves every other cell alone (20_memory.md R61). -/
theorem Memory.read_write_other {m : Memory} (a : Nat) (v : Int) {x : Nat} (h : x ≠ a) :
    (m.write a v).read x = m.read x := by
  have ha : ¬ a = x := fun e => h e.symm
  induction m with
  | nil =>
    unfold Memory.write
    split <;> simp [Memory.read, ha]
  | cons c m ih =>
    obtain ⟨k, w⟩ := c
    unfold Memory.write
    split
    · split
      · rfl
      · simp [Memory.read, ha]
    · split
      · next hak =>
        subst hak
        split
        · simp [Memory.read, ha]
        · simp [Memory.read, ha]
      · simp only [Memory.read, ih]

/-- Every cell a write lists is the one written or was listed before. -/
theorem Memory.mem_write {m : Memory} {a : Nat} {v : Int} {c : Nat × Int}
    (h : c ∈ m.write a v) : c = (a, v) ∨ c ∈ m := by
  induction m with
  | nil =>
    unfold Memory.write at h
    split at h <;> simp_all
  | cons d m ih =>
    obtain ⟨k, w⟩ := d
    unfold Memory.write at h
    split at h
    · split at h
      · exact Or.inr h
      · rcases List.mem_cons.mp h with rfl | h
        · exact Or.inl rfl
        · exact Or.inr h
    · split at h
      · split at h
        · exact Or.inr (by simp [h])
        · rcases List.mem_cons.mp h with rfl | h
          · exact Or.inl rfl
          · exact Or.inr (by simp [h])
      · rcases List.mem_cons.mp h with rfl | h
        · exact Or.inr (by simp)
        · rcases ih h with h | h
          · exact Or.inl h
          · exact Or.inr (by simp [h])

/-- A write in range keeps the canonical form (assumption log 10). -/
theorem Memory.write_wf {n : Nat} {m : Memory} (h : m.wf n = true) {a : Nat} (ha : a < n) (v : Int) :
    (m.write a v).wf n = true := by
  induction m with
  | nil =>
    unfold Memory.write
    split
    · exact h
    · next hv => exact Memory.wf_cons.mpr ⟨ha, hv, by simp, rfl⟩
  | cons c m ih =>
    obtain ⟨k, w⟩ := c
    obtain ⟨hk, hw, hlt, hm⟩ := Memory.wf_cons.mp h
    unfold Memory.write
    split
    · next hak =>
      split
      · exact h
      · next hv =>
        refine Memory.wf_cons.mpr ⟨ha, hv, ?_, h⟩
        intro c hc
        rcases List.mem_cons.mp hc with rfl | hc
        · exact hak
        · exact Nat.lt_trans hak (hlt c hc)
    · split
      · next hak =>
        split
        · exact hm
        · next hv =>
          subst hak
          exact Memory.wf_cons.mpr ⟨ha, hv, hlt, hm⟩
      · next h1 h2 =>
        refine Memory.wf_cons.mpr ⟨hk, hw, ?_, ih hm⟩
        intro c hc
        rcases Memory.mem_write hc with rfl | hc
        · show k < a
          omega
        · exact hlt c hc

/-- Canonical memories that read alike are equal data. -/
theorem Memory.ext_of_wf {n : Nat} {m m' : Memory} (h : m.wf n = true) (h' : m'.wf n = true)
    (hr : ∀ a, m.read a = m'.read a) : m = m' := by
  induction m generalizing m' with
  | nil =>
    cases m' with
    | nil => rfl
    | cons c m' =>
      obtain ⟨k, v⟩ := c
      obtain ⟨-, hv, -, -⟩ := Memory.wf_cons.mp h'
      have := hr k
      simp [Memory.read] at this
      exact absurd this.symm hv
  | cons c m ih =>
    obtain ⟨k, v⟩ := c
    obtain ⟨-, hv, hlt, hm⟩ := Memory.wf_cons.mp h
    cases m' with
    | nil =>
      have := hr k
      simp [Memory.read] at this
      exact absurd this hv
    | cons c' m' =>
      obtain ⟨k', v'⟩ := c'
      obtain ⟨-, hv', hlt', hm'⟩ := Memory.wf_cons.mp h'
      have hkk : k = k' := by
        rcases Nat.lt_trichotomy k k' with hlt1 | heq | hlt1
        · have h1 := hr k
          rw [Memory.read_of_forall_lt (m := (k', v') :: m') (a := k)] at h1
          · simp [Memory.read] at h1; exact absurd h1 hv
          · intro c hc
            rcases List.mem_cons.mp hc with rfl | hc
            · exact hlt1
            · exact Nat.lt_trans hlt1 (hlt' c hc)
        · exact heq
        · have h1 := hr k'
          rw [Memory.read_of_forall_lt (m := (k, v) :: m) (a := k')] at h1
          · simp [Memory.read] at h1; exact absurd h1.symm hv'
          · intro c hc
            rcases List.mem_cons.mp hc with rfl | hc
            · exact hlt1
            · exact Nat.lt_trans hlt1 (hlt c hc)
      subst hkk
      have hvv : v = v' := by simpa [Memory.read] using hr k
      subst hvv
      congr 1
      apply ih hm hm'
      intro a
      by_cases hka : k = a
      · subst hka
        rw [Memory.read_of_forall_lt hlt, Memory.read_of_forall_lt hlt']
      · simpa [Memory.read, hka] using hr a

/-- An address in range, as a signed value, is a cell index below MEM_WORDS (42_memory_ops.md R141). -/
theorem addrInRange_toNat {n : Nat} {a : Int} (h : addrInRange n a = true) :
    a.toNat < n ∧ a = (a.toNat : Int) := by
  simp only [addrInRange, Bool.and_eq_true, decide_eq_true_eq] at h
  omega

/-- The memory of the reset state is canonical. -/
theorem reset_memory_wf : State.reset.dm.wf State.reset.cfg.memWords = true := rfl

end Sys2Proof.Machine
end

