-- ==== Sys2Proof/Laws/State.lean ====
section
/-! SUPPORT. Laws/State.lean: the frame of every named operation, one lemma per field the operation leaves alone, so that
no later proof unfolds a record update. -/

namespace Sys2Proof.Machine

/-! ### memWrite -/

@[simp] theorem memWrite_cfg (s : State) (a v : Int) : (s.memWrite a v).cfg = s.cfg := rfl

@[simp] theorem memWrite_program (s : State) (a v : Int) : (s.memWrite a v).program = s.program := rfl

@[simp] theorem memWrite_mode (s : State) (a v : Int) : (s.memWrite a v).mode = s.mode := rfl

@[simp] theorem memWrite_replies (s : State) (a v : Int) : (s.memWrite a v).replies = s.replies := rfl

@[simp] theorem memWrite_quit (s : State) (a v : Int) : (s.memWrite a v).quit = s.quit := rfl

@[simp] theorem memWrite_prf (s : State) (a v : Int) : (s.memWrite a v).prf = s.prf := rfl

@[simp] theorem memWrite_rat (s : State) (a v : Int) : (s.memWrite a v).rat = s.rat := rfl

@[simp] theorem memWrite_z (s : State) (a v : Int) : (s.memWrite a v).z = s.z := rfl

@[simp] theorem memWrite_pc (s : State) (a v : Int) : (s.memWrite a v).pc = s.pc := rfl

@[simp] theorem memWrite_fl (s : State) (a v : Int) : (s.memWrite a v).fl = s.fl := rfl

@[simp] theorem memWrite_fetchStopped (s : State) (a v : Int) : (s.memWrite a v).fetchStopped = s.fetchStopped := rfl

@[simp] theorem memWrite_fetchSuppress (s : State) (a v : Int) : (s.memWrite a v).fetchSuppress = s.fetchSuppress := rfl

@[simp] theorem memWrite_rob (s : State) (a v : Int) : (s.memWrite a v).rob = s.rob := rfl

@[simp] theorem memWrite_head (s : State) (a v : Int) : (s.memWrite a v).head = s.head := rfl

@[simp] theorem memWrite_tail (s : State) (a v : Int) : (s.memWrite a v).tail = s.tail := rfl

@[simp] theorem memWrite_count (s : State) (a v : Int) : (s.memWrite a v).count = s.count := rfl

@[simp] theorem memWrite_iq (s : State) (a v : Int) : (s.memWrite a v).iq = s.iq := rfl

@[simp] theorem memWrite_ck (s : State) (a v : Int) : (s.memWrite a v).ck = s.ck := rfl

@[simp] theorem memWrite_uInt (s : State) (a v : Int) : (s.memWrite a v).uInt = s.uInt := rfl

@[simp] theorem memWrite_uMul (s : State) (a v : Int) : (s.memWrite a v).uMul = s.uMul := rfl

@[simp] theorem memWrite_uMem (s : State) (a v : Int) : (s.memWrite a v).uMem = s.uMem := rfl

@[simp] theorem memWrite_uBr (s : State) (a v : Int) : (s.memWrite a v).uBr = s.uBr := rfl

@[simp] theorem memWrite_cycle (s : State) (a v : Int) : (s.memWrite a v).cycle = s.cycle := rfl

@[simp] theorem memWrite_committed (s : State) (a v : Int) : (s.memWrite a v).committed = s.committed := rfl

@[simp] theorem memWrite_halted (s : State) (a v : Int) : (s.memWrite a v).halted = s.halted := rfl

@[simp] theorem memWrite_fault (s : State) (a v : Int) : (s.memWrite a v).fault = s.fault := rfl

/-! ### writeBack -/

@[simp] theorem writeBack_cfg (s : State) (p : Option Nat) (v : Int) : (s.writeBack p v).cfg = s.cfg := rfl

@[simp] theorem writeBack_program (s : State) (p : Option Nat) (v : Int) : (s.writeBack p v).program = s.program := rfl

@[simp] theorem writeBack_mode (s : State) (p : Option Nat) (v : Int) : (s.writeBack p v).mode = s.mode := rfl

@[simp] theorem writeBack_replies (s : State) (p : Option Nat) (v : Int) : (s.writeBack p v).replies = s.replies := rfl

@[simp] theorem writeBack_quit (s : State) (p : Option Nat) (v : Int) : (s.writeBack p v).quit = s.quit := rfl

@[simp] theorem writeBack_rat (s : State) (p : Option Nat) (v : Int) : (s.writeBack p v).rat = s.rat := rfl

@[simp] theorem writeBack_z (s : State) (p : Option Nat) (v : Int) : (s.writeBack p v).z = s.z := rfl

@[simp] theorem writeBack_pc (s : State) (p : Option Nat) (v : Int) : (s.writeBack p v).pc = s.pc := rfl

@[simp] theorem writeBack_fl (s : State) (p : Option Nat) (v : Int) : (s.writeBack p v).fl = s.fl := rfl

@[simp] theorem writeBack_fetchStopped (s : State) (p : Option Nat) (v : Int) : (s.writeBack p v).fetchStopped = s.fetchStopped := rfl

@[simp] theorem writeBack_fetchSuppress (s : State) (p : Option Nat) (v : Int) : (s.writeBack p v).fetchSuppress = s.fetchSuppress := rfl

@[simp] theorem writeBack_rob (s : State) (p : Option Nat) (v : Int) : (s.writeBack p v).rob = s.rob := rfl

@[simp] theorem writeBack_head (s : State) (p : Option Nat) (v : Int) : (s.writeBack p v).head = s.head := rfl

@[simp] theorem writeBack_tail (s : State) (p : Option Nat) (v : Int) : (s.writeBack p v).tail = s.tail := rfl

@[simp] theorem writeBack_count (s : State) (p : Option Nat) (v : Int) : (s.writeBack p v).count = s.count := rfl

@[simp] theorem writeBack_ck (s : State) (p : Option Nat) (v : Int) : (s.writeBack p v).ck = s.ck := rfl

@[simp] theorem writeBack_uInt (s : State) (p : Option Nat) (v : Int) : (s.writeBack p v).uInt = s.uInt := rfl

@[simp] theorem writeBack_uMul (s : State) (p : Option Nat) (v : Int) : (s.writeBack p v).uMul = s.uMul := rfl

@[simp] theorem writeBack_uMem (s : State) (p : Option Nat) (v : Int) : (s.writeBack p v).uMem = s.uMem := rfl

@[simp] theorem writeBack_uBr (s : State) (p : Option Nat) (v : Int) : (s.writeBack p v).uBr = s.uBr := rfl

@[simp] theorem writeBack_dm (s : State) (p : Option Nat) (v : Int) : (s.writeBack p v).dm = s.dm := rfl

@[simp] theorem writeBack_cycle (s : State) (p : Option Nat) (v : Int) : (s.writeBack p v).cycle = s.cycle := rfl

@[simp] theorem writeBack_committed (s : State) (p : Option Nat) (v : Int) : (s.writeBack p v).committed = s.committed := rfl

@[simp] theorem writeBack_halted (s : State) (p : Option Nat) (v : Int) : (s.writeBack p v).halted = s.halted := rfl

@[simp] theorem writeBack_fault (s : State) (p : Option Nat) (v : Int) : (s.writeBack p v).fault = s.fault := rfl

/-! ### modifyRob -/

@[simp] theorem modifyRob_cfg (s : State) (r : Nat) (f : RobEntry → RobEntry) : (s.modifyRob r f).cfg = s.cfg := rfl

@[simp] theorem modifyRob_program (s : State) (r : Nat) (f : RobEntry → RobEntry) : (s.modifyRob r f).program = s.program := rfl

@[simp] theorem modifyRob_mode (s : State) (r : Nat) (f : RobEntry → RobEntry) : (s.modifyRob r f).mode = s.mode := rfl

@[simp] theorem modifyRob_replies (s : State) (r : Nat) (f : RobEntry → RobEntry) : (s.modifyRob r f).replies = s.replies := rfl

@[simp] theorem modifyRob_quit (s : State) (r : Nat) (f : RobEntry → RobEntry) : (s.modifyRob r f).quit = s.quit := rfl

@[simp] theorem modifyRob_prf (s : State) (r : Nat) (f : RobEntry → RobEntry) : (s.modifyRob r f).prf = s.prf := rfl

@[simp] theorem modifyRob_rat (s : State) (r : Nat) (f : RobEntry → RobEntry) : (s.modifyRob r f).rat = s.rat := rfl

@[simp] theorem modifyRob_z (s : State) (r : Nat) (f : RobEntry → RobEntry) : (s.modifyRob r f).z = s.z := rfl

@[simp] theorem modifyRob_pc (s : State) (r : Nat) (f : RobEntry → RobEntry) : (s.modifyRob r f).pc = s.pc := rfl

@[simp] theorem modifyRob_fl (s : State) (r : Nat) (f : RobEntry → RobEntry) : (s.modifyRob r f).fl = s.fl := rfl

@[simp] theorem modifyRob_fetchStopped (s : State) (r : Nat) (f : RobEntry → RobEntry) : (s.modifyRob r f).fetchStopped = s.fetchStopped := rfl

@[simp] theorem modifyRob_fetchSuppress (s : State) (r : Nat) (f : RobEntry → RobEntry) : (s.modifyRob r f).fetchSuppress = s.fetchSuppress := rfl

@[simp] theorem modifyRob_head (s : State) (r : Nat) (f : RobEntry → RobEntry) : (s.modifyRob r f).head = s.head := rfl

@[simp] theorem modifyRob_tail (s : State) (r : Nat) (f : RobEntry → RobEntry) : (s.modifyRob r f).tail = s.tail := rfl

@[simp] theorem modifyRob_count (s : State) (r : Nat) (f : RobEntry → RobEntry) : (s.modifyRob r f).count = s.count := rfl

@[simp] theorem modifyRob_iq (s : State) (r : Nat) (f : RobEntry → RobEntry) : (s.modifyRob r f).iq = s.iq := rfl

@[simp] theorem modifyRob_ck (s : State) (r : Nat) (f : RobEntry → RobEntry) : (s.modifyRob r f).ck = s.ck := rfl

@[simp] theorem modifyRob_uInt (s : State) (r : Nat) (f : RobEntry → RobEntry) : (s.modifyRob r f).uInt = s.uInt := rfl

@[simp] theorem modifyRob_uMul (s : State) (r : Nat) (f : RobEntry → RobEntry) : (s.modifyRob r f).uMul = s.uMul := rfl

@[simp] theorem modifyRob_uMem (s : State) (r : Nat) (f : RobEntry → RobEntry) : (s.modifyRob r f).uMem = s.uMem := rfl

@[simp] theorem modifyRob_uBr (s : State) (r : Nat) (f : RobEntry → RobEntry) : (s.modifyRob r f).uBr = s.uBr := rfl

@[simp] theorem modifyRob_dm (s : State) (r : Nat) (f : RobEntry → RobEntry) : (s.modifyRob r f).dm = s.dm := rfl

@[simp] theorem modifyRob_cycle (s : State) (r : Nat) (f : RobEntry → RobEntry) : (s.modifyRob r f).cycle = s.cycle := rfl

@[simp] theorem modifyRob_committed (s : State) (r : Nat) (f : RobEntry → RobEntry) : (s.modifyRob r f).committed = s.committed := rfl

@[simp] theorem modifyRob_halted (s : State) (r : Nat) (f : RobEntry → RobEntry) : (s.modifyRob r f).halted = s.halted := rfl

@[simp] theorem modifyRob_fault (s : State) (r : Nat) (f : RobEntry → RobEntry) : (s.modifyRob r f).fault = s.fault := rfl

/-! ### complete -/

@[simp] theorem complete_cfg (s : State) (r : Nat) : (s.complete r).cfg = s.cfg := rfl

@[simp] theorem complete_program (s : State) (r : Nat) : (s.complete r).program = s.program := rfl

@[simp] theorem complete_mode (s : State) (r : Nat) : (s.complete r).mode = s.mode := rfl

@[simp] theorem complete_replies (s : State) (r : Nat) : (s.complete r).replies = s.replies := rfl

@[simp] theorem complete_quit (s : State) (r : Nat) : (s.complete r).quit = s.quit := rfl

@[simp] theorem complete_prf (s : State) (r : Nat) : (s.complete r).prf = s.prf := rfl

@[simp] theorem complete_rat (s : State) (r : Nat) : (s.complete r).rat = s.rat := rfl

@[simp] theorem complete_z (s : State) (r : Nat) : (s.complete r).z = s.z := rfl

@[simp] theorem complete_pc (s : State) (r : Nat) : (s.complete r).pc = s.pc := rfl

@[simp] theorem complete_fl (s : State) (r : Nat) : (s.complete r).fl = s.fl := rfl

@[simp] theorem complete_fetchStopped (s : State) (r : Nat) : (s.complete r).fetchStopped = s.fetchStopped := rfl

@[simp] theorem complete_fetchSuppress (s : State) (r : Nat) : (s.complete r).fetchSuppress = s.fetchSuppress := rfl

@[simp] theorem complete_head (s : State) (r : Nat) : (s.complete r).head = s.head := rfl

@[simp] theorem complete_tail (s : State) (r : Nat) : (s.complete r).tail = s.tail := rfl

@[simp] theorem complete_count (s : State) (r : Nat) : (s.complete r).count = s.count := rfl

@[simp] theorem complete_iq (s : State) (r : Nat) : (s.complete r).iq = s.iq := rfl

@[simp] theorem complete_ck (s : State) (r : Nat) : (s.complete r).ck = s.ck := rfl

@[simp] theorem complete_uInt (s : State) (r : Nat) : (s.complete r).uInt = s.uInt := rfl

@[simp] theorem complete_uMul (s : State) (r : Nat) : (s.complete r).uMul = s.uMul := rfl

@[simp] theorem complete_uMem (s : State) (r : Nat) : (s.complete r).uMem = s.uMem := rfl

@[simp] theorem complete_uBr (s : State) (r : Nat) : (s.complete r).uBr = s.uBr := rfl

@[simp] theorem complete_dm (s : State) (r : Nat) : (s.complete r).dm = s.dm := rfl

@[simp] theorem complete_cycle (s : State) (r : Nat) : (s.complete r).cycle = s.cycle := rfl

@[simp] theorem complete_committed (s : State) (r : Nat) : (s.complete r).committed = s.committed := rfl

@[simp] theorem complete_halted (s : State) (r : Nat) : (s.complete r).halted = s.halted := rfl

@[simp] theorem complete_fault (s : State) (r : Nat) : (s.complete r).fault = s.fault := rfl

/-! ### raiseExc -/

@[simp] theorem raiseExc_cfg (s : State) (r : Nat) (x : Exc) : (s.raiseExc r x).cfg = s.cfg := rfl

@[simp] theorem raiseExc_program (s : State) (r : Nat) (x : Exc) : (s.raiseExc r x).program = s.program := rfl

@[simp] theorem raiseExc_mode (s : State) (r : Nat) (x : Exc) : (s.raiseExc r x).mode = s.mode := rfl

@[simp] theorem raiseExc_replies (s : State) (r : Nat) (x : Exc) : (s.raiseExc r x).replies = s.replies := rfl

@[simp] theorem raiseExc_quit (s : State) (r : Nat) (x : Exc) : (s.raiseExc r x).quit = s.quit := rfl

@[simp] theorem raiseExc_prf (s : State) (r : Nat) (x : Exc) : (s.raiseExc r x).prf = s.prf := rfl

@[simp] theorem raiseExc_rat (s : State) (r : Nat) (x : Exc) : (s.raiseExc r x).rat = s.rat := rfl

@[simp] theorem raiseExc_z (s : State) (r : Nat) (x : Exc) : (s.raiseExc r x).z = s.z := rfl

@[simp] theorem raiseExc_pc (s : State) (r : Nat) (x : Exc) : (s.raiseExc r x).pc = s.pc := rfl

@[simp] theorem raiseExc_fl (s : State) (r : Nat) (x : Exc) : (s.raiseExc r x).fl = s.fl := rfl

@[simp] theorem raiseExc_fetchStopped (s : State) (r : Nat) (x : Exc) : (s.raiseExc r x).fetchStopped = s.fetchStopped := rfl

@[simp] theorem raiseExc_fetchSuppress (s : State) (r : Nat) (x : Exc) : (s.raiseExc r x).fetchSuppress = s.fetchSuppress := rfl

@[simp] theorem raiseExc_head (s : State) (r : Nat) (x : Exc) : (s.raiseExc r x).head = s.head := rfl

@[simp] theorem raiseExc_tail (s : State) (r : Nat) (x : Exc) : (s.raiseExc r x).tail = s.tail := rfl

@[simp] theorem raiseExc_count (s : State) (r : Nat) (x : Exc) : (s.raiseExc r x).count = s.count := rfl

@[simp] theorem raiseExc_iq (s : State) (r : Nat) (x : Exc) : (s.raiseExc r x).iq = s.iq := rfl

@[simp] theorem raiseExc_ck (s : State) (r : Nat) (x : Exc) : (s.raiseExc r x).ck = s.ck := rfl

@[simp] theorem raiseExc_uInt (s : State) (r : Nat) (x : Exc) : (s.raiseExc r x).uInt = s.uInt := rfl

@[simp] theorem raiseExc_uMul (s : State) (r : Nat) (x : Exc) : (s.raiseExc r x).uMul = s.uMul := rfl

@[simp] theorem raiseExc_uMem (s : State) (r : Nat) (x : Exc) : (s.raiseExc r x).uMem = s.uMem := rfl

@[simp] theorem raiseExc_uBr (s : State) (r : Nat) (x : Exc) : (s.raiseExc r x).uBr = s.uBr := rfl

@[simp] theorem raiseExc_dm (s : State) (r : Nat) (x : Exc) : (s.raiseExc r x).dm = s.dm := rfl

@[simp] theorem raiseExc_cycle (s : State) (r : Nat) (x : Exc) : (s.raiseExc r x).cycle = s.cycle := rfl

@[simp] theorem raiseExc_committed (s : State) (r : Nat) (x : Exc) : (s.raiseExc r x).committed = s.committed := rfl

@[simp] theorem raiseExc_halted (s : State) (r : Nat) (x : Exc) : (s.raiseExc r x).halted = s.halted := rfl

@[simp] theorem raiseExc_fault (s : State) (r : Nat) (x : Exc) : (s.raiseExc r x).fault = s.fault := rfl

/-! ### takeFault -/

@[simp] theorem takeFault_cfg (s : State) (e : RobEntry) : (s.takeFault e).cfg = s.cfg := rfl

@[simp] theorem takeFault_program (s : State) (e : RobEntry) : (s.takeFault e).program = s.program := rfl

@[simp] theorem takeFault_mode (s : State) (e : RobEntry) : (s.takeFault e).mode = s.mode := rfl

@[simp] theorem takeFault_replies (s : State) (e : RobEntry) : (s.takeFault e).replies = s.replies := rfl

@[simp] theorem takeFault_quit (s : State) (e : RobEntry) : (s.takeFault e).quit = s.quit := rfl

@[simp] theorem takeFault_prf (s : State) (e : RobEntry) : (s.takeFault e).prf = s.prf := rfl

@[simp] theorem takeFault_rat (s : State) (e : RobEntry) : (s.takeFault e).rat = s.rat := rfl

@[simp] theorem takeFault_z (s : State) (e : RobEntry) : (s.takeFault e).z = s.z := rfl

@[simp] theorem takeFault_pc (s : State) (e : RobEntry) : (s.takeFault e).pc = s.pc := rfl

@[simp] theorem takeFault_fl (s : State) (e : RobEntry) : (s.takeFault e).fl = s.fl := rfl

@[simp] theorem takeFault_fetchStopped (s : State) (e : RobEntry) : (s.takeFault e).fetchStopped = s.fetchStopped := rfl

@[simp] theorem takeFault_fetchSuppress (s : State) (e : RobEntry) : (s.takeFault e).fetchSuppress = s.fetchSuppress := rfl

@[simp] theorem takeFault_rob (s : State) (e : RobEntry) : (s.takeFault e).rob = s.rob := rfl

@[simp] theorem takeFault_head (s : State) (e : RobEntry) : (s.takeFault e).head = s.head := rfl

@[simp] theorem takeFault_tail (s : State) (e : RobEntry) : (s.takeFault e).tail = s.tail := rfl

@[simp] theorem takeFault_count (s : State) (e : RobEntry) : (s.takeFault e).count = s.count := rfl

@[simp] theorem takeFault_iq (s : State) (e : RobEntry) : (s.takeFault e).iq = s.iq := rfl

@[simp] theorem takeFault_ck (s : State) (e : RobEntry) : (s.takeFault e).ck = s.ck := rfl

@[simp] theorem takeFault_uInt (s : State) (e : RobEntry) : (s.takeFault e).uInt = s.uInt := rfl

@[simp] theorem takeFault_uMul (s : State) (e : RobEntry) : (s.takeFault e).uMul = s.uMul := rfl

@[simp] theorem takeFault_uMem (s : State) (e : RobEntry) : (s.takeFault e).uMem = s.uMem := rfl

@[simp] theorem takeFault_uBr (s : State) (e : RobEntry) : (s.takeFault e).uBr = s.uBr := rfl

@[simp] theorem takeFault_dm (s : State) (e : RobEntry) : (s.takeFault e).dm = s.dm := rfl

@[simp] theorem takeFault_cycle (s : State) (e : RobEntry) : (s.takeFault e).cycle = s.cycle := rfl

@[simp] theorem takeFault_committed (s : State) (e : RobEntry) : (s.takeFault e).committed = s.committed := rfl

@[simp] theorem takeFault_halted (s : State) (e : RobEntry) : (s.takeFault e).halted = s.halted := rfl

/-! ### retire -/

@[simp] theorem retire_cfg (s : State) (e : RobEntry) : (s.retire e).cfg = s.cfg := rfl

@[simp] theorem retire_program (s : State) (e : RobEntry) : (s.retire e).program = s.program := rfl

@[simp] theorem retire_mode (s : State) (e : RobEntry) : (s.retire e).mode = s.mode := rfl

@[simp] theorem retire_replies (s : State) (e : RobEntry) : (s.retire e).replies = s.replies := rfl

@[simp] theorem retire_quit (s : State) (e : RobEntry) : (s.retire e).quit = s.quit := rfl

@[simp] theorem retire_rat (s : State) (e : RobEntry) : (s.retire e).rat = s.rat := rfl

@[simp] theorem retire_z (s : State) (e : RobEntry) : (s.retire e).z = s.z := rfl

@[simp] theorem retire_pc (s : State) (e : RobEntry) : (s.retire e).pc = s.pc := rfl

@[simp] theorem retire_fl (s : State) (e : RobEntry) : (s.retire e).fl = s.fl := rfl

@[simp] theorem retire_fetchStopped (s : State) (e : RobEntry) : (s.retire e).fetchStopped = s.fetchStopped := rfl

@[simp] theorem retire_fetchSuppress (s : State) (e : RobEntry) : (s.retire e).fetchSuppress = s.fetchSuppress := rfl

@[simp] theorem retire_tail (s : State) (e : RobEntry) : (s.retire e).tail = s.tail := rfl

@[simp] theorem retire_iq (s : State) (e : RobEntry) : (s.retire e).iq = s.iq := rfl

@[simp] theorem retire_ck (s : State) (e : RobEntry) : (s.retire e).ck = s.ck := rfl

@[simp] theorem retire_uInt (s : State) (e : RobEntry) : (s.retire e).uInt = s.uInt := rfl

@[simp] theorem retire_uMul (s : State) (e : RobEntry) : (s.retire e).uMul = s.uMul := rfl

@[simp] theorem retire_uMem (s : State) (e : RobEntry) : (s.retire e).uMem = s.uMem := rfl

@[simp] theorem retire_uBr (s : State) (e : RobEntry) : (s.retire e).uBr = s.uBr := rfl

@[simp] theorem retire_dm (s : State) (e : RobEntry) : (s.retire e).dm = s.dm := rfl

@[simp] theorem retire_cycle (s : State) (e : RobEntry) : (s.retire e).cycle = s.cycle := rfl

@[simp] theorem retire_fault (s : State) (e : RobEntry) : (s.retire e).fault = s.fault := rfl

/-! ### dispatched -/

@[simp] theorem dispatched_cfg (s : State) (op : Op) (x : Operands) : (s.dispatched op x).cfg = s.cfg := rfl

@[simp] theorem dispatched_program (s : State) (op : Op) (x : Operands) : (s.dispatched op x).program = s.program := rfl

@[simp] theorem dispatched_mode (s : State) (op : Op) (x : Operands) : (s.dispatched op x).mode = s.mode := rfl

@[simp] theorem dispatched_replies (s : State) (op : Op) (x : Operands) : (s.dispatched op x).replies = s.replies := rfl

@[simp] theorem dispatched_quit (s : State) (op : Op) (x : Operands) : (s.dispatched op x).quit = s.quit := rfl

@[simp] theorem dispatched_z (s : State) (op : Op) (x : Operands) : (s.dispatched op x).z = s.z := rfl

@[simp] theorem dispatched_pc (s : State) (op : Op) (x : Operands) : (s.dispatched op x).pc = s.pc := rfl

@[simp] theorem dispatched_fetchStopped (s : State) (op : Op) (x : Operands) : (s.dispatched op x).fetchStopped = s.fetchStopped := rfl

@[simp] theorem dispatched_fetchSuppress (s : State) (op : Op) (x : Operands) : (s.dispatched op x).fetchSuppress = s.fetchSuppress := rfl

@[simp] theorem dispatched_head (s : State) (op : Op) (x : Operands) : (s.dispatched op x).head = s.head := rfl

@[simp] theorem dispatched_uInt (s : State) (op : Op) (x : Operands) : (s.dispatched op x).uInt = s.uInt := rfl

@[simp] theorem dispatched_uMul (s : State) (op : Op) (x : Operands) : (s.dispatched op x).uMul = s.uMul := rfl

@[simp] theorem dispatched_uMem (s : State) (op : Op) (x : Operands) : (s.dispatched op x).uMem = s.uMem := rfl

@[simp] theorem dispatched_uBr (s : State) (op : Op) (x : Operands) : (s.dispatched op x).uBr = s.uBr := rfl

@[simp] theorem dispatched_dm (s : State) (op : Op) (x : Operands) : (s.dispatched op x).dm = s.dm := rfl

@[simp] theorem dispatched_cycle (s : State) (op : Op) (x : Operands) : (s.dispatched op x).cycle = s.cycle := rfl

@[simp] theorem dispatched_committed (s : State) (op : Op) (x : Operands) : (s.dispatched op x).committed = s.committed := rfl

@[simp] theorem dispatched_halted (s : State) (op : Op) (x : Operands) : (s.dispatched op x).halted = s.halted := rfl

@[simp] theorem dispatched_fault (s : State) (op : Op) (x : Operands) : (s.dispatched op x).fault = s.fault := rfl

/-! ### recoverFrom -/

@[simp] theorem recoverFrom_cfg (s : State) (b : Nat) (t : Int) (c : Ckpt) : (s.recoverFrom b t c).cfg = s.cfg := rfl

@[simp] theorem recoverFrom_program (s : State) (b : Nat) (t : Int) (c : Ckpt) : (s.recoverFrom b t c).program = s.program := rfl

@[simp] theorem recoverFrom_mode (s : State) (b : Nat) (t : Int) (c : Ckpt) : (s.recoverFrom b t c).mode = s.mode := rfl

@[simp] theorem recoverFrom_replies (s : State) (b : Nat) (t : Int) (c : Ckpt) : (s.recoverFrom b t c).replies = s.replies := rfl

@[simp] theorem recoverFrom_quit (s : State) (b : Nat) (t : Int) (c : Ckpt) : (s.recoverFrom b t c).quit = s.quit := rfl

@[simp] theorem recoverFrom_z (s : State) (b : Nat) (t : Int) (c : Ckpt) : (s.recoverFrom b t c).z = s.z := rfl

@[simp] theorem recoverFrom_head (s : State) (b : Nat) (t : Int) (c : Ckpt) : (s.recoverFrom b t c).head = s.head := rfl

@[simp] theorem recoverFrom_uBr (s : State) (b : Nat) (t : Int) (c : Ckpt) : (s.recoverFrom b t c).uBr = s.uBr := rfl

@[simp] theorem recoverFrom_dm (s : State) (b : Nat) (t : Int) (c : Ckpt) : (s.recoverFrom b t c).dm = s.dm := rfl

@[simp] theorem recoverFrom_cycle (s : State) (b : Nat) (t : Int) (c : Ckpt) : (s.recoverFrom b t c).cycle = s.cycle := rfl

@[simp] theorem recoverFrom_committed (s : State) (b : Nat) (t : Int) (c : Ckpt) : (s.recoverFrom b t c).committed = s.committed := rfl

@[simp] theorem recoverFrom_halted (s : State) (b : Nat) (t : Int) (c : Ckpt) : (s.recoverFrom b t c).halted = s.halted := rfl

@[simp] theorem recoverFrom_fault (s : State) (b : Nat) (t : Int) (c : Ckpt) : (s.recoverFrom b t c).fault = s.fault := rfl

/-! ### latch -/

@[simp] theorem latch_cfg (s : State) (w : Bundle) : (s.latch w).cfg = s.cfg := rfl

@[simp] theorem latch_program (s : State) (w : Bundle) : (s.latch w).program = s.program := rfl

@[simp] theorem latch_mode (s : State) (w : Bundle) : (s.latch w).mode = s.mode := rfl

@[simp] theorem latch_replies (s : State) (w : Bundle) : (s.latch w).replies = s.replies := rfl

@[simp] theorem latch_quit (s : State) (w : Bundle) : (s.latch w).quit = s.quit := rfl

@[simp] theorem latch_prf (s : State) (w : Bundle) : (s.latch w).prf = s.prf := rfl

@[simp] theorem latch_rat (s : State) (w : Bundle) : (s.latch w).rat = s.rat := rfl

@[simp] theorem latch_z (s : State) (w : Bundle) : (s.latch w).z = s.z := rfl

@[simp] theorem latch_fetchSuppress (s : State) (w : Bundle) : (s.latch w).fetchSuppress = s.fetchSuppress := rfl

@[simp] theorem latch_rob (s : State) (w : Bundle) : (s.latch w).rob = s.rob := rfl

@[simp] theorem latch_head (s : State) (w : Bundle) : (s.latch w).head = s.head := rfl

@[simp] theorem latch_tail (s : State) (w : Bundle) : (s.latch w).tail = s.tail := rfl

@[simp] theorem latch_count (s : State) (w : Bundle) : (s.latch w).count = s.count := rfl

@[simp] theorem latch_iq (s : State) (w : Bundle) : (s.latch w).iq = s.iq := rfl

@[simp] theorem latch_ck (s : State) (w : Bundle) : (s.latch w).ck = s.ck := rfl

@[simp] theorem latch_uInt (s : State) (w : Bundle) : (s.latch w).uInt = s.uInt := rfl

@[simp] theorem latch_uMul (s : State) (w : Bundle) : (s.latch w).uMul = s.uMul := rfl

@[simp] theorem latch_uMem (s : State) (w : Bundle) : (s.latch w).uMem = s.uMem := rfl

@[simp] theorem latch_uBr (s : State) (w : Bundle) : (s.latch w).uBr = s.uBr := rfl

@[simp] theorem latch_dm (s : State) (w : Bundle) : (s.latch w).dm = s.dm := rfl

@[simp] theorem latch_cycle (s : State) (w : Bundle) : (s.latch w).cycle = s.cycle := rfl

@[simp] theorem latch_committed (s : State) (w : Bundle) : (s.latch w).committed = s.committed := rfl

@[simp] theorem latch_halted (s : State) (w : Bundle) : (s.latch w).halted = s.halted := rfl

@[simp] theorem latch_fault (s : State) (w : Bundle) : (s.latch w).fault = s.fault := rfl

/-! ### resolved -/

@[simp] theorem resolved_cfg (s : State) (k : Bool) (t : Int) : (s.resolved k t).cfg = s.cfg := rfl

@[simp] theorem resolved_program (s : State) (k : Bool) (t : Int) : (s.resolved k t).program = s.program := rfl

@[simp] theorem resolved_mode (s : State) (k : Bool) (t : Int) : (s.resolved k t).mode = s.mode := rfl

@[simp] theorem resolved_replies (s : State) (k : Bool) (t : Int) : (s.resolved k t).replies = s.replies := rfl

@[simp] theorem resolved_quit (s : State) (k : Bool) (t : Int) : (s.resolved k t).quit = s.quit := rfl

@[simp] theorem resolved_prf (s : State) (k : Bool) (t : Int) : (s.resolved k t).prf = s.prf := rfl

@[simp] theorem resolved_rat (s : State) (k : Bool) (t : Int) : (s.resolved k t).rat = s.rat := rfl

@[simp] theorem resolved_z (s : State) (k : Bool) (t : Int) : (s.resolved k t).z = s.z := rfl

@[simp] theorem resolved_pc (s : State) (k : Bool) (t : Int) : (s.resolved k t).pc = s.pc := rfl

@[simp] theorem resolved_fl (s : State) (k : Bool) (t : Int) : (s.resolved k t).fl = s.fl := rfl

@[simp] theorem resolved_fetchStopped (s : State) (k : Bool) (t : Int) : (s.resolved k t).fetchStopped = s.fetchStopped := rfl

@[simp] theorem resolved_fetchSuppress (s : State) (k : Bool) (t : Int) : (s.resolved k t).fetchSuppress = s.fetchSuppress := rfl

@[simp] theorem resolved_rob (s : State) (k : Bool) (t : Int) : (s.resolved k t).rob = s.rob := rfl

@[simp] theorem resolved_head (s : State) (k : Bool) (t : Int) : (s.resolved k t).head = s.head := rfl

@[simp] theorem resolved_tail (s : State) (k : Bool) (t : Int) : (s.resolved k t).tail = s.tail := rfl

@[simp] theorem resolved_count (s : State) (k : Bool) (t : Int) : (s.resolved k t).count = s.count := rfl

@[simp] theorem resolved_iq (s : State) (k : Bool) (t : Int) : (s.resolved k t).iq = s.iq := rfl

@[simp] theorem resolved_ck (s : State) (k : Bool) (t : Int) : (s.resolved k t).ck = s.ck := rfl

@[simp] theorem resolved_uInt (s : State) (k : Bool) (t : Int) : (s.resolved k t).uInt = s.uInt := rfl

@[simp] theorem resolved_uMul (s : State) (k : Bool) (t : Int) : (s.resolved k t).uMul = s.uMul := rfl

@[simp] theorem resolved_uMem (s : State) (k : Bool) (t : Int) : (s.resolved k t).uMem = s.uMem := rfl

@[simp] theorem resolved_dm (s : State) (k : Bool) (t : Int) : (s.resolved k t).dm = s.dm := rfl

@[simp] theorem resolved_cycle (s : State) (k : Bool) (t : Int) : (s.resolved k t).cycle = s.cycle := rfl

@[simp] theorem resolved_committed (s : State) (k : Bool) (t : Int) : (s.resolved k t).committed = s.committed := rfl

@[simp] theorem resolved_halted (s : State) (k : Bool) (t : Int) : (s.resolved k t).halted = s.halted := rfl

@[simp] theorem resolved_fault (s : State) (k : Bool) (t : Int) : (s.resolved k t).fault = s.fault := rfl

/-! ### brDone -/

@[simp] theorem brDone_cfg (s : State) (o : Occupant) : (s.brDone o).cfg = s.cfg := rfl

@[simp] theorem brDone_program (s : State) (o : Occupant) : (s.brDone o).program = s.program := rfl

@[simp] theorem brDone_mode (s : State) (o : Occupant) : (s.brDone o).mode = s.mode := rfl

@[simp] theorem brDone_replies (s : State) (o : Occupant) : (s.brDone o).replies = s.replies := rfl

@[simp] theorem brDone_quit (s : State) (o : Occupant) : (s.brDone o).quit = s.quit := rfl

@[simp] theorem brDone_prf (s : State) (o : Occupant) : (s.brDone o).prf = s.prf := rfl

@[simp] theorem brDone_rat (s : State) (o : Occupant) : (s.brDone o).rat = s.rat := rfl

@[simp] theorem brDone_z (s : State) (o : Occupant) : (s.brDone o).z = s.z := rfl

@[simp] theorem brDone_pc (s : State) (o : Occupant) : (s.brDone o).pc = s.pc := rfl

@[simp] theorem brDone_fl (s : State) (o : Occupant) : (s.brDone o).fl = s.fl := rfl

@[simp] theorem brDone_fetchStopped (s : State) (o : Occupant) : (s.brDone o).fetchStopped = s.fetchStopped := rfl

@[simp] theorem brDone_fetchSuppress (s : State) (o : Occupant) : (s.brDone o).fetchSuppress = s.fetchSuppress := rfl

@[simp] theorem brDone_head (s : State) (o : Occupant) : (s.brDone o).head = s.head := rfl

@[simp] theorem brDone_tail (s : State) (o : Occupant) : (s.brDone o).tail = s.tail := rfl

@[simp] theorem brDone_count (s : State) (o : Occupant) : (s.brDone o).count = s.count := rfl

@[simp] theorem brDone_iq (s : State) (o : Occupant) : (s.brDone o).iq = s.iq := rfl

@[simp] theorem brDone_ck (s : State) (o : Occupant) : (s.brDone o).ck = s.ck := rfl

@[simp] theorem brDone_uInt (s : State) (o : Occupant) : (s.brDone o).uInt = s.uInt := rfl

@[simp] theorem brDone_uMul (s : State) (o : Occupant) : (s.brDone o).uMul = s.uMul := rfl

@[simp] theorem brDone_uMem (s : State) (o : Occupant) : (s.brDone o).uMem = s.uMem := rfl

@[simp] theorem brDone_dm (s : State) (o : Occupant) : (s.brDone o).dm = s.dm := rfl

@[simp] theorem brDone_cycle (s : State) (o : Occupant) : (s.brDone o).cycle = s.cycle := rfl

@[simp] theorem brDone_committed (s : State) (o : Occupant) : (s.brDone o).committed = s.committed := rfl

@[simp] theorem brDone_halted (s : State) (o : Occupant) : (s.brDone o).halted = s.halted := rfl

@[simp] theorem brDone_fault (s : State) (o : Occupant) : (s.brDone o).fault = s.fault := rfl

/-! ### recordAddr -/

@[simp] theorem recordAddr_cfg (s : State) (o : Occupant) : (s.recordAddr o).cfg = s.cfg := rfl

@[simp] theorem recordAddr_program (s : State) (o : Occupant) : (s.recordAddr o).program = s.program := rfl

@[simp] theorem recordAddr_mode (s : State) (o : Occupant) : (s.recordAddr o).mode = s.mode := rfl

@[simp] theorem recordAddr_replies (s : State) (o : Occupant) : (s.recordAddr o).replies = s.replies := rfl

@[simp] theorem recordAddr_quit (s : State) (o : Occupant) : (s.recordAddr o).quit = s.quit := rfl

@[simp] theorem recordAddr_prf (s : State) (o : Occupant) : (s.recordAddr o).prf = s.prf := rfl

@[simp] theorem recordAddr_rat (s : State) (o : Occupant) : (s.recordAddr o).rat = s.rat := rfl

@[simp] theorem recordAddr_z (s : State) (o : Occupant) : (s.recordAddr o).z = s.z := rfl

@[simp] theorem recordAddr_pc (s : State) (o : Occupant) : (s.recordAddr o).pc = s.pc := rfl

@[simp] theorem recordAddr_fl (s : State) (o : Occupant) : (s.recordAddr o).fl = s.fl := rfl

@[simp] theorem recordAddr_fetchStopped (s : State) (o : Occupant) : (s.recordAddr o).fetchStopped = s.fetchStopped := rfl

@[simp] theorem recordAddr_fetchSuppress (s : State) (o : Occupant) : (s.recordAddr o).fetchSuppress = s.fetchSuppress := rfl

@[simp] theorem recordAddr_head (s : State) (o : Occupant) : (s.recordAddr o).head = s.head := rfl

@[simp] theorem recordAddr_tail (s : State) (o : Occupant) : (s.recordAddr o).tail = s.tail := rfl

@[simp] theorem recordAddr_count (s : State) (o : Occupant) : (s.recordAddr o).count = s.count := rfl

@[simp] theorem recordAddr_iq (s : State) (o : Occupant) : (s.recordAddr o).iq = s.iq := rfl

@[simp] theorem recordAddr_ck (s : State) (o : Occupant) : (s.recordAddr o).ck = s.ck := rfl

@[simp] theorem recordAddr_uInt (s : State) (o : Occupant) : (s.recordAddr o).uInt = s.uInt := rfl

@[simp] theorem recordAddr_uMul (s : State) (o : Occupant) : (s.recordAddr o).uMul = s.uMul := rfl

@[simp] theorem recordAddr_uBr (s : State) (o : Occupant) : (s.recordAddr o).uBr = s.uBr := rfl

@[simp] theorem recordAddr_dm (s : State) (o : Occupant) : (s.recordAddr o).dm = s.dm := rfl

@[simp] theorem recordAddr_cycle (s : State) (o : Occupant) : (s.recordAddr o).cycle = s.cycle := rfl

@[simp] theorem recordAddr_committed (s : State) (o : Occupant) : (s.recordAddr o).committed = s.committed := rfl

@[simp] theorem recordAddr_halted (s : State) (o : Occupant) : (s.recordAddr o).halted = s.halted := rfl

@[simp] theorem recordAddr_fault (s : State) (o : Occupant) : (s.recordAddr o).fault = s.fault := rfl

/-! ### beginTick -/

@[simp] theorem beginTick_cfg (s : State) : (beginTick s).cfg = s.cfg := rfl

@[simp] theorem beginTick_program (s : State) : (beginTick s).program = s.program := rfl

@[simp] theorem beginTick_mode (s : State) : (beginTick s).mode = s.mode := rfl

@[simp] theorem beginTick_replies (s : State) : (beginTick s).replies = s.replies := rfl

@[simp] theorem beginTick_quit (s : State) : (beginTick s).quit = s.quit := rfl

@[simp] theorem beginTick_prf (s : State) : (beginTick s).prf = s.prf := rfl

@[simp] theorem beginTick_rat (s : State) : (beginTick s).rat = s.rat := rfl

@[simp] theorem beginTick_z (s : State) : (beginTick s).z = s.z := rfl

@[simp] theorem beginTick_pc (s : State) : (beginTick s).pc = s.pc := rfl

@[simp] theorem beginTick_fl (s : State) : (beginTick s).fl = s.fl := rfl

@[simp] theorem beginTick_fetchStopped (s : State) : (beginTick s).fetchStopped = s.fetchStopped := rfl

@[simp] theorem beginTick_fetchSuppress (s : State) : (beginTick s).fetchSuppress = s.fetchSuppress := rfl

@[simp] theorem beginTick_rob (s : State) : (beginTick s).rob = s.rob := rfl

@[simp] theorem beginTick_head (s : State) : (beginTick s).head = s.head := rfl

@[simp] theorem beginTick_tail (s : State) : (beginTick s).tail = s.tail := rfl

@[simp] theorem beginTick_count (s : State) : (beginTick s).count = s.count := rfl

@[simp] theorem beginTick_iq (s : State) : (beginTick s).iq = s.iq := rfl

@[simp] theorem beginTick_ck (s : State) : (beginTick s).ck = s.ck := rfl

@[simp] theorem beginTick_uInt (s : State) : (beginTick s).uInt = s.uInt := rfl

@[simp] theorem beginTick_uMul (s : State) : (beginTick s).uMul = s.uMul := rfl

@[simp] theorem beginTick_uMem (s : State) : (beginTick s).uMem = s.uMem := rfl

@[simp] theorem beginTick_uBr (s : State) : (beginTick s).uBr = s.uBr := rfl

@[simp] theorem beginTick_dm (s : State) : (beginTick s).dm = s.dm := rfl

@[simp] theorem beginTick_committed (s : State) : (beginTick s).committed = s.committed := rfl

@[simp] theorem beginTick_halted (s : State) : (beginTick s).halted = s.halted := rfl

@[simp] theorem beginTick_fault (s : State) : (beginTick s).fault = s.fault := rfl

/-! ### finishMul -/

@[simp] theorem finishMul_cfg (s : State) (o : Occupant) : (finishMul o s).cfg = s.cfg := rfl

@[simp] theorem finishMul_program (s : State) (o : Occupant) : (finishMul o s).program = s.program := rfl

@[simp] theorem finishMul_mode (s : State) (o : Occupant) : (finishMul o s).mode = s.mode := rfl

@[simp] theorem finishMul_replies (s : State) (o : Occupant) : (finishMul o s).replies = s.replies := rfl

@[simp] theorem finishMul_quit (s : State) (o : Occupant) : (finishMul o s).quit = s.quit := rfl

@[simp] theorem finishMul_rat (s : State) (o : Occupant) : (finishMul o s).rat = s.rat := rfl

@[simp] theorem finishMul_z (s : State) (o : Occupant) : (finishMul o s).z = s.z := rfl

@[simp] theorem finishMul_pc (s : State) (o : Occupant) : (finishMul o s).pc = s.pc := rfl

@[simp] theorem finishMul_fl (s : State) (o : Occupant) : (finishMul o s).fl = s.fl := rfl

@[simp] theorem finishMul_fetchStopped (s : State) (o : Occupant) : (finishMul o s).fetchStopped = s.fetchStopped := rfl

@[simp] theorem finishMul_fetchSuppress (s : State) (o : Occupant) : (finishMul o s).fetchSuppress = s.fetchSuppress := rfl

@[simp] theorem finishMul_head (s : State) (o : Occupant) : (finishMul o s).head = s.head := rfl

@[simp] theorem finishMul_tail (s : State) (o : Occupant) : (finishMul o s).tail = s.tail := rfl

@[simp] theorem finishMul_count (s : State) (o : Occupant) : (finishMul o s).count = s.count := rfl

@[simp] theorem finishMul_ck (s : State) (o : Occupant) : (finishMul o s).ck = s.ck := rfl

@[simp] theorem finishMul_uInt (s : State) (o : Occupant) : (finishMul o s).uInt = s.uInt := rfl

@[simp] theorem finishMul_uMem (s : State) (o : Occupant) : (finishMul o s).uMem = s.uMem := rfl

@[simp] theorem finishMul_uBr (s : State) (o : Occupant) : (finishMul o s).uBr = s.uBr := rfl

@[simp] theorem finishMul_dm (s : State) (o : Occupant) : (finishMul o s).dm = s.dm := rfl

@[simp] theorem finishMul_cycle (s : State) (o : Occupant) : (finishMul o s).cycle = s.cycle := rfl

@[simp] theorem finishMul_committed (s : State) (o : Occupant) : (finishMul o s).committed = s.committed := rfl

@[simp] theorem finishMul_halted (s : State) (o : Occupant) : (finishMul o s).halted = s.halted := rfl

@[simp] theorem finishMul_fault (s : State) (o : Occupant) : (finishMul o s).fault = s.fault := rfl

/-! ### checkRange -/

@[simp] theorem checkRange_cfg (s : State) (o : Occupant) : (s.checkRange o).cfg = s.cfg := by
  unfold State.checkRange; split <;> rfl

@[simp] theorem checkRange_program (s : State) (o : Occupant) : (s.checkRange o).program = s.program := by
  unfold State.checkRange; split <;> rfl

@[simp] theorem checkRange_mode (s : State) (o : Occupant) : (s.checkRange o).mode = s.mode := by
  unfold State.checkRange; split <;> rfl

@[simp] theorem checkRange_replies (s : State) (o : Occupant) : (s.checkRange o).replies = s.replies := by
  unfold State.checkRange; split <;> rfl

@[simp] theorem checkRange_quit (s : State) (o : Occupant) : (s.checkRange o).quit = s.quit := by
  unfold State.checkRange; split <;> rfl

@[simp] theorem checkRange_prf (s : State) (o : Occupant) : (s.checkRange o).prf = s.prf := by
  unfold State.checkRange; split <;> rfl

@[simp] theorem checkRange_rat (s : State) (o : Occupant) : (s.checkRange o).rat = s.rat := by
  unfold State.checkRange; split <;> rfl

@[simp] theorem checkRange_z (s : State) (o : Occupant) : (s.checkRange o).z = s.z := by
  unfold State.checkRange; split <;> rfl

@[simp] theorem checkRange_pc (s : State) (o : Occupant) : (s.checkRange o).pc = s.pc := by
  unfold State.checkRange; split <;> rfl

@[simp] theorem checkRange_fl (s : State) (o : Occupant) : (s.checkRange o).fl = s.fl := by
  unfold State.checkRange; split <;> rfl

@[simp] theorem checkRange_fetchStopped (s : State) (o : Occupant) : (s.checkRange o).fetchStopped = s.fetchStopped := by
  unfold State.checkRange; split <;> rfl

@[simp] theorem checkRange_fetchSuppress (s : State) (o : Occupant) : (s.checkRange o).fetchSuppress = s.fetchSuppress := by
  unfold State.checkRange; split <;> rfl

@[simp] theorem checkRange_head (s : State) (o : Occupant) : (s.checkRange o).head = s.head := by
  unfold State.checkRange; split <;> rfl

@[simp] theorem checkRange_tail (s : State) (o : Occupant) : (s.checkRange o).tail = s.tail := by
  unfold State.checkRange; split <;> rfl

@[simp] theorem checkRange_count (s : State) (o : Occupant) : (s.checkRange o).count = s.count := by
  unfold State.checkRange; split <;> rfl

@[simp] theorem checkRange_iq (s : State) (o : Occupant) : (s.checkRange o).iq = s.iq := by
  unfold State.checkRange; split <;> rfl

@[simp] theorem checkRange_ck (s : State) (o : Occupant) : (s.checkRange o).ck = s.ck := by
  unfold State.checkRange; split <;> rfl

@[simp] theorem checkRange_uInt (s : State) (o : Occupant) : (s.checkRange o).uInt = s.uInt := by
  unfold State.checkRange; split <;> rfl

@[simp] theorem checkRange_uMul (s : State) (o : Occupant) : (s.checkRange o).uMul = s.uMul := by
  unfold State.checkRange; split <;> rfl

@[simp] theorem checkRange_uBr (s : State) (o : Occupant) : (s.checkRange o).uBr = s.uBr := by
  unfold State.checkRange; split <;> rfl

@[simp] theorem checkRange_dm (s : State) (o : Occupant) : (s.checkRange o).dm = s.dm := by
  unfold State.checkRange; split <;> rfl

@[simp] theorem checkRange_cycle (s : State) (o : Occupant) : (s.checkRange o).cycle = s.cycle := by
  unfold State.checkRange; split <;> rfl

@[simp] theorem checkRange_committed (s : State) (o : Occupant) : (s.checkRange o).committed = s.committed := by
  unfold State.checkRange; split <;> rfl

@[simp] theorem checkRange_halted (s : State) (o : Occupant) : (s.checkRange o).halted = s.halted := by
  unfold State.checkRange; split <;> rfl

@[simp] theorem checkRange_fault (s : State) (o : Occupant) : (s.checkRange o).fault = s.fault := by
  unfold State.checkRange; split <;> rfl

/-! ### releaseOwned -/

@[simp] theorem releaseOwned_cfg (s : State) (b : Nat) : (s.releaseOwned b).cfg = s.cfg := by
  unfold State.releaseOwned; split <;> rfl

@[simp] theorem releaseOwned_program (s : State) (b : Nat) : (s.releaseOwned b).program = s.program := by
  unfold State.releaseOwned; split <;> rfl

@[simp] theorem releaseOwned_mode (s : State) (b : Nat) : (s.releaseOwned b).mode = s.mode := by
  unfold State.releaseOwned; split <;> rfl

@[simp] theorem releaseOwned_replies (s : State) (b : Nat) : (s.releaseOwned b).replies = s.replies := by
  unfold State.releaseOwned; split <;> rfl

@[simp] theorem releaseOwned_quit (s : State) (b : Nat) : (s.releaseOwned b).quit = s.quit := by
  unfold State.releaseOwned; split <;> rfl

@[simp] theorem releaseOwned_prf (s : State) (b : Nat) : (s.releaseOwned b).prf = s.prf := by
  unfold State.releaseOwned; split <;> rfl

@[simp] theorem releaseOwned_rat (s : State) (b : Nat) : (s.releaseOwned b).rat = s.rat := by
  unfold State.releaseOwned; split <;> rfl

@[simp] theorem releaseOwned_z (s : State) (b : Nat) : (s.releaseOwned b).z = s.z := by
  unfold State.releaseOwned; split <;> rfl

@[simp] theorem releaseOwned_pc (s : State) (b : Nat) : (s.releaseOwned b).pc = s.pc := by
  unfold State.releaseOwned; split <;> rfl

@[simp] theorem releaseOwned_fl (s : State) (b : Nat) : (s.releaseOwned b).fl = s.fl := by
  unfold State.releaseOwned; split <;> rfl

@[simp] theorem releaseOwned_fetchStopped (s : State) (b : Nat) : (s.releaseOwned b).fetchStopped = s.fetchStopped := by
  unfold State.releaseOwned; split <;> rfl

@[simp] theorem releaseOwned_fetchSuppress (s : State) (b : Nat) : (s.releaseOwned b).fetchSuppress = s.fetchSuppress := by
  unfold State.releaseOwned; split <;> rfl

@[simp] theorem releaseOwned_rob (s : State) (b : Nat) : (s.releaseOwned b).rob = s.rob := by
  unfold State.releaseOwned; split <;> rfl

@[simp] theorem releaseOwned_head (s : State) (b : Nat) : (s.releaseOwned b).head = s.head := by
  unfold State.releaseOwned; split <;> rfl

@[simp] theorem releaseOwned_tail (s : State) (b : Nat) : (s.releaseOwned b).tail = s.tail := by
  unfold State.releaseOwned; split <;> rfl

@[simp] theorem releaseOwned_count (s : State) (b : Nat) : (s.releaseOwned b).count = s.count := by
  unfold State.releaseOwned; split <;> rfl

@[simp] theorem releaseOwned_iq (s : State) (b : Nat) : (s.releaseOwned b).iq = s.iq := by
  unfold State.releaseOwned; split <;> rfl

@[simp] theorem releaseOwned_uInt (s : State) (b : Nat) : (s.releaseOwned b).uInt = s.uInt := by
  unfold State.releaseOwned; split <;> rfl

@[simp] theorem releaseOwned_uMul (s : State) (b : Nat) : (s.releaseOwned b).uMul = s.uMul := by
  unfold State.releaseOwned; split <;> rfl

@[simp] theorem releaseOwned_uMem (s : State) (b : Nat) : (s.releaseOwned b).uMem = s.uMem := by
  unfold State.releaseOwned; split <;> rfl

@[simp] theorem releaseOwned_uBr (s : State) (b : Nat) : (s.releaseOwned b).uBr = s.uBr := by
  unfold State.releaseOwned; split <;> rfl

@[simp] theorem releaseOwned_dm (s : State) (b : Nat) : (s.releaseOwned b).dm = s.dm := by
  unfold State.releaseOwned; split <;> rfl

@[simp] theorem releaseOwned_cycle (s : State) (b : Nat) : (s.releaseOwned b).cycle = s.cycle := by
  unfold State.releaseOwned; split <;> rfl

@[simp] theorem releaseOwned_committed (s : State) (b : Nat) : (s.releaseOwned b).committed = s.committed := by
  unfold State.releaseOwned; split <;> rfl

@[simp] theorem releaseOwned_halted (s : State) (b : Nat) : (s.releaseOwned b).halted = s.halted := by
  unfold State.releaseOwned; split <;> rfl

@[simp] theorem releaseOwned_fault (s : State) (b : Nat) : (s.releaseOwned b).fault = s.fault := by
  unfold State.releaseOwned; split <;> rfl

/-! ### recover -/

@[simp] theorem recover_cfg (s : State) (b : Nat) (t : Int) : (s.recover b t).cfg = s.cfg := by
  unfold State.recover; split <;> rfl

@[simp] theorem recover_program (s : State) (b : Nat) (t : Int) : (s.recover b t).program = s.program := by
  unfold State.recover; split <;> rfl

@[simp] theorem recover_mode (s : State) (b : Nat) (t : Int) : (s.recover b t).mode = s.mode := by
  unfold State.recover; split <;> rfl

@[simp] theorem recover_replies (s : State) (b : Nat) (t : Int) : (s.recover b t).replies = s.replies := by
  unfold State.recover; split <;> rfl

@[simp] theorem recover_quit (s : State) (b : Nat) (t : Int) : (s.recover b t).quit = s.quit := by
  unfold State.recover; split <;> rfl

@[simp] theorem recover_z (s : State) (b : Nat) (t : Int) : (s.recover b t).z = s.z := by
  unfold State.recover; split <;> rfl

@[simp] theorem recover_head (s : State) (b : Nat) (t : Int) : (s.recover b t).head = s.head := by
  unfold State.recover; split <;> rfl

@[simp] theorem recover_uBr (s : State) (b : Nat) (t : Int) : (s.recover b t).uBr = s.uBr := by
  unfold State.recover; split <;> rfl

@[simp] theorem recover_dm (s : State) (b : Nat) (t : Int) : (s.recover b t).dm = s.dm := by
  unfold State.recover; split <;> rfl

@[simp] theorem recover_cycle (s : State) (b : Nat) (t : Int) : (s.recover b t).cycle = s.cycle := by
  unfold State.recover; split <;> rfl

@[simp] theorem recover_committed (s : State) (b : Nat) (t : Int) : (s.recover b t).committed = s.committed := by
  unfold State.recover; split <;> rfl

@[simp] theorem recover_halted (s : State) (b : Nat) (t : Int) : (s.recover b t).halted = s.halted := by
  unfold State.recover; split <;> rfl

@[simp] theorem recover_fault (s : State) (b : Nat) (t : Int) : (s.recover b t).fault = s.fault := by
  unfold State.recover; split <;> rfl

/-! ### issueTo -/

@[simp] theorem issueTo_cfg (s : State) (e : IqEntry) : (s.issueTo e).cfg = s.cfg := by
  unfold State.issueTo; split <;> rfl

@[simp] theorem issueTo_program (s : State) (e : IqEntry) : (s.issueTo e).program = s.program := by
  unfold State.issueTo; split <;> rfl

@[simp] theorem issueTo_mode (s : State) (e : IqEntry) : (s.issueTo e).mode = s.mode := by
  unfold State.issueTo; split <;> rfl

@[simp] theorem issueTo_replies (s : State) (e : IqEntry) : (s.issueTo e).replies = s.replies := by
  unfold State.issueTo; split <;> rfl

@[simp] theorem issueTo_quit (s : State) (e : IqEntry) : (s.issueTo e).quit = s.quit := by
  unfold State.issueTo; split <;> rfl

@[simp] theorem issueTo_prf (s : State) (e : IqEntry) : (s.issueTo e).prf = s.prf := by
  unfold State.issueTo; split <;> rfl

@[simp] theorem issueTo_rat (s : State) (e : IqEntry) : (s.issueTo e).rat = s.rat := by
  unfold State.issueTo; split <;> rfl

@[simp] theorem issueTo_z (s : State) (e : IqEntry) : (s.issueTo e).z = s.z := by
  unfold State.issueTo; split <;> rfl

@[simp] theorem issueTo_pc (s : State) (e : IqEntry) : (s.issueTo e).pc = s.pc := by
  unfold State.issueTo; split <;> rfl

@[simp] theorem issueTo_fl (s : State) (e : IqEntry) : (s.issueTo e).fl = s.fl := by
  unfold State.issueTo; split <;> rfl

@[simp] theorem issueTo_fetchStopped (s : State) (e : IqEntry) : (s.issueTo e).fetchStopped = s.fetchStopped := by
  unfold State.issueTo; split <;> rfl

@[simp] theorem issueTo_fetchSuppress (s : State) (e : IqEntry) : (s.issueTo e).fetchSuppress = s.fetchSuppress := by
  unfold State.issueTo; split <;> rfl

@[simp] theorem issueTo_rob (s : State) (e : IqEntry) : (s.issueTo e).rob = s.rob := by
  unfold State.issueTo; split <;> rfl

@[simp] theorem issueTo_head (s : State) (e : IqEntry) : (s.issueTo e).head = s.head := by
  unfold State.issueTo; split <;> rfl

@[simp] theorem issueTo_tail (s : State) (e : IqEntry) : (s.issueTo e).tail = s.tail := by
  unfold State.issueTo; split <;> rfl

@[simp] theorem issueTo_count (s : State) (e : IqEntry) : (s.issueTo e).count = s.count := by
  unfold State.issueTo; split <;> rfl

@[simp] theorem issueTo_iq (s : State) (e : IqEntry) : (s.issueTo e).iq = s.iq := by
  unfold State.issueTo; split <;> rfl

@[simp] theorem issueTo_ck (s : State) (e : IqEntry) : (s.issueTo e).ck = s.ck := by
  unfold State.issueTo; split <;> rfl

@[simp] theorem issueTo_dm (s : State) (e : IqEntry) : (s.issueTo e).dm = s.dm := by
  unfold State.issueTo; split <;> rfl

@[simp] theorem issueTo_cycle (s : State) (e : IqEntry) : (s.issueTo e).cycle = s.cycle := by
  unfold State.issueTo; split <;> rfl

@[simp] theorem issueTo_committed (s : State) (e : IqEntry) : (s.issueTo e).committed = s.committed := by
  unfold State.issueTo; split <;> rfl

@[simp] theorem issueTo_halted (s : State) (e : IqEntry) : (s.issueTo e).halted = s.halted := by
  unfold State.issueTo; split <;> rfl

@[simp] theorem issueTo_fault (s : State) (e : IqEntry) : (s.issueTo e).fault = s.fault := by
  unfold State.issueTo; split <;> rfl

/-! ### executeInt -/

@[simp] theorem executeInt_cfg (s : State) (o : Occupant) : (executeInt o s).cfg = s.cfg := by
  unfold executeInt; split <;> rfl

@[simp] theorem executeInt_program (s : State) (o : Occupant) : (executeInt o s).program = s.program := by
  unfold executeInt; split <;> rfl

@[simp] theorem executeInt_mode (s : State) (o : Occupant) : (executeInt o s).mode = s.mode := by
  unfold executeInt; split <;> rfl

@[simp] theorem executeInt_replies (s : State) (o : Occupant) : (executeInt o s).replies = s.replies := by
  unfold executeInt; split <;> rfl

@[simp] theorem executeInt_quit (s : State) (o : Occupant) : (executeInt o s).quit = s.quit := by
  unfold executeInt; split <;> rfl

@[simp] theorem executeInt_rat (s : State) (o : Occupant) : (executeInt o s).rat = s.rat := by
  unfold executeInt; split <;> rfl

@[simp] theorem executeInt_pc (s : State) (o : Occupant) : (executeInt o s).pc = s.pc := by
  unfold executeInt; split <;> rfl

@[simp] theorem executeInt_fl (s : State) (o : Occupant) : (executeInt o s).fl = s.fl := by
  unfold executeInt; split <;> rfl

@[simp] theorem executeInt_fetchStopped (s : State) (o : Occupant) : (executeInt o s).fetchStopped = s.fetchStopped := by
  unfold executeInt; split <;> rfl

@[simp] theorem executeInt_fetchSuppress (s : State) (o : Occupant) : (executeInt o s).fetchSuppress = s.fetchSuppress := by
  unfold executeInt; split <;> rfl

@[simp] theorem executeInt_rob (s : State) (o : Occupant) : (executeInt o s).rob = s.rob := by
  unfold executeInt; split <;> rfl

@[simp] theorem executeInt_head (s : State) (o : Occupant) : (executeInt o s).head = s.head := by
  unfold executeInt; split <;> rfl

@[simp] theorem executeInt_tail (s : State) (o : Occupant) : (executeInt o s).tail = s.tail := by
  unfold executeInt; split <;> rfl

@[simp] theorem executeInt_count (s : State) (o : Occupant) : (executeInt o s).count = s.count := by
  unfold executeInt; split <;> rfl

@[simp] theorem executeInt_ck (s : State) (o : Occupant) : (executeInt o s).ck = s.ck := by
  unfold executeInt; split <;> rfl

@[simp] theorem executeInt_uInt (s : State) (o : Occupant) : (executeInt o s).uInt = s.uInt := by
  unfold executeInt; split <;> rfl

@[simp] theorem executeInt_uMul (s : State) (o : Occupant) : (executeInt o s).uMul = s.uMul := by
  unfold executeInt; split <;> rfl

@[simp] theorem executeInt_uMem (s : State) (o : Occupant) : (executeInt o s).uMem = s.uMem := by
  unfold executeInt; split <;> rfl

@[simp] theorem executeInt_uBr (s : State) (o : Occupant) : (executeInt o s).uBr = s.uBr := by
  unfold executeInt; split <;> rfl

@[simp] theorem executeInt_dm (s : State) (o : Occupant) : (executeInt o s).dm = s.dm := by
  unfold executeInt; split <;> rfl

@[simp] theorem executeInt_cycle (s : State) (o : Occupant) : (executeInt o s).cycle = s.cycle := by
  unfold executeInt; split <;> rfl

@[simp] theorem executeInt_committed (s : State) (o : Occupant) : (executeInt o s).committed = s.committed := by
  unfold executeInt; split <;> rfl

@[simp] theorem executeInt_halted (s : State) (o : Occupant) : (executeInt o s).halted = s.halted := by
  unfold executeInt; split <;> rfl

@[simp] theorem executeInt_fault (s : State) (o : Occupant) : (executeInt o s).fault = s.fault := by
  unfold executeInt; split <;> rfl

/-! ### executeMem -/

@[simp] theorem executeMem_cfg (s : State) (o : Occupant) : (executeMem o s).cfg = s.cfg := by
  unfold executeMem; split <;> rfl

@[simp] theorem executeMem_program (s : State) (o : Occupant) : (executeMem o s).program = s.program := by
  unfold executeMem; split <;> rfl

@[simp] theorem executeMem_mode (s : State) (o : Occupant) : (executeMem o s).mode = s.mode := by
  unfold executeMem; split <;> rfl

@[simp] theorem executeMem_replies (s : State) (o : Occupant) : (executeMem o s).replies = s.replies := by
  unfold executeMem; split <;> rfl

@[simp] theorem executeMem_quit (s : State) (o : Occupant) : (executeMem o s).quit = s.quit := by
  unfold executeMem; split <;> rfl

@[simp] theorem executeMem_rat (s : State) (o : Occupant) : (executeMem o s).rat = s.rat := by
  unfold executeMem; split <;> rfl

@[simp] theorem executeMem_z (s : State) (o : Occupant) : (executeMem o s).z = s.z := by
  unfold executeMem; split <;> rfl

@[simp] theorem executeMem_pc (s : State) (o : Occupant) : (executeMem o s).pc = s.pc := by
  unfold executeMem; split <;> rfl

@[simp] theorem executeMem_fl (s : State) (o : Occupant) : (executeMem o s).fl = s.fl := by
  unfold executeMem; split <;> rfl

@[simp] theorem executeMem_fetchStopped (s : State) (o : Occupant) : (executeMem o s).fetchStopped = s.fetchStopped := by
  unfold executeMem; split <;> rfl

@[simp] theorem executeMem_fetchSuppress (s : State) (o : Occupant) : (executeMem o s).fetchSuppress = s.fetchSuppress := by
  unfold executeMem; split <;> rfl

@[simp] theorem executeMem_rob (s : State) (o : Occupant) : (executeMem o s).rob = s.rob := by
  unfold executeMem; split <;> rfl

@[simp] theorem executeMem_head (s : State) (o : Occupant) : (executeMem o s).head = s.head := by
  unfold executeMem; split <;> rfl

@[simp] theorem executeMem_tail (s : State) (o : Occupant) : (executeMem o s).tail = s.tail := by
  unfold executeMem; split <;> rfl

@[simp] theorem executeMem_count (s : State) (o : Occupant) : (executeMem o s).count = s.count := by
  unfold executeMem; split <;> rfl

@[simp] theorem executeMem_ck (s : State) (o : Occupant) : (executeMem o s).ck = s.ck := by
  unfold executeMem; split <;> rfl

@[simp] theorem executeMem_uInt (s : State) (o : Occupant) : (executeMem o s).uInt = s.uInt := by
  unfold executeMem; split <;> rfl

@[simp] theorem executeMem_uMul (s : State) (o : Occupant) : (executeMem o s).uMul = s.uMul := by
  unfold executeMem; split <;> rfl

@[simp] theorem executeMem_uMem (s : State) (o : Occupant) : (executeMem o s).uMem = s.uMem := by
  unfold executeMem; split <;> rfl

@[simp] theorem executeMem_uBr (s : State) (o : Occupant) : (executeMem o s).uBr = s.uBr := by
  unfold executeMem; split <;> rfl

@[simp] theorem executeMem_cycle (s : State) (o : Occupant) : (executeMem o s).cycle = s.cycle := by
  unfold executeMem; split <;> rfl

@[simp] theorem executeMem_committed (s : State) (o : Occupant) : (executeMem o s).committed = s.committed := by
  unfold executeMem; split <;> rfl

@[simp] theorem executeMem_halted (s : State) (o : Occupant) : (executeMem o s).halted = s.halted := by
  unfold executeMem; split <;> rfl

@[simp] theorem executeMem_fault (s : State) (o : Occupant) : (executeMem o s).fault = s.fault := by
  unfold executeMem; split <;> rfl

/-! ### loadStage1 -/

@[simp] theorem loadStage1_cfg (s : State) (o : Occupant) : (loadStage1 o s).cfg = s.cfg := by
  simp [loadStage1]

@[simp] theorem loadStage1_program (s : State) (o : Occupant) : (loadStage1 o s).program = s.program := by
  simp [loadStage1]

@[simp] theorem loadStage1_mode (s : State) (o : Occupant) : (loadStage1 o s).mode = s.mode := by
  simp [loadStage1]

@[simp] theorem loadStage1_replies (s : State) (o : Occupant) : (loadStage1 o s).replies = s.replies := by
  simp [loadStage1]

@[simp] theorem loadStage1_quit (s : State) (o : Occupant) : (loadStage1 o s).quit = s.quit := by
  simp [loadStage1]

@[simp] theorem loadStage1_prf (s : State) (o : Occupant) : (loadStage1 o s).prf = s.prf := by
  simp [loadStage1]

@[simp] theorem loadStage1_rat (s : State) (o : Occupant) : (loadStage1 o s).rat = s.rat := by
  simp [loadStage1]

@[simp] theorem loadStage1_z (s : State) (o : Occupant) : (loadStage1 o s).z = s.z := by
  simp [loadStage1]

@[simp] theorem loadStage1_pc (s : State) (o : Occupant) : (loadStage1 o s).pc = s.pc := by
  simp [loadStage1]

@[simp] theorem loadStage1_fl (s : State) (o : Occupant) : (loadStage1 o s).fl = s.fl := by
  simp [loadStage1]

@[simp] theorem loadStage1_fetchStopped (s : State) (o : Occupant) : (loadStage1 o s).fetchStopped = s.fetchStopped := by
  simp [loadStage1]

@[simp] theorem loadStage1_fetchSuppress (s : State) (o : Occupant) : (loadStage1 o s).fetchSuppress = s.fetchSuppress := by
  simp [loadStage1]

@[simp] theorem loadStage1_head (s : State) (o : Occupant) : (loadStage1 o s).head = s.head := by
  simp [loadStage1]

@[simp] theorem loadStage1_tail (s : State) (o : Occupant) : (loadStage1 o s).tail = s.tail := by
  simp [loadStage1]

@[simp] theorem loadStage1_count (s : State) (o : Occupant) : (loadStage1 o s).count = s.count := by
  simp [loadStage1]

@[simp] theorem loadStage1_iq (s : State) (o : Occupant) : (loadStage1 o s).iq = s.iq := by
  simp [loadStage1]

@[simp] theorem loadStage1_ck (s : State) (o : Occupant) : (loadStage1 o s).ck = s.ck := by
  simp [loadStage1]

@[simp] theorem loadStage1_uInt (s : State) (o : Occupant) : (loadStage1 o s).uInt = s.uInt := by
  simp [loadStage1]

@[simp] theorem loadStage1_uMul (s : State) (o : Occupant) : (loadStage1 o s).uMul = s.uMul := by
  simp [loadStage1]

@[simp] theorem loadStage1_uBr (s : State) (o : Occupant) : (loadStage1 o s).uBr = s.uBr := by
  simp [loadStage1]

@[simp] theorem loadStage1_dm (s : State) (o : Occupant) : (loadStage1 o s).dm = s.dm := by
  simp [loadStage1]

@[simp] theorem loadStage1_cycle (s : State) (o : Occupant) : (loadStage1 o s).cycle = s.cycle := by
  simp [loadStage1]

@[simp] theorem loadStage1_committed (s : State) (o : Occupant) : (loadStage1 o s).committed = s.committed := by
  simp [loadStage1]

@[simp] theorem loadStage1_halted (s : State) (o : Occupant) : (loadStage1 o s).halted = s.halted := by
  simp [loadStage1]

@[simp] theorem loadStage1_fault (s : State) (o : Occupant) : (loadStage1 o s).fault = s.fault := by
  simp [loadStage1]

/-! ### storeStage1 -/

@[simp] theorem storeStage1_cfg (s : State) (o : Occupant) : (storeStage1 o s).cfg = s.cfg := by
  unfold storeStage1; split <;> simp

@[simp] theorem storeStage1_program (s : State) (o : Occupant) : (storeStage1 o s).program = s.program := by
  unfold storeStage1; split <;> simp

@[simp] theorem storeStage1_mode (s : State) (o : Occupant) : (storeStage1 o s).mode = s.mode := by
  unfold storeStage1; split <;> simp

@[simp] theorem storeStage1_replies (s : State) (o : Occupant) : (storeStage1 o s).replies = s.replies := by
  unfold storeStage1; split <;> simp

@[simp] theorem storeStage1_quit (s : State) (o : Occupant) : (storeStage1 o s).quit = s.quit := by
  unfold storeStage1; split <;> simp

@[simp] theorem storeStage1_prf (s : State) (o : Occupant) : (storeStage1 o s).prf = s.prf := by
  unfold storeStage1; split <;> simp

@[simp] theorem storeStage1_rat (s : State) (o : Occupant) : (storeStage1 o s).rat = s.rat := by
  unfold storeStage1; split <;> simp

@[simp] theorem storeStage1_z (s : State) (o : Occupant) : (storeStage1 o s).z = s.z := by
  unfold storeStage1; split <;> simp

@[simp] theorem storeStage1_pc (s : State) (o : Occupant) : (storeStage1 o s).pc = s.pc := by
  unfold storeStage1; split <;> simp

@[simp] theorem storeStage1_fl (s : State) (o : Occupant) : (storeStage1 o s).fl = s.fl := by
  unfold storeStage1; split <;> simp

@[simp] theorem storeStage1_fetchStopped (s : State) (o : Occupant) : (storeStage1 o s).fetchStopped = s.fetchStopped := by
  unfold storeStage1; split <;> simp

@[simp] theorem storeStage1_fetchSuppress (s : State) (o : Occupant) : (storeStage1 o s).fetchSuppress = s.fetchSuppress := by
  unfold storeStage1; split <;> simp

@[simp] theorem storeStage1_head (s : State) (o : Occupant) : (storeStage1 o s).head = s.head := by
  unfold storeStage1; split <;> simp

@[simp] theorem storeStage1_tail (s : State) (o : Occupant) : (storeStage1 o s).tail = s.tail := by
  unfold storeStage1; split <;> simp

@[simp] theorem storeStage1_count (s : State) (o : Occupant) : (storeStage1 o s).count = s.count := by
  unfold storeStage1; split <;> simp

@[simp] theorem storeStage1_iq (s : State) (o : Occupant) : (storeStage1 o s).iq = s.iq := by
  unfold storeStage1; split <;> simp

@[simp] theorem storeStage1_ck (s : State) (o : Occupant) : (storeStage1 o s).ck = s.ck := by
  unfold storeStage1; split <;> simp

@[simp] theorem storeStage1_uInt (s : State) (o : Occupant) : (storeStage1 o s).uInt = s.uInt := by
  unfold storeStage1; split <;> simp

@[simp] theorem storeStage1_uMul (s : State) (o : Occupant) : (storeStage1 o s).uMul = s.uMul := by
  unfold storeStage1; split <;> simp

@[simp] theorem storeStage1_uBr (s : State) (o : Occupant) : (storeStage1 o s).uBr = s.uBr := by
  unfold storeStage1; split <;> simp

@[simp] theorem storeStage1_dm (s : State) (o : Occupant) : (storeStage1 o s).dm = s.dm := by
  unfold storeStage1; split <;> simp

@[simp] theorem storeStage1_cycle (s : State) (o : Occupant) : (storeStage1 o s).cycle = s.cycle := by
  unfold storeStage1; split <;> simp

@[simp] theorem storeStage1_committed (s : State) (o : Occupant) : (storeStage1 o s).committed = s.committed := by
  unfold storeStage1; split <;> simp

@[simp] theorem storeStage1_halted (s : State) (o : Occupant) : (storeStage1 o s).halted = s.halted := by
  unfold storeStage1; split <;> simp

@[simp] theorem storeStage1_fault (s : State) (o : Occupant) : (storeStage1 o s).fault = s.fault := by
  unfold storeStage1; split <;> simp

/-! ### memStage1 -/

@[simp] theorem memStage1_cfg (s : State) (o : Occupant) : (memStage1 o s).cfg = s.cfg := by
  unfold memStage1; split <;> simp

@[simp] theorem memStage1_program (s : State) (o : Occupant) : (memStage1 o s).program = s.program := by
  unfold memStage1; split <;> simp

@[simp] theorem memStage1_mode (s : State) (o : Occupant) : (memStage1 o s).mode = s.mode := by
  unfold memStage1; split <;> simp

@[simp] theorem memStage1_replies (s : State) (o : Occupant) : (memStage1 o s).replies = s.replies := by
  unfold memStage1; split <;> simp

@[simp] theorem memStage1_quit (s : State) (o : Occupant) : (memStage1 o s).quit = s.quit := by
  unfold memStage1; split <;> simp

@[simp] theorem memStage1_prf (s : State) (o : Occupant) : (memStage1 o s).prf = s.prf := by
  unfold memStage1; split <;> simp

@[simp] theorem memStage1_rat (s : State) (o : Occupant) : (memStage1 o s).rat = s.rat := by
  unfold memStage1; split <;> simp

@[simp] theorem memStage1_z (s : State) (o : Occupant) : (memStage1 o s).z = s.z := by
  unfold memStage1; split <;> simp

@[simp] theorem memStage1_pc (s : State) (o : Occupant) : (memStage1 o s).pc = s.pc := by
  unfold memStage1; split <;> simp

@[simp] theorem memStage1_fl (s : State) (o : Occupant) : (memStage1 o s).fl = s.fl := by
  unfold memStage1; split <;> simp

@[simp] theorem memStage1_fetchStopped (s : State) (o : Occupant) : (memStage1 o s).fetchStopped = s.fetchStopped := by
  unfold memStage1; split <;> simp

@[simp] theorem memStage1_fetchSuppress (s : State) (o : Occupant) : (memStage1 o s).fetchSuppress = s.fetchSuppress := by
  unfold memStage1; split <;> simp

@[simp] theorem memStage1_head (s : State) (o : Occupant) : (memStage1 o s).head = s.head := by
  unfold memStage1; split <;> simp

@[simp] theorem memStage1_tail (s : State) (o : Occupant) : (memStage1 o s).tail = s.tail := by
  unfold memStage1; split <;> simp

@[simp] theorem memStage1_count (s : State) (o : Occupant) : (memStage1 o s).count = s.count := by
  unfold memStage1; split <;> simp

@[simp] theorem memStage1_iq (s : State) (o : Occupant) : (memStage1 o s).iq = s.iq := by
  unfold memStage1; split <;> simp

@[simp] theorem memStage1_ck (s : State) (o : Occupant) : (memStage1 o s).ck = s.ck := by
  unfold memStage1; split <;> simp

@[simp] theorem memStage1_uInt (s : State) (o : Occupant) : (memStage1 o s).uInt = s.uInt := by
  unfold memStage1; split <;> simp

@[simp] theorem memStage1_uMul (s : State) (o : Occupant) : (memStage1 o s).uMul = s.uMul := by
  unfold memStage1; split <;> simp

@[simp] theorem memStage1_uBr (s : State) (o : Occupant) : (memStage1 o s).uBr = s.uBr := by
  unfold memStage1; split <;> simp

@[simp] theorem memStage1_dm (s : State) (o : Occupant) : (memStage1 o s).dm = s.dm := by
  unfold memStage1; split <;> simp

@[simp] theorem memStage1_cycle (s : State) (o : Occupant) : (memStage1 o s).cycle = s.cycle := by
  unfold memStage1; split <;> simp

@[simp] theorem memStage1_committed (s : State) (o : Occupant) : (memStage1 o s).committed = s.committed := by
  unfold memStage1; split <;> simp

@[simp] theorem memStage1_halted (s : State) (o : Occupant) : (memStage1 o s).halted = s.halted := by
  unfold memStage1; split <;> simp

@[simp] theorem memStage1_fault (s : State) (o : Occupant) : (memStage1 o s).fault = s.fault := by
  unfold memStage1; split <;> simp

/-! ### memStage2 -/

@[simp] theorem memStage2_cfg (s : State) (o : Occupant) : (memStage2 o s).cfg = s.cfg := by
  unfold memStage2; split <;> simp

@[simp] theorem memStage2_program (s : State) (o : Occupant) : (memStage2 o s).program = s.program := by
  unfold memStage2; split <;> simp

@[simp] theorem memStage2_mode (s : State) (o : Occupant) : (memStage2 o s).mode = s.mode := by
  unfold memStage2; split <;> simp

@[simp] theorem memStage2_replies (s : State) (o : Occupant) : (memStage2 o s).replies = s.replies := by
  unfold memStage2; split <;> simp

@[simp] theorem memStage2_quit (s : State) (o : Occupant) : (memStage2 o s).quit = s.quit := by
  unfold memStage2; split <;> simp

@[simp] theorem memStage2_rat (s : State) (o : Occupant) : (memStage2 o s).rat = s.rat := by
  unfold memStage2; split <;> simp

@[simp] theorem memStage2_z (s : State) (o : Occupant) : (memStage2 o s).z = s.z := by
  unfold memStage2; split <;> simp

@[simp] theorem memStage2_pc (s : State) (o : Occupant) : (memStage2 o s).pc = s.pc := by
  unfold memStage2; split <;> simp

@[simp] theorem memStage2_fl (s : State) (o : Occupant) : (memStage2 o s).fl = s.fl := by
  unfold memStage2; split <;> simp

@[simp] theorem memStage2_fetchStopped (s : State) (o : Occupant) : (memStage2 o s).fetchStopped = s.fetchStopped := by
  unfold memStage2; split <;> simp

@[simp] theorem memStage2_fetchSuppress (s : State) (o : Occupant) : (memStage2 o s).fetchSuppress = s.fetchSuppress := by
  unfold memStage2; split <;> simp

@[simp] theorem memStage2_head (s : State) (o : Occupant) : (memStage2 o s).head = s.head := by
  unfold memStage2; split <;> simp

@[simp] theorem memStage2_tail (s : State) (o : Occupant) : (memStage2 o s).tail = s.tail := by
  unfold memStage2; split <;> simp

@[simp] theorem memStage2_count (s : State) (o : Occupant) : (memStage2 o s).count = s.count := by
  unfold memStage2; split <;> simp

@[simp] theorem memStage2_ck (s : State) (o : Occupant) : (memStage2 o s).ck = s.ck := by
  unfold memStage2; split <;> simp

@[simp] theorem memStage2_uInt (s : State) (o : Occupant) : (memStage2 o s).uInt = s.uInt := by
  unfold memStage2; split <;> simp

@[simp] theorem memStage2_uMul (s : State) (o : Occupant) : (memStage2 o s).uMul = s.uMul := by
  unfold memStage2; split <;> simp

@[simp] theorem memStage2_uBr (s : State) (o : Occupant) : (memStage2 o s).uBr = s.uBr := by
  unfold memStage2; split <;> simp

@[simp] theorem memStage2_cycle (s : State) (o : Occupant) : (memStage2 o s).cycle = s.cycle := by
  unfold memStage2; split <;> simp

@[simp] theorem memStage2_committed (s : State) (o : Occupant) : (memStage2 o s).committed = s.committed := by
  unfold memStage2; split <;> simp

@[simp] theorem memStage2_halted (s : State) (o : Occupant) : (memStage2 o s).halted = s.halted := by
  unfold memStage2; split <;> simp

@[simp] theorem memStage2_fault (s : State) (o : Occupant) : (memStage2 o s).fault = s.fault := by
  unfold memStage2; split <;> simp

/-! ### brStage1 -/

@[simp] theorem brStage1_cfg (s : State) (o : Occupant) : (brStage1 o s).cfg = s.cfg := by
  unfold brStage1; split <;> rfl

@[simp] theorem brStage1_program (s : State) (o : Occupant) : (brStage1 o s).program = s.program := by
  unfold brStage1; split <;> rfl

@[simp] theorem brStage1_mode (s : State) (o : Occupant) : (brStage1 o s).mode = s.mode := by
  unfold brStage1; split <;> rfl

@[simp] theorem brStage1_replies (s : State) (o : Occupant) : (brStage1 o s).replies = s.replies := by
  unfold brStage1; split <;> rfl

@[simp] theorem brStage1_quit (s : State) (o : Occupant) : (brStage1 o s).quit = s.quit := by
  unfold brStage1; split <;> rfl

@[simp] theorem brStage1_rat (s : State) (o : Occupant) : (brStage1 o s).rat = s.rat := by
  unfold brStage1; split <;> rfl

@[simp] theorem brStage1_z (s : State) (o : Occupant) : (brStage1 o s).z = s.z := by
  unfold brStage1; split <;> rfl

@[simp] theorem brStage1_pc (s : State) (o : Occupant) : (brStage1 o s).pc = s.pc := by
  unfold brStage1; split <;> rfl

@[simp] theorem brStage1_fl (s : State) (o : Occupant) : (brStage1 o s).fl = s.fl := by
  unfold brStage1; split <;> rfl

@[simp] theorem brStage1_fetchStopped (s : State) (o : Occupant) : (brStage1 o s).fetchStopped = s.fetchStopped := by
  unfold brStage1; split <;> rfl

@[simp] theorem brStage1_fetchSuppress (s : State) (o : Occupant) : (brStage1 o s).fetchSuppress = s.fetchSuppress := by
  unfold brStage1; split <;> rfl

@[simp] theorem brStage1_rob (s : State) (o : Occupant) : (brStage1 o s).rob = s.rob := by
  unfold brStage1; split <;> rfl

@[simp] theorem brStage1_head (s : State) (o : Occupant) : (brStage1 o s).head = s.head := by
  unfold brStage1; split <;> rfl

@[simp] theorem brStage1_tail (s : State) (o : Occupant) : (brStage1 o s).tail = s.tail := by
  unfold brStage1; split <;> rfl

@[simp] theorem brStage1_count (s : State) (o : Occupant) : (brStage1 o s).count = s.count := by
  unfold brStage1; split <;> rfl

@[simp] theorem brStage1_ck (s : State) (o : Occupant) : (brStage1 o s).ck = s.ck := by
  unfold brStage1; split <;> rfl

@[simp] theorem brStage1_uInt (s : State) (o : Occupant) : (brStage1 o s).uInt = s.uInt := by
  unfold brStage1; split <;> rfl

@[simp] theorem brStage1_uMul (s : State) (o : Occupant) : (brStage1 o s).uMul = s.uMul := by
  unfold brStage1; split <;> rfl

@[simp] theorem brStage1_uMem (s : State) (o : Occupant) : (brStage1 o s).uMem = s.uMem := by
  unfold brStage1; split <;> rfl

@[simp] theorem brStage1_dm (s : State) (o : Occupant) : (brStage1 o s).dm = s.dm := by
  unfold brStage1; split <;> rfl

@[simp] theorem brStage1_cycle (s : State) (o : Occupant) : (brStage1 o s).cycle = s.cycle := by
  unfold brStage1; split <;> rfl

@[simp] theorem brStage1_committed (s : State) (o : Occupant) : (brStage1 o s).committed = s.committed := by
  unfold brStage1; split <;> rfl

@[simp] theorem brStage1_halted (s : State) (o : Occupant) : (brStage1 o s).halted = s.halted := by
  unfold brStage1; split <;> rfl

@[simp] theorem brStage1_fault (s : State) (o : Occupant) : (brStage1 o s).fault = s.fault := by
  unfold brStage1; split <;> rfl

/-! ### brStage2 -/

@[simp] theorem brStage2_cfg (s : State) (o : Occupant) : (brStage2 o s).cfg = s.cfg := by
  unfold brStage2; split <;> simp

@[simp] theorem brStage2_program (s : State) (o : Occupant) : (brStage2 o s).program = s.program := by
  unfold brStage2; split <;> simp

@[simp] theorem brStage2_mode (s : State) (o : Occupant) : (brStage2 o s).mode = s.mode := by
  unfold brStage2; split <;> simp

@[simp] theorem brStage2_replies (s : State) (o : Occupant) : (brStage2 o s).replies = s.replies := by
  unfold brStage2; split <;> simp

@[simp] theorem brStage2_quit (s : State) (o : Occupant) : (brStage2 o s).quit = s.quit := by
  unfold brStage2; split <;> simp

@[simp] theorem brStage2_z (s : State) (o : Occupant) : (brStage2 o s).z = s.z := by
  unfold brStage2; split <;> simp

@[simp] theorem brStage2_head (s : State) (o : Occupant) : (brStage2 o s).head = s.head := by
  unfold brStage2; split <;> simp

@[simp] theorem brStage2_dm (s : State) (o : Occupant) : (brStage2 o s).dm = s.dm := by
  unfold brStage2; split <;> simp

@[simp] theorem brStage2_cycle (s : State) (o : Occupant) : (brStage2 o s).cycle = s.cycle := by
  unfold brStage2; split <;> simp

@[simp] theorem brStage2_committed (s : State) (o : Occupant) : (brStage2 o s).committed = s.committed := by
  unfold brStage2; split <;> simp

@[simp] theorem brStage2_halted (s : State) (o : Occupant) : (brStage2 o s).halted = s.halted := by
  unfold brStage2; split <;> simp

@[simp] theorem brStage2_fault (s : State) (o : Occupant) : (brStage2 o s).fault = s.fault := by
  unfold brStage2; split <;> simp

/-! ### commitPhase -/

@[simp] theorem commitPhase_cfg (s : State) : (commitPhase s).cfg = s.cfg := by
  unfold commitPhase; (repeat' split) <;> rfl

@[simp] theorem commitPhase_program (s : State) : (commitPhase s).program = s.program := by
  unfold commitPhase; (repeat' split) <;> rfl

@[simp] theorem commitPhase_mode (s : State) : (commitPhase s).mode = s.mode := by
  unfold commitPhase; (repeat' split) <;> rfl

@[simp] theorem commitPhase_replies (s : State) : (commitPhase s).replies = s.replies := by
  unfold commitPhase; (repeat' split) <;> rfl

@[simp] theorem commitPhase_quit (s : State) : (commitPhase s).quit = s.quit := by
  unfold commitPhase; (repeat' split) <;> rfl

@[simp] theorem commitPhase_rat (s : State) : (commitPhase s).rat = s.rat := by
  unfold commitPhase; (repeat' split) <;> rfl

@[simp] theorem commitPhase_z (s : State) : (commitPhase s).z = s.z := by
  unfold commitPhase; (repeat' split) <;> rfl

@[simp] theorem commitPhase_pc (s : State) : (commitPhase s).pc = s.pc := by
  unfold commitPhase; (repeat' split) <;> rfl

@[simp] theorem commitPhase_fl (s : State) : (commitPhase s).fl = s.fl := by
  unfold commitPhase; (repeat' split) <;> rfl

@[simp] theorem commitPhase_fetchStopped (s : State) : (commitPhase s).fetchStopped = s.fetchStopped := by
  unfold commitPhase; (repeat' split) <;> rfl

@[simp] theorem commitPhase_fetchSuppress (s : State) : (commitPhase s).fetchSuppress = s.fetchSuppress := by
  unfold commitPhase; (repeat' split) <;> rfl

@[simp] theorem commitPhase_tail (s : State) : (commitPhase s).tail = s.tail := by
  unfold commitPhase; (repeat' split) <;> rfl

@[simp] theorem commitPhase_iq (s : State) : (commitPhase s).iq = s.iq := by
  unfold commitPhase; (repeat' split) <;> rfl

@[simp] theorem commitPhase_ck (s : State) : (commitPhase s).ck = s.ck := by
  unfold commitPhase; (repeat' split) <;> rfl

@[simp] theorem commitPhase_uInt (s : State) : (commitPhase s).uInt = s.uInt := by
  unfold commitPhase; (repeat' split) <;> rfl

@[simp] theorem commitPhase_uMul (s : State) : (commitPhase s).uMul = s.uMul := by
  unfold commitPhase; (repeat' split) <;> rfl

@[simp] theorem commitPhase_uMem (s : State) : (commitPhase s).uMem = s.uMem := by
  unfold commitPhase; (repeat' split) <;> rfl

@[simp] theorem commitPhase_uBr (s : State) : (commitPhase s).uBr = s.uBr := by
  unfold commitPhase; (repeat' split) <;> rfl

@[simp] theorem commitPhase_dm (s : State) : (commitPhase s).dm = s.dm := by
  unfold commitPhase; (repeat' split) <;> rfl

@[simp] theorem commitPhase_cycle (s : State) : (commitPhase s).cycle = s.cycle := by
  unfold commitPhase; (repeat' split) <;> rfl

/-! ### branchPhase -/

@[simp] theorem branchPhase_cfg (s : State) : (branchPhase s).cfg = s.cfg := by
  unfold branchPhase; (repeat' split) <;> simp

@[simp] theorem branchPhase_program (s : State) : (branchPhase s).program = s.program := by
  unfold branchPhase; (repeat' split) <;> simp

@[simp] theorem branchPhase_mode (s : State) : (branchPhase s).mode = s.mode := by
  unfold branchPhase; (repeat' split) <;> simp

@[simp] theorem branchPhase_replies (s : State) : (branchPhase s).replies = s.replies := by
  unfold branchPhase; (repeat' split) <;> simp

@[simp] theorem branchPhase_quit (s : State) : (branchPhase s).quit = s.quit := by
  unfold branchPhase; (repeat' split) <;> simp

@[simp] theorem branchPhase_z (s : State) : (branchPhase s).z = s.z := by
  unfold branchPhase; (repeat' split) <;> simp

@[simp] theorem branchPhase_head (s : State) : (branchPhase s).head = s.head := by
  unfold branchPhase; (repeat' split) <;> simp

@[simp] theorem branchPhase_dm (s : State) : (branchPhase s).dm = s.dm := by
  unfold branchPhase; (repeat' split) <;> simp

@[simp] theorem branchPhase_cycle (s : State) : (branchPhase s).cycle = s.cycle := by
  unfold branchPhase; (repeat' split) <;> simp

@[simp] theorem branchPhase_committed (s : State) : (branchPhase s).committed = s.committed := by
  unfold branchPhase; (repeat' split) <;> simp

@[simp] theorem branchPhase_halted (s : State) : (branchPhase s).halted = s.halted := by
  unfold branchPhase; (repeat' split) <;> simp

@[simp] theorem branchPhase_fault (s : State) : (branchPhase s).fault = s.fault := by
  unfold branchPhase; (repeat' split) <;> simp

/-! ### memPhase -/

@[simp] theorem memPhase_cfg (s : State) : (memPhase s).cfg = s.cfg := by
  unfold memPhase; (repeat' split) <;> simp

@[simp] theorem memPhase_program (s : State) : (memPhase s).program = s.program := by
  unfold memPhase; (repeat' split) <;> simp

@[simp] theorem memPhase_mode (s : State) : (memPhase s).mode = s.mode := by
  unfold memPhase; (repeat' split) <;> simp

@[simp] theorem memPhase_replies (s : State) : (memPhase s).replies = s.replies := by
  unfold memPhase; (repeat' split) <;> simp

@[simp] theorem memPhase_quit (s : State) : (memPhase s).quit = s.quit := by
  unfold memPhase; (repeat' split) <;> simp

@[simp] theorem memPhase_rat (s : State) : (memPhase s).rat = s.rat := by
  unfold memPhase; (repeat' split) <;> simp

@[simp] theorem memPhase_z (s : State) : (memPhase s).z = s.z := by
  unfold memPhase; (repeat' split) <;> simp

@[simp] theorem memPhase_pc (s : State) : (memPhase s).pc = s.pc := by
  unfold memPhase; (repeat' split) <;> simp

@[simp] theorem memPhase_fl (s : State) : (memPhase s).fl = s.fl := by
  unfold memPhase; (repeat' split) <;> simp

@[simp] theorem memPhase_fetchStopped (s : State) : (memPhase s).fetchStopped = s.fetchStopped := by
  unfold memPhase; (repeat' split) <;> simp

@[simp] theorem memPhase_fetchSuppress (s : State) : (memPhase s).fetchSuppress = s.fetchSuppress := by
  unfold memPhase; (repeat' split) <;> simp

@[simp] theorem memPhase_head (s : State) : (memPhase s).head = s.head := by
  unfold memPhase; (repeat' split) <;> simp

@[simp] theorem memPhase_tail (s : State) : (memPhase s).tail = s.tail := by
  unfold memPhase; (repeat' split) <;> simp

@[simp] theorem memPhase_count (s : State) : (memPhase s).count = s.count := by
  unfold memPhase; (repeat' split) <;> simp

@[simp] theorem memPhase_ck (s : State) : (memPhase s).ck = s.ck := by
  unfold memPhase; (repeat' split) <;> simp

@[simp] theorem memPhase_uInt (s : State) : (memPhase s).uInt = s.uInt := by
  unfold memPhase; (repeat' split) <;> simp

@[simp] theorem memPhase_uMul (s : State) : (memPhase s).uMul = s.uMul := by
  unfold memPhase; (repeat' split) <;> simp

@[simp] theorem memPhase_uBr (s : State) : (memPhase s).uBr = s.uBr := by
  unfold memPhase; (repeat' split) <;> simp

@[simp] theorem memPhase_cycle (s : State) : (memPhase s).cycle = s.cycle := by
  unfold memPhase; (repeat' split) <;> simp

@[simp] theorem memPhase_committed (s : State) : (memPhase s).committed = s.committed := by
  unfold memPhase; (repeat' split) <;> simp

@[simp] theorem memPhase_halted (s : State) : (memPhase s).halted = s.halted := by
  unfold memPhase; (repeat' split) <;> simp

@[simp] theorem memPhase_fault (s : State) : (memPhase s).fault = s.fault := by
  unfold memPhase; (repeat' split) <;> simp

/-! ### mulPhase -/

@[simp] theorem mulPhase_cfg (s : State) : (mulPhase s).cfg = s.cfg := by
  unfold mulPhase; (repeat' split) <;> rfl

@[simp] theorem mulPhase_program (s : State) : (mulPhase s).program = s.program := by
  unfold mulPhase; (repeat' split) <;> rfl

@[simp] theorem mulPhase_mode (s : State) : (mulPhase s).mode = s.mode := by
  unfold mulPhase; (repeat' split) <;> rfl

@[simp] theorem mulPhase_replies (s : State) : (mulPhase s).replies = s.replies := by
  unfold mulPhase; (repeat' split) <;> rfl

@[simp] theorem mulPhase_quit (s : State) : (mulPhase s).quit = s.quit := by
  unfold mulPhase; (repeat' split) <;> rfl

@[simp] theorem mulPhase_rat (s : State) : (mulPhase s).rat = s.rat := by
  unfold mulPhase; (repeat' split) <;> rfl

@[simp] theorem mulPhase_z (s : State) : (mulPhase s).z = s.z := by
  unfold mulPhase; (repeat' split) <;> rfl

@[simp] theorem mulPhase_pc (s : State) : (mulPhase s).pc = s.pc := by
  unfold mulPhase; (repeat' split) <;> rfl

@[simp] theorem mulPhase_fl (s : State) : (mulPhase s).fl = s.fl := by
  unfold mulPhase; (repeat' split) <;> rfl

@[simp] theorem mulPhase_fetchStopped (s : State) : (mulPhase s).fetchStopped = s.fetchStopped := by
  unfold mulPhase; (repeat' split) <;> rfl

@[simp] theorem mulPhase_fetchSuppress (s : State) : (mulPhase s).fetchSuppress = s.fetchSuppress := by
  unfold mulPhase; (repeat' split) <;> rfl

@[simp] theorem mulPhase_head (s : State) : (mulPhase s).head = s.head := by
  unfold mulPhase; (repeat' split) <;> rfl

@[simp] theorem mulPhase_tail (s : State) : (mulPhase s).tail = s.tail := by
  unfold mulPhase; (repeat' split) <;> rfl

@[simp] theorem mulPhase_count (s : State) : (mulPhase s).count = s.count := by
  unfold mulPhase; (repeat' split) <;> rfl

@[simp] theorem mulPhase_ck (s : State) : (mulPhase s).ck = s.ck := by
  unfold mulPhase; (repeat' split) <;> rfl

@[simp] theorem mulPhase_uInt (s : State) : (mulPhase s).uInt = s.uInt := by
  unfold mulPhase; (repeat' split) <;> rfl

@[simp] theorem mulPhase_uMem (s : State) : (mulPhase s).uMem = s.uMem := by
  unfold mulPhase; (repeat' split) <;> rfl

@[simp] theorem mulPhase_uBr (s : State) : (mulPhase s).uBr = s.uBr := by
  unfold mulPhase; (repeat' split) <;> rfl

@[simp] theorem mulPhase_dm (s : State) : (mulPhase s).dm = s.dm := by
  unfold mulPhase; (repeat' split) <;> rfl

@[simp] theorem mulPhase_cycle (s : State) : (mulPhase s).cycle = s.cycle := by
  unfold mulPhase; (repeat' split) <;> rfl

@[simp] theorem mulPhase_committed (s : State) : (mulPhase s).committed = s.committed := by
  unfold mulPhase; (repeat' split) <;> rfl

@[simp] theorem mulPhase_halted (s : State) : (mulPhase s).halted = s.halted := by
  unfold mulPhase; (repeat' split) <;> rfl

@[simp] theorem mulPhase_fault (s : State) : (mulPhase s).fault = s.fault := by
  unfold mulPhase; (repeat' split) <;> rfl

/-! ### intPhase -/

@[simp] theorem intPhase_cfg (s : State) : (intPhase s).cfg = s.cfg := by
  unfold intPhase; split <;> simp

@[simp] theorem intPhase_program (s : State) : (intPhase s).program = s.program := by
  unfold intPhase; split <;> simp

@[simp] theorem intPhase_mode (s : State) : (intPhase s).mode = s.mode := by
  unfold intPhase; split <;> simp

@[simp] theorem intPhase_replies (s : State) : (intPhase s).replies = s.replies := by
  unfold intPhase; split <;> simp

@[simp] theorem intPhase_quit (s : State) : (intPhase s).quit = s.quit := by
  unfold intPhase; split <;> simp

@[simp] theorem intPhase_rat (s : State) : (intPhase s).rat = s.rat := by
  unfold intPhase; split <;> simp

@[simp] theorem intPhase_pc (s : State) : (intPhase s).pc = s.pc := by
  unfold intPhase; split <;> simp

@[simp] theorem intPhase_fl (s : State) : (intPhase s).fl = s.fl := by
  unfold intPhase; split <;> simp

@[simp] theorem intPhase_fetchStopped (s : State) : (intPhase s).fetchStopped = s.fetchStopped := by
  unfold intPhase; split <;> simp

@[simp] theorem intPhase_fetchSuppress (s : State) : (intPhase s).fetchSuppress = s.fetchSuppress := by
  unfold intPhase; split <;> simp

@[simp] theorem intPhase_head (s : State) : (intPhase s).head = s.head := by
  unfold intPhase; split <;> simp

@[simp] theorem intPhase_tail (s : State) : (intPhase s).tail = s.tail := by
  unfold intPhase; split <;> simp

@[simp] theorem intPhase_count (s : State) : (intPhase s).count = s.count := by
  unfold intPhase; split <;> simp

@[simp] theorem intPhase_ck (s : State) : (intPhase s).ck = s.ck := by
  unfold intPhase; split <;> simp

@[simp] theorem intPhase_uMul (s : State) : (intPhase s).uMul = s.uMul := by
  unfold intPhase; split <;> simp

@[simp] theorem intPhase_uMem (s : State) : (intPhase s).uMem = s.uMem := by
  unfold intPhase; split <;> simp

@[simp] theorem intPhase_uBr (s : State) : (intPhase s).uBr = s.uBr := by
  unfold intPhase; split <;> simp

@[simp] theorem intPhase_dm (s : State) : (intPhase s).dm = s.dm := by
  unfold intPhase; split <;> simp

@[simp] theorem intPhase_cycle (s : State) : (intPhase s).cycle = s.cycle := by
  unfold intPhase; split <;> simp

@[simp] theorem intPhase_committed (s : State) : (intPhase s).committed = s.committed := by
  unfold intPhase; split <;> simp

@[simp] theorem intPhase_halted (s : State) : (intPhase s).halted = s.halted := by
  unfold intPhase; split <;> simp

@[simp] theorem intPhase_fault (s : State) : (intPhase s).fault = s.fault := by
  unfold intPhase; split <;> simp

/-! ### issueScan -/

@[simp] theorem issueScan_cfg (es : List IqEntry) (s : State) : (issueScan es s).cfg = s.cfg := by
  induction es generalizing s with
  | nil => rfl
  | cons e es ih => unfold issueScan; split <;> simp [ih]

@[simp] theorem issueScan_program (es : List IqEntry) (s : State) : (issueScan es s).program = s.program := by
  induction es generalizing s with
  | nil => rfl
  | cons e es ih => unfold issueScan; split <;> simp [ih]

@[simp] theorem issueScan_mode (es : List IqEntry) (s : State) : (issueScan es s).mode = s.mode := by
  induction es generalizing s with
  | nil => rfl
  | cons e es ih => unfold issueScan; split <;> simp [ih]

@[simp] theorem issueScan_replies (es : List IqEntry) (s : State) : (issueScan es s).replies = s.replies := by
  induction es generalizing s with
  | nil => rfl
  | cons e es ih => unfold issueScan; split <;> simp [ih]

@[simp] theorem issueScan_quit (es : List IqEntry) (s : State) : (issueScan es s).quit = s.quit := by
  induction es generalizing s with
  | nil => rfl
  | cons e es ih => unfold issueScan; split <;> simp [ih]

@[simp] theorem issueScan_prf (es : List IqEntry) (s : State) : (issueScan es s).prf = s.prf := by
  induction es generalizing s with
  | nil => rfl
  | cons e es ih => unfold issueScan; split <;> simp [ih]

@[simp] theorem issueScan_rat (es : List IqEntry) (s : State) : (issueScan es s).rat = s.rat := by
  induction es generalizing s with
  | nil => rfl
  | cons e es ih => unfold issueScan; split <;> simp [ih]

@[simp] theorem issueScan_z (es : List IqEntry) (s : State) : (issueScan es s).z = s.z := by
  induction es generalizing s with
  | nil => rfl
  | cons e es ih => unfold issueScan; split <;> simp [ih]

@[simp] theorem issueScan_pc (es : List IqEntry) (s : State) : (issueScan es s).pc = s.pc := by
  induction es generalizing s with
  | nil => rfl
  | cons e es ih => unfold issueScan; split <;> simp [ih]

@[simp] theorem issueScan_fl (es : List IqEntry) (s : State) : (issueScan es s).fl = s.fl := by
  induction es generalizing s with
  | nil => rfl
  | cons e es ih => unfold issueScan; split <;> simp [ih]

@[simp] theorem issueScan_fetchStopped (es : List IqEntry) (s : State) : (issueScan es s).fetchStopped = s.fetchStopped := by
  induction es generalizing s with
  | nil => rfl
  | cons e es ih => unfold issueScan; split <;> simp [ih]

@[simp] theorem issueScan_fetchSuppress (es : List IqEntry) (s : State) : (issueScan es s).fetchSuppress = s.fetchSuppress := by
  induction es generalizing s with
  | nil => rfl
  | cons e es ih => unfold issueScan; split <;> simp [ih]

@[simp] theorem issueScan_rob (es : List IqEntry) (s : State) : (issueScan es s).rob = s.rob := by
  induction es generalizing s with
  | nil => rfl
  | cons e es ih => unfold issueScan; split <;> simp [ih]

@[simp] theorem issueScan_head (es : List IqEntry) (s : State) : (issueScan es s).head = s.head := by
  induction es generalizing s with
  | nil => rfl
  | cons e es ih => unfold issueScan; split <;> simp [ih]

@[simp] theorem issueScan_tail (es : List IqEntry) (s : State) : (issueScan es s).tail = s.tail := by
  induction es generalizing s with
  | nil => rfl
  | cons e es ih => unfold issueScan; split <;> simp [ih]

@[simp] theorem issueScan_count (es : List IqEntry) (s : State) : (issueScan es s).count = s.count := by
  induction es generalizing s with
  | nil => rfl
  | cons e es ih => unfold issueScan; split <;> simp [ih]

@[simp] theorem issueScan_ck (es : List IqEntry) (s : State) : (issueScan es s).ck = s.ck := by
  induction es generalizing s with
  | nil => rfl
  | cons e es ih => unfold issueScan; split <;> simp [ih]

@[simp] theorem issueScan_dm (es : List IqEntry) (s : State) : (issueScan es s).dm = s.dm := by
  induction es generalizing s with
  | nil => rfl
  | cons e es ih => unfold issueScan; split <;> simp [ih]

@[simp] theorem issueScan_cycle (es : List IqEntry) (s : State) : (issueScan es s).cycle = s.cycle := by
  induction es generalizing s with
  | nil => rfl
  | cons e es ih => unfold issueScan; split <;> simp [ih]

@[simp] theorem issueScan_committed (es : List IqEntry) (s : State) : (issueScan es s).committed = s.committed := by
  induction es generalizing s with
  | nil => rfl
  | cons e es ih => unfold issueScan; split <;> simp [ih]

@[simp] theorem issueScan_halted (es : List IqEntry) (s : State) : (issueScan es s).halted = s.halted := by
  induction es generalizing s with
  | nil => rfl
  | cons e es ih => unfold issueScan; split <;> simp [ih]

@[simp] theorem issueScan_fault (es : List IqEntry) (s : State) : (issueScan es s).fault = s.fault := by
  induction es generalizing s with
  | nil => rfl
  | cons e es ih => unfold issueScan; split <;> simp [ih]

/-! ### issuePhase -/

@[simp] theorem issuePhase_cfg (s : State) : (issuePhase s).cfg = s.cfg := by
  simp [issuePhase]

@[simp] theorem issuePhase_program (s : State) : (issuePhase s).program = s.program := by
  simp [issuePhase]

@[simp] theorem issuePhase_mode (s : State) : (issuePhase s).mode = s.mode := by
  simp [issuePhase]

@[simp] theorem issuePhase_replies (s : State) : (issuePhase s).replies = s.replies := by
  simp [issuePhase]

@[simp] theorem issuePhase_quit (s : State) : (issuePhase s).quit = s.quit := by
  simp [issuePhase]

@[simp] theorem issuePhase_prf (s : State) : (issuePhase s).prf = s.prf := by
  simp [issuePhase]

@[simp] theorem issuePhase_rat (s : State) : (issuePhase s).rat = s.rat := by
  simp [issuePhase]

@[simp] theorem issuePhase_z (s : State) : (issuePhase s).z = s.z := by
  simp [issuePhase]

@[simp] theorem issuePhase_pc (s : State) : (issuePhase s).pc = s.pc := by
  simp [issuePhase]

@[simp] theorem issuePhase_fl (s : State) : (issuePhase s).fl = s.fl := by
  simp [issuePhase]

@[simp] theorem issuePhase_fetchStopped (s : State) : (issuePhase s).fetchStopped = s.fetchStopped := by
  simp [issuePhase]

@[simp] theorem issuePhase_fetchSuppress (s : State) : (issuePhase s).fetchSuppress = s.fetchSuppress := by
  simp [issuePhase]

@[simp] theorem issuePhase_rob (s : State) : (issuePhase s).rob = s.rob := by
  simp [issuePhase]

@[simp] theorem issuePhase_head (s : State) : (issuePhase s).head = s.head := by
  simp [issuePhase]

@[simp] theorem issuePhase_tail (s : State) : (issuePhase s).tail = s.tail := by
  simp [issuePhase]

@[simp] theorem issuePhase_count (s : State) : (issuePhase s).count = s.count := by
  simp [issuePhase]

@[simp] theorem issuePhase_ck (s : State) : (issuePhase s).ck = s.ck := by
  simp [issuePhase]

@[simp] theorem issuePhase_dm (s : State) : (issuePhase s).dm = s.dm := by
  simp [issuePhase]

@[simp] theorem issuePhase_cycle (s : State) : (issuePhase s).cycle = s.cycle := by
  simp [issuePhase]

@[simp] theorem issuePhase_committed (s : State) : (issuePhase s).committed = s.committed := by
  simp [issuePhase]

@[simp] theorem issuePhase_halted (s : State) : (issuePhase s).halted = s.halted := by
  simp [issuePhase]

@[simp] theorem issuePhase_fault (s : State) : (issuePhase s).fault = s.fault := by
  simp [issuePhase]

/-! ### dispatchLegal -/

@[simp] theorem dispatchLegal_cfg (s : State) (op : Op) (x : Operands) : (dispatchLegal op x s).cfg = s.cfg := by
  unfold dispatchLegal; split <;> rfl

@[simp] theorem dispatchLegal_program (s : State) (op : Op) (x : Operands) : (dispatchLegal op x s).program = s.program := by
  unfold dispatchLegal; split <;> rfl

@[simp] theorem dispatchLegal_mode (s : State) (op : Op) (x : Operands) : (dispatchLegal op x s).mode = s.mode := by
  unfold dispatchLegal; split <;> rfl

@[simp] theorem dispatchLegal_replies (s : State) (op : Op) (x : Operands) : (dispatchLegal op x s).replies = s.replies := by
  unfold dispatchLegal; split <;> rfl

@[simp] theorem dispatchLegal_quit (s : State) (op : Op) (x : Operands) : (dispatchLegal op x s).quit = s.quit := by
  unfold dispatchLegal; split <;> rfl

@[simp] theorem dispatchLegal_z (s : State) (op : Op) (x : Operands) : (dispatchLegal op x s).z = s.z := by
  unfold dispatchLegal; split <;> rfl

@[simp] theorem dispatchLegal_pc (s : State) (op : Op) (x : Operands) : (dispatchLegal op x s).pc = s.pc := by
  unfold dispatchLegal; split <;> rfl

@[simp] theorem dispatchLegal_fetchStopped (s : State) (op : Op) (x : Operands) : (dispatchLegal op x s).fetchStopped = s.fetchStopped := by
  unfold dispatchLegal; split <;> rfl

@[simp] theorem dispatchLegal_fetchSuppress (s : State) (op : Op) (x : Operands) : (dispatchLegal op x s).fetchSuppress = s.fetchSuppress := by
  unfold dispatchLegal; split <;> rfl

@[simp] theorem dispatchLegal_head (s : State) (op : Op) (x : Operands) : (dispatchLegal op x s).head = s.head := by
  unfold dispatchLegal; split <;> rfl

@[simp] theorem dispatchLegal_uInt (s : State) (op : Op) (x : Operands) : (dispatchLegal op x s).uInt = s.uInt := by
  unfold dispatchLegal; split <;> rfl

@[simp] theorem dispatchLegal_uMul (s : State) (op : Op) (x : Operands) : (dispatchLegal op x s).uMul = s.uMul := by
  unfold dispatchLegal; split <;> rfl

@[simp] theorem dispatchLegal_uMem (s : State) (op : Op) (x : Operands) : (dispatchLegal op x s).uMem = s.uMem := by
  unfold dispatchLegal; split <;> rfl

@[simp] theorem dispatchLegal_uBr (s : State) (op : Op) (x : Operands) : (dispatchLegal op x s).uBr = s.uBr := by
  unfold dispatchLegal; split <;> rfl

@[simp] theorem dispatchLegal_dm (s : State) (op : Op) (x : Operands) : (dispatchLegal op x s).dm = s.dm := by
  unfold dispatchLegal; split <;> rfl

@[simp] theorem dispatchLegal_cycle (s : State) (op : Op) (x : Operands) : (dispatchLegal op x s).cycle = s.cycle := by
  unfold dispatchLegal; split <;> rfl

@[simp] theorem dispatchLegal_committed (s : State) (op : Op) (x : Operands) : (dispatchLegal op x s).committed = s.committed := by
  unfold dispatchLegal; split <;> rfl

@[simp] theorem dispatchLegal_halted (s : State) (op : Op) (x : Operands) : (dispatchLegal op x s).halted = s.halted := by
  unfold dispatchLegal; split <;> rfl

@[simp] theorem dispatchLegal_fault (s : State) (op : Op) (x : Operands) : (dispatchLegal op x s).fault = s.fault := by
  unfold dispatchLegal; split <;> rfl

/-! ### dispatchIllegal -/

@[simp] theorem dispatchIllegal_cfg (s : State) : (dispatchIllegal s).cfg = s.cfg := by
  unfold dispatchIllegal; split <;> rfl

@[simp] theorem dispatchIllegal_program (s : State) : (dispatchIllegal s).program = s.program := by
  unfold dispatchIllegal; split <;> rfl

@[simp] theorem dispatchIllegal_mode (s : State) : (dispatchIllegal s).mode = s.mode := by
  unfold dispatchIllegal; split <;> rfl

@[simp] theorem dispatchIllegal_replies (s : State) : (dispatchIllegal s).replies = s.replies := by
  unfold dispatchIllegal; split <;> rfl

@[simp] theorem dispatchIllegal_quit (s : State) : (dispatchIllegal s).quit = s.quit := by
  unfold dispatchIllegal; split <;> rfl

@[simp] theorem dispatchIllegal_prf (s : State) : (dispatchIllegal s).prf = s.prf := by
  unfold dispatchIllegal; split <;> rfl

@[simp] theorem dispatchIllegal_rat (s : State) : (dispatchIllegal s).rat = s.rat := by
  unfold dispatchIllegal; split <;> rfl

@[simp] theorem dispatchIllegal_z (s : State) : (dispatchIllegal s).z = s.z := by
  unfold dispatchIllegal; split <;> rfl

@[simp] theorem dispatchIllegal_pc (s : State) : (dispatchIllegal s).pc = s.pc := by
  unfold dispatchIllegal; split <;> rfl

@[simp] theorem dispatchIllegal_fetchStopped (s : State) : (dispatchIllegal s).fetchStopped = s.fetchStopped := by
  unfold dispatchIllegal; split <;> rfl

@[simp] theorem dispatchIllegal_fetchSuppress (s : State) : (dispatchIllegal s).fetchSuppress = s.fetchSuppress := by
  unfold dispatchIllegal; split <;> rfl

@[simp] theorem dispatchIllegal_head (s : State) : (dispatchIllegal s).head = s.head := by
  unfold dispatchIllegal; split <;> rfl

@[simp] theorem dispatchIllegal_iq (s : State) : (dispatchIllegal s).iq = s.iq := by
  unfold dispatchIllegal; split <;> rfl

@[simp] theorem dispatchIllegal_ck (s : State) : (dispatchIllegal s).ck = s.ck := by
  unfold dispatchIllegal; split <;> rfl

@[simp] theorem dispatchIllegal_uInt (s : State) : (dispatchIllegal s).uInt = s.uInt := by
  unfold dispatchIllegal; split <;> rfl

@[simp] theorem dispatchIllegal_uMul (s : State) : (dispatchIllegal s).uMul = s.uMul := by
  unfold dispatchIllegal; split <;> rfl

@[simp] theorem dispatchIllegal_uMem (s : State) : (dispatchIllegal s).uMem = s.uMem := by
  unfold dispatchIllegal; split <;> rfl

@[simp] theorem dispatchIllegal_uBr (s : State) : (dispatchIllegal s).uBr = s.uBr := by
  unfold dispatchIllegal; split <;> rfl

@[simp] theorem dispatchIllegal_dm (s : State) : (dispatchIllegal s).dm = s.dm := by
  unfold dispatchIllegal; split <;> rfl

@[simp] theorem dispatchIllegal_cycle (s : State) : (dispatchIllegal s).cycle = s.cycle := by
  unfold dispatchIllegal; split <;> rfl

@[simp] theorem dispatchIllegal_committed (s : State) : (dispatchIllegal s).committed = s.committed := by
  unfold dispatchIllegal; split <;> rfl

@[simp] theorem dispatchIllegal_halted (s : State) : (dispatchIllegal s).halted = s.halted := by
  unfold dispatchIllegal; split <;> rfl

@[simp] theorem dispatchIllegal_fault (s : State) : (dispatchIllegal s).fault = s.fault := by
  unfold dispatchIllegal; split <;> rfl

/-! ### fetchPhase -/

@[simp] theorem fetchPhase_cfg (s : State) : (fetchPhase s).cfg = s.cfg := by
  unfold fetchPhase; (repeat' split) <;> rfl

@[simp] theorem fetchPhase_program (s : State) : (fetchPhase s).program = s.program := by
  unfold fetchPhase; (repeat' split) <;> rfl

@[simp] theorem fetchPhase_mode (s : State) : (fetchPhase s).mode = s.mode := by
  unfold fetchPhase; (repeat' split) <;> rfl

@[simp] theorem fetchPhase_replies (s : State) : (fetchPhase s).replies = s.replies := by
  unfold fetchPhase; (repeat' split) <;> rfl

@[simp] theorem fetchPhase_quit (s : State) : (fetchPhase s).quit = s.quit := by
  unfold fetchPhase; (repeat' split) <;> rfl

@[simp] theorem fetchPhase_prf (s : State) : (fetchPhase s).prf = s.prf := by
  unfold fetchPhase; (repeat' split) <;> rfl

@[simp] theorem fetchPhase_rat (s : State) : (fetchPhase s).rat = s.rat := by
  unfold fetchPhase; (repeat' split) <;> rfl

@[simp] theorem fetchPhase_z (s : State) : (fetchPhase s).z = s.z := by
  unfold fetchPhase; (repeat' split) <;> rfl

@[simp] theorem fetchPhase_rob (s : State) : (fetchPhase s).rob = s.rob := by
  unfold fetchPhase; (repeat' split) <;> rfl

@[simp] theorem fetchPhase_head (s : State) : (fetchPhase s).head = s.head := by
  unfold fetchPhase; (repeat' split) <;> rfl

@[simp] theorem fetchPhase_tail (s : State) : (fetchPhase s).tail = s.tail := by
  unfold fetchPhase; (repeat' split) <;> rfl

@[simp] theorem fetchPhase_count (s : State) : (fetchPhase s).count = s.count := by
  unfold fetchPhase; (repeat' split) <;> rfl

@[simp] theorem fetchPhase_iq (s : State) : (fetchPhase s).iq = s.iq := by
  unfold fetchPhase; (repeat' split) <;> rfl

@[simp] theorem fetchPhase_ck (s : State) : (fetchPhase s).ck = s.ck := by
  unfold fetchPhase; (repeat' split) <;> rfl

@[simp] theorem fetchPhase_uInt (s : State) : (fetchPhase s).uInt = s.uInt := by
  unfold fetchPhase; (repeat' split) <;> rfl

@[simp] theorem fetchPhase_uMul (s : State) : (fetchPhase s).uMul = s.uMul := by
  unfold fetchPhase; (repeat' split) <;> rfl

@[simp] theorem fetchPhase_uMem (s : State) : (fetchPhase s).uMem = s.uMem := by
  unfold fetchPhase; (repeat' split) <;> rfl

@[simp] theorem fetchPhase_uBr (s : State) : (fetchPhase s).uBr = s.uBr := by
  unfold fetchPhase; (repeat' split) <;> rfl

@[simp] theorem fetchPhase_dm (s : State) : (fetchPhase s).dm = s.dm := by
  unfold fetchPhase; (repeat' split) <;> rfl

@[simp] theorem fetchPhase_cycle (s : State) : (fetchPhase s).cycle = s.cycle := by
  unfold fetchPhase; (repeat' split) <;> rfl

@[simp] theorem fetchPhase_committed (s : State) : (fetchPhase s).committed = s.committed := by
  unfold fetchPhase; (repeat' split) <;> rfl

@[simp] theorem fetchPhase_halted (s : State) : (fetchPhase s).halted = s.halted := by
  unfold fetchPhase; (repeat' split) <;> rfl

@[simp] theorem fetchPhase_fault (s : State) : (fetchPhase s).fault = s.fault := by
  unfold fetchPhase; (repeat' split) <;> rfl

end Sys2Proof.Machine
end

