-- ==== Sys2Proof/Laws/Ops.lean ====
section
/-! SUPPORT. Laws/Ops.lean: what each shared operation does to the fields it changes, said once, so that a proof cites it
instead of unfolding the operation. -/

namespace Sys2Proof.Machine

/-! ### The register file -/

@[simp] theorem updatePrf_none (prf : List PhysReg) (f : PhysReg → PhysReg) : updatePrf prf none f = prf := rfl

@[simp] theorem updatePrf_length (prf : List PhysReg) (p : Option Nat) (f : PhysReg → PhysReg) :
    (updatePrf prf p f).length = prf.length := by
  cases p <;> simp [updatePrf]

/-- Reading a register file after one record has been changed. -/
theorem updatePrf_getD (prf : List PhysReg) (p x : Nat) (f : PhysReg → PhysReg) :
    (updatePrf prf (some p) f).getD x PhysReg.absent =
      if x = p ∧ p < prf.length then f (prf.getD p PhysReg.absent) else prf.getD x PhysReg.absent := by
  simp only [updatePrf, List.getD_eq_getElem?_getD, List.getElem?_modify]
  by_cases hx : p = x
  · subst hx
    by_cases hp : p < prf.length
    · simp [hp]
    · simp [hp]
  · have : ¬ x = p := fun e => hx e.symm
    simp [hx, this]

/-- A register below the length of the file is the record listed there. -/
theorem preg_of_lt {s : State} {p : Nat} (h : p < s.prf.length) : s.prf[p]? = some (s.preg p) := by
  simp [State.preg, h]

/-- The free list of 10_state.md R21 gives the lowest-numbered free register, or nothing when none is free
(51_rename_dispatch.md R205). -/
theorem freeReg_eq_some {s : State} {p : Nat} :
    s.freeReg = some p ↔ p < s.prf.length ∧ (s.preg p).free = true ∧ ∀ q < p, (s.preg q).free = false := by
  unfold State.freeReg
  rw [List.findIdx?_eq_some_iff_getElem]
  constructor
  · rintro ⟨hp, hf, hmin⟩
    refine ⟨hp, ?_, fun q hq => ?_⟩
    · simpa [State.preg, hp] using hf
    · have hq' : q < s.prf.length := Nat.lt_trans hq hp
      simpa [State.preg, hq'] using hmin q hq
  · rintro ⟨hp, hf, hmin⟩
    refine ⟨hp, ?_, fun q hq => ?_⟩
    · simpa [State.preg, hp] using hf
    · have hq' : q < s.prf.length := Nat.lt_trans hq hp
      simpa [State.preg, hq'] using hmin q hq

theorem freeReg_eq_none {s : State} : s.freeReg = none ↔ ∀ r ∈ s.prf, r.free = false := by
  simp [State.freeReg]

/-! ### Write-back and completion (52_issue_units.md R239, R240) -/

@[simp] theorem writeBack_prf (s : State) (p : Option Nat) (v : Int) :
    (s.writeBack p v).prf = updatePrf s.prf p (PhysReg.written v) := rfl

@[simp] theorem writeBack_iq (s : State) (p : Option Nat) (v : Int) :
    (s.writeBack p v).iq = s.iq.map (IqEntry.wake p v) := rfl

theorem writeBack_preg_same (s : State) {p : Nat} (v : Int) (h : p < s.prf.length) :
    (s.writeBack (some p) v).preg p = { value := v, valid := true, free := (s.preg p).free } := by
  show (updatePrf s.prf (some p) _).getD p PhysReg.absent = _
  rw [updatePrf_getD, if_pos ⟨rfl, h⟩]
  rfl

theorem writeBack_preg_other (s : State) {p x : Nat} (v : Int) (h : x ≠ p) :
    (s.writeBack (some p) v).preg x = s.preg x := by
  show (updatePrf s.prf (some p) _).getD x PhysReg.absent = _
  rw [updatePrf_getD, if_neg fun e => h e.1]
  rfl

@[simp] theorem Operand.wake_none (v : Int) (o : Operand) : o.wake none v = o := by simp [Operand.wake]

@[simp] theorem IqEntry.wake_none (v : Int) (e : IqEntry) : e.wake none v = e := by simp [IqEntry.wake]

/-- What a broadcast does to one operand. -/
theorem Operand.wake_some (p : Nat) (v : Int) (o : Operand) :
    o.wake (some p) v =
      if o.tag = some p ∧ o.ready = false then { tag := o.tag, ready := true, value := v } else o := by
  unfold Operand.wake
  by_cases ht : o.tag = some p <;> cases hr : o.ready <;> simp [ht]

@[simp] theorem IqEntry.wake_op (p : Option Nat) (v : Int) (e : IqEntry) : (e.wake p v).op = e.op := rfl

@[simp] theorem IqEntry.wake_rob (p : Option Nat) (v : Int) (e : IqEntry) : (e.wake p v).rob = e.rob := rfl

/-- A valid entry is listed in the buffer. -/
theorem robAt_mem {s : State} {r : Nat} {e : RobEntry} (h : s.robAt r = some e) : some e ∈ s.rob := by
  rw [State.robAt, List.getD_eq_getElem?_getD] at h
  cases hr : s.rob[r]? with
  | none => rw [hr] at h; cases h
  | some x => rw [hr] at h; exact h ▸ List.mem_of_getElem? hr

/-- Reading the reorder buffer after one entry has been changed. -/
theorem modifyRob_robAt (s : State) (r x : Nat) (f : RobEntry → RobEntry) :
    (s.modifyRob r f).robAt x = if x = r then (s.robAt r).map f else s.robAt x := by
  simp only [State.modifyRob, State.robAt, List.getD_eq_getElem?_getD, List.getElem?_modify]
  by_cases hx : r = x
  · subst hx
    cases h : s.rob[r]? <;> simp
  · have : ¬ x = r := fun e => hx e.symm
    simp [hx, this]

@[simp] theorem modifyRob_rob_length (s : State) (r : Nat) (f : RobEntry → RobEntry) :
    (s.modifyRob r f).rob.length = s.rob.length := by
  simp [State.modifyRob]

/-- Changing an entry never makes one valid or invalid. -/
theorem modifyRob_isSome (s : State) (r x : Nat) (f : RobEntry → RobEntry) :
    ((s.modifyRob r f).robAt x).isSome = (s.robAt x).isSome := by
  rw [modifyRob_robAt]
  split
  · next h => subst h; simp
  · rfl

theorem complete_robAt (s : State) (r x : Nat) :
    (s.complete r).robAt x =
      if x = r then (s.robAt r).map (fun e => { e with done := true }) else s.robAt x :=
  modifyRob_robAt s r x _

@[simp] theorem complete_rob_length (s : State) (r : Nat) : (s.complete r).rob.length = s.rob.length :=
  modifyRob_rob_length s r _

/-- Writing a whole entry. -/
theorem robAt_set (rob : List (Option RobEntry)) (r x : Nat) (e : Option RobEntry) (h : r < rob.length) :
    (rob.set r e).getD x none = if x = r then e else rob.getD x none := by
  simp only [List.getD_eq_getElem?_getD, List.getElem?_set]
  by_cases hx : r = x
  · subst hx; simp [h]
  · have : ¬ x = r := fun e => hx e.symm
    simp [hx, this]

/-! ### Ages in the reorder buffer (10_state.md R30, R31) -/

theorem age_eq {s : State} {r : Nat} (hr : r < s.cfg.robSize) (hh : s.head < s.cfg.robSize) :
    s.age r = if s.head ≤ r then r - s.head else r + s.cfg.robSize - s.head := by
  unfold State.age
  split
  · have : r + s.cfg.robSize - s.head = (r - s.head) + s.cfg.robSize := by omega
    rw [this, Nat.add_mod_right, Nat.mod_eq_of_lt (by omega)]
  · exact Nat.mod_eq_of_lt (by omega)

theorem robIndex_eq {s : State} {k : Nat} (hk : k < s.cfg.robSize) (hh : s.head < s.cfg.robSize) :
    s.robIndex k = if s.head + k < s.cfg.robSize then s.head + k else s.head + k - s.cfg.robSize := by
  unfold State.robIndex
  split
  · exact Nat.mod_eq_of_lt ‹_›
  · rw [Nat.mod_eq_sub_mod (by omega)]
    exact Nat.mod_eq_of_lt (by omega)

theorem age_lt {s : State} {r : Nat} (hr : r < s.cfg.robSize) (hh : s.head < s.cfg.robSize) :
    s.age r < s.cfg.robSize := by
  rw [age_eq hr hh]; split <;> omega

theorem robIndex_lt {s : State} (k : Nat) (hh : s.head < s.cfg.robSize) : s.robIndex k < s.cfg.robSize :=
  Nat.mod_lt _ (by omega)

/-- The head has age 0. -/
theorem age_head {s : State} (hh : s.head < s.cfg.robSize) : s.age s.head = 0 := by
  rw [age_eq hh hh]; simp

/-- Index and age determine each other. -/
theorem robIndex_age {s : State} {r : Nat} (hr : r < s.cfg.robSize) (hh : s.head < s.cfg.robSize) :
    s.robIndex (s.age r) = r := by
  rw [robIndex_eq (age_lt hr hh) hh, age_eq hr hh]
  split <;> split <;> omega

theorem age_robIndex {s : State} {k : Nat} (hk : k < s.cfg.robSize) (hh : s.head < s.cfg.robSize) :
    s.age (s.robIndex k) = k := by
  rw [age_eq (robIndex_lt k hh) hh, robIndex_eq hk hh]
  split <;> split <;> omega

theorem age_injective {s : State} {r x : Nat} (hh : s.head < s.cfg.robSize) (hr : r < s.cfg.robSize)
    (hx : x < s.cfg.robSize) (h : s.age r = s.age x) : r = x := by
  rw [← robIndex_age hr hh, h, robIndex_age hx hh]

/-- A condition on all older entries holds of each of them (10_state.md R31). -/
theorem allOlder_iff {s : State} {r : Nat} {cond : RobEntry → Bool} (hr : r < s.cfg.robSize)
    (hh : s.head < s.cfg.robSize) :
    s.allOlder r cond = true ↔
      ∀ x < s.cfg.robSize, s.age x < s.age r → ∀ e, s.robAt x = some e → cond e = true := by
  unfold State.allOlder
  rw [List.all_eq_true]
  constructor
  · intro h x hx hlt e he
    have := h (s.age x) (by simpa using hlt)
    rw [robIndex_age hx hh, he] at this
    exact this
  · intro h k hk
    have hk' : k < s.age r := by simpa using hk
    have hks : k < s.cfg.robSize := Nat.lt_trans hk' (age_lt hr hh)
    cases he : s.robAt (s.robIndex k) with
    | none => rfl
    | some e => exact h _ (robIndex_lt k hh) (by rwa [age_robIndex hks hh]) e he

/-! ### Checkpoint slots (10_state.md R36, R37) -/

/-- The slot an index owns is the first busy one with that owner. -/
theorem ownedSlot_eq_some {s : State} {b : Nat} {k : Nat} :
    s.ownedSlot b = some k ↔
      (∃ c, s.ck[k]? = some c ∧ c.busy = true ∧ c.owner = b)
        ∧ ∀ j < k, ∀ d, s.ck[j]? = some d → ¬ (d.busy = true ∧ d.owner = b) := by
  unfold State.ownedSlot
  rw [List.findIdx?_eq_some_iff_getElem]
  constructor
  · rintro ⟨hk, hc, hmin⟩
    refine ⟨⟨s.ck[k], by simp [hk], by simpa using hc⟩, fun j hj d hd => ?_⟩
    have hj' : j < s.ck.length := Nat.lt_trans hj hk
    have := hmin j hj
    rw [List.getElem?_eq_getElem hj'] at hd
    cases hd
    simpa using this
  · rintro ⟨⟨c, hc, hb, ho⟩, hmin⟩
    obtain ⟨hk, rfl⟩ := List.getElem?_eq_some_iff.mp hc
    refine ⟨hk, by simp [hb, ho], fun j hj => ?_⟩
    have hj' : j < s.ck.length := Nat.lt_trans hj hk
    have := hmin j hj _ (List.getElem?_eq_getElem hj')
    simpa using this

theorem ownedSlot_isSome {s : State} {b : Nat} :
    (s.ownedSlot b).isSome = true ↔ ∃ c ∈ s.ck, c.busy = true ∧ c.owner = b := by
  simp [State.ownedSlot, List.findIdx?_isSome]

theorem freeSlot_eq_none {s : State} : s.freeSlot = none ↔ ∀ c ∈ s.ck, c.busy = true := by
  simp [State.freeSlot]

/-- Dispatch takes the lowest-numbered slot that is not busy (51_rename_dispatch.md R208). -/
theorem freeSlot_eq_some {s : State} {k : Nat} :
    s.freeSlot = some k ↔
      (∃ c, s.ck[k]? = some c ∧ c.busy = false) ∧ ∀ j < k, ∀ d, s.ck[j]? = some d → d.busy = true := by
  unfold State.freeSlot
  rw [List.findIdx?_eq_some_iff_getElem]
  constructor
  · rintro ⟨hk, hc, hmin⟩
    refine ⟨⟨s.ck[k], by simp [hk], by simpa using hc⟩, fun j hj d hd => ?_⟩
    have hj' : j < s.ck.length := Nat.lt_trans hj hk
    have := hmin j hj
    rw [List.getElem?_eq_getElem hj'] at hd
    cases hd
    simpa using this
  · rintro ⟨⟨c, hc, hb⟩, hmin⟩
    obtain ⟨hk, rfl⟩ := List.getElem?_eq_some_iff.mp hc
    refine ⟨hk, by simp [hb], fun j hj => ?_⟩
    have hj' : j < s.ck.length := Nat.lt_trans hj hk
    have := hmin j hj _ (List.getElem?_eq_getElem hj')
    simpa using this

/-! ### Recovery (53_recovery_commit.md R260 to R269) -/

/-- The younger entries of an occupied index are the valid ROB entries with a larger age below `count`. -/
theorem mem_youngerEntries {s : State} {b : Nat} {e : RobEntry} :
    e ∈ s.youngerEntries b ↔ ∃ k, s.age b < k ∧ k < s.count ∧ s.robAt (s.robIndex k) = some e := by
  simp only [State.youngerEntries, List.mem_filterMap, List.mem_filter, List.mem_range, decide_eq_true_eq]
  constructor
  · rintro ⟨k, ⟨hk, hb⟩, he⟩; exact ⟨k, hb, hk, he⟩
  · rintro ⟨k, hb, hk, he⟩; exact ⟨k, ⟨hk, hb⟩, he⟩

@[simp] theorem releaseAll_length (prf : List PhysReg) (d : List RobEntry) :
    (releaseAll prf d).length = prf.length := by
  induction d generalizing prf with
  | nil => rfl
  | cons e d ih =>
    show (releaseAll (updatePrf prf e.pdst PhysReg.discarded) d).length = _
    rw [ih, updatePrf_length]

/-- Under the selective policy exactly the destinations of the discarded entries return to the free list
(53_recovery_commit.md R265). -/
theorem releaseAll_getD (prf : List PhysReg) (d : List RobEntry) {p : Nat} (hp : p < prf.length) :
    (releaseAll prf d).getD p PhysReg.absent =
      if ∃ e ∈ d, e.pdst = some p then PhysReg.discarded (prf.getD p PhysReg.absent)
      else prf.getD p PhysReg.absent := by
  induction d generalizing prf with
  | nil => simp [releaseAll]
  | cons e d ih =>
    show (releaseAll (updatePrf prf e.pdst PhysReg.discarded) d).getD p PhysReg.absent = _
    rw [ih _ (by simpa using hp)]
    cases he : e.pdst with
    | none => simp [he]
    | some q =>
      rw [updatePrf_getD]
      by_cases hq : p = q
      · subst hq
        rw [if_pos (c := p = p ∧ _) ⟨rfl, hp⟩]
        simp [he, PhysReg.discarded]
      · have hq' : ¬ q = p := fun h => hq h.symm
        rw [if_neg (c := p = q ∧ _) fun h => hq h.1]
        simp [he, hq']

/-- Recovery uses the checkpoint that the branch owns (53_recovery_commit.md R260, R264). -/
theorem recover_eq {s : State} {b : Nat} {t : Int} {c : Ckpt} (hc : c ∈ s.ck) (hb : c.busy = true)
    (ho : c.owner = b) : ∃ d ∈ s.ck, d.busy = true ∧ d.owner = b ∧ s.recover b t = s.recoverFrom b t d := by
  unfold State.recover
  cases h : s.ck.find? (fun c => c.busy && c.owner == b) with
  | none =>
    have := List.find?_eq_none.mp h c hc
    simp [hb, ho] at this
  | some d =>
    have := List.find?_some h
    simp only [Bool.and_eq_true, beq_iff_eq] at this
    exact ⟨d, List.mem_of_find?_eq_some h, this.1, this.2, rfl⟩

theorem releaseOwned_ck (s : State) (b : Nat) :
    (s.releaseOwned b).ck = match s.ownedSlot b with
      | none => s.ck
      | some k => s.ck.modify k fun c => { c with busy := false } := by
  unfold State.releaseOwned
  cases s.ownedSlot b <;> rfl

end Sys2Proof.Machine
end

