-- ==== Sys2Proof/Laws/PerInstr.lean ====
section
/-! SUPPORT. Laws/PerInstr.lean: the family OpcodeField: the encoder puts an instruction's opcode number in bits 63:59
and zeros in the reserved bits (30_encoding.md R80, R83). -/

namespace Sys2Proof.Laws.OpcodeField

/-- Bits 63:59 hold the opcode number, bits 42:32 are 0, and the opcode number leads back to the opcode. -/
def Statement (i : Instr) : Prop :=
  (encode i).opcode = i.op.code ∧ (encode i).extractLsb' 32 11 = 0 ∧ Op.ofCode? i.op.code = some i.op

theorem nop : Statement .nop := by simp [Statement, encode, Instr.op, Op.ofCode?_code]
theorem add (rd rs1 rs2 : Reg) : Statement (.add rd rs1 rs2) := by
  simp [Statement, encode, Instr.op, Op.ofCode?_code]
theorem sub (rd rs1 rs2 : Reg) : Statement (.sub rd rs1 rs2) := by
  simp [Statement, encode, Instr.op, Op.ofCode?_code]
theorem and (rd rs1 rs2 : Reg) : Statement (.and rd rs1 rs2) := by
  simp [Statement, encode, Instr.op, Op.ofCode?_code]
theorem or (rd rs1 rs2 : Reg) : Statement (.or rd rs1 rs2) := by
  simp [Statement, encode, Instr.op, Op.ofCode?_code]
theorem xor (rd rs1 rs2 : Reg) : Statement (.xor rd rs1 rs2) := by
  simp [Statement, encode, Instr.op, Op.ofCode?_code]
theorem mul (rd rs1 rs2 : Reg) : Statement (.mul rd rs1 rs2) := by
  simp [Statement, encode, Instr.op, Op.ofCode?_code]
theorem movc (rd : Reg) (imm : Imm) : Statement (.movc rd imm) := by
  simp [Statement, encode, Instr.op, Op.ofCode?_code]
theorem cmp (rs1 rs2 : Reg) : Statement (.cmp rs1 rs2) := by
  simp [Statement, encode, Instr.op, Op.ofCode?_code]
theorem load (rd rs1 : Reg) (imm : Imm) : Statement (.load rd rs1 imm) := by
  simp [Statement, encode, Instr.op, Op.ofCode?_code]
theorem ldr (rd rs1 rs2 : Reg) : Statement (.ldr rd rs1 rs2) := by
  simp [Statement, encode, Instr.op, Op.ofCode?_code]
theorem store (rs1 rs2 : Reg) (imm : Imm) : Statement (.store rs1 rs2 imm) := by
  simp [Statement, encode, Instr.op, Op.ofCode?_code]
theorem str (rs1 rs2 rs3 : Reg) : Statement (.str rs1 rs2 rs3) := by
  simp [Statement, encode, Instr.op, Op.ofCode?_code]
theorem jump (rs1 : Reg) (imm : Imm) : Statement (.jump rs1 imm) := by
  simp [Statement, encode, Instr.op, Op.ofCode?_code]
theorem jal (rd rs1 : Reg) (imm : Imm) : Statement (.jal rd rs1 imm) := by
  simp [Statement, encode, Instr.op, Op.ofCode?_code]
theorem bz (imm : Imm) : Statement (.bz imm) := by simp [Statement, encode, Instr.op, Op.ofCode?_code]
theorem bnz (imm : Imm) : Statement (.bnz imm) := by simp [Statement, encode, Instr.op, Op.ofCode?_code]
theorem halt : Statement .halt := by simp [Statement, encode, Instr.op, Op.ofCode?_code]

end Sys2Proof.Laws.OpcodeField
end

