-- ==== Sys2Proof/Laws/Phases.lean ====
section
/-! SUPPORT. Laws/Phases.lean: what each phase, the clock and the step can do, said once: a case lemma for each function,
which every invariant is derived from. -/

namespace Sys2Proof.Machine

/-! ### The phases -/

/-- The commit phase does nothing, retires a complete head entry, or takes its fault (53_recovery_commit.md R270,
R271). -/
theorem commitPhase_cases (s : State) :
    (commitPhase s = s ∧ ∀ e, s.headEntry = some e → e.done = false)
      ∨ ∃ e, s.headEntry = some e ∧ e.done = true ∧
        ((e.exc = .none ∧ commitPhase s = s.retire e) ∨ (e.exc ≠ .none ∧ commitPhase s = s.takeFault e)) := by
  unfold commitPhase
  cases hh : s.headEntry with
  | none => exact .inl ⟨rfl, fun e h => by cases h⟩
  | some e =>
    cases hd : e.done with
    | false => exact .inl ⟨by simp [hd], fun e' h => by cases h; exact hd⟩
    | true =>
      refine .inr ⟨e, rfl, hd, ?_⟩
      cases hx : e.exc <;> simp [hd, hx]

theorem headEntry_eq_some {s : State} {e : RobEntry} :
    s.headEntry = some e ↔ s.count ≠ 0 ∧ s.robAt s.head = some e := by
  unfold State.headEntry
  split <;> simp [*]

theorem branchPhase_idle {s : State} (h : s.uBr.occ = none) : branchPhase s = s := by simp [branchPhase, h]

theorem branchPhase_one {s : State} {o : Occupant} (h : s.uBr.occ = some o) (hs : s.uBr.stage = .one) :
    branchPhase s = brStage1 o s := by simp [branchPhase, h, hs]

theorem branchPhase_two {s : State} {o : Occupant} (h : s.uBr.occ = some o) (hs : s.uBr.stage = .two) :
    branchPhase s = brStage2 o s := by simp [branchPhase, h, hs]

theorem memPhase_idle {s : State} (h : s.uMem.occ = none) : memPhase s = s := by simp [memPhase, h]

theorem memPhase_one {s : State} {o : Occupant} (h : s.uMem.occ = some o) (hs : s.uMem.stage = .one) :
    memPhase s = memStage1 o s := by simp [memPhase, h, hs]

theorem memPhase_two {s : State} {o : Occupant} (h : s.uMem.occ = some o) (hs : s.uMem.stage = .two) :
    memPhase s = memStage2 o s := by simp [memPhase, h, hs]

theorem mulPhase_idle {s : State} (h : s.uMul.occ = none) : mulPhase s = s := by simp [mulPhase, h]

theorem intPhase_idle {s : State} (h : s.uInt.occ = none) : intPhase s = s := by simp [intPhase, h]

theorem intPhase_some {s : State} {o : Occupant} (h : s.uInt.occ = some o) :
    intPhase s = { (executeInt o s).complete o.rob with uInt := { occ := none } } := by simp [intPhase, h]

theorem fetchPhase_cases (s : State) :
    (s.fetchSuppress = true ∧ fetchPhase s = { s with fetchSuppress := false })
      ∨ (s.fetchSuppress = false ∧ fetchPhase s = s)
      ∨ ∃ w, s.fetchSuppress = false ∧ s.fl.valid = false ∧ s.fetchStopped = false ∧ s.bundleAt s.pc = some w
          ∧ fetchPhase s = s.latch w := by
  unfold fetchPhase
  split
  · next h => exact .inl ⟨h, rfl⟩
  · next h =>
    have hf : s.fetchSuppress = false := by simpa using h
    split
    · exact .inr (.inl ⟨hf, rfl⟩)
    · next hv =>
      simp only [Bool.or_eq_true, not_or, Bool.not_eq_true] at hv
      cases hb : s.bundleAt s.pc with
      | none => exact .inr (.inl ⟨hf, rfl⟩)
      | some w => exact .inr (.inr ⟨w, hf, hv.1, hv.2, rfl, rfl⟩)

/-- A dispatch phase for a legal instruction takes it in with every resource found, or does nothing
(51_rename_dispatch.md R202). -/
theorem dispatchLegal_cases (op : Op) (x : Operands) (s : State) :
    (s.fl.valid = true ∧ s.stallReasons op x = [] ∧ dispatchLegal op x s = s.dispatched op x)
      ∨ ((s.fl.valid = false ∨ s.stallReasons op x ≠ []) ∧ dispatchLegal op x s = s) := by
  unfold dispatchLegal
  cases s.fl.valid <;> cases s.stallReasons op x <;> simp

/-- The resource tests of 51_rename_dispatch.md R201, all passed. -/
theorem stallReasons_eq_nil {s : State} {op : Op} {x : Operands} :
    s.stallReasons op x = [] ↔
      (x.d.isSome = true → s.freeReg.isSome = true) ∧ (Op.needsCkpt op = true → s.freeSlot.isSome = true)
        ∧ s.iq.length ≠ s.cfg.iqSize ∧ s.count ≠ s.cfg.robSize := by
  unfold State.stallReasons
  cases x.d <;> cases s.freeReg <;> cases Op.needsCkpt op <;> cases s.freeSlot
    <;> by_cases hi : s.iq.length = s.cfg.iqSize <;> by_cases hc : s.count = s.cfg.robSize <;> simp [hi, hc]

theorem dispatchIllegal_cases (s : State) :
    (s.fl.valid = true ∧ s.count ≠ s.cfg.robSize ∧ dispatchIllegal s = { s with
        rob := s.rob.set s.tail (some s.illegalEntry)
        tail := s.nextIndex s.tail
        count := s.count + 1
        fl := { s.fl with valid := false } })
      ∨ ((s.fl.valid = false ∨ s.count = s.cfg.robSize) ∧ dispatchIllegal s = s) := by
  unfold dispatchIllegal
  by_cases hc : s.count = s.cfg.robSize <;> cases s.fl.valid <;> simp [hc]

/-! ### The issue scan (52_issue_units.md R232) -/

theorem issueScan_nil (s : State) : issueScan [] s = s := rfl

theorem issueScan_issues {e : IqEntry} {es : List IqEntry} {s : State} (h : s.eligible e = true)
    (hu : s.unitFree e.op.unit = true) : issueScan (e :: es) s = issueScan es (s.issueTo e) := by
  simp [issueScan, h, hu]

theorem issueScan_keeps {e : IqEntry} {es : List IqEntry} {s : State}
    (h : s.eligible e = false ∨ s.unitFree e.op.unit = false) :
    issueScan (e :: es) s = issueScan es { s with iq := s.iq ++ [e] } := by
  rcases h with h | h <;> simp [issueScan, h]

/-- Whether an entry is eligible depends on the ROB alone, which the scan leaves as it is. -/
theorem eligible_congr {s t : State} (hc : t.cfg = s.cfg) (hr : t.rob = s.rob) (hh : t.head = s.head)
    (hn : t.count = s.count) (e : IqEntry) : t.eligible e = s.eligible e := by
  simp only [State.eligible, State.orderingMet, State.allOlder, State.age, State.robIndex, State.robAt, hc, hr,
    hh, hn]

/-! ### The tick, the clock and the step -/

theorem tickWith_next {d : State → State} {s t : State} (h : tickWith d s = .next t) :
    ((afterCommit s).ended = true ∧ t = afterCommit s)
      ∨ ((afterCommit s).ended = false ∧ (afterCommit s).branchDefined = true
          ∧ (afterBranch s).accessDefined = true ∧ t = fetchPhase (d (beforeDispatch s))) := by
  unfold tickWith at h
  split at h
  · next he => cases h; exact .inl ⟨he, rfl⟩
  · next he =>
    split at h
    · cases h
    · next hb =>
      split at h
      · cases h
      · next ha =>
        cases h
        exact .inr ⟨by simpa using he, by simpa using hb, by simpa using ha, rfl⟩

theorem tickWith_of_defined {s : State} (d : State → State) (he : (afterCommit s).ended = false)
    (hb : (afterCommit s).branchDefined = true) (ha : (afterBranch s).accessDefined = true) :
    tickWith d s = .next (fetchPhase (d (beforeDispatch s))) := by
  simp [tickWith, he, hb, ha]

/-- A clock that answers a next state has stood still, recorded the host's quit, or run one tick
(50_cycle_and_fetch.md R183, R193 to R195). -/
theorem clocked_next {d : State → State} {s t : State} (h : clocked d s = .next t) :
    s.cfg.ok = true ∧
      (t = s ∨ (∃ rest, s.clock = .quits rest ∧ t = { s with quit := true, replies := rest })
        ∨ ∃ rest, s.clock = .tick rest ∧ tickWith d { s with replies := rest } = .next t) := by
  unfold clocked at h
  split at h
  · next hok =>
    refine ⟨hok, ?_⟩
    split at h
    · next rest hc => exact .inr (.inr ⟨rest, hc, h⟩)
    · cases h; exact .inl rfl
    · cases h; exact .inl rfl
    · next rest hc => cases h; exact .inr (.inl ⟨rest, hc, rfl⟩)
  · cases h

theorem clocked_tick {d : State → State} {s : State} {rest : List Reply} (hok : s.cfg.ok = true)
    (hc : s.clock = .tick rest) : clocked d s = tickWith d { s with replies := rest } := by
  simp [clocked, hok, hc]

/-- The meaning of an instruction is the tick that dispatches it, with registers it names. -/
theorem exec_eq_clocked (i : Instr) : ∃ x : Operands,
    (∀ s, exec i s = clocked (dispatchLegal i.op x) s)
      ∧ (∀ r, x.a = some r → r ∈ i.regs) ∧ (∀ r, x.b = some r → r ∈ i.regs) ∧ (∀ r, x.sd = some r → r ∈ i.regs)
      ∧ (∀ r, x.d = some r → r ∈ i.regs) := by
  cases i <;>
    exact ⟨_, fun _ => rfl, by simp [Operands.rrr, Operands.ri, Operands.rr, Operands.rri, Operands.sri,
      Operands.srr, Operands.ji, Operands.i, Operands.n, Instr.regs]⟩

/-- A register that a decoded instruction names is below NUM_ARCH (30_encoding.md R87). -/
theorem regs_lt_of_decode {n : Nat} {w : Bundle} {i : Instr} (h : decode n w = .ok i) :
    ∀ r ∈ i.regs, r.val < n := by
  unfold decode at h
  split at h
  · cases h
  · split at h
    · next hw =>
      cases h
      simpa [Instr.wf] using hw
    · cases h

/-- Every step is a clocked tick with one of three dispatch phases (51_rename_dispatch.md R200, R212, R214). -/
theorem step_cases (s : State) : ∃ d : State → State, step s = clocked d s ∧
    (d = dispatchNothing ∨ d = dispatchIllegal ∨
      ∃ op x, d = dispatchLegal op x ∧ (∀ r, x.a = some r → r.val < s.cfg.numArch)
        ∧ (∀ r, x.b = some r → r.val < s.cfg.numArch) ∧ (∀ r, x.sd = some r → r.val < s.cfg.numArch)
        ∧ ∀ r, x.d = some r → r.val < s.cfg.numArch) := by
  unfold step
  split
  · split
    · next i hd =>
      obtain ⟨x, hx, ha, hb, hs, hdst⟩ := exec_eq_clocked i
      have hr := regs_lt_of_decode hd
      exact ⟨_, hx s, .inr (.inr ⟨i.op, x, rfl, fun r h => hr r (ha r h), fun r h => hr r (hb r h),
        fun r h => hr r (hs r h), fun r h => hr r (hdst r h)⟩)⟩
    · exact ⟨_, rfl, .inr (.inl rfl)⟩
  · exact ⟨_, rfl, .inl rfl⟩

end Sys2Proof.Machine
end

