-- ==== Sys2Proof/Laws/Runs.lean ====
section
/-! SUPPORT. Laws/Runs.lean: the induction over several ticks, packaged once, and the lemmas of the terms that the
invariants are said in. -/

namespace Sys2Proof.Machine

@[simp] theorem ticks_zero (s : State) : ticks 0 s = .next s := rfl

theorem ticks_succ {k : Nat} {s t : State} (h : step s = .next t) : ticks (k + 1) s = ticks k t := by
  simp [ticks, h]

/-- A run of several ticks takes a first step. -/
theorem ticks_succ_next {k : Nat} {s u : State} :
    ticks (k + 1) s = .next u ↔ ∃ t, step s = .next t ∧ ticks k t = .next u := by
  constructor
  · intro h
    unfold ticks at h
    split at h
    · next t ht => exact ⟨t, ht, h⟩
    · cases h
    · cases h
  · rintro ⟨t, ht, h⟩
    rw [ticks_succ ht, h]

/-- What every step keeps, every run keeps. -/
theorem ticks_keeps {P : State → Prop} (hstep : ∀ s t, P s → step s = .next t → P t) (k : Nat) {s t : State}
    (hs : P s) (h : ticks k s = .next t) : P t := by
  induction k generalizing s with
  | zero => cases h; exact hs
  | succ k ih =>
    obtain ⟨u, hu, ht⟩ := ticks_succ_next.mp h
    exact ih (hstep s u hs hu) ht

theorem ticks_add (j k : Nat) {s t : State} (h : ticks j s = .next t) : ticks (j + k) s = ticks k t := by
  induction j generalizing s with
  | zero => cases h; rw [Nat.zero_add]
  | succ j ih =>
    obtain ⟨u, hu, ht⟩ := ticks_succ_next.mp h
    rw [Nat.succ_add, ticks_succ hu, ih ht]

@[simp] theorem undoRenames_nil (rat : List Nat) : undoRenames [] rat = rat := rfl

@[simp] theorem undoRenames_cons (e : RobEntry) (es : List RobEntry) (rat : List Nat) :
    undoRenames (e :: es) rat = undoRename e (undoRenames es rat) := rfl

theorem undoRenames_append (es fs : List RobEntry) (rat : List Nat) :
    undoRenames (es ++ fs) rat = undoRenames es (undoRenames fs rat) := by
  simp [undoRenames]

@[simp] theorem undoRename_length (e : RobEntry) (rat : List Nat) : (undoRename e rat).length = rat.length := by
  unfold undoRename; split <;> simp

@[simp] theorem undoRenames_length (es : List RobEntry) (rat : List Nat) :
    (undoRenames es rat).length = rat.length := by
  induction es with
  | nil => rfl
  | cons e es ih => simp [ih]

/-- Undoing a rename gives back the RAT it was made in (51_rename_dispatch.md R206). -/
theorem undoRename_set {e : RobEntry} {rat : List Nat} {a : Reg} {p q : Nat} (ha : e.adst = some a)
    (hq : e.pprev = some q) (hr : rat[a.val]? = some q) : undoRename e (rat.set a.val p) = rat := by
  simp only [undoRename, ha, hq, List.set_set]
  obtain ⟨hlt, rfl⟩ := List.getElem?_eq_some_iff.mp hr
  exact List.set_getElem_self hlt

/-- A chain of renames stays one when a rename is added at its young end. -/
theorem renameChain_append {rat : List Nat} {es fs : List RobEntry} :
    RenameChain rat (es ++ fs) ↔ RenameChain (undoRenames fs rat) es ∧ RenameChain rat fs := by
  induction es with
  | nil => simp [RenameChain]
  | cons e es ih => simp [RenameChain, undoRenames_append, ih, and_assoc]

/-- The entries in flight in a state with nothing in flight. -/
theorem entries_of_empty {s : State} (h : s.count = 0) : s.entries = [] := by simp [State.entries, h]

end Sys2Proof.Machine
end

