-- ==== Sys2Proof/Laws/Value.lean ====
section
/-! SUPPORT. Laws/Value.lean: what the reduction to XLEN bits gives, said once (00_scope.md R8, R10). -/

namespace Sys2Proof

/-- The reduction is the reading back of the XLEN low bits. -/
theorem Config.wrap_eq_toInt_ofInt (c : Config) (v : Int) : c.wrap v = (BitVec.ofInt c.xlen v).toInt := by
  simp [Config.wrap]

@[simp] theorem Config.bits_toInt (c : Config) (v : Int) : (c.bits v).toInt = c.wrap v := by
  simp [Config.wrap, Config.bits]

/-- The range of XLEN bits is half the number of their patterns, either way. -/
theorem Config.two_pow_xlen {c : Config} (h : 1 ≤ c.xlen) : (2 : Int) ^ c.xlen = 2 * ((2 ^ (c.xlen - 1) : Nat) : Int) := by
  obtain ⟨n, hn⟩ : ∃ n, c.xlen = n + 1 := ⟨c.xlen - 1, by omega⟩
  rw [hn, Nat.add_sub_cancel, Int.pow_succ, Int.mul_comm]
  simp

/-- What XLEN bits hold is in range. -/
theorem Config.toInt_fits {c : Config} (h : 1 ≤ c.xlen) (x : BitVec c.xlen) : c.fits x.toInt := by
  have h1 := BitVec.two_mul_toInt_lt (x := x)
  have h2 := BitVec.le_two_mul_toInt (x := x)
  rw [Config.two_pow_xlen h] at h1 h2
  unfold Config.fits
  omega

/-- A reduced value is in range. -/
theorem Config.wrap_fits {c : Config} (h : 1 ≤ c.xlen) (v : Int) : c.fits (c.wrap v) := by
  rw [Config.wrap_eq_toInt_ofInt]
  exact Config.toInt_fits h _

/-- A value in range is not changed by the reduction. -/
theorem Config.wrap_of_fits {c : Config} (h : 1 ≤ c.xlen) {v : Int} (hv : c.fits v) : c.wrap v = v := by
  have h1 : ((2 ^ c.xlen : Nat) : Int) = 2 * ((2 ^ (c.xlen - 1) : Nat) : Int) := by
    rw [← Config.two_pow_xlen h]; simp
  unfold Config.fits at hv
  unfold Config.wrap
  generalize 2 ^ c.xlen = m at h1 ⊢
  generalize 2 ^ (c.xlen - 1) = k at h1 hv
  exact Int.bmod_eq_of_le (by omega) (by omega)

/-- A sign-extended immediate is in range when XLEN is at least 32 (30_encoding.md R85). -/
theorem Config.immValue_fits {c : Config} (h : 32 ≤ c.xlen) (imm : Imm) : c.fits (immValue imm) := by
  have h1 := BitVec.two_mul_toInt_lt (x := imm)
  have h2 := BitVec.le_two_mul_toInt (x := imm)
  have h3 : (2 : Nat) ^ 31 ≤ 2 ^ (c.xlen - 1) := Nat.pow_le_pow_right (by omega) (by omega)
  unfold Config.fits immValue
  omega

/-- 0 is in range. -/
theorem Config.zero_fits (c : Config) : c.fits 0 := by
  have h : 0 < 2 ^ (c.xlen - 1) := Nat.two_pow_pos _
  unfold Config.fits
  omega

end Sys2Proof
end

