-- ==== Sys2Proof/Tests/Slice0.lean ====
section
/-! SUPPORT. Tests/Slice0.lean: the expected values are those of the spec's own encodings and examples (30_encoding.md R94;
95_test_vectors.md E2, E3; the "Example" and "Corner cases" sentences of the instruction rules). The witnesses show
that the hypotheses of the statements can be met. -/

namespace Sys2Proof.Tests

open Sys2Proof.Machine Sys2Proof.Claims

/-! ### Well-formedness (30_encoding.md R87): one refusal for each register field -/

theorem test_wf_accepts_last_register : (Instr.add 7 7 7).wf 8 = true := by decide
theorem test_wf_refuses_rd : (Instr.add 8 1 1).wf 8 = false := by decide
theorem test_wf_refuses_rs1 : (Instr.jump 8 0).wf 8 = false := by decide
theorem test_wf_refuses_rs2 : (Instr.cmp 7 8).wf 8 = false := by decide
theorem test_wf_refuses_rs3 : (Instr.str 7 7 8).wf 8 = false := by decide

/-! ### Decoding: one word for each opcode (95_test_vectors.md E2) and the corner cases (E3) -/

theorem test_decode_nop : decodeTableWord 64 0x0000000000000000 = some .nop := by decide
theorem test_decode_add : decodeTableWord 64 0x0989000000000000 = some (.add 3 1 2) := by decide
theorem test_decode_sub : decodeTableWord 64 0x1189000000000000 = some (.sub 3 1 2) := by decide
theorem test_decode_and : decodeTableWord 64 0x1989000000000000 = some (.and 3 1 2) := by decide
theorem test_decode_or : decodeTableWord 64 0x2189000000000000 = some (.or 3 1 2) := by decide
theorem test_decode_xor : decodeTableWord 64 0x2989000000000000 = some (.xor 3 1 2) := by decide
theorem test_decode_mul : decodeTableWord 64 0x3189000000000000 = some (.mul 3 1 2) := by decide
theorem test_decode_movc : decodeTableWord 64 0x3F800000FFFFFFFF = some (.movc 15 0xFFFFFFFF) := by decide
theorem test_decode_cmp : decodeTableWord 64 0x4009000000000000 = some (.cmp 1 2) := by decide
theorem test_decode_load : decodeTableWord 64 0x4908000000000002 = some (.load 2 1 2) := by decide
theorem test_decode_ldr : decodeTableWord 64 0x5189000000000000 = some (.ldr 3 1 2) := by decide
theorem test_decode_store : decodeTableWord 64 0x5809000000000005 = some (.store 1 2 5) := by decide
theorem test_decode_str : decodeTableWord 64 0x6009180000000000 = some (.str 1 2 3) := by decide
theorem test_decode_jump : decodeTableWord 64 0x6818000000000008 = some (.jump 3 8) := by decide
theorem test_decode_jal : decodeTableWord 64 0x7708000000000000 = some (.jal 14 1 0) := by decide
theorem test_decode_bz : decodeTableWord 64 0x7800000000000008 = some (.bz 8) := by decide
theorem test_decode_bnz : decodeTableWord 64 0x80000000FFFFFFF8 = some (.bnz 0xFFFFFFF8) := by decide
theorem test_decode_halt : decodeTableWord 64 0x8800000000000000 = some .halt := by decide
/-- Bits 42:32 are ignored. -/
theorem test_decode_reserved : decodeTableWord 64 0x000007FF00000000 = some .nop := by decide
/-- Register fields that MOVC does not use are ignored. -/
theorem test_decode_unused : decodeTableWord 64 0x38FFF80000000005 = some (.movc 1 5) := by decide
theorem test_decode_unassigned_first : decodeTableWord 64 0x9000000000000000 = none := by decide
theorem test_decode_unassigned_last : decodeTableWord 64 0xF800000000000000 = none := by decide
theorem test_decode_small_file : decode 8 0x0C88800000000000 = .error .registerOutOfRange := by rfl
theorem test_decode_most_negative : decodeTableWord 64 0x3880000080000000 = some (.movc 1 0x80000000) := by decide

/-! ### Small states -/

/-- Two architectural and four physical registers, a reorder buffer and an issue queue of two, one checkpoint. -/
def small : Config :=
  { Config.default with numArch := 2, numPhys := 4, robSize := 2, iqSize := 2, numCkpt := 1, memWords := 16, mulLat := 2 }

/-- The small machine right after reset, with a program. -/
def loaded (program : List Bundle) : State := State.boot small program [] (.untilDone none) []

def start : State := loaded []

/-- One instruction in flight, at ROB index 0, renamed from R0 to P2. -/
def inFlight (op : Op) : State :=
  { start with
    prf := [⟨0, true, false⟩, ⟨7, true, false⟩, ⟨0, false, false⟩, ⟨0, false, true⟩]
    rat := [2, 1]
    dm := [(3, 42)]
    rob := [some ⟨op.code, 4000, some 2, some 0, some 0, false, none, .none⟩, none]
    tail := 1
    count := 1 }

/-- An instruction from address 4000 in a unit: its destination is P2 and its store data is in P1. -/
def occupant (op : Op) (a b imm : Int) : Occupant := ⟨op, 4000, imm, a, b, some 2, some 1, 0⟩

def inInt (op : Op) (a b imm : Int) : State := { inFlight op with uInt := ⟨some (occupant op a b imm)⟩ }

def inMul (remaining : Nat) (a b : Int) : State :=
  { inFlight .mul with uMul := ⟨some (occupant .mul a b 0), remaining⟩ }

def inMem (stage : Stage) (op : Op) (a b imm addr : Int) : State :=
  { inFlight op with uMem := ⟨some (occupant op a b imm), stage, addr, 99⟩ }

def inBr (stage : Stage) (op : Op) (a imm : Int) : State :=
  { inFlight op with uBr := ⟨some (occupant op a 0 imm), stage, false, 0⟩ }

/-- The next state of an outcome, where it has one. -/
def next? : Host.Outcome State Fault Refusal → Option State
  | .next t => some t
  | _ => none

/-- The state k ticks later. -/
def after (k : Nat) (s : State) : State := (next? (ticks k s)).getD s

/-- What the unit has written to P2 one tick later. -/
def result (s : State) : Option PhysReg := (next? (step s)).map (·.preg 2)

/-- The instruction in the latch and one tick run: the queue entry it becomes, with the tags of A, B, SD and D. -/
def taken (i : Instr) : Option (List (Op × Int × List (Option Nat))) :=
  (next? (exec i { start with fl := ⟨true, encode i, 4000⟩ })).map fun t =>
    t.iq.map fun e => (e.op, e.imm, [e.a.tag, e.b.tag, e.stag, e.pdst])

/-! ### One tick of each instruction in its unit (expected values: the rule named) -/

/-- R111: 0x7FFFFFFF + 1 = -2147483648. -/
theorem test_add_wraps : result (inInt .add 0x7FFFFFFF 1 0) = some ⟨-2147483648, true, false⟩ := by decide
/-- R8, R10: with XLEN = 40 the same sum does not wrap, and the sum of the largest value and 1 does. -/
theorem test_add_xlen40 :
    result { inInt .add 0x7FFFFFFF 1 0 with cfg := { small with xlen := 40 } } = some ⟨0x80000000, true, false⟩
      ∧ result { inInt .add 0x7FFFFFFFFF 1 0 with cfg := { small with xlen := 40 } }
        = some ⟨-0x8000000000, true, false⟩ := by decide
/-- R112: 3 - 10 = -7. -/
theorem test_sub_negative : result (inInt .sub 3 10 0) = some ⟨-7, true, false⟩ := by decide
/-- R113's example. -/
theorem test_and : result (inInt .and 0x0000FF0F 0x000F0FFF 0) = some ⟨0x00000F0F, true, false⟩ := by decide
/-- R114's example. -/
theorem test_or : result (inInt .or 0x00F0 0x0F00 0) = some ⟨0x0FF0, true, false⟩ := by decide
/-- R115's example. -/
theorem test_xor : result (inInt .xor 0x0FF0 0x00FF 0) = some ⟨0x0F0F, true, false⟩ := by decide
/-- R116: the immediate, whatever the operands. -/
theorem test_movc : result (inInt .movc 1 2 5) = some ⟨5, true, false⟩ := by decide
/-- R117: equal operands set Z. -/
theorem test_cmp_sets : (next? (step (inInt .cmp 5 5 0))).map (·.z) = some true := by decide
/-- R117: different operands clear Z. -/
theorem test_cmp_clears :
    (next? (step { inInt .cmp 5 6 0 with z := true })).map (·.z) = some false := by decide
/-- R118: NOP completes and writes nothing. -/
theorem test_nop : (next? (step (inInt .nop 0 0 0))).map (fun t => (t.preg 2, (t.robAt 0).map (·.done)))
    = some (⟨0, false, false⟩, some true) := by decide
/-- R119: HALT in its unit does not halt; its commit does. -/
theorem test_halt : (next? (step (inInt .halt 0 0 0))).map (fun t => (t.halted, (next? (step t)).map (·.halted)))
    = some (false, some true) := by decide
/-- R130: 2147483647 * 2 wraps to -2. -/
theorem test_mul_wraps : result (inMul 1 0x7FFFFFFF 2) = some ⟨-2, true, false⟩ := by decide
theorem test_mul_waits : result (inMul 2 3 5) = some ⟨0, false, false⟩ := by decide
/-- R141, R143: 1 + 2 is cell 3. -/
theorem test_load_address : (next? (step (inMem .one .load 1 5 2 0))).map (·.uMem.addr) = some 3 := by decide
theorem test_load_reads : result (inMem .two .load 0 0 0 3) = some ⟨42, true, false⟩ := by decide
/-- R141, R144: the index, not the immediate; the sum wraps before the range check. -/
theorem test_ldr_address :
    (next? (step (inMem .one .ldr (-2147483648) (-2147483645) 9 0))).map (fun t => (t.uMem.addr, (t.robAt 0).map (·.exc)))
      = some (3, some .none) := by decide
theorem test_ldr_reads : result (inMem .two .ldr 0 0 0 3) = some ⟨42, true, false⟩ := by decide
/-- R142, R145: the data is that of the register Rs1 names; R293: cell 16 does not exist. -/
theorem test_store_out_of_range : (next? (step (inMem .one .store 11 0 5 0))).map
    (fun t => (t.uMem.addr, t.uMem.sval, (t.robAt 0).map (·.exc))) = some (16, 7, some .memRange) := by decide
theorem test_store_writes : (next? (step (inMem .two .store 0 0 0 3))).map (·.dm) = some [(3, 99)] := by decide
/-- R146. -/
theorem test_str_address : (next? (step (inMem .one .str 1 2 9 0))).map (·.uMem.addr) = some 3 := by decide
theorem test_str_writes : (next? (step (inMem .two .str 0 0 0 5))).map (·.dm) = some [(3, 42), (5, 99)] := by decide
/-- R160: Z = 1 takes BZ; the target is pc + imm. -/
theorem test_bz : (next? (step { inBr .one .bz 0 8 with z := true })).map (fun t => (t.uBr.taken, t.uBr.target))
    = some (true, 4008) := by decide
/-- R161. -/
theorem test_bnz : (next? (step { inBr .one .bnz 0 (-8) with z := true })).map
    (fun t => (t.uBr.taken, t.uBr.target)) = some (false, 3992) := by decide
/-- R162: Rs1 + imm. -/
theorem test_jump : (next? (step (inBr .one .jump 5000 8))).map (fun t => (t.uBr.taken, t.uBr.target))
    = some (true, 5008) := by decide
/-- R163: the link is the address of the next instruction. -/
theorem test_jal : (next? (step (inBr .one .jal 5000 8))).map (fun t => (t.preg 2, t.uBr.target))
    = some (⟨4004, true, false⟩, 5008) := by decide

/-! ### One tick that takes each format in (30_encoding.md R86; 51_rename_dispatch.md R207) -/

theorem test_dispatch_rrr : taken (.sub 1 1 0) = some [(.sub, 0, [some 1, some 0, none, some 2])] := by decide
theorem test_dispatch_ri : taken (.movc 1 9) = some [(.movc, 9, [none, none, none, some 2])] := by decide
theorem test_dispatch_rr : taken (.cmp 1 0) = some [(.cmp, 0, [some 1, some 0, none, none])] := by decide
theorem test_dispatch_rri : taken (.jal 1 1 9) = some [(.jal, 9, [some 1, none, none, some 2])] := by decide
theorem test_dispatch_sri : taken (.store 1 0 9) = some [(.store, 9, [some 0, none, some 1, none])] := by decide
theorem test_dispatch_srr : taken (.str 1 0 1) = some [(.str, 0, [some 0, some 1, some 1, none])] := by decide
theorem test_dispatch_ji : taken (.jump 1 9) = some [(.jump, 9, [some 1, none, none, none])] := by decide
theorem test_dispatch_i : taken (.bnz 9) = some [(.bnz, 9, [none, none, none, none])] := by decide
/-- R85, R211: an immediate field that ADD does not use is held, sign-extended, all the same. -/
theorem test_dispatch_unused_imm : (next? (step { start with fl := ⟨true, 0x08080000FFFFFFFF, 4000⟩ })).map
    (fun t => t.iq.map fun e => (e.op, e.imm)) = some [(.add, -1)] := by decide
theorem test_dispatch_n : taken .halt = some [(.halt, 0, [none, none, none, none])] := by decide

/-- The host's word is taken in by the first step from reset. -/
theorem test_fetch_word :
    (next? (step (State.reset.withFetchWord 64 0x0989000000000000))).map (fun t => (t.count, t.iq.map (·.op)))
      = some (1, [.add]) := by decide

/-- Memory keeps its canonical form: writing 0 removes a cell. -/
theorem test_memory_canonical : Memory.write (Memory.write [] 5 9) 5 0 = [] := by decide

/-! ### Witnesses: concrete states that meet the hypotheses of each statement of the same name -/

theorem witness_DecodeEncodeAgree : (Instr.add 15 15 15).wf 16 = true ∧ Instr.nop.wf 0 = true := by decide

theorem witness_IgnoredFieldsDecodeAlike : AgreeOnUsed 0x000007FF00000000 0 ∧ AgreeOnUsed 0x38FFF80000000005 0x3880000000000005 := by
  unfold AgreeOnUsed; decide

theorem witness_DecodedKeepsUsedFields : decode 16 0x38FFF80000000005 = .ok (.movc 1 5) := by rfl

theorem witness_ResetStateAsListed : small.ok = true ∧ Config.default.ok = true := by decide

/-- One instruction latched in the small machine, with nothing to follow it. -/
def latched (w : Bundle) : State := { start with fl := ⟨true, w, 4000⟩ }

theorem witness_StepRunsDecodedInstruction :
    (latched 0x3800000000000005).fl.valid = true
      ∧ decode (latched 0x3800000000000005).cfg.numArch (latched 0x3800000000000005).fl.bundle
        = .ok (.movc 0 5) := ⟨rfl, rfl⟩

theorem witness_StepWithoutLegalInstruction : start.fl.valid = false
    ∧ (latched 0x3900000000000005).fl.valid = true
    ∧ decode small.numArch (latched 0x3900000000000005).fl.bundle = .error .registerOutOfRange := ⟨rfl, rfl, rfl⟩

/-- JUMP R0,#4008 in branch stage 2, with an older nothing, a younger MOVC in the integer unit and another latched. -/
def jumping : State := after 4 (loaded [0x6800000000000FA8, 0x3880000000000007, 0x3880000000000008, 0x8800000000000000])

/-- BZ #8 with Z = 0 in branch stage 2, a CMP behind it. -/
def falling : State := after 4 (loaded [0x7800000000000008, 0x4000800000000000, 0x8800000000000000])

/-- STORE R1,R0,#3 in memory stage 2, with 7 in R1. -/
def storing : State :=
  after 4 { loaded [0x5808000000000003, 0x8800000000000000] with
    prf := [⟨0, true, false⟩, ⟨7, true, false⟩, ⟨0, false, true⟩, ⟨0, false, true⟩] }

theorem witness_TickRunsPhasesInOrder :
    let s1 := commitPhase { jumping with replies := [], cycle := jumping.cycle + 1 }
    jumping.cfg.ok = true ∧ jumping.clock = .tick [] ∧ s1.halted = false ∧ s1.fault = none
      ∧ s1.branchDefined = true ∧ (branchPhase s1).accessDefined = true := by decide

theorem witness_StoppedClockChangesNothing : small.ok = true ∧ { start with halted := true }.halted = true
    ∧ { start with fault := some ⟨.illegal, 4000⟩ }.fault.isSome = true := by decide

/-- A small machine 5 cycles into a run of the given mode. -/
def inMode (m : RunMode) (replies : List Reply) : State := { start with mode := m, replies := replies, cycle := 5 }

theorem witness_HostStopsTheClock : small.ok = true ∧ start.halted = false ∧ start.fault = none ∧ start.quit = false
    ∧ (inMode (.untilDone (some 5)) []).cycle = 5 ∧ (inMode (.fixedCycles 5) []).cycle = 5
    ∧ (inMode .singleStep []).replies = [] ∧ (inMode .singleStep [.quit]).replies = [.quit]
    ∧ (inMode .singleStep [.continue]).replies = [.continue] := by decide

theorem witness_BadConfigurationRefused :
    { small with numArch := 0 }.numArch < 1 ∧ 16 < { small with numArch := 17, numPhys := 18 }.numArch
      ∧ { small with numPhys := 2 }.numPhys < small.numArch + 1 ∧ { small with robSize := 0 }.robSize < 1
      ∧ { small with iqSize := 0 }.iqSize < 1 ∧ { small with numCkpt := 0 }.numCkpt < 1
      ∧ { small with memWords := 0 }.memWords < 1 ∧ { small with mulLat := 0 }.mulLat < 1
      ∧ { small with insnStride := 0 }.insnStride < 1 ∧ { small with xlen := 31 }.xlen < 32
      ∧ ¬ { small with pcBase := 0x80000000 }.fits 0x80000000 ∧ { small with intLat := 2 }.intLat ≠ 1
      ∧ { small with memStages := 3 }.memStages ≠ 2 ∧ { small with brStages := 1 }.brStages ≠ 2
      ∧ { small with fetchWidth := 2 }.fetchWidth ≠ 1 ∧ { small with dispatchWidth := 2 }.dispatchWidth ≠ 1
      ∧ { small with commitWidth := 2 }.commitWidth ≠ 1 := by decide

/-- Parameters at the boundary of what runs. -/
theorem witness_small_parameters_run : { small with xlen := 64, pcBase := -4, insnStride := 1, numPhys := 3 }.ok = true := by
  decide

/-- A complete entry at the head, and nothing else in flight. -/
def completed (e : RobEntry) : State :=
  { inFlight .add with rob := [some e, none] }

/-- A complete ADD from R0's new register P2, whose previous register is P0. -/
def doneAdd : RobEntry := ⟨0x01, 4000, some 2, some 0, some 0, true, none, .none⟩

def doneHalt : RobEntry := ⟨0x11, 4000, none, none, none, true, none, .none⟩

theorem witness_FaultTakenAtCommit :
    let s := completed { doneHalt with exc := .illegal }
    let u := completed { doneAdd with exc := .memRange }
    s.cfg.ok = true ∧ s.clock = .tick [] ∧ 0 < s.count ∧ s.robAt s.head = some { doneHalt with exc := .illegal }
      ∧ u.clock = .tick [] ∧ u.robAt u.head = some { doneAdd with exc := .memRange } := by decide

theorem witness_HaltCommitEndsTheRun :
    let s := completed doneHalt
    s.cfg.ok = true ∧ s.clock = .tick [] ∧ 0 < s.count ∧ s.robAt s.head = some doneHalt ∧ doneHalt.done = true
      ∧ doneHalt.exc = .none ∧ doneHalt.op = 0x11 := by decide

/-- The same entry under the other freeing policy, with R0 mapped to the given register. -/
def remapped (p : Nat) : State :=
  { completed doneAdd with cfg := { small with freePolicy := .destIfRemapped }, rat := [p, 1] }

theorem witness_CommitRetiresTheHead :
    let s := completed doneAdd
    0 < s.count ∧ s.robAt s.head = some doneAdd ∧ doneAdd.done = true ∧ doneAdd.exc = .none
      ∧ s.cfg.freePolicy = .prev ∧ 0 < s.prf.length ∧ doneHalt.pdst = none
      ∧ (remapped 2).cfg.freePolicy = .destIfRemapped ∧ (remapped 2).mapping 0 = 2
      ∧ (remapped 3).mapping 0 ≠ 2 ∧ 2 < (remapped 3).prf.length := by decide

theorem witness_CommitWaitsForTheHead : start.count = 0 ∧ ∃ e ∈ (inFlight .add).robAt 0, e.done = false := by decide

/-- The small machine at an address of a program of one HALT and one NOP. -/
def fetching (pc : Int) : State := { loaded [0x8800000000000000, 0] with pc := pc }

theorem witness_FetchLatchesTheNamedInstruction :
    (fetching 4004).fetchSuppress = false ∧ (fetching 4004).fl.valid = false
      ∧ (fetching 4004).fetchStopped = false ∧ 1 ≤ small.insnStride ∧ (fetching 4004).program[1]? = some 0
      ∧ (fetching 4004).pc = small.pcBase + small.insnStride * (1 : Nat)
      ∧ (fetching 4000).program[0]? = some 0x8800000000000000
      ∧ (fetching 4000).pc = small.pcBase + small.insnStride * (0 : Nat) := by decide

/-- The instructions stand at 4000 and 4004: just below them, between them, and just past the program's end. -/
theorem witness_FetchOfNoInstructionIsABubble :
    (fetching 3996).fetchSuppress = false ∧ 1 ≤ small.insnStride ∧ (fetching 3996).program.length = 2
      ∧ small.pcBase = 4000 ∧ small.insnStride = 4 ∧ (fetching 3996).pc = 3996
      ∧ (fetching 4002).pc = 4002 ∧ (fetching 4008).pc = 4008 := by decide

theorem witness_FetchHoldsBack : { start with fetchSuppress := true }.fetchSuppress = true
    ∧ start.fetchSuppress = false ∧ (latched 0).fl.valid = true
    ∧ { start with fetchStopped := true }.fetchStopped = true := by decide

/-! #### Dispatch -/

/-- The state that a latched instruction's dispatch phase reads. -/
theorem latched_reaches (w : Bundle) : ReachesDispatch (latched w) (beforeDispatch (latched w)) where
  cfgOk := rfl
  ticks := ⟨[], rfl, rfl, rfl, rfl, rfl⟩

theorem witness_DispatchTakesInstructionIn : (beforeDispatch (latched 0)).fl.valid = true
    ∧ ¬ Missing (beforeDispatch (latched 0)) (.jal 1 0 5) ∧ ¬ Missing (beforeDispatch (latched 0)) (.add 1 1 0)
    ∧ ¬ Missing (beforeDispatch (latched 0)) .nop := by
  unfold Missing; decide

/-- No register free; the one checkpoint slot busy; the issue queue full (of entries that cannot issue); the
reorder buffer full of one incomplete entry and one younger one. -/
def starved : State :=
  { latched 0 with
    prf := List.replicate 4 ⟨0, true, false⟩
    ck := [⟨true, 0, [], []⟩]
    iq := List.replicate 2 ⟨.add, 4000, 0, ⟨some 3, false, 0⟩, Operand.unused, none, none, 0, none, .waiting⟩
    rob := [some { doneAdd with done := false }, some doneAdd]
    count := 2 }

theorem witness_StalledDispatchChangesNothing :
    ReachesDispatch starved (beforeDispatch starved) ∧ (beforeDispatch starved).fl.valid = true
      ∧ (beforeDispatch starved).fetchSuppress = false
      ∧ (∀ r ∈ (beforeDispatch starved).prf, r.free = false)
      ∧ (∀ c ∈ (beforeDispatch starved).ck, c.busy = true)
      ∧ (beforeDispatch starved).iq.length = small.iqSize ∧ (beforeDispatch starved).count = small.robSize :=
  ⟨⟨rfl, [], rfl, rfl, rfl, rfl, rfl⟩, by decide⟩

theorem witness_DiscardedLatchIsNotDispatched :
    ReachesDispatch jumping (beforeDispatch jumping) ∧ jumping.fl.valid = true
      ∧ (beforeDispatch jumping).fl.valid = false :=
  ⟨⟨by decide, [], by decide, by rfl, by decide, by decide, by decide⟩, by decide⟩

theorem witness_IllegalBundleTakesOnlyARobEntry : starved.fl.valid = true ∧ starved.count = small.robSize
    ∧ (latched 0xF800000000000000).fl.valid = true ∧ (latched 0xF800000000000000).count ≠ small.robSize := by decide

theorem witness_CurrentCheckpointIsTheYoungest :
    start.currentCkpt = none ∧ falling.currentCkpt = some 0 := by decide

/-! #### Issue -/

/-- The state that the issue phase of the next tick reads. -/
def issuing (s : State) : State := intPhase (mulPhase (memPhase (afterBranch s)))

/-- The ring of a state, from its decidable parts. -/
theorem ring_of {s : State} (h : s.rob.length = s.cfg.robSize ∧ s.head < s.cfg.robSize ∧ s.count ≤ s.cfg.robSize
    ∧ s.tail = (s.head + s.count) % s.cfg.robSize
    ∧ (∀ r < s.cfg.robSize, (s.robAt r).isSome = true ↔ s.age r < s.count) ∧ s.iq.length ≤ s.cfg.iqSize) :
    s.RingInv :=
  ⟨h.1, h.2.1, h.2.2.1, h.2.2.2.1, h.2.2.2.2.1, h.2.2.2.2.2⟩

/-- STORE R1,R0,#3 about to issue. -/
def storeIssuing : State := issuing (after 2 (loaded [0x5808000000000003, 0x8800000000000000]))

theorem witness_MemoryIssuesOnlyFromTheHead :
    storeIssuing.uMem.occ = none ∧ (issuePhase storeIssuing).uMem.occ.isSome = true := by decide

/-- BZ about to issue behind a CMP, and CMP about to issue behind a BZ, each in the tick the older one completes. -/
def bzBehindCmp : State := issuing (after 3 (loaded [0x4000800000000000, 0x7800000000000008, 0x8800000000000000]))

def cmpBehindBz : State := issuing falling

theorem witness_FlagInstructionsIssueInOrder :
    (bzBehindCmp.RingInv ∧ bzBehindCmp.uBr.occ = none ∧ bzBehindCmp.age 0 < bzBehindCmp.age 1
        ∧ (∃ o ∈ (issuePhase bzBehindCmp).uBr.occ, o.op = .bz ∧ o.rob = 1)
        ∧ ∃ e ∈ bzBehindCmp.robAt 0, e.op = 0x08)
      ∧ (cmpBehindBz.RingInv ∧ cmpBehindBz.uInt.occ = none ∧ cmpBehindBz.age 0 < cmpBehindBz.age 1
        ∧ (∃ o ∈ (issuePhase cmpBehindBz).uInt.occ, o.op = .cmp ∧ o.rob = 1)
        ∧ ∃ e ∈ cmpBehindBz.robAt 0, e.op = 0x0F) :=
  ⟨⟨ring_of (by decide), by decide⟩, ⟨ring_of (by decide), by decide⟩⟩

/-! #### Units -/

theorem witness_IntegerUnitExecutes :
    (inInt .add 1 2 0).uInt.occ = some (occupant .add 1 2 0) ∧ Op.add.unit = .int
      ∧ intResult small (occupant .add 1 2 0) = some 3 ∧ intResult small (occupant .cmp 1 2 0) = none
      ∧ (occupant .add 1 2 0).pdst = some 2 ∧ 2 < (inInt .add 1 2 0).prf.length := by decide

theorem witness_MultiplierExecutes :
    (inMul 2 3 5).uMul.occ = some (occupant .mul 3 5 0) ∧ 2 ≤ (inMul 2 3 5).uMul.remaining
      ∧ (inMul 1 3 5).uMul.remaining = 1 ∧ (occupant .mul 3 5 0).pdst = some 2 ∧ 2 < (inMul 1 3 5).prf.length := by decide

/-- In range at both ends, out of range on both sides, and a store whose data register is not valid. -/
theorem witness_MemoryStageOne :
    (inMem .one .load 1 0 2 0).uMem.occ = some (occupant .load 1 0 2) ∧ (inMem .one .load 1 0 2 0).uMem.stage = .one
      ∧ ((inMem .one .load 1 0 2 0).robAt 0).isSome = true
      ∧ addrInRange 16 0 = true ∧ addrInRange 16 15 = true ∧ addrInRange 16 16 = false
      ∧ addrInRange 16 (-1) = false
      ∧ ((inMem .one .store 1 0 2 0).preg 1).valid = true
      ∧ ({ inMem .one .str 1 0 2 0 with prf := resetPrf { small with numArch := 1 } }.preg 1).valid = false
      ∧ (occupant .str 1 0 2).stag = some 1 := by decide

theorem witness_MemoryStageTwo :
    (inMem .two .load 0 0 0 0).dm.wf 16 = true ∧ (inMem .two .load 0 0 0 0).uMem.occ = some (occupant .load 0 0 0)
      ∧ (inMem .two .load 0 0 0 0).uMem.stage = .two ∧ (∃ e ∈ (inMem .two .load 0 0 0 0).robAt 0, e.exc = .none)
      ∧ (inMem .two .str 0 0 0 15).uMem.occ = some (occupant .str 0 0 0)
      ∧ addrInRange 16 0 = true ∧ addrInRange 16 15 = true
      ∧ (completed { doneAdd with op := 0x09, done := false, exc := .memRange }).robAt 0
        = some { doneAdd with op := 0x09, done := false, exc := .memRange } := by decide

theorem witness_BranchStageOne : ∀ op ∈ [Op.bz, .bnz, .jump, .jal],
    (inBr .one op 5 8).uBr.occ = some (occupant op 5 0 8) ∧ (inBr .one op 5 8).uBr.stage = .one
      ∧ isFlow (occupant op 5 0 8).op = true ∧ (occupant op 5 0 8).pdst = some 2
      ∧ 2 < (inBr .one op 5 8).prf.length := by decide

theorem witness_NotTakenReleasesItsCheckpoint :
    (∃ o ∈ falling.uBr.occ, o.rob = 0) ∧ falling.uBr.stage = .two ∧ falling.uBr.taken = false
      ∧ (∃ c ∈ falling.ck[0]?, c.busy = true ∧ c.owner = 0) ∧ falling.ck.length = 1 := by decide

/-- A younger MOVC with a destination is discarded, under both policies. -/
theorem witness_TakenBranchRecovers :
    jumping.RingInv ∧ (∃ o ∈ jumping.uBr.occ, o.rob = 0) ∧ jumping.uBr.stage = .two ∧ jumping.uBr.taken = true
      ∧ jumping.occupied 0 = true ∧ (∃ c ∈ jumping.ck, c.busy = true ∧ c.owner = 0) ∧ jumping.ck.length = 1
      ∧ jumping.cfg.restorePolicy = .selective ∧ (∃ e ∈ jumping.robAt 1, e.pdst = some 2)
      ∧ jumping.age 0 < jumping.age 1
      ∧ { jumping with cfg := { small with restorePolicy := .verbatim } }.occupied 0 = true :=
  ⟨ring_of (by decide), by decide⟩

/-- A JUMP in branch stage 2 behind a BZ that still waits, each with its checkpoint. -/
def nested : State :=
  { start with
    cfg := { small with numCkpt := 2 }
    rob := [some ⟨0x0F, 4000, none, none, none, false, none, .none⟩, some ⟨0x0D, 4004, none, none, none, false, none, .none⟩]
    count := 2
    ck := [⟨true, 0, [0, 1], resetPrf small⟩, ⟨true, 1, [0, 1], resetPrf small⟩]
    uBr := ⟨some ⟨.jump, 4004, 8, 4000, 0, none, none, 1⟩, .two, true, 4008⟩ }

theorem witness_RecoveryFlushesExactlyTheYounger :
    (jumping.RingInv ∧ (∃ o ∈ jumping.uInt.occ, ¬ jumping.age o.rob ≤ jumping.age 0) ∧ jumping.uBr.taken = true)
      ∧ (nested.RingInv ∧ nested.uBr.taken = true ∧ nested.occupied 1 = true ∧ (∃ c ∈ nested.ck, c.owner = 1)
        ∧ (∃ c ∈ nested.ck[0]?, c.busy = true ∧ nested.age c.owner < nested.age 1)
        ∧ (branchPhase nested).ck.map (·.busy) = [true, false]) :=
  ⟨⟨ring_of (by decide), by decide⟩, ⟨ring_of (by decide), by decide⟩⟩

/-! #### Whole lives -/

/-- A drained machine: one instruction latched, Z and the two registers as given, the word 42 in cell 3. -/
def drained (z : Bool) (x0 x1 : Int) (w : Bundle) (r : RestorePolicy) : State :=
  { latched w with
    cfg := { small with restorePolicy := r }
    z := z
    prf := [⟨x0, true, false⟩, ⟨x1, true, false⟩, ⟨0, false, true⟩, ⟨0, false, true⟩]
    dm := [(3, 42)] }

theorem drained_ok (z : Bool) (x0 x1 : Int) (w : Bundle) (r : RestorePolicy) : (drained z x0 x1 w r).Drained where
  cfgOk := rfl
  freeRun := rfl
  notHalted := rfl
  notFaulted := rfl
  notQuit := rfl
  robEmpty := rfl
  robLength := rfl
  headBound := by show 0 < 2; decide
  tailIs := rfl
  iqEmpty := rfl
  intFree := rfl
  mulFree := rfl
  memFree := rfl
  brFree := rfl
  ckLength := rfl
  ckFree := by show ∀ c ∈ [resetCkpt], _; decide
  prfLength := rfl
  ratLength := rfl
  ratTags := by show ∀ p ∈ [0, 1], p < 4; decide
  ratDistinct := by show [0, 1].Nodup; decide
  mappedInUse := by
    show ∀ p ∈ [0, 1], _
    intro p hp
    rcases List.mem_cons.mp hp with rfl | hp
    · rfl
    · rw [List.mem_singleton.mp hp]; rfl
  mappedValid := by
    show ∀ p ∈ [0, 1], _
    intro p hp
    rcases List.mem_cons.mp hp with rfl | hp
    · rfl
    · rw [List.mem_singleton.mp hp]; rfl
  latched := rfl
  notSuppressed := rfl
  fetchIdle := .inr (by unfold State.bundleAt; split <;> rfl)

theorem drained_someFree (z : Bool) (x0 x1 : Int) (w : Bundle) (r : RestorePolicy) :
    (drained z x0 x1 w r).SomeFree := ⟨2, by show 2 < 4; decide, rfl⟩

/-- IntegerWritersRunToCommit, CompareRunsToCommit, NopAndHaltRunToCommit and MultiplyRunsToCommit. -/
theorem witness_IntegerWritersRunToCommit :
    (drained false 0x7FFFFFFF 1 0 .selective).Drained ∧ (drained false 0x7FFFFFFF 1 0 .selective).SomeFree
      ∧ (1 : Reg).val < small.numArch := ⟨drained_ok .., drained_someFree .., by decide⟩

theorem witness_CompareRunsToCommit : (drained false 5 5 0 .selective).Drained
    ∧ (drained true 5 6 0 .selective).Drained ∧ (1 : Reg).val < small.numArch :=
  ⟨drained_ok .., drained_ok .., by decide⟩

theorem witness_NopAndHaltRunToCommit : (drained true 0 0 0 .verbatim).Drained := drained_ok ..

theorem witness_MultiplyRunsToCommit : (drained false 3 5 0 .selective).Drained
    ∧ (drained false 3 5 0 .selective).SomeFree ∧ (1 : Reg).val < small.numArch :=
  ⟨drained_ok .., drained_someFree .., by decide⟩

/-- Addresses at both ends of the range. -/
theorem witness_LoadsRunToCommit : (drained false 0 15 0 .selective).Drained
    ∧ (drained false 0 15 0 .selective).SomeFree
    ∧ InRange (drained false 0 15 0 .selective) (sx small (0 + 0))
    ∧ InRange (drained false 0 15 0 .selective) (sx small (0 + 15)) :=
  ⟨drained_ok .., drained_someFree .., by unfold InRange; decide, by unfold InRange; decide⟩

theorem witness_StoresRunToCommit : (drained false 0 15 0 .selective).Drained
    ∧ (drained false 0 15 0 .selective).MemInv
    ∧ InRange (drained false 0 15 0 .selective) (sx small (0 + 15)) :=
  ⟨drained_ok .., rfl, by unfold InRange; decide⟩

/-- Just past the end, and just below 0. -/
theorem witness_OutOfRangeAccessFaults : (drained false 0 16 0 .selective).Drained
    ∧ (drained false 0 16 0 .selective).SomeFree
    ∧ ¬ InRange (drained false 0 16 0 .selective) (sx small (0 + 16))
    ∧ ¬ InRange (drained false 0 16 0 .selective) (sx small (0 + (-1))) :=
  ⟨drained_ok .., drained_someFree .., by unfold InRange; decide, by unfold InRange; decide⟩

theorem witness_ConditionalBranchesRunToCommit :
    (drained true 0 0 0 .selective).Drained ∧ (drained true 0 0 0 .selective).z = true
      ∧ (drained false 0 0 0 .selective).Drained ∧ (drained false 0 0 0 .selective).z = false :=
  ⟨drained_ok .., rfl, drained_ok .., rfl⟩

theorem witness_JumpsRunToCommit : (drained false 4000 0 0 .selective).Drained
    ∧ (drained false 4000 0 0 .selective).SomeFree ∧ (drained false 4000 0 0 .selective).cfg.restorePolicy = .selective :=
  ⟨drained_ok .., drained_someFree .., rfl⟩

theorem witness_VerbatimRestoreLosesTheLink : (drained false 4000 0 0 .verbatim).Drained
    ∧ (drained false 4000 0 0 .verbatim).SomeFree ∧ (drained false 4000 0 0 .verbatim).cfg.restorePolicy = .verbatim :=
  ⟨drained_ok .., drained_someFree .., rfl⟩

theorem witness_IllegalBundleFaults : (drained false 0 0 0xF800000000000000 .selective).Drained
    ∧ decode small.numArch 0xF800000000000000 = .error .unassignedOpcode
    ∧ (drained false 0 0 0x3900000000000005 .selective).Drained
    ∧ decode small.numArch 0x3900000000000005 = .error .registerOutOfRange :=
  ⟨drained_ok .., rfl, drained_ok .., rfl⟩

/-! #### Whole-machine rules and invariants -/

/-- InputsNeverChange, CountersOnlyCount, OnlyCompareWritesZ and OnlyFetchAndRecoveryWritePc: a step that runs, one
that writes Z, one that redirects and one that fetches. -/
theorem witness_InputsNeverChange : ∃ t ∈ next? (step start), t.cycle = 1 := by decide

/-- A tick that retires, one that does not, and a clock that runs none. -/
theorem witness_CountersOnlyCount :
    (∃ t ∈ next? (step (completed doneAdd)), t.committed = 1) ∧ (completed doneAdd).clock = .tick []
      ∧ (∃ t ∈ next? (step (inFlight .add)), t.committed = 0) ∧ (inFlight .add).clock = .tick []
      ∧ (∃ t ∈ next? (step { start with halted := true }), t.cycle = 0)
      ∧ { start with halted := true }.clock = .stopped := by decide

theorem witness_OnlyCompareWritesZ : ∃ t ∈ next? (step (inInt .cmp 5 5 0)), t.z ≠ (inInt .cmp 5 5 0).z := by decide

theorem witness_OnlyFetchAndRecoveryWritePc : (∃ t ∈ next? (step jumping), t.pc = jumping.uBr.target ∧ t.pc ≠ jumping.pc)
    ∧ ∃ t ∈ next? (step (fetching 4000)), t.pc = 4004 := by decide

/-- The invariant of a state, from its decidable parts and the chain of renames. -/
theorem inv_of {s : State} (mem : s.dm.wf s.cfg.memWords = true) (ring : s.RingInv)
    (shape : s.prf.length = s.cfg.numPhys ∧ s.rat.length = s.cfg.numArch ∧ (∀ p ∈ s.rat, p < s.cfg.numPhys)
      ∧ s.ck.length = s.cfg.numCkpt ∧ ∀ c ∈ s.ck, c.busy = true → c.ratSnap.length = s.cfg.numArch
        ∧ (∀ p ∈ c.ratSnap, p < s.cfg.numPhys) ∧ c.prfSnap.length = s.cfg.numPhys)
    (pending : (∀ x ∈ s.pending, x.2 < s.cfg.robSize ∧ s.age x.2 < s.count
        ∧ ∃ e ∈ s.robAt x.2, e.op = x.1.code ∧ e.done = false)
      ∧ (s.pending.map Prod.snd).Nodup ∧ s.iq.Pairwise fun d e => s.age d.rob < s.age e.rob)
    (units : (∀ o ∈ s.uMul.occ, 1 ≤ s.uMul.remaining ∧ s.uMul.remaining ≤ s.cfg.mulLat)
      ∧ (∀ o ∈ s.uInt.occ, o.op.unit = .int) ∧ (∀ o ∈ s.uMul.occ, o.op.unit = .mul)
      ∧ (∀ o ∈ s.uMem.occ, o.op.unit = .mem) ∧ (∀ o ∈ s.uBr.occ, o.op.unit = .br)
      ∧ (∀ o ∈ s.uMem.occ, o.rob = s.head) ∧ s.accessDefined = true)
    (slots : (∀ x ∈ s.pending, x.1.unit = .br → ∃ c ∈ s.ck, c.busy = true ∧ c.owner = x.2)
      ∧ (∀ c ∈ s.ck, c.busy = true → ∃ op ∈ [Op.bz, .bnz, .jump, .jal], op.unit = .br ∧ c.owner < s.cfg.robSize
        ∧ s.age c.owner < s.count ∧ ∃ e ∈ s.robAt c.owner, e.op = op.code ∧ e.done = false)
      ∧ ((s.ck.filter (·.busy)).map (·.owner)).Nodup)
    (tables : (∀ r ∈ s.prf, s.cfg.fits r.value) ∧ (∀ c ∈ s.ck, ∀ r ∈ c.prfSnap, s.cfg.fits r.value)
      ∧ (∀ x ∈ s.rob, ∀ e ∈ x, s.cfg.fits e.pc ∧ ∀ a ∈ e.addr, s.cfg.fits a) ∧ ∀ c ∈ s.dm, s.cfg.fits c.2)
    (fields : s.cfg.fits s.pc ∧ s.cfg.fits s.fl.pc ∧ (∀ e ∈ s.iq, e.fits s.cfg) ∧ (∀ o ∈ s.occupants, o.fits s.cfg)
      ∧ s.cfg.fits s.uMem.addr ∧ s.cfg.fits s.uMem.sval ∧ s.cfg.fits s.uBr.target
      ∧ ∀ f ∈ s.fault, s.cfg.fits f.pc)
    (rename : (s.rat ++ s.heldPrevious).Nodup
      ∧ (∀ p < s.cfg.numPhys, (s.preg p).free = false ↔ p ∈ s.rat ++ s.heldPrevious)
      ∧ (∀ p ∈ s.heldPrevious, p < s.cfg.numPhys)
      ∧ (∀ e ∈ s.entries, (e.pdst.isSome = e.adst.isSome ∧ e.pprev.isSome = e.adst.isSome)
        ∧ ∀ a ∈ e.adst, a.val < s.cfg.numArch)
      ∧ ∀ c ∈ s.ck, c.busy = true → c.ratSnap = undoRenames (s.youngerEntries c.owner) s.rat)
    (chain : RenameChain s.rat s.entries)
    (dests : (∀ x ∈ s.pendingDests, (∀ e ∈ s.robAt x.2.1, e.pdst = x.2.2) ∧ x.2.2.isSome = Op.writesDest x.1
        ∧ (∀ p ∈ x.2.2, (s.preg p).free = false)
        ∧ ((∀ o ∈ s.uBr.occ, s.uBr.stage = .two → o.rob ≠ x.2.1) → ∀ p ∈ x.2.2, (s.preg p).valid = false))
      ∧ (∀ e ∈ s.entries, e.done = true → e.exc = .none → ∀ p ∈ e.pdst, (s.preg p).valid = true)
      ∧ ∀ o ∈ s.uBr.occ, s.uBr.stage = .two → ∀ p ∈ o.pdst, (s.preg p).valid = true)
    (waiting : (∀ p ∈ s.rat ++ s.heldPrevious, (s.preg p).valid = false → ∃ e ∈ s.entries, e.pdst = some p)
      ∧ ∀ e ∈ s.iq, ∀ o ∈ [e.a, e.b], o.ready = false → ∃ p ∈ o.tag, (s.preg p).valid = false
        ∧ ∃ k < s.age e.rob, k < s.count ∧ ∃ w ∈ s.robAt (s.robIndex k), w.pdst = some p) :
    s.Inv where
  mem := mem
  ring := ring
  shape := ⟨shape.1, shape.2.1, shape.2.2.1, shape.2.2.2.1, fun c hc hb => (shape.2.2.2.2 c hc hb).1,
    fun c hc hb => (shape.2.2.2.2 c hc hb).2.1, fun c hc hb => (shape.2.2.2.2 c hc hb).2.2⟩
  pipe := ⟨pending.1, pending.2.1, pending.2.2, units.1, units.2.1, units.2.2.1, units.2.2.2.1, units.2.2.2.2.1,
    units.2.2.2.2.2.1, slots.1,
    fun c hc hb => by
      obtain ⟨op, -, h⟩ := slots.2.1 c hc hb
      exact ⟨op, h⟩,
    slots.2.2, units.2.2.2.2.2.2⟩
  values :=
    { regs := tables.1
      snapRegs := tables.2.1
      pc := fields.1
      latchPc := fields.2.1
      robPc := fun r e h => (tables.2.2.1 _ (robAt_mem h) e rfl).1
      robAddr := fun r e a h ha => (tables.2.2.1 _ (robAt_mem h) e rfl).2 a ha
      iq := fields.2.2.1
      units := fields.2.2.2.1
      memAddr := fields.2.2.2.2.1
      storeData := fields.2.2.2.2.2.1
      target := fields.2.2.2.2.2.2.1
      cells := tables.2.2.2
      faultPc := fields.2.2.2.2.2.2.2 }
  rename := ⟨rename.1, rename.2.1, rename.2.2.1, fun e he => (rename.2.2.2.1 e he).1,
    fun e he => (rename.2.2.2.1 e he).2, chain, rename.2.2.2.2⟩
  operands := ⟨fun x hx => (dests.1 x hx).1, fun x hx => (dests.1 x hx).2.1, fun x hx => (dests.1 x hx).2.2.1,
    fun x hx => (dests.1 x hx).2.2.2, dests.2.1,
    fun o p ho hs hp => dests.2.2 o ho hs p hp, waiting.1,
    fun e he o ho hr => by
      obtain ⟨p, hp, hv, k, hk, hc, w, hw, hd⟩ := waiting.2 e he o (by simpa using ho) hr
      exact ⟨p, hp, hv, k, w, hk, hc, hw, hd⟩⟩

/-- The invariant holds with a store in memory stage 2. -/
theorem storing_inv : storing.Inv :=
  inv_of (by decide) (ring_of (by decide)) (by decide) (by decide) (by decide) (by decide) (by decide) (by decide)
    (by decide)
    (by
      show RenameChain [0, 1] [⟨0x0B, 4000, none, none, none, false, some 3, .none⟩, _]
      exact ⟨fun _ _ h => (nomatch h), fun _ _ h => (nomatch h), trivial⟩)
    (by decide) (by decide)

/-- LOAD R0,R1,#3 in memory stage 2, and an ADD R1,R0,R0 that waits for its result. -/
def loading : State := after 4 (State.boot small [0x4808000000000003, 0x0880000000000000] [(3, 42)] (.untilDone none) [])

/-- The invariant holds with operands that wait for a load. -/
theorem loading_inv : loading.Inv :=
  inv_of (by decide) (ring_of (by decide)) (by decide) (by decide) (by decide) (by decide) (by decide) (by decide)
    (by decide)
    (by
      refine ⟨fun a p ha hp => ?_, fun a p ha hp => ?_, trivial⟩ <;> cases ha <;> cases hp <;> decide)
    (by decide) (by decide)

/-- A store in stage 2, whose step changes the memory. -/
theorem witness_OnlyTheHeadStoreWritesMemory :
    storing.MemInv ∧ storing.RingInv ∧ storing.PipeInv ∧ (∃ t ∈ next? (step storing), t.dm = [(3, 7)])
      ∧ storing.dm = [] :=
  ⟨storing_inv.mem, storing_inv.ring, storing_inv.pipe, by decide, by decide⟩

/-- A store in stage 2; and a load in stage 2 whose step makes the operands that wait for it ready. -/
theorem witness_StepKeepsInvariant :
    (storing.cfg.freePolicy = .prev ∧ storing.cfg.restorePolicy = .selective ∧ storing.Inv
        ∧ (next? (step storing)).isSome = true)
      ∧ (loading.Inv ∧ loading.iq.map (fun e => (e.a.ready, e.b.ready)) = [(false, false)]
        ∧ (next? (step loading)).map (fun t => t.uInt.occ.map fun o => (o.a, o.b)) = some (some (42, 42))) :=
  ⟨⟨by decide, by decide, storing_inv, by decide⟩, loading_inv, by decide⟩

theorem witness_StepKeepsStructure : storing.MemInv ∧ storing.RingInv ∧ storing.ShapeInv ∧ storing.PipeInv
    ∧ storing.ValueInv ∧ (next? (step storing)).isSome = true :=
  ⟨storing_inv.mem, storing_inv.ring, storing_inv.shape, storing_inv.pipe, storing_inv.values, by decide⟩

theorem witness_StepKeepsRing : jumping.RingInv ∧ (next? (step jumping)).isSome = true :=
  ⟨ring_of (by decide), by decide⟩

theorem witness_StepKeepsMemoryCanonical : storing.MemInv ∧ (next? (step storing)).isSome = true :=
  ⟨storing_inv.mem, by decide⟩

theorem witness_StepNeverFaultsInTheInvariant : storing.cfg.ok = true ∧ storing.RingInv ∧ storing.PipeInv :=
  ⟨by decide, storing_inv.ring, storing_inv.pipe⟩

theorem witness_MappedRegistersAreNeverFree : small.ok = true ∧ small.freePolicy = .prev
    ∧ small.restorePolicy = .selective ∧ Memory.wf small.memWords [(3, 42)] = true
    ∧ (∀ x ∈ [(3, (42 : Int))], small.fits x.2)
    ∧ (next? (ticks 2 (State.boot small [0x3800000000000005] [(3, 42)] (.untilDone none) []))).isSome = true := by decide

/-- Both ends of memory and of the range of values. -/
theorem witness_BootSatisfiesInvariant : small.ok = true
    ∧ Memory.wf small.memWords [(0, -0x80000000), (15, 0x7FFFFFFF)] = true
    ∧ ∀ x ∈ [(0, (-0x80000000 : Int)), (15, 0x7FFFFFFF)], small.fits x.2 := by decide

end Sys2Proof.Tests
end

/-! ## What the units do, in one form each

Each unit's step is brought to one equation whose unknowns are the values it writes, so that a proof about a phase
does not split over opcodes again. -/

namespace Sys2Proof.Machine

/-- Without a destination tag there is no write-back (52_issue_units.md R239). -/
@[simp] theorem writeBack_none (s : State) (v : Int) : s.writeBack none v = s := by
  have hwake : IqEntry.wake none v = id := funext fun e => IqEntry.wake_none v e
  simp [State.writeBack, hwake]

/-- What `Config.rulesApply` and `Config.sizesOk` say of XLEN and MUL_LAT. -/
theorem Config.ok_bounds {c : Config} (h : c.ok = true) : 32 ≤ c.xlen ∧ 1 ≤ c.mulLat := by
  simp only [Config.ok, Config.sizesOk, Config.rulesApply, Bool.and_eq_true, decide_eq_true_eq] at h
  omega

/-- The integer unit writes one register at most, and Z (40_integer.md R111 to R119). -/
theorem executeInt_eq (o : Occupant) (s : State) : ∃ p v z, executeInt o s = { s.writeBack p v with z := z }
    ∧ (1 ≤ s.cfg.xlen → o.fits s.cfg → s.cfg.fits v) := by
  have keeps : ∃ p v z, s = { s.writeBack p v with z := z } ∧ (1 ≤ s.cfg.xlen → o.fits s.cfg → s.cfg.fits v) :=
    ⟨none, 0, s.z, by rw [writeBack_none], fun _ _ => s.cfg.zero_fits⟩
  cases hop : o.op <;> simp only [executeInt, hop]
  case add | sub => exact ⟨_, _, _, rfl, fun hx _ => Config.wrap_fits hx _⟩
  case and | or | xor => exact ⟨_, _, _, rfl, fun hx _ => Config.toInt_fits hx _⟩
  case movc => exact ⟨_, _, _, rfl, fun _ ⟨_, himm, _⟩ => himm⟩
  case cmp => exact ⟨none, 0, zeroFlag o.a o.b, by rw [writeBack_none]; rfl, fun _ _ => s.cfg.zero_fits⟩
  all_goals exact keeps

/-- Branch stage 1 writes one register at most, and its own unit (43_control_flow.md R160 to R163). -/
theorem brStage1_eq (o : Occupant) (s : State) : ∃ p v u, brStage1 o s = { s.writeBack p v with uBr := u }
    ∧ u.occ = s.uBr.occ
    ∧ (1 ≤ s.cfg.xlen → s.cfg.fits s.uBr.target → s.cfg.fits v ∧ s.cfg.fits u.target) := by
  have keeps : ∃ p v u, s = { s.writeBack p v with uBr := u } ∧ u.occ = s.uBr.occ
      ∧ (1 ≤ s.cfg.xlen → s.cfg.fits s.uBr.target → s.cfg.fits v ∧ s.cfg.fits u.target) :=
    ⟨none, 0, s.uBr, by rw [writeBack_none], rfl, fun _ ht => ⟨s.cfg.zero_fits, ht⟩⟩
  have resolves : ∀ taken x, ∃ p v u, s.resolved taken (s.cfg.wrap x) = { s.writeBack p v with uBr := u }
      ∧ u.occ = s.uBr.occ ∧ (1 ≤ s.cfg.xlen → s.cfg.fits s.uBr.target → s.cfg.fits v ∧ s.cfg.fits u.target) :=
    fun taken x => ⟨none, 0, { s.uBr with stage := .two, taken := taken, target := s.cfg.wrap x },
      by rw [writeBack_none]; rfl, rfl, fun hx _ => ⟨s.cfg.zero_fits, Config.wrap_fits hx x⟩⟩
  cases hop : o.op <;> simp only [brStage1, hop]
  case bz | bnz | jump => exact resolves _ _
  case jal => exact ⟨_, _, _, rfl, rfl, fun hx _ => ⟨Config.wrap_fits hx _, Config.wrap_fits hx _⟩⟩
  all_goals exact keeps

/-- Every cell reads as an XLEN-bit value when the listed ones are (20_memory.md R61). -/
theorem Memory.read_fits {c : Config} {m : Memory} (h : ∀ x ∈ m, c.fits x.2) (a : Nat) : c.fits (m.read a) := by
  induction m with
  | nil => exact c.zero_fits
  | cons x m ih =>
    unfold Memory.read
    split
    · exact h x (by simp)
    · exact ih fun y hy => h y (by simp [hy])

/-- Memory stage 2's access writes one register at most, or the cell addressed (42_memory_ops.md R143 to R146). -/
theorem executeMem_cases (o : Occupant) (s : State) :
    (∃ p v, executeMem o s = s.writeBack p v ∧ ((∀ x ∈ s.dm, s.cfg.fits x.2) → s.cfg.fits v))
      ∨ executeMem o s = s.memWrite s.uMem.addr s.uMem.sval := by
  cases hop : o.op <;> simp only [executeMem, hop]
  case load | ldr => exact .inl ⟨_, _, rfl, fun h => Memory.read_fits h _⟩
  case store | str => exact .inr rfl
  all_goals exact .inl ⟨none, 0, (writeBack_none s 0).symm, fun _ => s.cfg.zero_fits⟩

/-- Memory stage 2 frees the unit and completes the entry after the access, if there is one (52_issue_units.md R244). -/
theorem memStage2_cases (o : Occupant) (s : State) : ∃ u,
    memStage2 o s = State.complete { u with uMem := { s.uMem with occ := none } } o.rob
      ∧ ((∃ p v, u = s.writeBack p v ∧ ((∀ x ∈ s.dm, s.cfg.fits x.2) → s.cfg.fits v))
        ∨ (s.noExc o.rob = true ∧ u = s.memWrite s.uMem.addr s.uMem.sval)) := by
  unfold memStage2
  split
  · next hx =>
    exact ⟨_, rfl, (executeMem_cases o s).imp_right fun h => ⟨hx, h⟩⟩
  · exact ⟨s, rfl, .inl ⟨none, 0, (writeBack_none s 0).symm, fun _ => s.cfg.zero_fits⟩⟩

/-- A ROB entry after memory stage 1: the address is recorded and, out of range, the exception is raised
(42_memory_ops.md R141; 60_exceptions.md R293). -/
def RobEntry.addressed (a : Int) (raised : Bool) (e : RobEntry) : RobEntry :=
  { e with addr := some a, exc := if raised then .memRange else e.exc }

/-- Recording the address and then the exception changes the entry once. -/
theorem modifyRob_modifyRob (s : State) (r : Nat) (f g : RobEntry → RobEntry) :
    (s.modifyRob r f).modifyRob r g = s.modifyRob r (g ∘ f) := by
  simp [State.modifyRob, List.modify_modify_eq, Option.map_comp_map]

/-- Memory stage 1 records the address, and leaves for stage 2 only with an address in range or with the exception
raised (42_memory_ops.md R141, R142). -/
theorem memStage1_eq {o : Occupant} {s : State} (hs : s.uMem.stage = .one) : ∃ raised stage sval,
    memStage1 o s = { s.modifyRob o.rob (RobEntry.addressed (s.effAddr o) raised) with
        uMem := { s.uMem with stage := stage, addr := s.effAddr o, sval := sval } }
      ∧ (sval = s.uMem.sval ∨ sval = s.storeData o)
      ∧ (stage = .two → raised = false → addrInRange s.cfg.memWords (s.effAddr o) = true) := by
  have checked : ∀ sval, ∃ raised stage,
      State.checkRange { s.recordAddr o with uMem := { (s.recordAddr o).uMem with sval := sval } } o
        = { s.modifyRob o.rob (RobEntry.addressed (s.effAddr o) raised) with
            uMem := { s.uMem with stage := stage, addr := s.effAddr o, sval := sval } }
        ∧ (stage = .two → raised = false → addrInRange s.cfg.memWords (s.effAddr o) = true) := by
    intro sval
    by_cases ha : addrInRange s.cfg.memWords (s.effAddr o) = true
    · exact ⟨false, .two, if_pos ha, fun _ _ => ha⟩
    · refine ⟨true, .two, (if_neg ha).trans ?_, fun _ h => nomatch h⟩
      exact congrArg
        (fun u : State => { u with uMem := { s.uMem with stage := .two, addr := s.effAddr o, sval := sval } })
        (modifyRob_modifyRob s o.rob _ _)
  unfold memStage1
  split
  · unfold storeStage1
    split
    · obtain ⟨raised, stage, heq, ha⟩ := checked (s.storeData o)
      exact ⟨raised, stage, _, heq, .inr rfl, ha⟩
    · exact ⟨false, .one, s.uMem.sval, by rw [← hs]; rfl, .inl rfl, fun h => nomatch h⟩
  · obtain ⟨raised, stage, heq, ha⟩ := checked s.uMem.sval
    exact ⟨raised, stage, _, heq, .inl rfl, ha⟩

/-- The multiplier is idle, counts down, or finishes (52_issue_units.md R242). -/
theorem mulPhase_cases (s : State) :
    mulPhase s = s
      ∨ (∃ o, s.uMul.occ = some o ∧ s.uMul.remaining - 1 ≠ 0
          ∧ mulPhase s = { s with uMul := { s.uMul with remaining := s.uMul.remaining - 1 } })
      ∨ ∃ o, s.uMul.occ = some o ∧ mulPhase s
          = State.complete { executeMul o s with uMul := { occ := none, remaining := 0 } } o.rob := by
  unfold mulPhase
  split
  · exact .inl rfl
  · next o ho =>
    split
    · exact .inr (.inr ⟨o, ho, rfl⟩)
    · next hr => exact .inr (.inl ⟨o, ho, hr, rfl⟩)

/-- The integer unit is idle, or executes, frees the unit and completes the entry (52_issue_units.md R241). -/
theorem intPhase_cases (s : State) :
    intPhase s = s ∨ ∃ o, s.uInt.occ = some o
      ∧ intPhase s = State.complete { executeInt o s with uInt := { occ := none } } o.rob := by
  cases ho : s.uInt.occ with
  | none => exact .inl (intPhase_idle ho)
  | some o => exact .inr ⟨o, rfl, intPhase_some ho⟩

/-- Branch stage 2 without a redirect: the slot is released (53_recovery_commit.md R269). -/
theorem brStage2_not_taken {o : Occupant} {s : State} (h : s.uBr.taken = false) :
    brStage2 o s = (s.brDone o).releaseOwned o.rob := by simp [brStage2, h]

/-- Branch stage 2 with a redirect: recovery from a slot that the branch owns (53_recovery_commit.md R260). -/
theorem brStage2_taken {o : Occupant} {s : State} (h : s.uBr.taken = true) (hs : (s.ownedSlot o.rob).isSome = true) :
    ∃ c ∈ s.ck, c.busy = true ∧ c.owner = o.rob
      ∧ brStage2 o s = (s.brDone o).recoverFrom o.rob s.uBr.target c := by
  obtain ⟨c, hc, hb, ho⟩ := ownedSlot_isSome.mp hs
  obtain ⟨d, hd, hdb, hdo, heq⟩ := recover_eq (s := s.brDone o) (t := s.uBr.target) hc hb ho
  exact ⟨d, hd, hdb, hdo, by rw [brStage2, if_pos h, heq]⟩

/-- The branch unit is idle, runs stage 1, falls through, or recovers (52_issue_units.md R245, R246). -/
theorem branchPhase_cases {s : State} (hdef : s.branchDefined = true) :
    branchPhase s = s
      ∨ (∃ o, s.uBr.occ = some o ∧ s.uBr.stage = .one ∧ branchPhase s = brStage1 o s)
      ∨ ∃ o, s.uBr.occ = some o ∧ s.uBr.stage = .two ∧ s.occupied o.rob = true ∧ (s.ownedSlot o.rob).isSome = true
          ∧ (branchPhase s = (s.brDone o).releaseOwned o.rob
            ∨ ∃ c ∈ s.ck, c.busy = true ∧ c.owner = o.rob
                ∧ branchPhase s = (s.brDone o).recoverFrom o.rob s.uBr.target c) := by
  cases ho : s.uBr.occ with
  | none => exact .inl (branchPhase_idle ho)
  | some o =>
    cases hs : s.uBr.stage with
    | one => exact .inr (.inl ⟨o, rfl, rfl, branchPhase_one ho hs⟩)
    | two =>
      have hd : s.occupied o.rob = true ∧ (s.ownedSlot o.rob).isSome = true := by
        simpa [State.branchDefined, ho, hs] using hdef
      refine .inr (.inr ⟨o, rfl, rfl, hd.1, hd.2, ?_⟩)
      rw [branchPhase_two ho hs]
      cases ht : s.uBr.taken with
      | false => exact .inl (brStage2_not_taken ht)
      | true => exact .inr (brStage2_taken ht hd.2)

/-- The memory unit is idle, or runs one of its stages (52_issue_units.md R243, R244). -/
theorem memPhase_cases (s : State) :
    memPhase s = s ∨ ∃ o, s.uMem.occ = some o
      ∧ ((s.uMem.stage = .one ∧ memPhase s = memStage1 o s) ∨ (s.uMem.stage = .two ∧ memPhase s = memStage2 o s)) := by
  cases ho : s.uMem.occ with
  | none => exact .inl (memPhase_idle ho)
  | some o =>
    refine .inr ⟨o, rfl, ?_⟩
    cases hs : s.uMem.stage with
    | one => exact .inl ⟨rfl, memPhase_one ho hs⟩
    | two => exact .inr ⟨rfl, memPhase_two ho hs⟩

/-- The access of memory stage 2 is at a cell that exists (20_memory.md R63), said of the occupant. -/
theorem accessDefined_iff {s : State} :
    s.accessDefined = true ↔ ∀ o, s.uMem.occ = some o → s.uMem.stage = .two → s.noExc o.rob = true →
      addrInRange s.cfg.memWords s.uMem.addr = true := by
  unfold State.accessDefined
  cases s.uMem.occ with
  | none => simp
  | some o =>
    cases s.uMem.stage with
    | one => simp
    | two => cases hx : s.noExc o.rob <;> simp [hx]

/-- What every single issue keeps, the issue phase keeps: the scan takes entries out of the queue one by one
(52_issue_units.md R232, R237). -/
theorem issuePhase_keeps {P : State → Prop}
    (issue : ∀ u e before after, u.iq = before ++ e :: after → u.eligible e = true → u.unitFree e.op.unit = true →
      P u → P { u.issueTo e with iq := before ++ after })
    {s : State} (h : P s) : P (issuePhase s) := by
  have scan : ∀ es (s : State), P { s with iq := s.iq ++ es } → P (issueScan es s) := by
    intro es
    induction es with
    | nil => intro s h; simpa [issueScan] using h
    | cons e es ih =>
      intro s h
      by_cases hi : s.eligible e = true ∧ s.unitFree e.op.unit = true
      · rw [issueScan_issues hi.1 hi.2]
        have hkept := issue { s with iq := s.iq ++ e :: es } e s.iq es rfl hi.1
          (by cases hu : e.op.unit <;> simpa [State.unitFree, hu] using hi.2) h
        refine ih _ ?_
        have hsame : { s.issueTo e with iq := (s.issueTo e).iq ++ es }
            = { State.issueTo { s with iq := s.iq ++ e :: es } e with iq := s.iq ++ es } := by
          cases hu : e.op.unit <;> simp [State.issueTo, hu]
        rw [hsame]
        exact hkept
      · rw [issueScan_keeps (by simpa [Bool.not_eq_true, -not_and, Classical.not_and_iff_not_or_not] using hi)]
        exact ih _ (by simpa using h)
  exact scan s.iq _ (by simpa using h)

/-! ## A step, phase by phase -/

/-- Every phase keeps P, each in the situation in which the tick runs it (50_cycle_and_fetch.md R180, R181). -/
structure PhasesKeep (P : State → Prop) : Prop where
  host : ∀ s quit replies, P s → P { s with quit := quit, replies := replies }
  begin : ∀ s, P s → P (beginTick s)
  commit : ∀ s, P s → P (commitPhase s)
  branch : ∀ s, s.branchDefined = true → P s → P (branchPhase s)
  memory : ∀ s, s.accessDefined = true → P s → P (memPhase s)
  multiplier : ∀ s, P s → P (mulPhase s)
  integer : ∀ s, P s → P (intPhase s)
  issue : ∀ s, P s → P (issuePhase s)
  dispatch : ∀ s op x, P s → P (dispatchLegal op x s)
  illegal : ∀ s, P s → P (dispatchIllegal s)
  fetch : ∀ s, P s → P (fetchPhase s)

/-- A step that answers a next state ran with legal parameters (70_reset_and_hazards.md R323). -/
theorem step_next_cfg_ok {s t : State} (h : step s = .next t) : s.cfg.ok = true := by
  obtain ⟨d, hd, -⟩ := step_cases s
  exact (clocked_next (hd ▸ h)).1

/-- What every phase keeps, a tick keeps. -/
theorem PhasesKeep.tick {P : State → Prop} (keep : PhasesKeep P) {d : State → State}
    (hd : ∀ s, P s → P (d s)) {s t : State} (hs : P s) (h : tickWith d s = .next t) : P t := by
  have hcommit : P (afterCommit s) := keep.commit _ (keep.begin s hs)
  rcases tickWith_next h with ⟨-, rfl⟩ | ⟨-, hbr, hacc, rfl⟩
  · exact hcommit
  · have hbranch : P (afterBranch s) := keep.branch _ hbr hcommit
    exact keep.fetch _ (hd _ (keep.issue _ (keep.integer _ (keep.multiplier _ (keep.memory _ hacc hbranch)))))

/-- What every phase keeps, a step keeps. -/
theorem PhasesKeep.step {P : State → Prop} (keep : PhasesKeep P) {s t : State} (hs : P s)
    (h : step s = .next t) : P t := by
  obtain ⟨d, hd, hphase⟩ := step_cases s
  have hdispatch : ∀ u, P u → P (d u) := by
    rcases hphase with rfl | rfl | ⟨op, x, rfl, -⟩
    · exact fun _ hu => hu
    · exact keep.illegal
    · exact fun u => keep.dispatch u op x
  rcases (clocked_next (hd ▸ h)).2 with rfl | ⟨rest, -, rfl⟩ | ⟨rest, -, htick⟩
  · exact hs
  · exact keep.host s true rest hs
  · exact keep.tick hdispatch (keep.host s s.quit rest hs) htick

end Sys2Proof.Machine

/-! ## The ring (10_state.md R30 to R32) -/

namespace Sys2Proof.Machine

/-- The ring depends on the ROB's bookkeeping alone, and on the length of the issue queue. -/
theorem State.RingInv.of_frame {s t : State} (h : s.RingInv) (cfg : t.cfg = s.cfg) (head : t.head = s.head)
    (tail : t.tail = s.tail) (count : t.count = s.count) (length : t.rob.length = s.rob.length)
    (valid : ∀ r, (t.robAt r).isSome = (s.robAt r).isSome) (iq : t.iq.length ≤ s.cfg.iqSize) : t.RingInv where
  robLength := by rw [length, cfg, h.robLength]
  headBound := by rw [head, cfg]; exact h.headBound
  countBound := by rw [count, cfg]; exact h.countBound
  tailIs := by rw [tail, head, count, cfg, h.tailIs]
  occupiedIff := by
    intro r hr
    rw [valid, State.age, cfg, head, count]
    exact h.occupiedIff r (cfg ▸ hr)
  iqBound := by rw [cfg]; exact iq

/-- Completing an entry and freeing its unit, after the unit's write. -/
theorem State.RingInv.complete {s : State} (h : s.RingInv) (r : Nat) : (s.complete r).RingInv :=
  h.of_frame rfl rfl rfl rfl (complete_rob_length s r) (modifyRob_isSome s r · _) h.iqBound

theorem State.RingInv.writeBack {s : State} (h : s.RingInv) (p : Option Nat) (v : Int) : (s.writeBack p v).RingInv :=
  h.of_frame rfl rfl rfl rfl rfl (fun _ => rfl) (by simpa using h.iqBound)

theorem releaseOwned_ring {s : State} (h : s.RingInv) (b : Nat) : (s.releaseOwned b).RingInv :=
  h.of_frame (by simp) (by simp) (by simp) (by simp) (by simp) (fun r => by simp [State.robAt])
    (by simpa using h.iqBound)

/-- Retiring the head makes every other entry one younger step nearer to the head. -/
theorem retire_age {s : State} (e : RobEntry) {r : Nat} (hh : s.head < s.cfg.robSize) (hr : r < s.cfg.robSize) :
    (s.retire e).age r = if r = s.head then s.cfg.robSize - 1 else s.age r - 1 := by
  have hhead : (s.retire e).head = if s.head + 1 = s.cfg.robSize then 0 else s.head + 1 := by
    show (s.head + 1) % s.cfg.robSize = _
    split
    · next he => rw [he, Nat.mod_self]
    · exact Nat.mod_eq_of_lt (by omega)
  have hh' : (s.retire e).head < (s.retire e).cfg.robSize := Nat.mod_lt _ (by omega)
  rw [age_eq (s := s.retire e) hr hh', age_eq hr hh, hhead, retire_cfg]
  split_ifs <;> omega

/-- Reading the buffer after the head has retired. -/
theorem retire_robAt {s : State} (h : s.RingInv) (e : RobEntry) (r : Nat) :
    (s.retire e).robAt r = if r = s.head then none else s.robAt r :=
  robAt_set s.rob s.head r none (by rw [h.robLength]; exact h.headBound)

/-- An index other than the head's has an age above 0. -/
theorem age_pos {s : State} {r : Nat} (hh : s.head < s.cfg.robSize) (hr : r < s.cfg.robSize) (hne : r ≠ s.head) :
    0 < s.age r :=
  Nat.pos_of_ne_zero fun h0 => hne (age_injective hh hr hh (h0.trans (age_head hh).symm))

theorem State.RingInv.retire {s : State} (h : s.RingInv) (e : RobEntry) (hc : s.count ≠ 0) : (s.retire e).RingInv where
  robLength := by simpa [State.retire] using h.robLength
  headBound := Nat.mod_lt _ (Nat.lt_of_le_of_lt (Nat.zero_le _) h.headBound)
  countBound := Nat.le_trans (Nat.sub_le _ _) h.countBound
  tailIs := by
    show s.tail = ((s.head + 1) % s.cfg.robSize + (s.count - 1)) % s.cfg.robSize
    rw [Nat.mod_add_mod, h.tailIs]
    congr 1
    omega
  occupiedIff := by
    intro r hr
    rw [retire_robAt h, retire_age e h.headBound hr]
    have hbound := h.countBound
    split
    · show _ ↔ _ < s.count - 1
      simp
      omega
    · next hne =>
      rw [h.occupiedIff r hr]
      have := age_pos h.headBound hr hne
      show _ ↔ _ < s.count - 1
      omega
  iqBound := h.iqBound

/-- The ROB with one more entry at its tail (51_rename_dispatch.md R210). -/
def State.withEntry (s : State) (e : RobEntry) : State :=
  { s with rob := s.rob.set s.tail (some e), tail := s.nextIndex s.tail, count := s.count + 1 }

theorem tail_lt {s : State} (h : s.RingInv) : s.tail < s.cfg.robSize := by
  rw [h.tailIs]
  exact Nat.mod_lt _ (Nat.lt_of_le_of_lt (Nat.zero_le _) h.headBound)

/-- The tail's age is the number of entries, as long as there is room. -/
theorem age_tail {s : State} (h : s.RingInv) (hc : s.count ≠ s.cfg.robSize) : s.age s.tail = s.count := by
  have : s.tail = s.robIndex s.count := h.tailIs
  rw [this]
  exact age_robIndex (Nat.lt_of_le_of_ne h.countBound hc) h.headBound

theorem withEntry_robAt {s : State} (h : s.RingInv) (e : RobEntry) (r : Nat) :
    (s.withEntry e).robAt r = if r = s.tail then some e else s.robAt r :=
  robAt_set s.rob s.tail r (some e) (by rw [h.robLength]; exact tail_lt h)

theorem State.RingInv.withEntry {s : State} (h : s.RingInv) (e : RobEntry) (hc : s.count ≠ s.cfg.robSize) :
    (s.withEntry e).RingInv where
  robLength := by simpa [State.withEntry] using h.robLength
  headBound := h.headBound
  countBound := Nat.lt_of_le_of_ne h.countBound hc
  tailIs := by
    show (s.tail + 1) % s.cfg.robSize = (s.head + (s.count + 1)) % s.cfg.robSize
    rw [h.tailIs, Nat.mod_add_mod, Nat.add_assoc]
  occupiedIff := by
    intro r hr
    rw [withEntry_robAt h]
    show _ ↔ s.age r < s.count + 1
    split
    · next he => simp [he, age_tail h hc]
    · next hne =>
      have : s.age r ≠ s.count := fun ha =>
        hne (age_injective h.headBound hr (tail_lt h) (ha.trans (age_tail h hc).symm))
      rw [h.occupiedIff r hr]
      omega
  iqBound := h.iqBound

/-- Reading the buffer after a recovery: the entries younger than b are gone (53_recovery_commit.md R263). -/
theorem recoverFrom_robAt (s : State) (b : Nat) (target : Int) (c : Ckpt) (r : Nat) :
    (s.recoverFrom b target c).robAt r = if s.age b < s.age r ∧ s.age r < s.count then none else s.robAt r := by
  show (s.truncatedRob b).getD r none = _
  simp only [State.truncatedRob, State.youngerThan, State.robAt, List.getD_eq_getElem?_getD, List.getElem?_mapIdx,
    Bool.and_eq_true, decide_eq_true_eq]
  cases s.rob[r]? <;> simp

/-- What an occupied index is (10_state.md R30). -/
theorem occupied_iff {s : State} {r : Nat} : s.occupied r = true ↔ r < s.cfg.robSize ∧ s.age r < s.count := by
  simp [State.occupied]

theorem State.RingInv.recoverFrom {s : State} (h : s.RingInv) {b : Nat} (target : Int) (c : Ckpt)
    (hb : s.occupied b = true) : (s.recoverFrom b target c).RingInv where
  robLength := by simpa [State.recoverFrom, State.truncatedRob] using h.robLength
  headBound := h.headBound
  countBound := Nat.lt_of_lt_of_le (occupied_iff.mp hb).2 h.countBound
  tailIs := by
    show (b + 1) % s.cfg.robSize = (s.head + (s.age b + 1)) % s.cfg.robSize
    have hindex : (s.head + s.age b) % s.cfg.robSize = b := robIndex_age (occupied_iff.mp hb).1 h.headBound
    rw [← Nat.add_assoc, ← Nat.mod_add_mod (s.head + s.age b), hindex]
  occupiedIff := by
    intro r hr
    rw [recoverFrom_robAt]
    show _ ↔ s.age r < s.age b + 1
    have hcount := (occupied_iff.mp hb).2
    split
    · simp
      omega
    · rw [h.occupiedIff r hr]
      omega
  iqBound := Nat.le_trans (List.length_filter_le _ _) h.iqBound

/-- Issuing shortens the queue and leaves the ROB alone. -/
theorem issue_ring {s : State} {e : IqEntry} {before after : List IqEntry} (hiq : s.iq = before ++ e :: after)
    (h : s.RingInv) : State.RingInv { s.issueTo e with iq := before ++ after } := by
  have hlen := h.iqBound
  refine h.of_frame (by simp) (by simp) (by simp) (by simp) (by simp) (fun r => by simp [State.robAt]) ?_
  simp [hiq] at hlen ⊢
  omega

/-! ### The ring, phase by phase -/

theorem commitPhase_ring {s : State} (h : s.RingInv) : (commitPhase s).RingInv := by
  rcases commitPhase_cases s with ⟨heq, -⟩ | ⟨e, he, -, ⟨-, heq⟩ | ⟨-, heq⟩⟩ <;> rw [heq]
  · exact h
  · exact h.retire e (headEntry_eq_some.mp he).1
  · exact h.of_frame rfl rfl rfl rfl rfl (fun _ => rfl) h.iqBound

theorem brDone_ring {s : State} (h : s.RingInv) (o : Occupant) : (s.brDone o).RingInv :=
  (h.complete o.rob).of_frame rfl rfl rfl rfl rfl (fun _ => rfl) h.iqBound

theorem branchPhase_ring {s : State} (hdef : s.branchDefined = true) (h : s.RingInv) : (branchPhase s).RingInv := by
  rcases branchPhase_cases hdef with heq | ⟨o, -, -, heq⟩ | ⟨o, -, -, hocc, -, heq | ⟨c, -, -, -, heq⟩⟩ <;> rw [heq]
  · exact h
  · obtain ⟨p, v, u, heq, -⟩ := brStage1_eq o s
    rw [heq]
    exact (h.writeBack p v).of_frame rfl rfl rfl rfl rfl (fun _ => rfl) (h.writeBack p v).iqBound
  · exact releaseOwned_ring (brDone_ring h o) o.rob
  · exact (brDone_ring h o).recoverFrom _ c hocc

theorem memPhase_ring {s : State} (h : s.RingInv) : (memPhase s).RingInv := by
  rcases memPhase_cases s with heq | ⟨o, -, ⟨hs, heq⟩ | ⟨-, heq⟩⟩ <;> rw [heq]
  · exact h
  · obtain ⟨raised, stage, sval, heq, -⟩ := memStage1_eq (o := o) hs
    rw [heq]
    exact h.of_frame rfl rfl rfl rfl (modifyRob_rob_length s _ _) (modifyRob_isSome s _ · _) h.iqBound
  · obtain ⟨u, heq, ⟨p, v, rfl, -⟩ | ⟨-, rfl⟩⟩ := memStage2_cases o s <;> rw [heq]
    · exact ((h.writeBack p v).complete o.rob).of_frame rfl rfl rfl rfl rfl (fun _ => rfl) (h.writeBack p v).iqBound
    · exact (h.complete o.rob).of_frame rfl rfl rfl rfl rfl (fun _ => rfl) h.iqBound

theorem mulPhase_ring {s : State} (h : s.RingInv) : (mulPhase s).RingInv := by
  rcases mulPhase_cases s with heq | ⟨o, -, -, heq⟩ | ⟨o, -, heq⟩ <;> rw [heq]
  · exact h
  · exact h.of_frame rfl rfl rfl rfl rfl (fun _ => rfl) h.iqBound
  · have hw := h.writeBack o.pdst (s.cfg.wrap (o.a * o.b))
    exact (hw.complete o.rob).of_frame rfl rfl rfl rfl rfl (fun _ => rfl) hw.iqBound

theorem intPhase_ring {s : State} (h : s.RingInv) : (intPhase s).RingInv := by
  rcases intPhase_cases s with heq | ⟨o, -, heq⟩ <;> rw [heq]
  · exact h
  · obtain ⟨p, v, z, hex, -⟩ := executeInt_eq o s
    rw [hex]
    have hw := h.writeBack p v
    exact (hw.complete o.rob).of_frame rfl rfl rfl rfl rfl (fun _ => rfl) hw.iqBound

theorem issuePhase_ring {s : State} (h : s.RingInv) : (issuePhase s).RingInv :=
  issuePhase_keeps (fun _ _ _ _ hiq _ _ hu => issue_ring hiq hu) h

theorem dispatched_ring {s : State} {op : Op} {x : Operands} (hstall : s.stallReasons op x = []) (h : s.RingInv) :
    (s.dispatched op x).RingInv := by
  obtain ⟨-, -, hiq, hcount⟩ := stallReasons_eq_nil.mp hstall
  have hlen := h.iqBound
  refine (h.withEntry (s.newRobEntry op x) hcount).of_frame rfl rfl rfl rfl rfl (fun _ => rfl) ?_
  show (s.iq ++ [_]).length ≤ s.cfg.iqSize
  simp
  omega

theorem dispatchLegal_ring {s : State} (op : Op) (x : Operands) (h : s.RingInv) : (dispatchLegal op x s).RingInv := by
  rcases dispatchLegal_cases op x s with ⟨-, hstall, heq⟩ | ⟨-, heq⟩ <;> rw [heq]
  · exact dispatched_ring hstall h
  · exact h

theorem dispatchIllegal_ring {s : State} (h : s.RingInv) : (dispatchIllegal s).RingInv := by
  rcases dispatchIllegal_cases s with ⟨-, hcount, heq⟩ | ⟨-, heq⟩ <;> rw [heq]
  · exact (h.withEntry s.illegalEntry hcount).of_frame rfl rfl rfl rfl rfl (fun _ => rfl) h.iqBound
  · exact h

theorem fetchPhase_ring {s : State} (h : s.RingInv) : (fetchPhase s).RingInv := by
  rcases fetchPhase_cases s with ⟨-, heq⟩ | ⟨-, heq⟩ | ⟨w, -, -, -, -, heq⟩ <;> rw [heq]
  · exact h.of_frame rfl rfl rfl rfl rfl (fun _ => rfl) h.iqBound
  · exact h
  · exact h.of_frame rfl rfl rfl rfl rfl (fun _ => rfl) h.iqBound

/-- The ring is kept by every phase of its own, whatever else the state holds. -/
theorem ring_phases : PhasesKeep State.RingInv where
  host _ _ _ h := h.of_frame rfl rfl rfl rfl rfl (fun _ => rfl) h.iqBound
  begin _ h := h.of_frame rfl rfl rfl rfl rfl (fun _ => rfl) h.iqBound
  commit _ := commitPhase_ring
  branch _ := branchPhase_ring
  memory _ _ := memPhase_ring
  multiplier _ := mulPhase_ring
  integer _ := intPhase_ring
  issue _ := issuePhase_ring
  dispatch _ := dispatchLegal_ring
  illegal _ := dispatchIllegal_ring
  fetch _ := fetchPhase_ring

end Sys2Proof.Machine

/-! ## Data memory's form (20_memory.md R61, R63) -/

namespace Sys2Proof.Machine

theorem memPhase_memory {s : State} (hdef : s.accessDefined = true) (h : s.MemInv) : (memPhase s).MemInv := by
  rcases memPhase_cases s with heq | ⟨o, ho, ⟨hs, heq⟩ | ⟨hs, heq⟩⟩ <;> rw [heq]
  · exact h
  · obtain ⟨raised, stage, sval, heq, -⟩ := memStage1_eq (o := o) hs
    rw [heq]
    exact h
  · obtain ⟨u, heq, ⟨p, v, rfl, -⟩ | ⟨hx, rfl⟩⟩ := memStage2_cases o s <;> rw [heq]
    · exact h
    · exact Memory.write_wf h (addrInRange_toNat (accessDefined_iff.mp hdef o ho hs hx)).1 _

/-- No phase but the memory unit's touches data memory (20_memory.md R74). -/
theorem memory_phases : PhasesKeep State.MemInv where
  host _ _ _ h := h
  begin _ h := h
  commit _ h := by simpa [State.MemInv] using h
  branch _ _ h := by simpa [State.MemInv] using h
  memory _ := memPhase_memory
  multiplier _ h := by simpa [State.MemInv] using h
  integer _ h := by simpa [State.MemInv] using h
  issue _ h := by simpa [State.MemInv] using h
  dispatch _ _ _ h := by simpa [State.MemInv] using h
  illegal _ h := by simpa [State.MemInv] using h
  fetch _ h := by simpa [State.MemInv] using h

/-! ## Sizes and tags of the tables (10_state.md R21, R24, R36) -/

/-- The sizes and tags stay when the register file keeps its length, the RAT stays, and every busy slot was one. -/
theorem State.ShapeInv.of_frame {s t : State} (h : s.ShapeInv) (cfg : t.cfg = s.cfg)
    (prf : t.prf.length = s.prf.length) (rat : t.rat = s.rat) (length : t.ck.length = s.ck.length)
    (slots : ∀ c ∈ t.ck, c.busy = true → c ∈ s.ck) : t.ShapeInv where
  prfLength := by rw [prf, cfg, h.prfLength]
  ratLength := by rw [rat, cfg, h.ratLength]
  ratTags := by rw [rat, cfg]; exact h.ratTags
  ckLength := by rw [length, cfg, h.ckLength]
  snapRatLength c hc hb := by rw [cfg]; exact h.snapRatLength c (slots c hc hb) hb
  snapRatTags c hc hb := by rw [cfg]; exact h.snapRatTags c (slots c hc hb) hb
  snapPrfLength c hc hb := by rw [cfg]; exact h.snapPrfLength c (slots c hc hb) hb

/-- A slot after a release is one of before, or one of before made free (53_recovery_commit.md R269). -/
theorem mem_releaseOwned_ck {s : State} {b : Nat} {c : Ckpt} (hc : c ∈ (s.releaseOwned b).ck) :
    c ∈ s.ck ∨ ∃ d ∈ s.ck, c = { d with busy := false } := by
  rw [releaseOwned_ck] at hc
  split at hc
  · exact .inl hc
  · next k hk =>
    obtain ⟨⟨d, hd, -⟩, -⟩ := ownedSlot_eq_some.mp hk
    rw [List.modify_eq_set_getElem?, hd] at hc
    rcases List.mem_or_eq_of_mem_set hc with hc | rfl
    · exact .inl hc
    · exact .inr ⟨d, List.mem_of_getElem? hd, rfl⟩

theorem releaseOwned_ck_length (s : State) (b : Nat) : (s.releaseOwned b).ck.length = s.ck.length := by
  rw [releaseOwned_ck]
  split <;> simp

/-- A slot after a recovery is one of before, or one of before made free (53_recovery_commit.md R266). -/
theorem mem_releasedCk {s : State} {b : Nat} {c : Ckpt} (hc : c ∈ s.releasedCk b) :
    c ∈ s.ck ∨ ∃ d ∈ s.ck, c = { d with busy := false } := by
  obtain ⟨d, hd, rfl⟩ := List.mem_map.mp hc
  split
  · exact .inr ⟨d, hd, rfl⟩
  · exact .inl hd

/-- A slot that is still busy has not been touched. -/
theorem busy_slot_kept {l : List Ckpt} {c : Ckpt} (h : c ∈ l ∨ ∃ d ∈ l, c = { d with busy := false })
    (hb : c.busy = true) : c ∈ l := by
  rcases h with h | ⟨d, -, rfl⟩
  · exact h
  · cases hb

theorem State.ShapeInv.recoverFrom {s : State} (h : s.ShapeInv) (b : Nat) (target : Int) {c : Ckpt} (hc : c ∈ s.ck)
    (hb : c.busy = true) : (s.recoverFrom b target c).ShapeInv where
  prfLength := by
    show (s.restoredPrf b c).length = s.cfg.numPhys
    unfold State.restoredPrf
    split
    · rw [releaseAll_length, h.prfLength]
    · exact h.snapPrfLength c hc hb
  ratLength := h.snapRatLength c hc hb
  ratTags := h.snapRatTags c hc hb
  ckLength := (List.length_map ..).trans h.ckLength
  snapRatLength d hd hdb := h.snapRatLength d (busy_slot_kept (mem_releasedCk hd) hdb) hdb
  snapRatTags d hd hdb := h.snapRatTags d (busy_slot_kept (mem_releasedCk hd) hdb) hdb
  snapPrfLength d hd hdb := h.snapPrfLength d (busy_slot_kept (mem_releasedCk hd) hdb) hdb

/-- The tag that a rename takes names a physical register (51_rename_dispatch.md R205). -/
theorem newTag_lt {s : State} {x : Operands} {p : Nat} (h : s.newTag x = some p) : p < s.prf.length := by
  unfold State.newTag at h
  split at h
  · cases h
  · exact (freeReg_eq_some.mp h).1

theorem renamedRat_length (s : State) (x : Operands) : (s.renamedRat x).length = s.rat.length := by
  unfold State.renamedRat
  split <;> simp

/-- Every tag of the renamed RAT stood there before or is the new one (51_rename_dispatch.md R206). -/
theorem mem_renamedRat {s : State} {x : Operands} {p : Nat} (h : p ∈ s.renamedRat x) :
    p ∈ s.rat ∨ s.newTag x = some p := by
  unfold State.renamedRat at h
  split at h
  · next q _ hq =>
    rcases List.mem_or_eq_of_mem_set h with h | rfl
    · exact .inl h
    · exact .inr hq
  · exact .inl h

/-- A slot after dispatch stood there before or is the new instruction's (51_rename_dispatch.md R208). -/
theorem mem_checkpointed {s : State} {op : Op} {x : Operands} {c : Ckpt} (h : c ∈ s.checkpointed op x) :
    c ∈ s.ck ∨ c = { busy := true, owner := s.tail, ratSnap := s.renamedRat x, prfSnap := s.renamedPrf x } := by
  unfold State.checkpointed at h
  split at h
  · exact List.mem_or_eq_of_mem_set h
  · exact .inl h

theorem checkpointed_length (s : State) (op : Op) (x : Operands) : (s.checkpointed op x).length = s.ck.length := by
  unfold State.checkpointed
  split <;> simp

theorem State.ShapeInv.dispatched {s : State} (h : s.ShapeInv) (op : Op) (x : Operands) :
    (s.dispatched op x).ShapeInv := by
  have hprf : (s.renamedPrf x).length = s.cfg.numPhys := (updatePrf_length ..).trans h.prfLength
  have hlen : (s.renamedRat x).length = s.cfg.numArch := (renamedRat_length s x).trans h.ratLength
  have htags : ∀ p ∈ s.renamedRat x, p < s.cfg.numPhys := fun p hp =>
    (mem_renamedRat hp).elim (h.ratTags p) fun hnew => h.prfLength ▸ newTag_lt hnew
  exact {
    prfLength := hprf
    ratLength := hlen
    ratTags := htags
    ckLength := (checkpointed_length s op x).trans h.ckLength
    snapRatLength := fun c hc hb => by
      rcases mem_checkpointed hc with hc | rfl
      · exact h.snapRatLength c hc hb
      · exact hlen
    snapRatTags := fun c hc hb => by
      rcases mem_checkpointed hc with hc | rfl
      · exact h.snapRatTags c hc hb
      · exact htags
    snapPrfLength := fun c hc hb => by
      rcases mem_checkpointed hc with hc | rfl
      · exact h.snapPrfLength c hc hb
      · exact hprf }

theorem branchPhase_shape {s : State} (hdef : s.branchDefined = true) (h : s.ShapeInv) : (branchPhase s).ShapeInv := by
  rcases branchPhase_cases hdef with heq | ⟨o, -, -, heq⟩ | ⟨o, -, -, -, -, heq | ⟨c, hc, hb, -, heq⟩⟩ <;> rw [heq]
  · exact h
  · obtain ⟨p, v, u, heq, -⟩ := brStage1_eq o s
    rw [heq]
    exact h.of_frame rfl (updatePrf_length ..) rfl rfl fun _ hc _ => hc
  · have hdone : (s.brDone o).ShapeInv := h.of_frame rfl rfl rfl rfl fun _ hc _ => hc
    exact hdone.of_frame (by simp) (by simp) (by simp) (releaseOwned_ck_length ..)
      fun _ hc hb => busy_slot_kept (mem_releaseOwned_ck hc) hb
  · have hdone : (s.brDone o).ShapeInv := h.of_frame rfl rfl rfl rfl fun _ hc _ => hc
    exact hdone.recoverFrom _ _ hc hb

theorem memPhase_shape {s : State} (h : s.ShapeInv) : (memPhase s).ShapeInv := by
  rcases memPhase_cases s with heq | ⟨o, -, ⟨hs, heq⟩ | ⟨-, heq⟩⟩ <;> rw [heq]
  · exact h
  · obtain ⟨raised, stage, sval, heq, -⟩ := memStage1_eq (o := o) hs
    rw [heq]
    exact h.of_frame rfl rfl rfl rfl fun _ hc _ => hc
  · obtain ⟨u, heq, ⟨p, v, rfl, -⟩ | ⟨-, rfl⟩⟩ := memStage2_cases o s <;> rw [heq]
    · exact h.of_frame rfl (updatePrf_length ..) rfl rfl fun _ hc _ => hc
    · exact h.of_frame rfl rfl rfl rfl fun _ hc _ => hc

theorem mulPhase_shape {s : State} (h : s.ShapeInv) : (mulPhase s).ShapeInv := by
  rcases mulPhase_cases s with heq | ⟨o, -, -, heq⟩ | ⟨o, -, heq⟩ <;> rw [heq]
  · exact h
  · exact h.of_frame rfl rfl rfl rfl fun _ hc _ => hc
  · exact h.of_frame rfl (updatePrf_length ..) rfl rfl fun _ hc _ => hc

theorem intPhase_shape {s : State} (h : s.ShapeInv) : (intPhase s).ShapeInv := by
  rcases intPhase_cases s with heq | ⟨o, -, heq⟩ <;> rw [heq]
  · exact h
  · obtain ⟨p, v, z, hex, -⟩ := executeInt_eq o s
    rw [hex]
    exact h.of_frame rfl (updatePrf_length ..) rfl rfl fun _ hc _ => hc

theorem commitPhase_shape {s : State} (h : s.ShapeInv) : (commitPhase s).ShapeInv := by
  rcases commitPhase_cases s with ⟨heq, -⟩ | ⟨e, -, -, ⟨-, heq⟩ | ⟨-, heq⟩⟩ <;> rw [heq]
  · exact h
  · exact h.of_frame rfl (updatePrf_length ..) rfl rfl fun _ hc _ => hc
  · exact h.of_frame rfl rfl rfl rfl fun _ hc _ => hc

theorem dispatchLegal_shape {s : State} (op : Op) (x : Operands) (h : s.ShapeInv) :
    (dispatchLegal op x s).ShapeInv := by
  rcases dispatchLegal_cases op x s with ⟨-, -, heq⟩ | ⟨-, heq⟩ <;> rw [heq]
  · exact h.dispatched op x
  · exact h

/-- The sizes and tags are kept by every phase of their own. -/
theorem shape_phases : PhasesKeep State.ShapeInv where
  host _ _ _ h := h.of_frame rfl rfl rfl rfl fun _ hc _ => hc
  begin _ h := h.of_frame rfl rfl rfl rfl fun _ hc _ => hc
  commit _ := commitPhase_shape
  branch _ := branchPhase_shape
  memory _ _ := memPhase_shape
  multiplier _ := mulPhase_shape
  integer _ := intPhase_shape
  issue _ h := h.of_frame (by simp) (by simp) (by simp) (by simp) fun _ hc _ => by simpa using hc
  dispatch _ := dispatchLegal_shape
  illegal _ h := h.of_frame (by simp) (by simp) (by simp) (by simp) fun _ hc _ => by simpa using hc
  fetch _ h := h.of_frame (by simp) (by simp) (by simp) (by simp) fun _ hc _ => by simpa using hc

/-! ## Values of XLEN bits (00_scope.md R8, R10; assumption log 17) -/

theorem mem_occupants {s : State} {o : Occupant} :
    o ∈ s.occupants ↔ s.uInt.occ = some o ∨ s.uMul.occ = some o ∨ s.uMem.occ = some o ∨ s.uBr.occ = some o := by
  simp [State.occupants]

/-- Changing one record keeps the range when the change does. -/
theorem updatePrf_fits {c : Config} {prf : List PhysReg} (h : ∀ r ∈ prf, c.fits r.value) (p : Option Nat)
    {f : PhysReg → PhysReg} (hf : ∀ r, c.fits r.value → c.fits (f r).value) :
    ∀ r ∈ updatePrf prf p f, c.fits r.value := by
  intro r hr
  cases p with
  | none => exact h r hr
  | some p =>
    obtain ⟨i, hi, rfl⟩ := List.mem_iff_getElem.mp hr
    simp only [updatePrf, List.length_modify] at hi
    have hold := h _ (List.getElem_mem hi)
    simp only [updatePrf, List.getElem_modify]
    split
    · exact hf _ hold
    · exact hold

theorem releaseAll_fits {c : Config} {prf : List PhysReg} (h : ∀ r ∈ prf, c.fits r.value) (d : List RobEntry) :
    ∀ r ∈ releaseAll prf d, c.fits r.value := by
  induction d generalizing prf with
  | nil => exact h
  | cons e d ih => exact ih (updatePrf_fits h e.pdst fun _ hr => hr)

/-- A broadcast keeps the range of an operand's value. -/
theorem Operand.wake_fits {c : Config} {o : Operand} {v : Int} (ho : c.fits o.value) (hv : c.fits v) (p : Option Nat) :
    c.fits (o.wake p v).value := by
  unfold Operand.wake
  split
  · exact hv
  · exact ho

theorem State.ValueInv.preg {s : State} (h : s.ValueInv) (p : Nat) : s.cfg.fits (s.preg p).value := by
  by_cases hp : p < s.prf.length
  · exact h.regs _ (List.mem_of_getElem? (preg_of_lt hp))
  · have : s.preg p = PhysReg.absent := by simp [State.preg, hp]
    rw [this]
    exact s.cfg.zero_fits

theorem State.ValueInv.resolve {s : State} (h : s.ValueInv) (src : Option Reg) : s.cfg.fits (s.resolve src).value := by
  unfold State.resolve
  split
  · exact s.cfg.zero_fits
  · split
    · exact h.preg _
    · exact s.cfg.zero_fits

theorem State.ValueInv.storeData_fits {s : State} (h : s.ValueInv) (o : Occupant) : s.cfg.fits (s.storeData o) := by
  unfold State.storeData
  split
  · exact s.cfg.zero_fits
  · exact h.preg _

theorem State.ValueInv.writeBack {s : State} (h : s.ValueInv) (p : Option Nat) {v : Int} (hv : s.cfg.fits v) :
    (s.writeBack p v).ValueInv :=
  { h with
    regs := updatePrf_fits h.regs p fun _ _ => hv
    iq := fun e he => by
      obtain ⟨d, hd, rfl⟩ := List.mem_map.mp he
      obtain ⟨hpc, himm, ha, hb⟩ := h.iq d hd
      exact ⟨hpc, himm, Operand.wake_fits ha hv p, Operand.wake_fits hb hv p⟩ }

/-- Changing an entry keeps the range when the change does. -/
theorem State.ValueInv.modifyRob {s : State} (h : s.ValueInv) (r : Nat) {f : RobEntry → RobEntry}
    (hpc : ∀ e, (f e).pc = e.pc) (haddr : ∀ e a, (f e).addr = some a → e.addr = some a ∨ s.cfg.fits a) :
    (s.modifyRob r f).ValueInv :=
  { h with
    robPc := fun x e he => by
      rw [modifyRob_robAt] at he
      split at he
      · obtain ⟨d, hd, rfl⟩ := Option.map_eq_some_iff.mp he
        rw [hpc]
        exact h.robPc r d hd
      · exact h.robPc x e he
    robAddr := fun x e a he ha => by
      rw [modifyRob_robAt] at he
      split at he
      · obtain ⟨d, hd, rfl⟩ := Option.map_eq_some_iff.mp he
        exact (haddr d a ha).elim (h.robAddr r d a hd) id
      · exact h.robAddr x e a he ha }

theorem State.ValueInv.complete {s : State} (h : s.ValueInv) (r : Nat) : (s.complete r).ValueInv :=
  h.modifyRob r (fun _ => rfl) fun _ _ ha => .inl ha

theorem State.ValueInv.memWrite {s : State} (h : s.ValueInv) (a : Int) {v : Int} (hv : s.cfg.fits v) :
    (s.memWrite a v).ValueInv :=
  { h with
    cells := fun c hc => by
      rcases Memory.mem_write hc with rfl | hc
      · exact hv
      · exact h.cells c hc }

theorem restoredPrf_fits {s : State} (h : s.ValueInv) (b : Nat) {c : Ckpt} (hc : c ∈ s.ck) :
    ∀ r ∈ s.restoredPrf b c, s.cfg.fits r.value := by
  unfold State.restoredPrf
  split
  · exact releaseAll_fits h.regs _
  · exact h.snapRegs c hc

/-- A released slot keeps its snapshot. -/
theorem released_snapRegs {s : State} (h : s.ValueInv) {c : Ckpt}
    (hc : c ∈ s.ck ∨ ∃ d ∈ s.ck, c = { d with busy := false }) : ∀ r ∈ c.prfSnap, s.cfg.fits r.value := by
  rcases hc with hc | ⟨d, hd, rfl⟩
  · exact h.snapRegs c hc
  · exact h.snapRegs d hd

theorem State.ValueInv.recoverFrom {s : State} (h : s.ValueInv) (b : Nat) {target : Int} (ht : s.cfg.fits target)
    {c : Ckpt} (hc : c ∈ s.ck) : (s.recoverFrom b target c).ValueInv :=
  { h with
    regs := restoredPrf_fits h b hc
    snapRegs := fun d hd => released_snapRegs h (mem_releasedCk hd)
    pc := ht
    robPc := fun r e he => by
      rw [recoverFrom_robAt] at he
      split at he
      · cases he
      · exact h.robPc r e he
    robAddr := fun r e a he ha => by
      rw [recoverFrom_robAt] at he
      split at he
      · cases he
      · exact h.robAddr r e a he ha
    iq := fun e he => h.iq e (List.mem_of_mem_filter he)
    units := fun o ho => by
      simp only [mem_occupants, State.recoverFrom, State.flushedOcc, Option.filter_eq_some_iff] at ho
      refine h.units o (mem_occupants.mpr ?_)
      tauto }

theorem State.ValueInv.retire {s : State} (h : s.ValueInv) (hr : s.RingInv) (e : RobEntry) : (s.retire e).ValueInv :=
  { h with
    regs := updatePrf_fits h.regs _ fun _ hv => hv
    robPc := fun r d hd => by
      rw [retire_robAt hr] at hd
      split at hd
      · cases hd
      · exact h.robPc r d hd
    robAddr := fun r d a hd ha => by
      rw [retire_robAt hr] at hd
      split at hd
      · cases hd
      · exact h.robAddr r d a hd ha }

theorem State.ValueInv.takeFault {s : State} (h : s.ValueInv) {e : RobEntry} (he : s.robAt s.head = some e) :
    (s.takeFault e).ValueInv :=
  { h with faultPc := fun f hf => by cases hf; exact h.robPc _ e he }

theorem State.ValueInv.latch {s : State} (h : s.ValueInv) (hx : 1 ≤ s.cfg.xlen) (w : Bundle) : (s.latch w).ValueInv :=
  { h with
    pc := Config.wrap_fits hx _
    latchPc := h.pc }

/-- A new entry with the latch's pc and no address. -/
theorem State.ValueInv.withEntry {s : State} (h : s.ValueInv) (hr : s.RingInv) {e : RobEntry} (hpc : e.pc = s.fl.pc)
    (haddr : e.addr = none) : (s.withEntry e).ValueInv :=
  { h with
    robPc := fun r d hd => by
      rw [withEntry_robAt hr] at hd
      split at hd
      · cases hd
        rw [hpc]
        exact h.latchPc
      · exact h.robPc r d hd
    robAddr := fun r d a hd ha => by
      rw [withEntry_robAt hr] at hd
      split at hd
      · cases hd
        rw [haddr] at ha
        cases ha
      · exact h.robAddr r d a hd ha }

theorem State.ValueInv.dispatched {s : State} (h : s.ValueInv) (hr : s.RingInv) (hx : 32 ≤ s.cfg.xlen) (op : Op)
    (x : Operands) : (s.dispatched op x).ValueInv :=
  have hprf : ∀ r ∈ s.renamedPrf x, s.cfg.fits r.value := updatePrf_fits h.regs _ fun _ hv => hv
  { h.withEntry hr (e := s.newRobEntry op x) rfl rfl with
    regs := hprf
    snapRegs := fun c hc => by
      rcases mem_checkpointed hc with hc | rfl
      · exact h.snapRegs c hc
      · exact hprf
    iq := fun e he => by
      rcases List.mem_append.mp he with he | he
      · exact h.iq e he
      · rw [List.mem_singleton.mp he]
        exact ⟨h.latchPc, Config.immValue_fits hx _, h.resolve _, h.resolve _⟩ }

theorem issue_values {s : State} {e : IqEntry} {before after : List IqEntry} (hiq : s.iq = before ++ e :: after)
    (h : s.ValueInv) : State.ValueInv { s.issueTo e with iq := before ++ after } := by
  have he : e.occupant.fits s.cfg := h.iq e (by simp [hiq])
  have hrest : ∀ d ∈ before ++ after, d.fits s.cfg := fun d hd => h.iq d (by simp at hd; simp [hiq]; tauto)
  have hunits : ∀ o, o ∈ (s.issueTo e).occupants → o.fits s.cfg := by
    intro o ho
    have hor : o = e.occupant ∨ o ∈ s.occupants := by
      rw [mem_occupants] at ho
      rw [mem_occupants]
      cases hu : e.op.unit <;> simp only [State.issueTo, hu, Option.some.injEq] at ho <;> tauto
    rcases hor with rfl | ho
    · exact he
    · exact h.units o ho
  cases hu : e.op.unit <;> simp only [State.issueTo, hu] at hunits ⊢ <;>
    exact { h with iq := hrest, units := hunits }

/-! ### The range of values, phase by phase -/

theorem commitPhase_values {s : State} (hr : s.RingInv) (h : s.ValueInv) : (commitPhase s).ValueInv := by
  rcases commitPhase_cases s with ⟨heq, -⟩ | ⟨e, he, -, ⟨-, heq⟩ | ⟨-, heq⟩⟩ <;> rw [heq]
  · exact h
  · exact h.retire hr e
  · exact h.takeFault (headEntry_eq_some.mp he).2

theorem State.ValueInv.brDone {s : State} (h : s.ValueInv) (o : Occupant) : (s.brDone o).ValueInv :=
  { h.complete o.rob with
    units := fun d hd => h.units d (by
      rw [mem_occupants] at hd ⊢
      simp only [State.brDone] at hd
      tauto) }

theorem State.ValueInv.releaseOwned {s : State} (h : s.ValueInv) (b : Nat) : (s.releaseOwned b).ValueInv := by
  have hsnap : ∀ c ∈ (s.releaseOwned b).ck, ∀ r ∈ c.prfSnap, s.cfg.fits r.value := fun c hc =>
    released_snapRegs h (mem_releaseOwned_ck hc)
  revert hsnap
  unfold State.releaseOwned
  split
  · exact fun _ => h
  · exact fun hsnap => { h with snapRegs := hsnap }

theorem branchPhase_values {s : State} (hx : 1 ≤ s.cfg.xlen) (hdef : s.branchDefined = true) (h : s.ValueInv) :
    (branchPhase s).ValueInv := by
  rcases branchPhase_cases hdef with heq | ⟨o, -, -, heq⟩ | ⟨o, -, -, -, -, heq | ⟨c, hc, -, -, heq⟩⟩ <;> rw [heq]
  · exact h
  · obtain ⟨p, v, u, heq, hocc, hfits⟩ := brStage1_eq o s
    obtain ⟨hv, ht⟩ := hfits hx h.target
    rw [heq]
    exact { h.writeBack p hv with
      target := ht
      units := fun d hd => h.units d (by
        rw [mem_occupants] at hd ⊢
        rw [← hocc]
        exact hd) }
  · exact (h.brDone o).releaseOwned o.rob
  · exact (h.brDone o).recoverFrom o.rob h.target hc

theorem memPhase_values {s : State} (hx : 1 ≤ s.cfg.xlen) (h : s.ValueInv) : (memPhase s).ValueInv := by
  rcases memPhase_cases s with heq | ⟨o, -, ⟨hs, heq⟩ | ⟨-, heq⟩⟩ <;> rw [heq]
  · exact h
  · obtain ⟨raised, stage, sval, heq, hsval, -⟩ := memStage1_eq (o := o) hs
    have haddr : s.cfg.fits (s.effAddr o) := Config.wrap_fits hx _
    rw [heq]
    exact { h.modifyRob o.rob (f := RobEntry.addressed (s.effAddr o) raised) (fun _ => rfl)
        fun _ a ha => .inr (by cases ha; exact haddr) with
      memAddr := haddr
      storeData := by
        rcases hsval with rfl | rfl
        · exact h.storeData
        · exact h.storeData_fits o }
  · have freed : ∀ u : State, u.ValueInv → u.uMem.addr = s.uMem.addr → u.uMem.sval = s.uMem.sval →
        State.ValueInv { u with uMem := { s.uMem with occ := none } } := fun u hu haddr hsval =>
      { hu with
        units := fun d hd => hu.units d (by rw [mem_occupants] at hd ⊢; tauto)
        memAddr := haddr ▸ hu.memAddr
        storeData := hsval ▸ hu.storeData }
    obtain ⟨u, heq, ⟨p, v, rfl, hv⟩ | ⟨-, rfl⟩⟩ := memStage2_cases o s <;> rw [heq]
    · exact (freed _ (h.writeBack p (hv h.cells)) rfl rfl).complete o.rob
    · exact (freed _ (h.memWrite _ h.storeData) rfl rfl).complete o.rob

theorem mulPhase_values {s : State} (hx : 1 ≤ s.cfg.xlen) (h : s.ValueInv) : (mulPhase s).ValueInv := by
  rcases mulPhase_cases s with heq | ⟨o, -, -, heq⟩ | ⟨o, -, heq⟩ <;> rw [heq]
  · exact h
  · exact { h with }
  · have hw : (executeMul o s).ValueInv := h.writeBack o.pdst (Config.wrap_fits hx _)
    have freed : State.ValueInv { executeMul o s with uMul := { occ := none, remaining := 0 } } := { hw with
      units := fun d hd => hw.units d (by rw [mem_occupants] at hd ⊢; tauto) }
    exact freed.complete o.rob

theorem intPhase_values {s : State} (hx : 1 ≤ s.cfg.xlen) (h : s.ValueInv) : (intPhase s).ValueInv := by
  rcases intPhase_cases s with heq | ⟨o, ho, heq⟩ <;> rw [heq]
  · exact h
  · obtain ⟨p, v, z, hex, hv⟩ := executeInt_eq o s
    have hw := h.writeBack p (hv hx (h.units o (mem_occupants.mpr (.inl ho))))
    have freed : State.ValueInv { executeInt o s with uInt := { occ := none } } := by
      rw [hex]
      exact { hw with units := fun d hd => hw.units d (by rw [mem_occupants] at hd ⊢; tauto) }
    exact freed.complete o.rob

theorem issuePhase_values {s : State} (h : s.ValueInv) : (issuePhase s).ValueInv :=
  issuePhase_keeps (fun _ _ _ _ hiq _ _ hu => issue_values hiq hu) h

theorem dispatchLegal_values {s : State} (hx : 32 ≤ s.cfg.xlen) (hr : s.RingInv) (op : Op) (x : Operands)
    (h : s.ValueInv) : (dispatchLegal op x s).ValueInv := by
  rcases dispatchLegal_cases op x s with ⟨-, -, heq⟩ | ⟨-, heq⟩ <;> rw [heq]
  · exact h.dispatched hr hx op x
  · exact h

theorem dispatchIllegal_values {s : State} (hr : s.RingInv) (h : s.ValueInv) : (dispatchIllegal s).ValueInv := by
  rcases dispatchIllegal_cases s with ⟨-, -, heq⟩ | ⟨-, heq⟩ <;> rw [heq]
  · exact { h.withEntry hr (e := s.illegalEntry) rfl rfl with }
  · exact h

theorem fetchPhase_values {s : State} (hx : 1 ≤ s.cfg.xlen) (h : s.ValueInv) : (fetchPhase s).ValueInv := by
  rcases fetchPhase_cases s with ⟨-, heq⟩ | ⟨-, heq⟩ | ⟨w, -, -, -, -, heq⟩ <;> rw [heq]
  · exact { h with }
  · exact h
  · exact h.latch hx w

end Sys2Proof.Machine

/-! ## The links of queue, units, reorder buffer and checkpoints (10_state.md R35, R37, R39)

Every phase but dispatch only narrows what is in flight: instructions leave the queue and the units, slots are
released, and the entries of what remains stay open. `State.Narrows` says so once, and `PipeInv.of_narrows` derives the
links from it. -/

namespace Sys2Proof.Machine

/-- The owners of the busy checkpoint slots (10_state.md R37). -/
def State.owners (s : State) : List Nat := (s.ck.filter (·.busy)).map (·.owner)

theorem mem_owners {s : State} {r : Nat} : r ∈ s.owners ↔ ∃ c ∈ s.ck, c.busy = true ∧ c.owner = r := by
  simp [State.owners, and_assoc]

/-- The ROB index of a pending instruction, or of a busy slot's owner. -/
def State.tracked (s : State) (r : Nat) : Prop := r ∈ s.pending.map Prod.snd ∨ r ∈ s.owners

/-- The part of `PipeInv` that speaks of the four units. -/
structure State.UnitInv (s : State) : Prop where
  mulCounting : ∀ o, s.uMul.occ = some o → 1 ≤ s.uMul.remaining ∧ s.uMul.remaining ≤ s.cfg.mulLat
  intClass : ∀ o, s.uInt.occ = some o → o.op.unit = .int
  mulClass : ∀ o, s.uMul.occ = some o → o.op.unit = .mul
  memClass : ∀ o, s.uMem.occ = some o → o.op.unit = .mem
  brClass : ∀ o, s.uBr.occ = some o → o.op.unit = .br
  memAtHead : ∀ o, s.uMem.occ = some o → o.rob = s.head
  accessDefined : s.accessDefined = true

theorem State.PipeInv.unitInv {s : State} (h : s.PipeInv) : s.UnitInv :=
  ⟨h.mulCounting, h.intClass, h.mulClass, h.memClass, h.brClass, h.memAtHead, h.accessDefined⟩

theorem State.PipeInv.owns {s : State} (h : s.PipeInv) {x : Op × Nat} (hx : x ∈ s.pending) (hu : x.1.unit = .br) :
    x.2 ∈ s.owners :=
  mem_owners.mpr (h.branchOwns x hx hu)

theorem State.PipeInv.ownedOpen {s : State} (h : s.PipeInv) {r : Nat} (hr : r ∈ s.owners) :
    ∃ op : Op, op.unit = .br ∧ s.openEntry op r := by
  obtain ⟨c, hc, hb, rfl⟩ := mem_owners.mp hr
  exact h.ownerOpen c hc hb

/-- `PipeInv`, with the checkpoint store seen through its owners. -/
theorem State.PipeInv.of_owners {s : State} (units : s.UnitInv) (pendingOpen : ∀ x ∈ s.pending, s.openEntry x.1 x.2)
    (pendingDistinct : (s.pending.map Prod.snd).Nodup)
    (iqOrdered : s.iq.Pairwise fun d e => s.age d.rob < s.age e.rob)
    (owns : ∀ x ∈ s.pending, x.1.unit = .br → x.2 ∈ s.owners)
    (ownedOpen : ∀ r ∈ s.owners, ∃ op : Op, op.unit = .br ∧ s.openEntry op r) (ownersDistinct : s.owners.Nodup) :
    s.PipeInv :=
  { units with
    pendingOpen := pendingOpen
    pendingDistinct := pendingDistinct
    iqOrdered := iqOrdered
    branchOwns := fun x hx hu => mem_owners.mp (owns x hx hu)
    ownerOpen := fun c hc hb => ownedOpen c.owner (mem_owners.mpr ⟨c, hc, hb, rfl⟩)
    ownersDistinct := ownersDistinct }

/-- Everything tracked is an open entry. -/
theorem State.PipeInv.tracked_open {s : State} (h : s.PipeInv) {r : Nat} (hr : s.tracked r) :
    ∃ op, s.openEntry op r := by
  rcases hr with hr | hr
  · obtain ⟨x, hx, rfl⟩ := List.mem_map.mp hr
    exact ⟨x.1, h.pendingOpen x hx⟩
  · obtain ⟨op, -, hop⟩ := h.ownedOpen hr
    exact ⟨op, hop⟩

theorem pending_of_iq {s : State} {e : IqEntry} (h : e ∈ s.iq) : (e.op, e.rob) ∈ s.pending :=
  List.mem_append_left _ (List.mem_map_of_mem h)

theorem pending_of_occupant {s : State} {o : Occupant} (h : o ∈ s.occupants) : (o.op, o.rob) ∈ s.pending :=
  List.mem_append_right _ (List.mem_map_of_mem h)

/-- What is in flight in t was in flight in s, in the same order, with its entry still open. -/
structure State.Narrows (s t : State) : Prop where
  pending : t.pending.Subperm s.pending
  queue : (t.iq.map (·.rob)).Sublist (s.iq.map (·.rob))
  owners : t.owners.Sublist s.owners
  opened : ∀ op r, t.tracked r → s.openEntry op r → t.openEntry op r
  ages : ∀ r x, t.tracked r → t.tracked x → s.age r < s.age x → t.age r < t.age x
  owned : ∀ x ∈ t.pending, x.1.unit = .br → x.2 ∈ s.owners → x.2 ∈ t.owners

theorem State.PipeInv.of_narrows {s t : State} (h : s.PipeInv) (n : s.Narrows t) (units : t.UnitInv) : t.PipeInv := by
  refine .of_owners units (fun x hx => ?_) ?_ ?_ (fun x hx hu => ?_) (fun r hr => ?_)
    (h.ownersDistinct.sublist n.owners)
  · exact n.opened x.1 x.2 (.inl (List.mem_map_of_mem hx)) (h.pendingOpen x (n.pending.subset hx))
  · obtain ⟨l, hperm, hsub⟩ := n.pending
    exact (h.pendingDistinct.sublist (hsub.map _)).perm (hperm.map _)
  · have hs : (s.iq.map (·.rob)).Pairwise fun r x => s.age r < s.age x := List.pairwise_map.mpr h.iqOrdered
    have ht := List.pairwise_map.mp (hs.sublist n.queue)
    exact ht.imp_of_mem fun hd he hlt => n.ages _ _ (.inl (List.mem_map_of_mem (pending_of_iq hd)))
      (.inl (List.mem_map_of_mem (pending_of_iq he))) hlt
  · exact n.owned x hx hu (h.owns (n.pending.subset hx) hu)
  · obtain ⟨op, hop, hopen⟩ := h.ownedOpen (n.owners.subset hr)
    exact ⟨op, hop, n.opened op r (.inr hr) hopen⟩

/-! ### What keeps an entry open, and the units in order -/

/-- An entry stays open when the ring stays and the entry keeps its opcode and is not completed. -/
theorem openEntry_of_frame {s t : State} {op : Op} {r : Nat} (cfg : t.cfg = s.cfg) (head : t.head = s.head)
    (count : t.count = s.count)
    (rob : ∀ e, s.robAt r = some e → ∃ d, t.robAt r = some d ∧ d.op = e.op ∧ d.done = e.done)
    (h : s.openEntry op r) : t.openEntry op r := by
  obtain ⟨hr, hage, e, he, hop, hdone⟩ := h
  obtain ⟨d, hd, hdop, hddone⟩ := rob e he
  refine ⟨by rwa [cfg], ?_, d, hd, hdop.trans hop, hddone.trans hdone⟩
  rw [State.age, cfg, head, count]
  exact hage

theorem noExc_iff {s : State} {r : Nat} : s.noExc r = true ↔ ∃ e, s.robAt r = some e ∧ e.exc = .none := by
  unfold State.noExc
  cases s.robAt r <;> simp

/-- The units stay in order when occupants only leave and what remains is not changed. -/
theorem State.UnitInv.of_frame {s t : State} (h : s.UnitInv) (cfg : t.cfg = s.cfg)
    (int : ∀ o, t.uInt.occ = some o → s.uInt.occ = some o)
    (mul : ∀ o, t.uMul.occ = some o → s.uMul.occ = some o ∧ t.uMul.remaining = s.uMul.remaining)
    (mem : ∀ o, t.uMem.occ = some o → s.uMem.occ = some o ∧ t.head = s.head ∧ t.uMem.stage = s.uMem.stage
      ∧ t.uMem.addr = s.uMem.addr ∧ (t.noExc o.rob = true → s.noExc o.rob = true))
    (br : ∀ o, t.uBr.occ = some o → s.uBr.occ = some o) : t.UnitInv where
  mulCounting o ho := by
    obtain ⟨hs, hrem⟩ := mul o ho
    rw [hrem, cfg]
    exact h.mulCounting o hs
  intClass o ho := h.intClass o (int o ho)
  mulClass o ho := h.mulClass o (mul o ho).1
  memClass o ho := h.memClass o (mem o ho).1
  brClass o ho := h.brClass o (br o ho)
  memAtHead o ho := by
    obtain ⟨hs, hhead, -⟩ := mem o ho
    rw [hhead]
    exact h.memAtHead o hs
  accessDefined := accessDefined_iff.mpr fun o ho hstage hexc => by
    obtain ⟨hs, -, hst, haddr, hno⟩ := mem o ho
    rw [haddr, cfg]
    exact accessDefined_iff.mp h.accessDefined o hs (hst ▸ hstage) (hno hexc)

/-- The links stay when nothing in flight changes but values (and exceptions, of which `units` speaks). -/
theorem State.PipeInv.of_frame {s t : State} (h : s.PipeInv) (cfg : t.cfg = s.cfg) (head : t.head = s.head)
    (count : t.count = s.count) (ck : t.ck = s.ck) (pending : t.pending = s.pending)
    (queue : t.iq.map (·.rob) = s.iq.map (·.rob))
    (rob : ∀ r e, s.robAt r = some e → ∃ d, t.robAt r = some d ∧ d.op = e.op ∧ d.done = e.done)
    (units : t.UnitInv) : t.PipeInv := by
  have howners : t.owners = s.owners := by rw [State.owners, ck, State.owners]
  refine h.of_narrows ⟨?_, ?_, ?_, fun op r _ => openEntry_of_frame cfg head count (rob r), fun r x _ _ hlt => ?_,
    fun x _ _ hown => howners ▸ hown⟩ units
  · rw [pending]
  · rw [queue]
  · rw [howners]
  · rw [State.age, State.age, cfg, head]
    exact hlt

/-- When only fields outside the links change, the same units stay in order. -/
theorem State.PipeInv.of_eq {s t : State} (h : s.PipeInv) (cfg : t.cfg = s.cfg) (head : t.head = s.head)
    (count : t.count = s.count) (ck : t.ck = s.ck) (rob : t.rob = s.rob)
    (queue : t.iq.map (fun e => (e.op, e.rob)) = s.iq.map fun e => (e.op, e.rob)) (uInt : t.uInt = s.uInt)
    (uMul : t.uMul = s.uMul) (uMem : t.uMem = s.uMem) (uBr : t.uBr.occ = s.uBr.occ) : t.PipeInv := by
  have hpending : t.pending = s.pending := by simp only [State.pending, State.occupants, queue, uInt, uMul, uMem, uBr]
  have hqueue := congrArg (List.map Prod.snd) queue
  simp only [List.map_map, Function.comp_def] at hqueue
  refine h.of_frame cfg head count ck hpending hqueue (fun r e he => ⟨e, by rwa [State.robAt, rob], rfl, rfl⟩)
    (h.unitInv.of_frame cfg (by rw [uInt]; exact fun _ => id) (by rw [uMul]; exact fun _ ho => ⟨ho, rfl⟩) ?_
      (by rw [uBr]; exact fun _ => id))
  rw [uMem]
  exact fun o ho => ⟨ho, head, rfl, rfl, by rw [State.noExc, State.noExc, State.robAt, State.robAt, rob]; exact id⟩

theorem State.PipeInv.writeBack {s : State} (h : s.PipeInv) (p : Option Nat) (v : Int) : (s.writeBack p v).PipeInv :=
  h.of_eq rfl rfl rfl rfl rfl (by simp [Function.comp_def]) rfl rfl rfl rfl

/-! ### An instruction leaves its unit -/

/-- The instruction at r leaves its unit and completes, and its slot, if it has one, is released: the rest stays
linked (52_issue_units.md R240, R246). -/
theorem State.PipeInv.finish {s t : State} {op : Op} {r : Nat} (h : s.PipeInv) (cfg : t.cfg = s.cfg)
    (head : t.head = s.head) (count : t.count = s.count) (pending : s.pending.Perm ((op, r) :: t.pending))
    (queue : t.iq = s.iq) (rob : t.rob = (s.complete r).rob) (owners : t.owners = s.owners.erase r)
    (units : t.UnitInv) : t.PipeInv := by
  have hdistinct := (List.nodup_cons.mp (h.pendingDistinct.perm (pending.map Prod.snd))).1
  have hne : ∀ x, t.tracked x → x ≠ r := by
    rintro x (hx | hx) rfl
    · exact hdistinct hx
    · exact h.ownersDistinct.not_mem_erase (owners ▸ hx)
  refine h.of_narrows ⟨?_, ?_, ?_, fun op x hx => openEntry_of_frame cfg head count fun e he => ?_,
    fun x y _ _ hlt => ?_, fun x hx _ hown => ?_⟩ units
  · exact (List.sublist_cons_self _ _).subperm.trans pending.symm.subperm
  · rw [queue]
  · rw [owners]
    exact List.erase_sublist
  · refine ⟨e, ?_, rfl, rfl⟩
    have hrob : t.robAt x = (s.complete r).robAt x := by rw [State.robAt, rob, State.robAt]
    rw [hrob, complete_robAt, if_neg (hne x hx), he]
  · rw [State.age, State.age, cfg, head]
    exact hlt
  · rw [owners]
    exact (List.mem_erase_of_ne (hne _ (.inl (List.mem_map_of_mem hx)))).mpr hown

/-- Two opcodes with one number are one opcode. -/
theorem Op.code_injective {op op' : Op} (h : op.code = op'.code) : op = op' := by
  have := congrArg Op.ofCode? h
  simpa [Op.ofCode?_code] using this

/-- Only an instruction of the branch unit owns a slot. -/
theorem State.PipeInv.not_owner {s : State} (h : s.PipeInv) {op : Op} {r : Nat} (hx : (op, r) ∈ s.pending)
    (hu : op.unit ≠ .br) : r ∉ s.owners := by
  intro hr
  obtain ⟨op', hbr, -, -, e', he', hop', -⟩ := h.ownedOpen hr
  obtain ⟨-, -, e, he, hop, -⟩ := h.pendingOpen _ hx
  rw [he] at he'
  cases he'
  obtain rfl : op = op' := Op.code_injective (hop.symm.trans hop')
  exact hu hbr

theorem noExc_complete (s : State) (r x : Nat) : (s.complete r).noExc x = s.noExc x := by
  by_cases hx : x = r
  · subst hx
    cases he : s.robAt x <;> simp [State.noExc, complete_robAt, he]
  · simp [State.noExc, complete_robAt, hx]

/-- The pending instructions, one of them taken out of the middle of the units. -/
theorem pending_perm {l pre post : List Occupant} (queue : List (Op × Nat)) (o : Occupant) (h : l = pre ++ o :: post) :
    (queue ++ l.map fun o => (o.op, o.rob)).Perm
      ((o.op, o.rob) :: (queue ++ (pre ++ post).map fun o => (o.op, o.rob))) := by
  subst h
  simpa [List.append_assoc] using
    List.perm_middle (l₁ := queue ++ pre.map fun o => (o.op, o.rob)) (l₂ := post.map fun o => (o.op, o.rob))

theorem State.PipeInv.finishInt {s : State} (h : s.PipeInv) {o : Occupant} (ho : s.uInt.occ = some o) :
    (State.complete { s with uInt := { occ := none } } o.rob).PipeInv := by
  have hnot : o.rob ∉ s.owners :=
    h.not_owner (pending_of_occupant (mem_occupants.mpr (.inl ho))) (by rw [h.intClass o ho]; decide)
  refine h.finish rfl rfl rfl (op := o.op) ?_ rfl rfl (List.erase_of_not_mem hnot).symm
    (h.unitInv.of_frame rfl (fun _ => nofun) (fun _ hd => ⟨hd, rfl⟩)
      (fun d hd => ⟨hd, rfl, rfl, rfl, fun hx => by rwa [noExc_complete] at hx⟩) fun _ => id)
  exact pending_perm _ o (pre := []) (by simp [State.occupants, ho])

theorem State.PipeInv.finishMul {s : State} (h : s.PipeInv) {o : Occupant} (ho : s.uMul.occ = some o) :
    (State.complete { s with uMul := { occ := none, remaining := 0 } } o.rob).PipeInv := by
  have hnot : o.rob ∉ s.owners :=
    h.not_owner (pending_of_occupant (mem_occupants.mpr (.inr (.inl ho)))) (by rw [h.mulClass o ho]; decide)
  refine h.finish rfl rfl rfl (op := o.op) ?_ rfl rfl (List.erase_of_not_mem hnot).symm
    (h.unitInv.of_frame rfl (fun _ => id) (fun _ => nofun)
      (fun d hd => ⟨hd, rfl, rfl, rfl, fun hx => by rwa [noExc_complete] at hx⟩) fun _ => id)
  refine (pending_perm _ o (pre := s.uInt.occ.toList) (post := s.uMem.occ.toList ++ s.uBr.occ.toList)
    (by simp [State.occupants, ho])).trans (.of_eq ?_)
  simp [State.pending, State.occupants, State.complete, State.modifyRob]

theorem State.PipeInv.finishMem {s : State} (h : s.PipeInv) {o : Occupant} (ho : s.uMem.occ = some o) :
    (State.complete { s with uMem := { s.uMem with occ := none } } o.rob).PipeInv := by
  have hnot : o.rob ∉ s.owners :=
    h.not_owner (pending_of_occupant (mem_occupants.mpr (.inr (.inr (.inl ho))))) (by rw [h.memClass o ho]; decide)
  refine h.finish rfl rfl rfl (op := o.op) ?_ rfl rfl (List.erase_of_not_mem hnot).symm
    (h.unitInv.of_frame rfl (fun _ => id) (fun _ hd => ⟨hd, rfl⟩) (fun _ => nofun) fun _ => id)
  refine (pending_perm _ o (pre := s.uInt.occ.toList ++ s.uMul.occ.toList) (post := s.uBr.occ.toList)
    (by simp [State.occupants, ho])).trans (.of_eq ?_)
  simp [State.pending, State.occupants, State.complete, State.modifyRob]

/-! ### The branch unit -/

theorem brDone_pending {s : State} {o : Occupant} (ho : s.uBr.occ = some o) :
    s.pending.Perm ((o.op, o.rob) :: (s.brDone o).pending) := by
  refine (pending_perm _ o (pre := s.uInt.occ.toList ++ s.uMul.occ.toList ++ s.uMem.occ.toList) (post := [])
    (by simp [State.occupants, ho])).trans (.of_eq ?_)
  simp [State.pending, State.occupants, State.brDone]

/-- Releasing the slot of b takes b out of the owners (53_recovery_commit.md R269). -/
theorem releaseOwned_owners (s : State) (b : Nat) : (s.releaseOwned b).owners = s.owners.erase b := by
  cases hk : s.ownedSlot b with
  | none =>
    have hnot : b ∉ s.owners := fun hb => by
      have := ownedSlot_isSome.mpr (mem_owners.mp hb)
      rw [hk] at this
      cases this
    rw [List.erase_of_not_mem hnot, State.owners, releaseOwned_ck, hk, State.owners]
  | some k =>
    obtain ⟨⟨c, hc, hbusy, hown⟩, hmin⟩ := ownedSlot_eq_some.mp hk
    have hlt : k < s.ck.length := (List.getElem?_eq_some_iff.mp hc).1
    obtain ⟨pre, d, post, hck, hlen, hmod⟩ := List.exists_of_modify (fun c : Ckpt => { c with busy := false }) hlt
    obtain rfl : d = c := by
      rw [hck, ← hlen] at hc
      simpa using hc
    have hpre : b ∉ (pre.filter (·.busy)).map (·.owner) := by
      simp only [List.mem_map, List.mem_filter, not_exists, not_and]
      rintro a ⟨ha, hab⟩ hao
      obtain ⟨j, hj, rfl⟩ := List.mem_iff_getElem.mp ha
      exact hmin j (hlen ▸ hj) pre[j] (by rw [hck, List.getElem?_append_left hj]; simp) ⟨hab, hao⟩
    rw [State.owners, releaseOwned_ck, hk, State.owners]
    simp only [hmod]
    rw [hck]
    simp [List.erase_append_right _ hpre, hbusy, hown]

theorem fallThrough_pipe {s : State} (h : s.PipeInv) {o : Occupant} (ho : s.uBr.occ = some o) :
    ((s.brDone o).releaseOwned o.rob).PipeInv := by
  have hpending : ((s.brDone o).releaseOwned o.rob).pending = (s.brDone o).pending := by
    simp [State.pending, State.occupants]
  have hrob : ((s.brDone o).releaseOwned o.rob).rob = (s.complete o.rob).rob := by simp [State.brDone]
  refine h.finish (by simp) (by simp) (by simp) (op := o.op) (by rw [hpending]; exact brDone_pending ho) (by simp) hrob
    (releaseOwned_owners _ _) (h.unitInv.of_frame (by simp) (by simp) (by simp) (fun d hd => ?_) ?_)
  · have hexc : ((s.brDone o).releaseOwned o.rob).noExc d.rob = (s.complete o.rob).noExc d.rob := by
      rw [State.noExc, State.noExc, State.robAt, State.robAt, hrob]
    exact ⟨by simpa using hd, by simp, by simp, by simp, fun hx => by rwa [hexc, noExc_complete] at hx⟩
  · simp [State.brDone]

/-- Recovery keeps of what is pending exactly what is not younger (53_recovery_commit.md R261, R262). -/
theorem recoverFrom_pending {s : State} (b : Nat) (target : Int) (c : Ckpt) (hbr : s.uBr.occ = none) :
    (s.recoverFrom b target c).pending = s.pending.filter fun x => !s.youngerThan b x.2 := by
  simp [State.pending, State.occupants, State.recoverFrom, State.flushedIq, State.flushedOcc, hbr, List.filter_map,
    Function.comp_def, Option.toList_filter]

/-- Recovery keeps exactly the slots of older instructions (53_recovery_commit.md R266). -/
theorem recoverFrom_owners (s : State) (b : Nat) (target : Int) (c : Ckpt) :
    (s.recoverFrom b target c).owners = s.owners.filter fun r => decide (s.age r < s.age b) := by
  show ((s.releasedCk b).filter (·.busy)).map (·.owner) = _
  unfold State.releasedCk State.owners
  induction s.ck with
  | nil => rfl
  | cons d l ih =>
    simp only [Bool.and_eq_true, decide_eq_true_eq] at ih
    by_cases hb : d.busy = true <;> by_cases ha : s.age b ≤ s.age d.owner <;> simp [hb, ha, ih, Nat.lt_of_not_le]

theorem not_youngerThan_iff {s : State} {b r : Nat} : (!s.youngerThan b r) = true ↔ s.age r ≤ s.age b := by
  simp [State.youngerThan]

/-- What is pending after the recovery from o was pending before, is not o itself and is not younger. -/
theorem recovery_pending {s : State} (h : s.PipeInv) {o : Occupant} (ho : s.uBr.occ = some o) {target : Int} {c : Ckpt}
    {x : Op × Nat} (hx : x ∈ ((s.brDone o).recoverFrom o.rob target c).pending) :
    x ∈ s.pending ∧ x.2 ≠ o.rob ∧ s.age x.2 ≤ s.age o.rob := by
  have hperm := brDone_pending ho
  have hself := (List.nodup_cons.mp (h.pendingDistinct.perm (hperm.map Prod.snd))).1
  rw [recoverFrom_pending o.rob target c rfl] at hx
  obtain ⟨hx, hage⟩ := List.mem_filter.mp hx
  exact ⟨hperm.mem_iff.mpr (List.mem_cons_of_mem _ hx), fun heq => hself (List.mem_map.mpr ⟨x, hx, heq⟩),
    not_youngerThan_iff.mp hage⟩

/-- What is tracked after the recovery from o is not o itself and is not younger. -/
theorem recovery_tracked {s : State} (h : s.PipeInv) {o : Occupant} (ho : s.uBr.occ = some o) {target : Int} {c : Ckpt}
    {r : Nat} (hr : ((s.brDone o).recoverFrom o.rob target c).tracked r) : r ≠ o.rob ∧ s.age r ≤ s.age o.rob := by
  rcases hr with hr | hr
  · obtain ⟨x, hx, rfl⟩ := List.mem_map.mp hr
    exact (recovery_pending h ho hx).2
  · rw [recoverFrom_owners] at hr
    have hage : s.age r < s.age o.rob := of_decide_eq_true (List.mem_filter.mp hr).2
    exact ⟨fun heq => Nat.ne_of_lt hage (heq ▸ rfl), Nat.le_of_lt hage⟩

/-- The recovery from o completes o's entry and leaves the older ones alone. -/
theorem recovery_robAt {s : State} {o : Occupant} (target : Int) (c : Ckpt) {r : Nat} (hage : s.age r ≤ s.age o.rob) :
    ((s.brDone o).recoverFrom o.rob target c).robAt r = (s.complete o.rob).robAt r := by
  rw [recoverFrom_robAt, if_neg]
  · rfl
  · exact fun hyoung => Nat.not_lt.mpr hage hyoung.1

theorem recovery_units {s : State} (h : s.UnitInv) (o : Occupant) (target : Int) (c : Ckpt) :
    ((s.brDone o).recoverFrom o.rob target c).UnitInv := by
  refine h.of_frame rfl ?_ ?_ ?_ nofun
  · exact fun d hd => (Option.filter_eq_some_iff.mp hd).1
  · exact fun d hd => ⟨(Option.filter_eq_some_iff.mp hd).1, rfl⟩
  · intro d hd
    obtain ⟨hocc, hage⟩ := Option.filter_eq_some_iff.mp hd
    refine ⟨hocc, rfl, rfl, rfl, fun hx => ?_⟩
    rw [← noExc_complete s o.rob, State.noExc, ← recovery_robAt (s := s) target c (not_youngerThan_iff.mp hage)]
    exact hx

/-- Recovery keeps exactly the older instructions and their slots (53_recovery_commit.md R261 to R263, R266). -/
theorem recovery_pipe {s : State} (hr : s.RingInv) (h : s.PipeInv) {o : Occupant} (ho : s.uBr.occ = some o)
    (target : Int) (c : Ckpt) : ((s.brDone o).recoverFrom o.rob target c).PipeInv := by
  have hperm := brDone_pending ho
  have howners := recoverFrom_owners (s.brDone o) o.rob target c
  have hself : s.openEntry o.op o.rob := h.pendingOpen _ (hperm.mem_iff.mpr List.mem_cons_self)
  refine h.of_narrows ⟨?_, ?_, ?_, ?_, fun _ _ _ _ hlt => hlt, ?_⟩ (recovery_units h.unitInv o target c)
  · rw [recoverFrom_pending o.rob target c rfl]
    exact List.filter_sublist.subperm.trans ((List.sublist_cons_self _ _).subperm.trans hperm.symm.subperm)
  · exact List.filter_sublist.map _
  · rw [howners]
    exact List.filter_sublist
  · rintro op r ht ⟨hlt, -, e, he, hop, hdone⟩
    obtain ⟨hne, hage⟩ := recovery_tracked h ho ht
    refine ⟨hlt, Nat.lt_succ_of_le hage, e, ?_, hop, hdone⟩
    rw [recovery_robAt target c hage, complete_robAt, if_neg hne, he]
  · intro x hx hu hown
    obtain ⟨hxs, hne, hage⟩ := recovery_pending h ho hx
    obtain ⟨hxlt, -⟩ := h.pendingOpen x hxs
    have hlt : s.age x.2 < s.age o.rob := Nat.lt_of_le_of_ne hage fun heq =>
      hne (age_injective hr.headBound hxlt hself.1 heq)
    rw [howners]
    exact List.mem_filter.mpr ⟨hown, decide_eq_true hlt⟩

theorem branchPhase_pipe {s : State} (hdef : s.branchDefined = true) (hr : s.RingInv) (h : s.PipeInv) :
    (branchPhase s).PipeInv := by
  rcases branchPhase_cases hdef with heq | ⟨o, -, -, heq⟩ | ⟨o, ho, -, -, -, heq | ⟨c, -, -, -, heq⟩⟩ <;> rw [heq]
  · exact h
  · obtain ⟨p, v, u, heq, hocc, -⟩ := brStage1_eq o s
    rw [heq]
    exact (h.writeBack p v).of_eq rfl rfl rfl rfl rfl rfl rfl rfl rfl hocc
  · exact fallThrough_pipe h ho
  · exact recovery_pipe hr h ho _ c

/-! ### The other units -/

/-- Memory stage 1 leaves for stage 2 with an address in range or with the exception raised (42_memory_ops.md R141). -/
theorem memStage1_pipe {s : State} {o : Occupant} (h : s.PipeInv) (ho : s.uMem.occ = some o)
    (hs : s.uMem.stage = .one) : (memStage1 o s).PipeInv := by
  obtain ⟨raised, stage, sval, heq, -, haddr⟩ := memStage1_eq (o := o) hs
  rw [heq]
  refine h.of_frame rfl rfl rfl rfl rfl rfl (fun r e he => ?_) { h.unitInv with accessDefined := ?_ }
  · show ∃ d, (s.modifyRob o.rob (RobEntry.addressed (s.effAddr o) raised)).robAt r = some d ∧ _
    rw [modifyRob_robAt]
    split
    · next hx => exact ⟨RobEntry.addressed (s.effAddr o) raised e, by rw [← hx, he]; rfl, rfl, rfl⟩
    · exact ⟨e, he, rfl, rfl⟩
  · refine accessDefined_iff.mpr fun d hd hstage hexc => haddr hstage ?_
    obtain rfl : o = d := Option.some.inj (ho.symm.trans hd)
    obtain ⟨e, he, hnone⟩ := noExc_iff.mp hexc
    have he : (s.modifyRob o.rob (RobEntry.addressed (s.effAddr o) raised)).robAt o.rob = some e := he
    rw [modifyRob_robAt, if_pos rfl] at he
    obtain ⟨f, -, rfl⟩ := Option.map_eq_some_iff.mp he
    cases raised with
    | false => rfl
    | true => cases hnone

theorem memPhase_pipe {s : State} (h : s.PipeInv) : (memPhase s).PipeInv := by
  rcases memPhase_cases s with heq | ⟨o, ho, ⟨hs, heq⟩ | ⟨-, heq⟩⟩ <;> rw [heq]
  · exact h
  · exact memStage1_pipe h ho hs
  · obtain ⟨u, heq, ⟨p, v, rfl, -⟩ | ⟨-, rfl⟩⟩ := memStage2_cases o s <;> rw [heq]
    · exact (h.writeBack p v).finishMem ho
    · have hw : (s.memWrite s.uMem.addr s.uMem.sval).PipeInv := h.of_eq rfl rfl rfl rfl rfl rfl rfl rfl rfl rfl
      exact hw.finishMem ho

theorem mulPhase_pipe {s : State} (h : s.PipeInv) : (mulPhase s).PipeInv := by
  rcases mulPhase_cases s with heq | ⟨o, ho, hrem, heq⟩ | ⟨o, ho, heq⟩ <;> rw [heq]
  · exact h
  · refine h.of_frame rfl rfl rfl rfl rfl rfl (fun _ e he => ⟨e, he, rfl, rfl⟩)
      { h.unitInv with mulCounting := fun d hd => ?_ }
    obtain ⟨-, hle⟩ := h.mulCounting d hd
    exact ⟨Nat.one_le_iff_ne_zero.mpr hrem, Nat.le_trans (Nat.sub_le _ _) hle⟩
  · exact (h.writeBack o.pdst _).finishMul ho

theorem intPhase_pipe {s : State} (h : s.PipeInv) : (intPhase s).PipeInv := by
  rcases intPhase_cases s with heq | ⟨o, ho, heq⟩ <;> rw [heq]
  · exact h
  · obtain ⟨p, v, z, hex, -⟩ := executeInt_eq o s
    have hw : (executeInt o s).PipeInv := by
      rw [hex]
      exact (h.writeBack p v).of_eq rfl rfl rfl rfl rfl rfl rfl rfl rfl rfl
    exact hw.finishInt (by simpa using ho)

/-! ### Commit -/

/-- An open entry is not a complete one. -/
theorem ne_of_openEntry {s : State} {op : Op} {r x : Nat} {e : RobEntry} (h : s.openEntry op r)
    (he : s.robAt x = some e) (hd : e.done = true) : r ≠ x := by
  rintro rfl
  obtain ⟨-, -, d, hd', -, hnot⟩ := h
  rw [he] at hd'
  cases hd'
  rw [hd] at hnot
  cases hnot

/-- A retired entry is neither pending nor a slot's owner, and every other one comes one step nearer to the head
(53_recovery_commit.md R273). -/
theorem State.PipeInv.retire {s : State} (hr : s.RingInv) (h : s.PipeInv) {e : RobEntry}
    (he : s.robAt s.head = some e) (hd : e.done = true) : (s.retire e).PipeInv := by
  have hopen : ∀ r, s.tracked r → r < s.cfg.robSize ∧ r ≠ s.head := fun r ht => by
    obtain ⟨op, hop⟩ := h.tracked_open ht
    exact ⟨hop.1, ne_of_openEntry hop he hd⟩
  have hage : ∀ r, s.tracked r → (s.retire e).age r = s.age r - 1 ∧ 0 < s.age r := fun r ht => by
    obtain ⟨hlt, hne⟩ := hopen r ht
    exact ⟨by rw [retire_age e hr.headBound hlt, if_neg hne], age_pos hr.headBound hlt hne⟩
  refine h.of_narrows ⟨List.Subperm.refl _, List.Sublist.refl _, List.Sublist.refl _, ?_, ?_, fun _ _ _ hown => hown⟩
    (h.unitInv.of_frame rfl (fun _ => id) (fun _ ho => ⟨ho, rfl⟩) (fun o ho => ?_) fun _ => id)
  · rintro op r ht ⟨hlt, hcount, d, hrob, hop, hdone⟩
    obtain ⟨hsub, hpos⟩ := hage r ht
    refine ⟨hlt, ?_, d, ?_, hop, hdone⟩
    · rw [hsub]
      show s.age r - 1 < s.count - 1
      omega
    · rw [retire_robAt hr, if_neg (hopen r ht).2, hrob]
  · intro r x htr htx hlt
    obtain ⟨hr1, hr2⟩ := hage r htr
    obtain ⟨hx1, hx2⟩ := hage x htx
    omega
  · have htracked : s.tracked o.rob :=
      .inl (List.mem_map_of_mem (pending_of_occupant (mem_occupants.mpr (.inr (.inr (.inl ho))))))
    exact absurd (h.memAtHead o ho) (hopen _ htracked).2

theorem commitPhase_pipe {s : State} (hr : s.RingInv) (h : s.PipeInv) : (commitPhase s).PipeInv := by
  rcases commitPhase_cases s with ⟨heq, -⟩ | ⟨e, he, hd, ⟨-, heq⟩ | ⟨-, heq⟩⟩ <;> rw [heq]
  · exact h
  · exact h.retire hr (headEntry_eq_some.mp he).2 hd
  · exact h.of_eq rfl rfl rfl rfl rfl rfl rfl rfl rfl rfl

/-! ### Issue -/

/-- An issued entry joins the occupants (52_issue_units.md R237). -/
theorem issueTo_occupants {s : State} {e : IqEntry} (h : s.unitFree e.op.unit = true) :
    (s.issueTo e).occupants.Perm (e.occupant :: s.occupants) := by
  cases hu : e.op.unit <;> simp only [hu, State.unitFree, Option.isNone_iff_eq_none] at h <;>
    simp only [State.occupants, State.issueTo, hu, h, Option.toList_some, Option.toList_none, List.append_nil,
      List.nil_append, List.append_assoc, List.singleton_append]
  case int => exact .refl _
  case mul => exact List.perm_middle
  case mem => simpa using List.perm_middle (l₁ := s.uInt.occ.toList ++ s.uMul.occ.toList)
  case br =>
    simpa using List.perm_middle (l₁ := s.uInt.occ.toList ++ (s.uMul.occ.toList ++ s.uMem.occ.toList)) (l₂ := [])

/-- A memory instruction issues only as the ROB head (52_issue_units.md R234). -/
theorem rob_eq_head_of_eligible {s : State} {e : IqEntry} (hu : e.op.unit = .mem) (h : s.eligible e = true) :
    e.rob = s.head := by
  obtain ⟨-, hord⟩ : e.ready = true ∧ s.orderingMet e = true := by simpa [State.eligible] using h
  unfold State.orderingMet at hord
  cases hop : e.op <;> rw [hop] at hu hord <;> simp only [Op.unit, reduceCtorEq] at hu
  all_goals
    obtain ⟨hhead, -⟩ : e.rob = s.head ∧ 0 < s.count := by simpa using hord
    exact hhead

/-- An issued entry enters the unit of its class, the memory unit only from the head (52_issue_units.md R234, R237). -/
theorem issueTo_units {s : State} {e : IqEntry} (hlat : 1 ≤ s.cfg.mulLat) (hel : s.eligible e = true)
    (h : s.UnitInv) : (s.issueTo e).UnitInv := by
  cases hu : e.op.unit <;> simp only [State.issueTo, hu]
  case int => exact { h with intClass := fun o ho => by cases ho; exact hu }
  case mul =>
    exact { h with
      mulClass := fun o ho => by cases ho; exact hu
      mulCounting := fun o ho => ⟨hlat, Nat.le_refl _⟩ }
  case mem =>
    exact { h with
      memClass := fun o ho => by cases ho; exact hu
      memAtHead := fun o ho => by cases ho; exact rob_eq_head_of_eligible hu hel
      accessDefined := rfl }
  case br => exact { h with brClass := fun o ho => by cases ho; exact hu }

theorem issue_pipe {s : State} {e : IqEntry} {before after : List IqEntry} (hiq : s.iq = before ++ e :: after)
    (hel : s.eligible e = true) (hfree : s.unitFree e.op.unit = true) (hlat : 1 ≤ s.cfg.mulLat) (h : s.PipeInv) :
    State.PipeInv { s.issueTo e with iq := before ++ after } := by
  have hunits := issueTo_units hlat hel h.unitInv
  have howners : (s.issueTo e).owners = s.owners := by simp [State.owners]
  have hpending : (State.pending { s.issueTo e with iq := before ++ after }).Perm s.pending := by
    show ((before ++ after).map _ ++ (s.issueTo e).occupants.map _).Perm (s.iq.map _ ++ _)
    refine (((issueTo_occupants hfree).map _).append_left _).trans ?_
    rw [hiq]
    have hmiddle := List.perm_middle (l₁ := after.map fun e => (e.op, e.rob))
      (l₂ := s.occupants.map fun o => (o.op, o.rob)) (a := (e.op, e.rob))
    simpa [IqEntry.occupant] using hmiddle.append_left (before.map fun e => (e.op, e.rob))
  refine h.of_narrows ⟨hpending.subperm, ?_, ?_, fun op r _ => openEntry_of_frame (by simp) (by simp) (by simp)
    fun d hd => ⟨d, by simpa [State.robAt] using hd, rfl, rfl⟩, fun r x _ _ hlt => ?_, fun x _ _ hown => ?_⟩
    { hunits with }
  · rw [hiq]
    exact ((List.sublist_cons_self e after).append_left before).map _
  · show (s.issueTo e).owners.Sublist s.owners
    rw [howners]
  · simpa [State.age] using hlt
  · exact howners ▸ hown

theorem issuePhase_pipe {s : State} (hlat : 1 ≤ s.cfg.mulLat) (h : s.PipeInv) : (issuePhase s).PipeInv := by
  have hboth := issuePhase_keeps (P := fun u => 1 ≤ u.cfg.mulLat ∧ u.PipeInv)
    (fun u e before after hiq hel hfree hu => ⟨by simpa using hu.1, issue_pipe hiq hel hfree hu.1 hu.2⟩) ⟨hlat, h⟩
  exact hboth.2

/-! ### Dispatch -/

/-- An open entry stays open when another one is added (51_rename_dispatch.md R210). -/
theorem openEntry_withEntry {s : State} (hr : s.RingInv) (hc : s.count ≠ s.cfg.robSize) (e : RobEntry) {op : Op}
    {r : Nat} (h : s.openEntry op r) : r ≠ s.tail ∧ (s.withEntry e).openEntry op r := by
  obtain ⟨hlt, hage, d, hd, hop, hdone⟩ := h
  have hne : r ≠ s.tail := fun heq => by
    rw [heq, age_tail hr hc] at hage
    exact Nat.lt_irrefl _ hage
  exact ⟨hne, hlt, Nat.lt_succ_of_lt hage, d, by rw [withEntry_robAt hr, if_neg hne, hd], hop, hdone⟩

/-- The new entry is open when it is not complete. -/
theorem openEntry_tail {s : State} (hr : s.RingInv) (hc : s.count ≠ s.cfg.robSize) {e : RobEntry} {op : Op}
    (hop : e.op = op.code) (hd : e.done = false) : (s.withEntry e).openEntry op s.tail := by
  refine ⟨tail_lt hr, ?_, e, by rw [withEntry_robAt hr, if_pos rfl], hop, hd⟩
  show s.age s.tail < s.count + 1
  rw [age_tail hr hc]
  exact Nat.lt_succ_self _

/-- Adding an entry leaves the units' own entries as they are. -/
theorem withEntry_units {s : State} (hr : s.RingInv) (h : s.PipeInv) (hc : s.count ≠ s.cfg.robSize) (e : RobEntry) :
    (s.withEntry e).UnitInv := by
  refine h.unitInv.of_frame rfl (fun _ => id) (fun _ ho => ⟨ho, rfl⟩) (fun o ho => ?_) fun _ => id
  have hopen := h.pendingOpen _ (pending_of_occupant (mem_occupants.mpr (.inr (.inr (.inl ho)))))
  refine ⟨ho, rfl, rfl, rfl, fun hx => ?_⟩
  rw [State.noExc, withEntry_robAt hr, if_neg (openEntry_withEntry hr hc e hopen).1] at hx
  exact hx

/-- A new entry with nothing in the queue changes no link (51_rename_dispatch.md R212). -/
theorem State.PipeInv.withEntry {s : State} (hr : s.RingInv) (h : s.PipeInv) (hc : s.count ≠ s.cfg.robSize)
    (e : RobEntry) : (s.withEntry e).PipeInv :=
  h.of_narrows ⟨List.Subperm.refl _, List.Sublist.refl _, List.Sublist.refl _,
    fun _ _ _ hopen => (openEntry_withEntry hr hc e hopen).2, fun _ _ _ _ hlt => hlt, fun _ _ _ hown => hown⟩
    (withEntry_units hr h hc e)

/-- A control-flow instruction, and no other, takes a slot at dispatch (51_rename_dispatch.md R208). -/
theorem dispatched_owners {s : State} {op : Op} {x : Operands}
    (hslot : Op.needsCkpt op = true → s.freeSlot.isSome = true) :
    (op.unit = .br ∧ (s.dispatched op x).owners.Perm (s.tail :: s.owners))
      ∨ (op.unit ≠ .br ∧ (s.dispatched op x).owners = s.owners) := by
  show _ ∧ (((s.checkpointed op x).filter (·.busy)).map (·.owner)).Perm _
    ∨ _ ∧ ((s.checkpointed op x).filter (·.busy)).map (·.owner) = _
  by_cases hu : op.unit = .br
  · have hneed : Op.needsCkpt op = true := by simp [Op.needsCkpt, hu]
    obtain ⟨k, hk⟩ := Option.isSome_iff_exists.mp (hslot hneed)
    obtain ⟨⟨c, hc, hidle⟩, -⟩ := freeSlot_eq_some.mp hk
    obtain ⟨hlt, hget⟩ := List.getElem?_eq_some_iff.mp hc
    obtain ⟨pre, post, hck, -, hset⟩ := List.exists_of_set
      (a' := { busy := true, owner := s.tail, ratSnap := s.renamedRat x, prfSnap := s.renamedPrf x }) hlt
    refine .inl ⟨hu, ?_⟩
    simp only [State.checkpointed, hneed, hk, hset]
    rw [State.owners, hck, hget]
    simp [hidle]
  · have hneed : Op.needsCkpt op = false := by simp [Op.needsCkpt, hu]
    exact .inr ⟨hu, by simp [State.checkpointed, hneed, State.owners]⟩

theorem dispatched_pending (s : State) (op : Op) (x : Operands) :
    (s.dispatched op x).pending.Perm ((op, s.tail) :: s.pending) := by
  show ((s.iq ++ [s.newIqEntry op x]).map _ ++ s.occupants.map _).Perm _
  simp [State.pending, State.newIqEntry]

/-- The new instruction is pending at the tail, the youngest of all, with a slot of its own if it is a control-flow
instruction (51_rename_dispatch.md R208 to R211, R216 item 1). -/
theorem State.PipeInv.dispatched {s : State} (hr : s.RingInv) (h : s.PipeInv) {op : Op} {x : Operands}
    (hstall : s.stallReasons op x = []) : (s.dispatched op x).PipeInv := by
  obtain ⟨-, hslot, -, hc⟩ := stallReasons_eq_nil.mp hstall
  have kept : ∀ {op' r}, s.openEntry op' r → r ≠ s.tail ∧ (s.dispatched op x).openEntry op' r := fun hopen =>
    openEntry_withEntry hr hc (s.newRobEntry op x) hopen
  have new : (s.dispatched op x).openEntry op s.tail :=
    openEntry_tail hr hc (e := s.newRobEntry op x) rfl rfl
  have hpending := dispatched_pending s op x
  refine .of_owners { withEntry_units hr h hc (s.newRobEntry op x) with } (fun y hy => ?_) ?_ ?_ (fun y hy hu => ?_)
    (fun r hown => ?_) ?_
  · rcases List.mem_cons.mp (hpending.mem_iff.mp hy) with rfl | hy
    · exact new
    · exact (kept (h.pendingOpen y hy)).2
  · refine List.Nodup.perm ?_ (hpending.map Prod.snd).symm
    refine List.nodup_cons.mpr ⟨fun htail => ?_, h.pendingDistinct⟩
    obtain ⟨y, hy, heq⟩ := List.mem_map.mp htail
    exact (kept (h.pendingOpen y hy)).1 heq
  · refine List.pairwise_append.mpr ⟨h.iqOrdered, List.pairwise_singleton _ _, fun d hd e he => ?_⟩
    rw [List.mem_singleton.mp he]
    show s.age d.rob < s.age s.tail
    rw [age_tail hr hc]
    obtain ⟨-, hage, -⟩ := h.pendingOpen _ (pending_of_iq hd)
    exact hage
  · rcases List.mem_cons.mp (hpending.mem_iff.mp hy) with rfl | hy <;>
      rcases dispatched_owners (x := x) hslot with ⟨-, hown⟩ | ⟨hnot, hown⟩
    · exact hown.mem_iff.mpr List.mem_cons_self
    · exact absurd hu hnot
    · exact hown.mem_iff.mpr (List.mem_cons_of_mem _ (h.owns hy hu))
    · exact hown ▸ h.owns hy hu
  · have hold : r ∈ s.owners → ∃ op' : Op, op'.unit = .br ∧ (s.dispatched op x).openEntry op' r := fun hr' => by
      obtain ⟨op', hbr, hopen⟩ := h.ownedOpen hr'
      exact ⟨op', hbr, (kept hopen).2⟩
    rcases dispatched_owners (x := x) hslot with ⟨hbr, hperm⟩ | ⟨-, heq⟩
    · rcases List.mem_cons.mp (hperm.mem_iff.mp hown) with rfl | hown
      · exact ⟨op, hbr, new⟩
      · exact hold hown
    · exact hold (heq ▸ hown)
  · rcases dispatched_owners (x := x) hslot with ⟨-, hperm⟩ | ⟨-, heq⟩
    · refine List.Nodup.perm (List.nodup_cons.mpr ⟨fun htail => ?_, h.ownersDistinct⟩) hperm.symm
      obtain ⟨op', -, hopen⟩ := h.ownedOpen htail
      exact (kept hopen).1 rfl
    · rw [heq]
      exact h.ownersDistinct

theorem dispatchLegal_pipe {s : State} (op : Op) (x : Operands) (hr : s.RingInv) (h : s.PipeInv) :
    (dispatchLegal op x s).PipeInv := by
  rcases dispatchLegal_cases op x s with ⟨-, hstall, heq⟩ | ⟨-, heq⟩ <;> rw [heq]
  · exact h.dispatched hr hstall
  · exact h

theorem dispatchIllegal_pipe {s : State} (hr : s.RingInv) (h : s.PipeInv) : (dispatchIllegal s).PipeInv := by
  rcases dispatchIllegal_cases s with ⟨-, hc, heq⟩ | ⟨-, heq⟩ <;> rw [heq]
  · exact (h.withEntry hr hc s.illegalEntry).of_eq rfl rfl rfl rfl rfl rfl rfl rfl rfl rfl
  · exact h

theorem fetchPhase_pipe {s : State} (h : s.PipeInv) : (fetchPhase s).PipeInv :=
  h.of_eq (by simp) (by simp) (by simp) (by simp) (by simp) (by simp) (by simp) (by simp) (by simp) (by simp)

/-! ## The structure of the machine -/

/-- The structure that every step keeps, with legal parameters (`StepKeepsStructure`). -/
structure State.Structure (s : State) : Prop where
  cfgOk : s.cfg.ok = true
  mem : s.MemInv
  ring : s.RingInv
  shape : s.ShapeInv
  pipe : s.PipeInv
  values : s.ValueInv

/-- XLEN is at least 32 in a structured state (assumption log 14). -/
theorem State.Structure.xlen {s : State} (h : s.Structure) : 32 ≤ s.cfg.xlen := (Config.ok_bounds h.cfgOk).1

theorem State.Structure.xlen_pos {s : State} (h : s.Structure) : 1 ≤ s.cfg.xlen := Nat.le_trans (by decide) h.xlen

/-- A phase keeps the structure when it keeps the parameters, the links and the values: memory, ring and shape are
kept on their own. -/
theorem structure_phases : PhasesKeep State.Structure where
  host s q r h := ⟨h.cfgOk, memory_phases.host s q r h.mem, ring_phases.host s q r h.ring,
    shape_phases.host s q r h.shape, h.pipe.of_eq rfl rfl rfl rfl rfl rfl rfl rfl rfl rfl, { h.values with }⟩
  begin s h := ⟨h.cfgOk, memory_phases.begin s h.mem, ring_phases.begin s h.ring, shape_phases.begin s h.shape,
    h.pipe.of_eq rfl rfl rfl rfl rfl rfl rfl rfl rfl rfl, { h.values with }⟩
  commit s h := ⟨by simpa using h.cfgOk, memory_phases.commit s h.mem, ring_phases.commit s h.ring,
    shape_phases.commit s h.shape, commitPhase_pipe h.ring h.pipe, commitPhase_values h.ring h.values⟩
  branch s hdef h := ⟨by simpa using h.cfgOk, memory_phases.branch s hdef h.mem, ring_phases.branch s hdef h.ring,
    shape_phases.branch s hdef h.shape, branchPhase_pipe hdef h.ring h.pipe,
    branchPhase_values h.xlen_pos hdef h.values⟩
  memory s hdef h := ⟨by simpa using h.cfgOk, memory_phases.memory s hdef h.mem, ring_phases.memory s hdef h.ring,
    shape_phases.memory s hdef h.shape, memPhase_pipe h.pipe, memPhase_values h.xlen_pos h.values⟩
  multiplier s h := ⟨by simpa using h.cfgOk, memory_phases.multiplier s h.mem, ring_phases.multiplier s h.ring,
    shape_phases.multiplier s h.shape, mulPhase_pipe h.pipe, mulPhase_values h.xlen_pos h.values⟩
  integer s h := ⟨by simpa using h.cfgOk, memory_phases.integer s h.mem, ring_phases.integer s h.ring,
    shape_phases.integer s h.shape, intPhase_pipe h.pipe, intPhase_values h.xlen_pos h.values⟩
  issue s h := ⟨by simpa using h.cfgOk, memory_phases.issue s h.mem, ring_phases.issue s h.ring,
    shape_phases.issue s h.shape, issuePhase_pipe (Config.ok_bounds h.cfgOk).2 h.pipe, issuePhase_values h.values⟩
  dispatch s op x h := ⟨by simpa using h.cfgOk, memory_phases.dispatch s op x h.mem, ring_phases.dispatch s op x h.ring,
    shape_phases.dispatch s op x h.shape, dispatchLegal_pipe op x h.ring h.pipe,
    dispatchLegal_values h.xlen h.ring op x h.values⟩
  illegal s h := ⟨by simpa using h.cfgOk, memory_phases.illegal s h.mem, ring_phases.illegal s h.ring,
    shape_phases.illegal s h.shape, dispatchIllegal_pipe h.ring h.pipe, dispatchIllegal_values h.ring h.values⟩
  fetch s h := ⟨by simpa using h.cfgOk, memory_phases.fetch s h.mem, ring_phases.fetch s h.ring,
    shape_phases.fetch s h.shape, fetchPhase_pipe h.pipe, fetchPhase_values h.xlen_pos h.values⟩

end Sys2Proof.Machine

namespace Sys2Proof.Claims

open Sys2Proof.Machine

/-- Settles O55: every phase keeps the structure, so a step does. -/
theorem stepKeepsStructure : Obligations.StepKeepsStructure := by
  unfold Obligations.StepKeepsStructure
  intro s t hmem hring hshape hpipe hvalues hstep
  have h := structure_phases.step ⟨step_next_cfg_ok hstep, hmem, hring, hshape, hpipe, hvalues⟩ hstep
  exact ⟨h.mem, h.ring, h.shape, h.pipe, h.values⟩

end Sys2Proof.Claims


namespace Sys2Proof.Machine

/-! ## The entries in flight, as a list (10_state.md R30)

Under the ring the list of entries is known age by age, so that dispatch appends to it, commit takes its first
element, and recovery cuts off its end. -/

/-- The fields of an entry that renaming reads: `pdst`, `adst` and `pprev` (10_state.md R29). -/
def RobEntry.dest (e : RobEntry) : Option Nat × Option Reg × Option Nat := (e.pdst, e.adst, e.pprev)

theorem mem_entries {s : State} {e : RobEntry} :
    e ∈ s.entries ↔ ∃ k, k < s.count ∧ s.robAt (s.robIndex k) = some e := by
  simp [State.entries]

/-- An occupied index holds an entry in flight. -/
theorem mem_entries_of_robAt {s : State} (hr : s.RingInv) {r : Nat} {e : RobEntry} (hlt : r < s.cfg.robSize)
    (he : s.robAt r = some e) : e ∈ s.entries := by
  have hage : s.age r < s.count := (hr.occupiedIff r hlt).mp (by rw [he]; rfl)
  exact mem_entries.mpr ⟨s.age r, hage, by rwa [robIndex_age hlt hr.headBound]⟩

/-- Picking out values where every one is there loses none. -/
theorem map_some_filterMap {α β : Type} {f : α → Option β} {l : List α} (h : ∀ x ∈ l, (f x).isSome = true) :
    (l.filterMap f).map some = l.map f := by
  induction l with
  | nil => rfl
  | cons x l ih =>
    obtain ⟨y, hy⟩ := Option.isSome_iff_exists.mp (h x List.mem_cons_self)
    simp [hy, ih fun z hz => h z (List.mem_cons_of_mem _ hz)]

/-- The indices above a bound are those behind it. -/
theorem filter_lt_range (a n : Nat) :
    (List.range n).filter (fun j => decide (a < j)) = (List.range n).drop (a + 1) := by
  induction n with
  | zero => simp
  | succ n ih =>
    rw [List.range_succ, List.filter_append, ih]
    by_cases h : a < n
    · rw [List.drop_append_of_le_length (by simpa using h)]
      simp [h]
    · have hnil : (List.range n ++ [n]).drop (a + 1) = [] := by simpa using Nat.le_of_not_lt h
      rw [hnil, List.drop_of_length_le (by simpa using Nat.le_succ_of_le (Nat.le_of_not_lt h))]
      simp [h]

/-- In a ring an entry stands at every age below the count. -/
theorem robAt_robIndex_isSome {s : State} (h : s.RingInv) {k : Nat} (hk : k < s.count) :
    (s.robAt (s.robIndex k)).isSome = true := by
  refine (h.occupiedIff _ (robIndex_lt k h.headBound)).mpr ?_
  rwa [age_robIndex (Nat.lt_of_lt_of_le hk h.countBound) h.headBound]

/-- In a ring the list of the entries in flight has one for every age below the count. -/
theorem entries_map_some {s : State} (h : s.RingInv) :
    s.entries.map some = (List.range s.count).map fun k => s.robAt (s.robIndex k) :=
  map_some_filterMap fun _ hk => robAt_robIndex_isSome h (List.mem_range.mp hk)

theorem entries_length {s : State} (h : s.RingInv) : s.entries.length = s.count := by
  simpa using congrArg List.length (entries_map_some h)

/-- The entry of age k is the k-th in flight. -/
theorem entries_getElem? {s : State} (h : s.RingInv) {k : Nat} (hk : k < s.count) :
    s.entries[k]? = s.robAt (s.robIndex k) := by
  have hget := congrArg (·[k]?) (entries_map_some h)
  simp only [List.getElem?_map, List.getElem?_range hk, Option.map_some] at hget
  cases he : s.entries[k]? with
  | none => rw [he] at hget; cases hget
  | some e => rw [he] at hget; exact Option.some.inj hget

/-- In a ring the younger entries are the list's end. -/
theorem youngerEntries_eq_drop {s : State} (h : s.RingInv) (b : Nat) :
    s.youngerEntries b = s.entries.drop (s.age b + 1) := by
  apply List.map_injective_iff.mpr (Option.some_injective _)
  rw [List.map_drop, entries_map_some h, ← List.map_drop, ← filter_lt_range]
  exact map_some_filterMap fun _ hk => robAt_robIndex_isSome h (List.mem_range.mp (List.mem_filter.mp hk).1)

/-- Dispatch adds the youngest entry (51_rename_dispatch.md R210). -/
theorem withEntry_entries {s : State} (h : s.RingInv) (e : RobEntry) (hc : s.count ≠ s.cfg.robSize) :
    (s.withEntry e).entries = s.entries ++ [e] := by
  apply List.map_injective_iff.mpr (Option.some_injective _)
  rw [List.map_append, entries_map_some (h.withEntry e hc), entries_map_some h]
  have hindex : ∀ k, (s.withEntry e).robIndex k = s.robIndex k := fun _ => rfl
  have htail : s.robIndex s.count = s.tail := h.tailIs.symm
  show (List.range (s.count + 1)).map _ = _
  rw [List.range_succ, List.map_append]
  congr 1
  · refine List.map_congr_left fun k hk => ?_
    have hk := List.mem_range.mp hk
    have hne : s.robIndex k ≠ s.tail := fun heq => by
      have := congrArg s.age heq
      rw [age_tail h hc, age_robIndex (Nat.lt_of_lt_of_le hk h.countBound) h.headBound] at this
      omega
    rw [hindex, withEntry_robAt h, if_neg hne]
  · simp [hindex, htail, withEntry_robAt h]

/-- Retiring takes the oldest entry (53_recovery_commit.md R273). -/
theorem retire_entries {s : State} (h : s.RingInv) {e : RobEntry} (hc : s.count ≠ 0) (he : s.robAt s.head = some e) :
    s.entries = e :: (s.retire e).entries := by
  apply List.map_injective_iff.mpr (Option.some_injective _)
  obtain ⟨n, hn⟩ := Nat.exists_eq_succ_of_ne_zero hc
  have hcount : (s.retire e).count = n := by simp [State.retire, hn]
  rw [List.map_cons, entries_map_some (h.retire e hc), entries_map_some h, hcount, hn, List.range_succ_eq_map,
    List.map_cons, List.map_map]
  have hzero : s.robIndex 0 = s.head := Nat.mod_eq_of_lt h.headBound
  rw [hzero, he]
  congr 1
  refine List.map_congr_left fun k hk => ?_
  have hk := List.mem_range.mp hk
  have hindex : (s.retire e).robIndex k = s.robIndex (k + 1) := by
    show ((s.head + 1) % s.cfg.robSize + k) % s.cfg.robSize = (s.head + (k + 1)) % s.cfg.robSize
    rw [Nat.mod_add_mod, Nat.add_assoc, Nat.add_comm 1 k]
  have hne : s.robIndex (k + 1) ≠ s.head := fun heq => by
    have hlt : k + 1 < s.cfg.robSize := Nat.lt_of_lt_of_le (by omega) h.countBound
    have := congrArg s.age heq
    rw [age_head h.headBound, age_robIndex hlt h.headBound] at this
    omega
  show s.robAt (s.robIndex (k + 1)) = _
  rw [hindex, retire_robAt h, if_neg hne]

/-- Recovery keeps the entries that are not younger than the branch (53_recovery_commit.md R263). -/
theorem recoverFrom_entries {s : State} (h : s.RingInv) {b : Nat} (target : Int) (c : Ckpt)
    (hb : s.occupied b = true) : s.entries = (s.recoverFrom b target c).entries ++ s.youngerEntries b := by
  suffices htake : (s.recoverFrom b target c).entries = s.entries.take (s.age b + 1) by
    rw [htake, youngerEntries_eq_drop h, List.take_append_drop]
  apply List.map_injective_iff.mpr (Option.some_injective _)
  have hage := (occupied_iff.mp hb).2
  rw [List.map_take, entries_map_some (h.recoverFrom target c hb), entries_map_some h, ← List.map_take,
    List.take_range, Nat.min_eq_left hage]
  refine List.map_congr_left fun k hk => ?_
  have hk : k < s.age b + 1 := List.mem_range.mp hk
  show (s.recoverFrom b target c).robAt (s.robIndex k) = _
  rw [recoverFrom_robAt, age_robIndex (by have := h.countBound; omega) h.headBound, if_neg (by omega)]

/-- Ages and indices depend on the head and the size alone. -/
theorem age_congr {s t : State} (cfg : t.cfg = s.cfg) (head : t.head = s.head) (r : Nat) : t.age r = s.age r := by
  rw [State.age, State.age, cfg, head]

theorem robIndex_congr {s t : State} (cfg : t.cfg = s.cfg) (head : t.head = s.head) (k : Nat) :
    t.robIndex k = s.robIndex k := by
  rw [State.robIndex, State.robIndex, cfg, head]

/-- What renaming reads of the entries depends on their destination fields alone. -/
theorem entries_dest_congr {s t : State} (cfg : t.cfg = s.cfg) (head : t.head = s.head) (count : t.count = s.count)
    (dest : ∀ r, (t.robAt r).map RobEntry.dest = (s.robAt r).map RobEntry.dest) :
    t.entries.map RobEntry.dest = s.entries.map RobEntry.dest := by
  simp only [State.entries, List.map_filterMap, dest, robIndex_congr cfg head, count]

theorem youngerEntries_dest_congr {s t : State} (cfg : t.cfg = s.cfg) (head : t.head = s.head)
    (count : t.count = s.count) (dest : ∀ r, (t.robAt r).map RobEntry.dest = (s.robAt r).map RobEntry.dest) (b : Nat) :
    (t.youngerEntries b).map RobEntry.dest = (s.youngerEntries b).map RobEntry.dest := by
  simp only [State.youngerEntries, List.map_filterMap, dest, robIndex_congr cfg head, age_congr cfg head, count]

theorem filterMap_congr_dest {es fs : List RobEntry} (h : es.map RobEntry.dest = fs.map RobEntry.dest) :
    es.filterMap (·.pprev) = fs.filterMap (·.pprev) := by
  have := congrArg (List.filterMap fun d : Option Nat × Option Reg × Option Nat => d.2.2) h
  simpa [List.filterMap_map, Function.comp_def, RobEntry.dest] using this

theorem undoRenames_congr {es fs : List RobEntry} (h : es.map RobEntry.dest = fs.map RobEntry.dest) (rat : List Nat) :
    undoRenames es rat = undoRenames fs rat := by
  induction es generalizing fs with
  | nil => cases fs with
    | nil => rfl
    | cons f fs => cases h
  | cons e es ih => cases fs with
    | nil => cases h
    | cons f fs =>
      simp only [List.map_cons, List.cons.injEq, RobEntry.dest, Prod.mk.injEq] at h
      obtain ⟨⟨-, hadst, hpprev⟩, htail⟩ := h
      simp only [undoRenames_cons, undoRename, hadst, hpprev, ih htail]

theorem renameChain_congr {es fs : List RobEntry} (h : es.map RobEntry.dest = fs.map RobEntry.dest) {rat : List Nat}
    (hc : RenameChain rat fs) : RenameChain rat es := by
  induction es generalizing fs with
  | nil => trivial
  | cons e es ih => cases fs with
    | nil => cases h
    | cons f fs =>
      simp only [List.map_cons, List.cons.injEq, RobEntry.dest, Prod.mk.injEq] at h
      obtain ⟨⟨hpdst, hadst, -⟩, htail⟩ := h
      refine ⟨?_, ih htail hc.2⟩
      rw [hpdst, hadst, undoRenames_congr htail]
      exact hc.1

end Sys2Proof.Machine

namespace Sys2Proof.Machine

/-! ## The books of renaming (10_state.md R22; 51_rename_dispatch.md R216 items 2 and 3) -/

/-- Overwriting one place of a list trades the old value for the new one. -/
theorem cons_set_perm {l : List Nat} {i x y : Nat} (h : l[i]? = some x) : (x :: l.set i y).Perm (y :: l) := by
  obtain ⟨hlt, rfl⟩ := List.getElem?_eq_some_iff.mp h
  have hset := List.set_perm_cons_eraseIdx hlt y
  have hget := List.getElem_cons_eraseIdx_perm hlt
  exact ((hset.cons _).trans (.swap ..)).trans (hget.cons _)

/-- An entry has all of `pdst`, `adst` and `pprev` or none of them (10_state.md R29). -/
def RobEntry.whole (e : RobEntry) : Prop := e.pdst.isSome = e.adst.isSome ∧ e.pprev.isSome = e.adst.isSome

theorem RobEntry.whole_cases {e : RobEntry} (h : e.whole) :
    (e.pdst = none ∧ e.adst = none ∧ e.pprev = none)
      ∨ ∃ p a q, e.pdst = some p ∧ e.adst = some a ∧ e.pprev = some q := by
  obtain ⟨hp, hq⟩ := h
  cases ha : e.adst with
  | none => exact .inl ⟨by simpa [ha] using hp, rfl, by simpa [ha] using hq⟩
  | some a =>
    obtain ⟨p, hp⟩ := Option.isSome_iff_exists.mp (hp.trans (by simp [ha]))
    obtain ⟨q, hq⟩ := Option.isSome_iff_exists.mp (hq.trans (by simp [ha]))
    exact .inr ⟨p, a, q, hp, rfl, hq⟩

/-- Renames trade previous registers for new ones: the mapped and the held ones together are those mapped before the
renames and those the renames gave out (51_rename_dispatch.md R206). -/
theorem renames_perm {rat : List Nat} {es : List RobEntry} (chain : RenameChain rat es)
    (whole : ∀ e ∈ es, e.whole) :
    (rat ++ es.filterMap (·.pprev)).Perm (undoRenames es rat ++ es.filterMap (·.pdst)) := by
  induction es with
  | nil => exact .refl _
  | cons e es ih =>
    obtain ⟨hgave, hrest⟩ := chain
    have ih := ih hrest fun d hd => whole d (List.mem_cons_of_mem _ hd)
    rcases RobEntry.whole_cases (whole e List.mem_cons_self) with ⟨hp, ha, hq⟩ | ⟨p, a, q, hp, ha, hq⟩
    · simpa [hp, hq, undoRename, ha] using ih
    · have hset := cons_set_perm (y := q) (hgave a p ha hp)
      have hgot : (e :: es).filterMap (·.pdst) = p :: es.filterMap (·.pdst) := List.filterMap_cons_some hp
      have hheld : (e :: es).filterMap (·.pprev) = q :: es.filterMap (·.pprev) := List.filterMap_cons_some hq
      simp only [undoRenames_cons, undoRename, ha, hq, hgot, hheld]
      calc (rat ++ q :: es.filterMap (·.pprev)).Perm (q :: (rat ++ es.filterMap (·.pprev))) := List.perm_middle
        _ |>.Perm (q :: (undoRenames es rat ++ es.filterMap (·.pdst))) := ih.cons q
        _ |>.Perm (p :: ((undoRenames es rat).set a.val q ++ es.filterMap (·.pdst))) :=
          (hset.symm.append_right (es.filterMap (·.pdst)) :)
        _ |>.Perm ((undoRenames es rat).set a.val q ++ p :: es.filterMap (·.pdst)) := List.perm_middle.symm

/-- The registers in use: mapped, or held as the previous mapping of an entry in flight (10_state.md R22). -/
def State.inUse (s : State) : List Nat := s.rat ++ s.heldPrevious

theorem State.RenameInv.whole {s : State} (h : s.RenameInv) : ∀ e ∈ s.entries, e.whole := h.destWhole

/-- The registers in use, with the destinations in flight set apart. -/
theorem State.RenameInv.inUse_perm {s : State} (h : s.RenameInv) :
    s.inUse.Perm (undoRenames s.entries s.rat ++ s.entries.filterMap (·.pdst)) := renames_perm h.chain h.whole

/-- No two instructions in flight have one destination register. -/
theorem State.RenameInv.pdsts_nodup {s : State} (h : s.RenameInv) : (s.entries.filterMap (·.pdst)).Nodup :=
  (List.nodup_append.mp (h.inUseDistinct.perm h.inUse_perm)).2.1

/-- The destination of an instruction in flight is in use. -/
theorem State.RenameInv.pdst_inUse {s : State} (h : s.RenameInv) {e : RobEntry} (he : e ∈ s.entries) {p : Nat}
    (hp : e.pdst = some p) : p ∈ s.inUse :=
  h.inUse_perm.mem_iff.mpr (List.mem_append_right _ (List.mem_filterMap.mpr ⟨e, he, hp⟩))

/-- What is in use names a physical register. -/
theorem State.RenameInv.inUse_lt {s : State} (h : s.RenameInv) (hs : s.ShapeInv) {p : Nat} (hp : p ∈ s.inUse) :
    p < s.cfg.numPhys :=
  (List.mem_append.mp hp).elim (hs.ratTags p) (h.heldInRange p)

theorem State.RenameInv.inUse_not_free {s : State} (h : s.RenameInv) (hs : s.ShapeInv) {p : Nat} (hp : p ∈ s.inUse) :
    (s.preg p).free = false :=
  (h.inUseIff p (h.inUse_lt hs hp)).mpr hp

/-- A destination names the one entry in flight that has it. -/
theorem State.RenameInv.entry_of_pdst {s : State} (h : s.RenameInv) (hr : s.RingInv) {r x : Nat} {d e : RobEntry}
    {p : Nat} (hrlt : r < s.cfg.robSize) (hxlt : x < s.cfg.robSize) (hd : s.robAt r = some d) (he : s.robAt x = some e)
    (hdp : d.pdst = some p) (hep : e.pdst = some p) : r = x := by
  have index : ∀ {y f}, y < s.cfg.robSize → s.robAt y = some f → s.age y < s.entries.length
      ∧ s.entries[s.age y]? = some f := fun {y f} hy hf => by
    have hage : s.age y < s.count := (hr.occupiedIff y hy).mp (by rw [hf]; rfl)
    exact ⟨by rwa [entries_length hr], by rw [entries_getElem? hr hage, robIndex_age hy hr.headBound, hf]⟩
  obtain ⟨hrl, hrg⟩ := index hrlt hd
  obtain ⟨hxl, hxg⟩ := index hxlt he
  have hpair : s.entries.Pairwise fun a b => ∀ v, a.pdst = some v → ∀ w, b.pdst = some w → v ≠ w :=
    List.pairwise_filterMap.mp h.pdsts_nodup
  rw [List.pairwise_iff_getElem] at hpair
  rw [List.getElem?_eq_getElem hrl, Option.some.injEq] at hrg
  rw [List.getElem?_eq_getElem hxl, Option.some.injEq] at hxg
  refine age_injective hr.headBound hrlt hxlt ?_
  rcases Nat.lt_trichotomy (s.age r) (s.age x) with hlt | heq | hlt
  · exact absurd rfl (hpair _ _ hrl hxl hlt p (hrg ▸ hdp) p (hxg ▸ hep))
  · exact heq
  · exact absurd rfl (hpair _ _ hxl hrl hlt p (hxg ▸ hep) p (hrg ▸ hdp))

/-- The record of a register after one record of the file has been changed. -/
theorem preg_of_updatePrf {s t : State} {q : Option Nat} {f : PhysReg → PhysReg} (h : t.prf = updatePrf s.prf q f)
    (p : Nat) : t.preg p = if q = some p ∧ p < s.prf.length then f (s.preg p) else s.preg p := by
  rw [State.preg, h]
  cases q with
  | none => simp [State.preg]
  | some q =>
    rw [updatePrf_getD]
    by_cases hq : q = p
    · subst hq
      simp [State.preg]
    · simp [hq, Ne.symm hq, State.preg]

/-- The books stay when the RAT, the free list and the destinations in flight do, and no slot is taken. -/
theorem State.RenameInv.of_frame {s t : State} (h : s.RenameInv) (cfg : t.cfg = s.cfg) (head : t.head = s.head)
    (count : t.count = s.count) (rat : t.rat = s.rat)
    (dest : ∀ r, (t.robAt r).map RobEntry.dest = (s.robAt r).map RobEntry.dest)
    (free : ∀ p, (t.preg p).free = (s.preg p).free) (slots : ∀ c ∈ t.ck, c.busy = true → c ∈ s.ck) : t.RenameInv := by
  have hentries := entries_dest_congr cfg head count dest
  have hheld : t.heldPrevious = s.heldPrevious := filterMap_congr_dest hentries
  have hdest : ∀ e ∈ t.entries, ∃ d ∈ s.entries, d.dest = e.dest := fun e he =>
    List.mem_map.mp (hentries ▸ List.mem_map_of_mem he)
  refine ⟨?_, fun p hp => ?_, ?_, fun e he => ?_, fun e he a ha => ?_, ?_, fun c hc hb => ?_⟩
  · rw [rat, hheld]
    exact h.inUseDistinct
  · rw [free, rat, hheld]
    exact h.inUseIff p (cfg ▸ hp)
  · rw [hheld, cfg]
    exact h.heldInRange
  · obtain ⟨d, hd, heq⟩ := hdest e he
    simp only [RobEntry.dest, Prod.mk.injEq] at heq
    obtain ⟨hp, ha, hq⟩ := heq
    rw [← hp, ← ha, ← hq]
    exact h.destWhole d hd
  · obtain ⟨d, hd, heq⟩ := hdest e he
    simp only [RobEntry.dest, Prod.mk.injEq] at heq
    rw [cfg]
    exact h.destInRange d hd a (heq.2.1.trans ha)
  · rw [rat]
    exact renameChain_congr hentries h.chain
  · rw [rat, undoRenames_congr (youngerEntries_dest_congr cfg head count dest c.owner)]
    exact h.snapshots c (slots c hc hb) hb

/-- The owner of a busy slot is an open entry, so it has an age below the count (10_state.md R37). -/
theorem State.PipeInv.owner_occupied {s : State} (h : s.PipeInv) {c : Ckpt} (hc : c ∈ s.ck) (hb : c.busy = true) :
    c.owner < s.cfg.robSize ∧ s.age c.owner < s.count := by
  obtain ⟨op, -, hlt, hage, -⟩ := h.ownerOpen c hc hb
  exact ⟨hlt, hage⟩

/-- Retiring a complete head entry frees its previous register, which nothing else uses (53_recovery_commit.md R272,
under FREE_POLICY prev). -/
theorem State.RenameInv.retire {s : State} (hpol : s.cfg.freePolicy = .prev) (hr : s.RingInv) (hs : s.ShapeInv)
    (hpipe : s.PipeInv) (h : s.RenameInv) {e : RobEntry} (hc : s.count ≠ 0) (he : s.robAt s.head = some e)
    (hd : e.done = true) : (s.retire e).RenameInv := by
  have hentries := retire_entries hr hc he
  have hmem : ∀ d ∈ (s.retire e).entries, d ∈ s.entries := fun d hd => hentries ▸ List.mem_cons_of_mem _ hd
  have hheld : s.heldPrevious = e.pprev.toList ++ (s.retire e).heldPrevious := by
    rw [State.heldPrevious, hentries]
    cases hq : e.pprev <;> simp [hq, State.heldPrevious]
  have hreleased : s.releasedTag e = e.pprev := by
    have hwhole := RobEntry.whole_cases (h.whole e (hentries ▸ List.mem_cons_self))
    rcases hwhole with ⟨hp, -, hq⟩ | ⟨p, a, q, hp, -, hq⟩ <;> simp [State.releasedTag, hp, hq, hpol]
  have hsplit : s.inUse.Perm (e.pprev.toList ++ (s.retire e).inUse) := by
    rw [State.inUse, hheld, ← List.append_assoc]
    exact (List.perm_append_comm.append_right _).trans (.of_eq (List.append_assoc ..))
  have hnodup := List.nodup_append.mp (h.inUseDistinct.perm hsplit)
  have hpreg := preg_of_updatePrf (s := s) (t := s.retire e) (f := PhysReg.freed) rfl
  refine ⟨hnodup.2.1, fun p hp => ?_, fun p hp => h.heldInRange p ?_, fun d hd => h.destWhole d (hmem d hd),
    fun d hd => h.destInRange d (hmem d hd), ?_, fun c hcs hb => ?_⟩
  · have hiff := h.inUseIff p hp
    have hmemIff : p ∈ s.inUse ↔ p ∈ e.pprev.toList ++ (s.retire e).inUse := hsplit.mem_iff
    show _ ↔ p ∈ (s.retire e).inUse
    change _ ↔ p ∈ s.inUse at hiff
    rw [hpreg, hreleased, hs.prfLength]
    split
    · next hq =>
      have hnot : p ∉ (s.retire e).inUse := fun hin => hnodup.2.2 p (by simp [hq.1]) p hin rfl
      simp [PhysReg.freed, hnot]
    · next hq =>
      have hne : p ∉ e.pprev.toList := fun hin => hq ⟨by simpa using hin, hp⟩
      rw [hiff, hmemIff, List.mem_append]
      simp [hne]
  · rw [hheld]
    exact List.mem_append_right _ hp
  · have hchain := h.chain
    rw [hentries] at hchain
    exact hchain.2
  · obtain ⟨op, -, hopen⟩ := hpipe.ownerOpen c hcs hb
    have hne := ne_of_openEntry hopen he hd
    have hpos := age_pos hr.headBound hopen.1 hne
    have hage := retire_age e hr.headBound hopen.1
    rw [if_neg hne] at hage
    rw [h.snapshots c hcs hb, youngerEntries_eq_drop hr, youngerEntries_eq_drop (hr.retire e hc), hage, hentries,
      Nat.sub_add_cancel hpos, List.drop_succ_cons]
    rfl

/-- The destinations of an instruction discarded by recovery are discarded registers. -/
theorem recoverFrom_preg {s : State} (hpol : s.cfg.restorePolicy = .selective) (b : Nat) (target : Int) (c : Ckpt)
    {p : Nat} (hp : p < s.prf.length) : (s.recoverFrom b target c).preg p
      = if p ∈ (s.youngerEntries b).filterMap (·.pdst) then PhysReg.discarded (s.preg p) else s.preg p := by
  have hprf : (s.recoverFrom b target c).prf = releaseAll s.prf (s.youngerEntries b) := by
    show s.restoredPrf b c = _
    simp only [State.restoredPrf, hpol]
  simp only [State.preg, hprf, releaseAll_getD _ _ hp, List.mem_filterMap]

/-- Recovery undoes the younger renames (53_recovery_commit.md R264, R265, under RESTORE_POLICY selective). -/
theorem recoverFrom_inUse_perm {s : State} (hr : s.RingInv) (h : s.RenameInv) (target : Int) {c : Ckpt}
    (hc : c ∈ s.ck) (hb : c.busy = true) (hocc : s.occupied c.owner = true) :
    s.inUse.Perm ((s.recoverFrom c.owner target c).inUse ++ (s.youngerEntries c.owner).filterMap (·.pdst)) := by
  have hentries := recoverFrom_entries hr target c hocc
  have hchain := h.chain
  rw [hentries] at hchain
  have hyoung := renames_perm (renameChain_append.mp hchain).2 fun e he =>
    h.whole e (hentries ▸ List.mem_append_right _ he)
  rw [← h.snapshots c hc hb] at hyoung
  rw [State.inUse, State.heldPrevious, hentries, List.filterMap_append]
  show (s.rat ++ _).Perm (c.ratSnap ++ (s.recoverFrom c.owner target c).heldPrevious ++ _)
  refine (List.perm_append_comm.append_left _).trans ?_
  rw [← List.append_assoc]
  refine (hyoung.append_right _).trans ?_
  rw [List.append_assoc, List.append_assoc]
  exact List.perm_append_comm.append_left _

theorem State.RenameInv.recoverFrom {s : State} (hpol : s.cfg.restorePolicy = .selective) (hr : s.RingInv)
    (hs : s.ShapeInv) (h : s.RenameInv) (target : Int) {c : Ckpt}
    (hc : c ∈ s.ck) (hb : c.busy = true) (hocc : s.occupied c.owner = true) :
    (s.recoverFrom c.owner target c).RenameInv := by
  have hentries := recoverFrom_entries hr target c hocc
  have hmem : ∀ e ∈ (s.recoverFrom c.owner target c).entries, e ∈ s.entries := fun e he =>
    hentries ▸ List.mem_append_left _ he
  have hperm := recoverFrom_inUse_perm hr h target hc hb hocc
  have hnodup := List.nodup_append.mp (h.inUseDistinct.perm hperm)
  refine ⟨hnodup.1, fun p hp => ?_, fun p hp => h.heldInRange p ?_, fun e he => h.destWhole e (hmem e he),
    fun e he => h.destInRange e (hmem e he), ?_, fun d hd hdb => ?_⟩
  · have hiff := h.inUseIff p hp
    change _ ↔ p ∈ s.inUse at hiff
    show _ ↔ p ∈ (s.recoverFrom c.owner target c).inUse
    rw [hperm.mem_iff, List.mem_append] at hiff
    rw [recoverFrom_preg hpol _ _ _ (by rw [hs.prfLength]; exact hp)]
    split
    · next hin =>
      have hnot : p ∉ (s.recoverFrom c.owner target c).inUse := fun hu => hnodup.2.2 p hu p hin rfl
      simp [PhysReg.discarded, hnot]
    · next hnot => simpa [hnot] using hiff
  · rw [State.heldPrevious, hentries, List.filterMap_append]
    exact List.mem_append_left _ hp
  · have hchain := h.chain
    rw [hentries] at hchain
    show RenameChain c.ratSnap _
    rw [h.snapshots c hc hb]
    exact (renameChain_append.mp hchain).1
  · have hd : d ∈ s.releasedCk c.owner := hd
    have hold := busy_slot_kept (mem_releasedCk hd) hdb
    have hage : s.age d.owner < s.age c.owner := by
      have hown : d.owner ∈ (s.recoverFrom c.owner target c).owners := mem_owners.mpr ⟨d, hd, hdb, rfl⟩
      rw [recoverFrom_owners] at hown
      simpa using (List.mem_filter.mp hown).2
    have hlen : s.age d.owner + 1 ≤ (s.recoverFrom c.owner target c).entries.length := by
      rw [entries_length (hr.recoverFrom target c hocc)]
      show s.age d.owner + 1 ≤ s.age c.owner + 1
      omega
    rw [h.snapshots d hold hdb, youngerEntries_eq_drop hr, youngerEntries_eq_drop (hr.recoverFrom target c hocc),
      hentries, List.drop_append_of_le_length hlen, undoRenames_append, ← h.snapshots c hc hb]
    rfl

/-- The slots see one more entry behind them when one is added. -/
theorem withEntry_younger {s : State} (hr : s.RingInv) (hc : s.count ≠ s.cfg.robSize) (e : RobEntry) {b : Nat}
    (hb : s.age b < s.count) : (s.withEntry e).youngerEntries b = s.youngerEntries b ++ [e] := by
  rw [youngerEntries_eq_drop (hr.withEntry e hc), youngerEntries_eq_drop hr, withEntry_entries hr e hc]
  exact List.drop_append_of_le_length (by rw [entries_length hr]; exact hb)

theorem withEntry_heldPrevious {s : State} (hr : s.RingInv) (hc : s.count ≠ s.cfg.robSize) {e : RobEntry}
    (hq : e.pprev = none) : (s.withEntry e).heldPrevious = s.heldPrevious := by
  simp [State.heldPrevious, withEntry_entries hr e hc, hq]

/-- A new entry without a destination changes no book (51_rename_dispatch.md R212). -/
theorem State.RenameInv.withEntry {s : State} (hr : s.RingInv) (hpipe : s.PipeInv) (h : s.RenameInv)
    (hc : s.count ≠ s.cfg.robSize) {e : RobEntry} (hp : e.pdst = none) (ha : e.adst = none) (hq : e.pprev = none) :
    (s.withEntry e).RenameInv := by
  have hentries := withEntry_entries hr e hc
  have hheld := withEntry_heldPrevious hr hc hq
  have hundo : ∀ rat, undoRenames [e] rat = rat := fun rat => by simp [undoRename, ha]
  refine ⟨?_, fun p hp => ?_, ?_, fun d hd => ?_, fun d hd a hda => ?_, ?_, fun c hcs hb => ?_⟩
  · rw [hheld]
    exact h.inUseDistinct
  · rw [hheld]
    exact h.inUseIff p hp
  · rw [hheld]
    exact h.heldInRange
  · rw [hentries, List.mem_append, List.mem_singleton] at hd
    rcases hd with hd | rfl
    · exact h.destWhole d hd
    · simp [hp, ha, hq]
  · rw [hentries, List.mem_append, List.mem_singleton] at hd
    rcases hd with hd | rfl
    · exact h.destInRange d hd a hda
    · rw [ha] at hda
      cases hda
  · rw [hentries]
    refine renameChain_append.mpr ⟨?_, fun a p hda => ?_, trivial⟩
    · rw [hundo]
      exact h.chain
    · rw [ha] at hda
      cases hda
  · rw [withEntry_younger hr hc e (hpipe.owner_occupied hcs hb).2, undoRenames_append, hundo]
    exact h.snapshots c hcs hb

/-- The register that a rename finds mapped. -/
theorem mapping_getElem? {s : State} (hs : s.ShapeInv) {a : Reg} (ha : a.val < s.cfg.numArch) :
    s.rat[a.val]? = some (s.mapping a) := by
  have hlt : a.val < s.rat.length := by rw [hs.ratLength]; exact ha
  simp [State.mapping, hlt]

theorem mapping_mem_rat {s : State} (hs : s.ShapeInv) {a : Reg} (ha : a.val < s.cfg.numArch) : s.mapping a ∈ s.rat :=
  List.mem_of_getElem? (mapping_getElem? hs ha)

/-- Without a stall an instruction with a destination finds a free register (51_rename_dispatch.md R201, R205). -/
theorem newTag_of_dest {s : State} {op : Op} {x : Operands} (hstall : s.stallReasons op x = []) {a : Reg}
    (ha : x.d = some a) : ∃ p, s.newTag x = some p ∧ p < s.prf.length ∧ (s.preg p).free = true := by
  obtain ⟨p, hp⟩ := Option.isSome_iff_exists.mp ((stallReasons_eq_nil.mp hstall).1 (by simp [ha]))
  obtain ⟨hlt, hfree, -⟩ := freeReg_eq_some.mp hp
  exact ⟨p, by simpa [State.newTag, ha] using hp, hlt, hfree⟩

theorem newTag_isSome {s : State} {op : Op} {x : Operands} (hstall : s.stallReasons op x = []) :
    (s.newTag x).isSome = x.d.isSome := by
  cases ha : x.d with
  | none => simp [State.newTag, ha]
  | some a =>
    obtain ⟨p, hp, -⟩ := newTag_of_dest hstall ha
    simp [hp]

/-- A tag that a rename takes was free (51_rename_dispatch.md R205). -/
theorem newTag_free {s : State} {x : Operands} {p : Nat} (h : s.newTag x = some p) :
    p < s.prf.length ∧ (s.preg p).free = true := by
  unfold State.newTag at h
  split at h
  · cases h
  · obtain ⟨hlt, hfree, -⟩ := freeReg_eq_some.mp h
    exact ⟨hlt, hfree⟩

theorem dispatched_preg (s : State) (op : Op) (x : Operands) (p : Nat) :
    (s.dispatched op x).preg p = if s.newTag x = some p then PhysReg.allocated (s.preg p) else s.preg p := by
  rw [preg_of_updatePrf (s := s) (t := s.dispatched op x) rfl]
  by_cases hq : s.newTag x = some p
  · rw [if_pos ⟨hq, newTag_lt hq⟩, if_pos hq]
  · rw [if_neg fun hboth => hq hboth.1, if_neg hq]

/-- The rename and its undoing (51_rename_dispatch.md R206; 53_recovery_commit.md R264). -/
theorem undo_newRobEntry {s : State} (hs : s.ShapeInv) {op : Op} {x : Operands} (hstall : s.stallReasons op x = [])
    (hd : ∀ r, x.d = some r → r.val < s.cfg.numArch) :
    undoRenames [s.newRobEntry op x] (s.renamedRat x) = s.rat := by
  cases ha : x.d with
  | none => simp [undoRename, State.newRobEntry, State.renamedRat, ha]
  | some a =>
    obtain ⟨p, hp, -⟩ := newTag_of_dest hstall ha
    have hrat : s.renamedRat x = s.rat.set a.val p := by simp [State.renamedRat, ha, hp]
    rw [undoRenames_cons, undoRenames_nil, hrat]
    exact undoRename_set (e := s.newRobEntry op x) (a := a) (q := s.mapping a) ha (by simp [State.newRobEntry, ha])
      (mapping_getElem? hs (hd a ha))

theorem dispatched_entries {s : State} (hr : s.RingInv) {op : Op} {x : Operands}
    (hc : s.count ≠ s.cfg.robSize) : (s.dispatched op x).entries = s.entries ++ [s.newRobEntry op x] :=
  withEntry_entries hr (s.newRobEntry op x) hc

/-- Dispatch takes the new destination register into use (51_rename_dispatch.md R205, R206). -/
theorem dispatched_inUse_perm {s : State} (hr : s.RingInv) (hs : s.ShapeInv) {op : Op} {x : Operands}
    (hstall : s.stallReasons op x = []) (hd : ∀ r, x.d = some r → r.val < s.cfg.numArch) :
    (s.dispatched op x).inUse.Perm ((s.newTag x).toList ++ s.inUse) := by
  obtain ⟨-, -, -, hc⟩ := stallReasons_eq_nil.mp hstall
  have hheld : (s.dispatched op x).heldPrevious = s.heldPrevious ++ (x.d.map s.mapping).toList := by
    rw [State.heldPrevious, dispatched_entries hr hc, List.filterMap_append]
    cases ha : x.d <;> simp [State.heldPrevious, State.newRobEntry, ha]
  rw [State.inUse, hheld]
  show (s.renamedRat x ++ _).Perm _
  cases ha : x.d with
  | none => simp [State.renamedRat, State.newTag, ha, State.inUse]
  | some a =>
    obtain ⟨p, hp, -⟩ := newTag_of_dest hstall ha
    have hset := cons_set_perm (y := p) (mapping_getElem? hs (hd a ha))
    simp only [State.renamedRat, ha, hp, Option.map_some, Option.toList_some, State.inUse]
    calc (s.rat.set a.val p ++ (s.heldPrevious ++ [s.mapping a])).Perm
          (s.rat.set a.val p ++ (s.mapping a :: s.heldPrevious)) := (List.perm_append_singleton _ _).append_left _
      _ |>.Perm (s.mapping a :: s.rat.set a.val p ++ s.heldPrevious) := List.perm_middle
      _ |>.Perm ([p] ++ (s.rat ++ s.heldPrevious)) := hset.append_right _

/-- Dispatch enters the new rename in the books (51_rename_dispatch.md R205, R206, R208). -/
theorem State.RenameInv.dispatched {s : State} (hr : s.RingInv) (hs : s.ShapeInv) (hpipe : s.PipeInv)
    (h : s.RenameInv) {op : Op} {x : Operands} (hstall : s.stallReasons op x = [])
    (hd : ∀ r, x.d = some r → r.val < s.cfg.numArch) : (s.dispatched op x).RenameInv := by
  obtain ⟨-, -, -, hc⟩ := stallReasons_eq_nil.mp hstall
  have hentries := dispatched_entries hr (op := op) (x := x) hc
  have hperm := dispatched_inUse_perm hr hs hstall hd
  have hundo := undo_newRobEntry hs hstall hd
  have hfresh : ∀ p, s.newTag x = some p → p ∉ s.inUse := fun p hp hin => by
    have hfree := (newTag_free hp).2
    rw [h.inUse_not_free hs hin] at hfree
    cases hfree
  refine ⟨?_, fun p hp => ?_, fun p hp => ?_, fun d hdm => ?_, fun d hdm a ha => ?_, ?_, fun c hcs hb => ?_⟩
  · refine List.Nodup.perm ?_ hperm.symm
    cases hp : s.newTag x with
    | none => exact h.inUseDistinct
    | some p => exact List.nodup_cons.mpr ⟨hfresh p hp, h.inUseDistinct⟩
  · show _ ↔ p ∈ (s.dispatched op x).inUse
    rw [hperm.mem_iff, List.mem_append, dispatched_preg, Option.mem_toList]
    split
    · next hq => simp [PhysReg.allocated, hq]
    · next hq => simpa [hq, State.inUse] using h.inUseIff p hp
  · have hin : p ∈ (s.dispatched op x).inUse := List.mem_append_right _ hp
    rw [hperm.mem_iff, List.mem_append, Option.mem_toList] at hin
    rcases hin with hnew | hin
    · exact hs.prfLength ▸ newTag_lt hnew
    · exact h.inUse_lt hs hin
  · rw [hentries, List.mem_append, List.mem_singleton] at hdm
    rcases hdm with hdm | rfl
    · exact h.destWhole d hdm
    · exact ⟨newTag_isSome hstall, Option.isSome_map⟩
  · rw [hentries, List.mem_append, List.mem_singleton] at hdm
    rcases hdm with hdm | rfl
    · exact h.destInRange d hdm a ha
    · exact hd a ha
  · rw [hentries]
    refine renameChain_append.mpr ⟨?_, fun a p ha hp => ?_, trivial⟩
    · show RenameChain (undoRenames _ (s.renamedRat x)) _
      rw [hundo]
      exact h.chain
    · have ha : x.d = some a := ha
      have hp : s.newTag x = some p := hp
      have hlt : a.val < s.rat.length := by rw [hs.ratLength]; exact hd a ha
      show (s.renamedRat x)[a.val]? = some p
      simp [State.renamedRat, ha, hp, hlt]
  · show c.ratSnap = undoRenames ((s.withEntry (s.newRobEntry op x)).youngerEntries c.owner) (s.renamedRat x)
    rcases mem_checkpointed hcs with hcs | rfl
    · rw [withEntry_younger hr hc _ (hpipe.owner_occupied hcs hb).2, undoRenames_append, hundo]
      exact h.snapshots c hcs hb
    · have hall : (s.withEntry (s.newRobEntry op x)).youngerEntries s.tail = [] := by
        rw [youngerEntries_eq_drop (hr.withEntry _ hc), withEntry_entries hr _ hc]
        refine List.drop_of_length_le ?_
        rw [List.length_append, entries_length hr]
        show s.count + 1 ≤ s.age s.tail + 1
        rw [age_tail hr hc]
      rw [hall]
      rfl

end Sys2Proof.Machine

namespace Sys2Proof.Machine

/-! ## Results and the operands that wait for them (51_rename_dispatch.md R216 items 4 and 5)

`OperandInv` exempts a JAL in branch stage 2 from having no value yet. `State.ResultInv` is the same invariant with the
exempted instructions as a parameter, so that a unit's write and its completion are two steps that each keep it. -/

/-- Each pending instruction writes its own register once, `written` being the ROB indices of those that have. -/
structure State.ResultInv (s : State) (written : Nat → Prop) : Prop where
  carriedDest : ∀ x ∈ s.pendingDests, ∀ e, s.robAt x.2.1 = some e → e.pdst = x.2.2
  destByOpcode : ∀ x ∈ s.pendingDests, x.2.2.isSome = Op.writesDest x.1
  destUnwritten : ∀ x ∈ s.pendingDests, ¬ written x.2.1 → ∀ p, x.2.2 = some p → (s.preg p).valid = false
  destWritten : ∀ x ∈ s.pendingDests, written x.2.1 → ∀ p, x.2.2 = some p → (s.preg p).valid = true
  doneWritten : ∀ e ∈ s.entries, e.done = true → e.exc = .none → ∀ p, e.pdst = some p → (s.preg p).valid = true
  unwrittenInFlight : ∀ p ∈ s.inUse, (s.preg p).valid = false → ∃ e ∈ s.entries, e.pdst = some p
  waitingProduced : ∀ e ∈ s.iq, ∀ o, o = e.a ∨ o = e.b → o.ready = false →
    ∃ p, o.tag = some p ∧ (s.preg p).valid = false ∧ s.olderProducer e.rob p

/-- The instruction at r sits in branch stage 2, its link written. -/
def State.linked (s : State) (r : Nat) : Prop := ∃ o, s.uBr.occ = some o ∧ s.uBr.stage = .two ∧ o.rob = r

theorem mem_pendingDests {s : State} {x : Op × Nat × Option Nat} :
    x ∈ s.pendingDests ↔ (∃ e ∈ s.iq, (e.op, e.rob, e.pdst) = x) ∨ ∃ o ∈ s.occupants, (o.op, o.rob, o.pdst) = x := by
  simp [State.pendingDests]

theorem pendingDests_of_occupant {s : State} {o : Occupant} (h : o ∈ s.occupants) :
    (o.op, o.rob, o.pdst) ∈ s.pendingDests :=
  mem_pendingDests.mpr (.inr ⟨o, h, rfl⟩)

theorem pendingDests_pending (s : State) : s.pendingDests.map (fun x => (x.1, x.2.1)) = s.pending := by
  simp [State.pendingDests, State.pending, Function.comp_def]

theorem pending_of_pendingDests {s : State} {x : Op × Nat × Option Nat} (h : x ∈ s.pendingDests) :
    (x.1, x.2.1) ∈ s.pending :=
  pendingDests_pending s ▸ List.mem_map_of_mem h

theorem State.PipeInv.destOpen {s : State} (h : s.PipeInv) {x : Op × Nat × Option Nat} (hx : x ∈ s.pendingDests) :
    s.openEntry x.1 x.2.1 :=
  h.pendingOpen _ (pending_of_pendingDests hx)

/-- A pending instruction is known by its ROB index. -/
theorem State.PipeInv.pendingDests_inj {s : State} (h : s.PipeInv) {x y : Op × Nat × Option Nat}
    (hx : x ∈ s.pendingDests) (hy : y ∈ s.pendingDests) (hxy : x.2.1 = y.2.1) : x = y := by
  have hnodup : (s.pendingDests.map fun x => x.2.1).Nodup := by
    have := h.pendingDistinct
    rw [← pendingDests_pending, List.map_map] at this
    exact this
  exact List.inj_on_of_nodup_map hnodup hx hy hxy

/-- A pending instruction's destination is that of an entry in flight. -/
theorem State.ResultInv.dest_entry {s : State} {written : Nat → Prop} (h : s.ResultInv written)
    (hp : ∀ y ∈ s.pending, s.openEntry y.1 y.2) {x : Op × Nat × Option Nat} (hx : x ∈ s.pendingDests) :
    ∃ e, x.2.1 < s.cfg.robSize ∧ s.robAt x.2.1 = some e ∧ e.pdst = x.2.2 := by
  obtain ⟨hlt, -, e, he, -⟩ := hp _ (pending_of_pendingDests hx)
  exact ⟨e, hlt, he, h.carriedDest x hx e he⟩

/-- A pending instruction's destination is in use (51_rename_dispatch.md R216 item 5). -/
theorem State.ResultInv.dest_inUse {s : State} {written : Nat → Prop} (h : s.ResultInv written) (hr : s.RingInv)
    (hp : ∀ y ∈ s.pending, s.openEntry y.1 y.2) (hn : s.RenameInv) {x : Op × Nat × Option Nat}
    (hx : x ∈ s.pendingDests) {p : Nat} (hpd : x.2.2 = some p) : p ∈ s.inUse := by
  obtain ⟨e, hlt, he, hd⟩ := h.dest_entry hp hx
  exact hn.pdst_inUse (mem_entries_of_robAt hr hlt he) (hd.trans hpd)

/-- `OperandInv` is `ResultInv` with the link in branch stage 2 as the one written result; the rest of it follows from
the books of renaming. -/
theorem operandInv_iff {s : State} (hr : s.RingInv) (hs : s.ShapeInv) (hp : s.PipeInv) (hn : s.RenameInv) :
    s.OperandInv ↔ s.ResultInv s.linked := by
  constructor
  · intro h
    refine ⟨h.carriedDest, h.destByOpcode, fun x hx hnot => h.destUnwritten x hx fun o ho hst heq =>
      hnot ⟨o, ho, hst, heq⟩, fun x hx hlink p hpd => ?_, h.doneWritten, h.unwrittenInFlight, h.waitingProduced⟩
    obtain ⟨o, ho, hst, heq⟩ := hlink
    have hmem := pendingDests_of_occupant (mem_occupants.mpr (.inr (.inr (.inr ho))))
    obtain rfl := hp.pendingDests_inj hmem hx heq
    exact h.linkWritten o p ho hst hpd
  · intro h
    exact {
      carriedDest := h.carriedDest
      destByOpcode := h.destByOpcode
      destInUse := fun x hx p hpd => hn.inUse_not_free hs (h.dest_inUse hr hp.pendingOpen hn hx hpd)
      destUnwritten := fun x hx hnot => h.destUnwritten x hx fun ⟨o, ho, hst, heq⟩ => hnot o ho hst heq
      doneWritten := h.doneWritten
      linkWritten := fun o p ho hst hpd =>
        h.destWritten _ (pendingDests_of_occupant (mem_occupants.mpr (.inr (.inr (.inr ho))))) ⟨o, ho, hst, rfl⟩ p hpd
      unwrittenInFlight := h.unwrittenInFlight
      waitingProduced := h.waitingProduced }

/-- Which results count as written matters only for the pending instructions. -/
theorem State.ResultInv.congr {s : State} {written written' : Nat → Prop} (h : s.ResultInv written)
    (hw : ∀ x ∈ s.pendingDests, written x.2.1 ↔ written' x.2.1) : s.ResultInv written' :=
  { h with
    destUnwritten := fun x hx hnot => h.destUnwritten x hx fun hold => hnot ((hw x hx).mp hold)
    destWritten := fun x hx hnew => h.destWritten x hx ((hw x hx).mpr hnew) }

/-- The results stay as they are when instructions only leave, and what completes has written its destination. -/
theorem State.ResultInv.of_frame {s t : State} {written : Nat → Prop} (h : s.ResultInv written) (cfg : t.cfg = s.cfg)
    (head : t.head = s.head) (count : t.count = s.count) (rat : t.rat = s.rat)
    (valid : ∀ p, (t.preg p).valid = (s.preg p).valid)
    (dest : ∀ r, (t.robAt r).map RobEntry.dest = (s.robAt r).map RobEntry.dest)
    (complete : ∀ r e, t.robAt r = some e → e.done = true → e.exc = .none →
      (∃ d, s.robAt r = some d ∧ d.done = true ∧ d.exc = .none) ∨ ∀ p, e.pdst = some p → (s.preg p).valid = true)
    (pending : ∀ x ∈ t.pendingDests, x ∈ s.pendingDests) (queue : ∀ e ∈ t.iq, e ∈ s.iq) : t.ResultInv written := by
  have hentries := entries_dest_congr cfg head count dest
  have hinUse : t.inUse = s.inUse := by
    rw [State.inUse, State.inUse, rat]
    exact congrArg (s.rat ++ ·) (filterMap_congr_dest hentries)
  have pdst : ∀ {r e}, t.robAt r = some e → ∃ d, s.robAt r = some d ∧ d.pdst = e.pdst := fun {r e} he => by
    have hr := dest r
    rw [he] at hr
    obtain ⟨d, hd, heq⟩ := Option.map_eq_some_iff.mp hr.symm
    exact ⟨d, hd, congrArg Prod.fst heq⟩
  have pdst' : ∀ {r e}, s.robAt r = some e → ∃ d, t.robAt r = some d ∧ d.pdst = e.pdst := fun {r e} he => by
    have hr := dest r
    rw [he] at hr
    obtain ⟨d, hd, heq⟩ := Option.map_eq_some_iff.mp hr
    exact ⟨d, hd, congrArg Prod.fst heq⟩
  refine ⟨fun x hx e he => ?_, fun x hx => h.destByOpcode x (pending x hx), fun x hx hnot p hpd => ?_,
    fun x hx hw p hpd => ?_, fun e he hd hx p hpd => ?_, fun p hp hv => ?_, fun e he o ho hready => ?_⟩
  · obtain ⟨d, hd, heq⟩ := pdst he
    exact heq.symm.trans (h.carriedDest x (pending x hx) d hd)
  · exact (valid p).trans (h.destUnwritten x (pending x hx) hnot p hpd)
  · exact (valid p).trans (h.destWritten x (pending x hx) hw p hpd)
  · obtain ⟨k, hk, he⟩ := mem_entries.mp he
    rw [valid]
    rcases complete _ e he hd hx with ⟨d, hds, hdd, hdx⟩ | hwritten
    · obtain ⟨d', hd', heq⟩ := pdst he
      obtain rfl := Option.some.inj (hds.symm.trans hd')
      refine h.doneWritten d (mem_entries.mpr ⟨k, count ▸ hk, ?_⟩) hdd hdx p (heq.trans hpd)
      rwa [robIndex_congr cfg head] at hds
    · exact hwritten p hpd
  · rw [hinUse] at hp
    rw [valid] at hv
    obtain ⟨e, he, hep⟩ := h.unwrittenInFlight p hp hv
    obtain ⟨k, hk, he⟩ := mem_entries.mp he
    obtain ⟨d, hd, heq⟩ := pdst' he
    exact ⟨d, mem_entries.mpr ⟨k, count.symm ▸ hk, by rwa [robIndex_congr cfg head]⟩, heq.trans hep⟩
  · obtain ⟨p, htag, hv, k, w, hk, hkc, hw, hwp⟩ := h.waitingProduced e (queue e he) o ho hready
    obtain ⟨d, hd, heq⟩ := pdst' hw
    exact ⟨p, htag, (valid p).trans hv, k, d, by rwa [age_congr cfg head], count.symm ▸ hkc,
      by rwa [robIndex_congr cfg head], heq.trans hwp⟩

/-! ### A unit's write and completion -/

theorem writeBack_valid (s : State) (q : Option Nat) (v : Int) (p : Nat) :
    ((s.writeBack q v).preg p).valid = if q = some p ∧ p < s.prf.length then true else (s.preg p).valid := by
  rw [preg_of_updatePrf (s := s) (t := s.writeBack q v) rfl]
  split <;> rfl

theorem writeBack_free (s : State) (q : Option Nat) (v : Int) (p : Nat) :
    ((s.writeBack q v).preg p).free = (s.preg p).free := by
  rw [preg_of_updatePrf (s := s) (t := s.writeBack q v) rfl]
  split <;> rfl

/-- A register without a value after a write-back had none before. -/
theorem valid_of_writeBack {s : State} {q : Option Nat} {v : Int} {p : Nat}
    (h : ((s.writeBack q v).preg p).valid = false) : (s.preg p).valid = false := by
  rw [writeBack_valid] at h
  split at h
  · cases h
  · exact h

theorem valid_writeBack_of_valid {s : State} (q : Option Nat) (v : Int) {p : Nat} (h : (s.preg p).valid = true) :
    ((s.writeBack q v).preg p).valid = true := by
  rw [writeBack_valid, h, ite_self]

@[simp] theorem writeBack_pendingDests (s : State) (q : Option Nat) (v : Int) :
    (s.writeBack q v).pendingDests = s.pendingDests := by
  simp [State.pendingDests, State.occupants, IqEntry.wake, Function.comp_def]

/-- An operand that a broadcast leaves waiting was waiting for another register (52_issue_units.md R239). -/
theorem Operand.of_wake_waiting {q : Option Nat} {v : Int} {o : Operand} (h : (o.wake q v).ready = false) :
    o.wake q v = o ∧ ∀ p, q = some p → o.tag ≠ some p := by
  cases q with
  | none => exact ⟨Operand.wake_none v o, fun _ hp => nomatch hp⟩
  | some q =>
    rw [Operand.wake_some] at h ⊢
    split at h
    · cases h
    · next hnot =>
      refine ⟨if_neg hnot, fun p hp htag => hnot ⟨?_, h⟩⟩
      rw [htag, hp]

/-- A pending instruction writes its destination: its result is written, and what waited for it does not wait
(52_issue_units.md R239). -/
theorem State.ResultInv.writeBack {s : State} {written : Nat → Prop} (hr : s.RingInv) (hs : s.ShapeInv)
    (hp : s.PipeInv) (hn : s.RenameInv) (h : s.ResultInv written) {x : Op × Nat × Option Nat}
    (hx : x ∈ s.pendingDests) (v : Int) : (s.writeBack x.2.2 v).ResultInv fun r => written r ∨ r = x.2.1 := by
  obtain ⟨d, hxlt, hd, hdp⟩ := h.dest_entry hp.pendingOpen hx
  refine ⟨fun y hy => h.carriedDest y (by simpa using hy), fun y hy => h.destByOpcode y (by simpa using hy),
    fun y hy hnot p hpd => ?_, fun y hy hw p hpd => ?_, fun e he hdone hexc p hpd => ?_, fun p hpin hv => ?_,
    fun e he o ho hready => ?_⟩
  · rw [writeBack_pendingDests] at hy
    rw [not_or] at hnot
    obtain ⟨e, hylt, he, hep⟩ := h.dest_entry hp.pendingOpen hy
    rw [writeBack_valid, if_neg fun hsame => ?_]
    · exact h.destUnwritten y hy hnot.1 p hpd
    · exact hnot.2 (hn.entry_of_pdst hr hylt hxlt he hd (hep.trans hpd) (hdp.trans hsame.1))
  · rw [writeBack_pendingDests] at hy
    rcases hw with hw | heq
    · exact valid_writeBack_of_valid _ v (h.destWritten y hy hw p hpd)
    · obtain rfl := hp.pendingDests_inj hy hx heq
      have hlt := hn.inUse_lt hs (h.dest_inUse hr hp.pendingOpen hn hy hpd)
      rw [writeBack_valid, if_pos ⟨hpd, hs.prfLength.symm ▸ hlt⟩]
  · exact valid_writeBack_of_valid _ v (h.doneWritten e he hdone hexc p hpd)
  · exact h.unwrittenInFlight p hpin (valid_of_writeBack hv)
  · rw [writeBack_iq] at he
    obtain ⟨f, hf, rfl⟩ := List.mem_map.mp he
    obtain ⟨b, hb, hob⟩ : ∃ b, (b = f.a ∨ b = f.b) ∧ o = b.wake x.2.2 v :=
      ho.elim (fun ha => ⟨f.a, .inl rfl, ha⟩) fun hb => ⟨f.b, .inr rfl, hb⟩
    rw [hob] at hready ⊢
    obtain ⟨hsame, hother⟩ := Operand.of_wake_waiting hready
    rw [hsame] at hready ⊢
    obtain ⟨p, htag, hv, hprod⟩ := h.waitingProduced f hf b hb hready
    refine ⟨p, htag, ?_, hprod⟩
    rw [writeBack_valid, if_neg fun hboth => hother p hboth.1 htag]
    exact hv

/-- A change that keeps an entry's destination fields keeps those of the buffer. -/
theorem modifyRob_dest (s : State) (r : Nat) {f : RobEntry → RobEntry} (hf : ∀ e, (f e).dest = e.dest) (x : Nat) :
    ((s.modifyRob r f).robAt x).map RobEntry.dest = (s.robAt x).map RobEntry.dest := by
  rw [modifyRob_robAt]
  split
  · next hx =>
    subst hx
    cases s.robAt x with
    | none => rfl
    | some e => exact congrArg some (hf e)
  · rfl

theorem complete_dest (s : State) (r x : Nat) :
    ((s.complete r).robAt x).map RobEntry.dest = (s.robAt x).map RobEntry.dest :=
  modifyRob_dest s r (f := fun e => { e with done := true }) (fun _ => rfl) x

/-- The instruction x leaves its unit and completes, its result written or forbidden by an exception
(52_issue_units.md R240). -/
theorem State.ResultInv.finish {s t : State} {written : Nat → Prop} (h : s.ResultInv written)
    {x : Op × Nat × Option Nat} (hx : x ∈ s.pendingDests) (cfg : t.cfg = s.cfg) (head : t.head = s.head)
    (count : t.count = s.count) (rat : t.rat = s.rat) (prf : t.prf = s.prf) (queue : t.iq = s.iq)
    (rob : t.rob = (s.complete x.2.1).rob) (pending : ∀ y ∈ t.pendingDests, y ∈ s.pendingDests)
    (outcome : written x.2.1 ∨ s.noExc x.2.1 = false) : t.ResultInv written := by
  have hrob : ∀ r, t.robAt r = (s.complete x.2.1).robAt r := fun r => by rw [State.robAt, rob, State.robAt]
  refine h.of_frame cfg head count rat (fun p => by rw [State.preg, prf, State.preg])
    (fun r => by rw [hrob, complete_dest]) (fun r e he hd hexc => ?_) pending fun e he => queue ▸ he
  rw [hrob, complete_robAt] at he
  split at he
  · next hrx =>
    obtain ⟨d, hds, rfl⟩ := Option.map_eq_some_iff.mp he
    rcases outcome with hw | hno
    · exact .inr fun p hpd => h.destWritten x hx hw p ((h.carriedDest x hx d hds).symm.trans hpd)
    · have hyes : s.noExc x.2.1 = true := noExc_iff.mpr ⟨d, hds, hexc⟩
      rw [hno] at hyes
      cases hyes
  · exact .inl ⟨e, he, hd, hexc⟩

/-! ### Commit, recovery and dispatch -/

/-- A retired entry has written its destination, so nothing waits for it (53_recovery_commit.md R273). -/
theorem State.ResultInv.retire {s : State} {written : Nat → Prop} (hr : s.RingInv) (hp : s.PipeInv)
    (h : s.ResultInv written) {e : RobEntry} (hc : s.count ≠ 0) (he : s.robAt s.head = some e) (hd : e.done = true)
    (hexc : e.exc = .none) : (s.retire e).ResultInv written := by
  have hentries := retire_entries hr hc he
  have hmem : ∀ d ∈ (s.retire e).entries, d ∈ s.entries := fun d hd => hentries ▸ List.mem_cons_of_mem _ hd
  have hvalid : ∀ p, ((s.retire e).preg p).valid = (s.preg p).valid := fun p => by
    rw [preg_of_updatePrf (s := s) (t := s.retire e) (f := PhysReg.freed) rfl]
    split <;> rfl
  have hwritten := h.doneWritten e (hentries ▸ List.mem_cons_self) hd hexc
  have hinUse : ∀ p ∈ (s.retire e).inUse, p ∈ s.inUse := fun p hpin => by
    rcases List.mem_append.mp hpin with hrat | hheld
    · exact List.mem_append_left _ hrat
    · obtain ⟨d, hdm, hdq⟩ := List.mem_filterMap.mp hheld
      exact List.mem_append_right _ (List.mem_filterMap.mpr ⟨d, hmem d hdm, hdq⟩)
  refine ⟨fun x hx d hdr => ?_, h.destByOpcode,
    fun x hx hnot p hpd => (hvalid p).trans (h.destUnwritten x hx hnot p hpd),
    fun x hx hw p hpd => (hvalid p).trans (h.destWritten x hx hw p hpd),
    fun d hdm hdd hdx p hpd => (hvalid p).trans (h.doneWritten d (hmem d hdm) hdd hdx p hpd), fun p hpin hv => ?_,
    fun f hf o ho hready => ?_⟩
  · rw [retire_robAt hr] at hdr
    split at hdr
    · cases hdr
    · exact h.carriedDest x hx d hdr
  · rw [hvalid] at hv
    obtain ⟨d, hdm, hdp⟩ := h.unwrittenInFlight p (hinUse p hpin) hv
    rw [hentries] at hdm
    rcases List.mem_cons.mp hdm with rfl | hdm
    · rw [hwritten p hdp] at hv
      cases hv
    · exact ⟨d, hdm, hdp⟩
  · obtain ⟨p, htag, hv, k, w, hk, hkc, hw, hwp⟩ := h.waitingProduced f hf o ho hready
    have hne : s.robIndex k ≠ s.head := fun heq => by
      rw [heq, he] at hw
      cases hw
      rw [hwritten p hwp] at hv
      cases hv
    have hpos : k ≠ 0 := fun h0 => hne (by subst h0; exact Nat.mod_eq_of_lt hr.headBound)
    have hopen : s.openEntry f.op f.rob := hp.pendingOpen _ (pending_of_iq hf)
    have hage := retire_age e hr.headBound hopen.1
    rw [if_neg (ne_of_openEntry hopen he hd)] at hage
    have hindex : (s.retire e).robIndex (k - 1) = s.robIndex k := by
      show ((s.head + 1) % s.cfg.robSize + (k - 1)) % s.cfg.robSize = (s.head + k) % s.cfg.robSize
      rw [Nat.mod_add_mod]
      congr 1
      omega
    refine ⟨p, htag, (hvalid p).trans hv, k - 1, w, ?_, ?_, ?_, hwp⟩
    · rw [hage]
      omega
    · show k - 1 < s.count - 1
      omega
    · rw [hindex, retire_robAt hr, if_neg hne, hw]

/-- What is pending after a recovery was pending before it. -/
theorem recoverFrom_pendingDests {s : State} {b : Nat} {target : Int} {c : Ckpt} {x : Op × Nat × Option Nat}
    (hx : x ∈ (s.recoverFrom b target c).pendingDests) : x ∈ s.pendingDests := by
  rcases mem_pendingDests.mp hx with ⟨e, he, rfl⟩ | ⟨o, ho, rfl⟩
  · exact mem_pendingDests.mpr (.inl ⟨e, List.mem_of_mem_filter he, rfl⟩)
  · refine pendingDests_of_occupant (mem_occupants.mpr ?_)
    simp only [mem_occupants, State.recoverFrom, State.flushedOcc, Option.filter_eq_some_iff] at ho
    tauto

/-- Recovery discards the results of younger instructions only (53_recovery_commit.md R261 to R265). -/
theorem State.ResultInv.recoverFrom {s : State} (hpol : s.cfg.restorePolicy = .selective)
    (hr : s.RingInv) (hs : s.ShapeInv) (hp : ∀ y ∈ s.pending, s.openEntry y.1 y.2) (hn : s.RenameInv)
    (h : s.ResultInv fun _ => False) (target : Int) {c : Ckpt} (hc : c ∈ s.ck) (hb : c.busy = true)
    (hocc : s.occupied c.owner = true) : (s.recoverFrom c.owner target c).ResultInv fun _ => False := by
  have hentries := recoverFrom_entries hr target c hocc
  have hmem : ∀ e ∈ (s.recoverFrom c.owner target c).entries, e ∈ s.entries := fun e he =>
    hentries ▸ List.mem_append_left _ he
  have hperm := recoverFrom_inUse_perm hr hn target hc hb hocc
  have hdistinct := (List.nodup_append.mp (hn.inUseDistinct.perm hperm)).2.2
  have hrename := hn.recoverFrom hpol hr hs target hc hb hocc
  have hkept : ∀ p ∈ (s.recoverFrom c.owner target c).inUse,
      (s.recoverFrom c.owner target c).preg p = s.preg p := fun p hpin => by
    have hlt := hn.inUse_lt hs (hperm.mem_iff.mpr (List.mem_append_left _ hpin))
    rw [recoverFrom_preg hpol _ _ _ (hs.prfLength.symm ▸ hlt), if_neg fun hin => hdistinct p hpin p hin rfl]
  have hinvalid : ∀ p ∈ s.inUse, (s.preg p).valid = false →
      ((s.recoverFrom c.owner target c).preg p).valid = false := fun p hpin hv => by
    rw [recoverFrom_preg hpol _ _ _ (hs.prfLength.symm ▸ hn.inUse_lt hs hpin)]
    split
    · rfl
    · exact hv
  refine ⟨fun x hx e he => ?_, fun x hx => h.destByOpcode x (recoverFrom_pendingDests hx), fun x hx _ p hpd => ?_,
    fun _ _ hw => hw.elim, fun e he hd hx p hpd => ?_, fun p hpin hv => ?_, fun e he o ho hready => ?_⟩
  · rw [recoverFrom_robAt] at he
    split at he
    · cases he
    · exact h.carriedDest x (recoverFrom_pendingDests hx) e he
  · have hx := recoverFrom_pendingDests hx
    exact hinvalid p (h.dest_inUse hr hp hn hx hpd) (h.destUnwritten x hx id p hpd)
  · rw [hkept p (hrename.pdst_inUse he hpd)]
    exact h.doneWritten e (hmem e he) hd hx p hpd
  · rw [hkept p hpin] at hv
    obtain ⟨e, he, hep⟩ := h.unwrittenInFlight p (hperm.mem_iff.mpr (List.mem_append_left _ hpin)) hv
    rw [hentries] at he
    rcases List.mem_append.mp he with he | hyoung
    · exact ⟨e, he, hep⟩
    · exact absurd rfl (hdistinct p hpin p (List.mem_filterMap.mpr ⟨e, hyoung, hep⟩))
  · obtain ⟨he, hage⟩ := List.mem_filter.mp he
    have hage : s.age e.rob ≤ s.age c.owner := not_youngerThan_iff.mp hage
    obtain ⟨p, htag, hv, k, w, hk, hkc, hw, hwp⟩ := h.waitingProduced e he o ho hready
    have hpin := hn.pdst_inUse (mem_entries.mpr ⟨k, hkc, hw⟩) hwp
    refine ⟨p, htag, hinvalid p hpin hv, k, w, hk, ?_, ?_, hwp⟩
    · show k < s.age c.owner + 1
      omega
    · show (s.recoverFrom c.owner target c).robAt (s.robIndex k) = some w
      rw [recoverFrom_robAt, age_robIndex (Nat.lt_of_lt_of_le hkc hr.countBound) hr.headBound, if_neg (by omega)]
      exact hw

/-- A producer stays one when an entry is added (51_rename_dispatch.md R210). -/
theorem olderProducer_withEntry {s : State} (hr : s.RingInv) (hc : s.count ≠ s.cfg.robSize) (e : RobEntry) {r p : Nat}
    (h : s.olderProducer r p) : (s.withEntry e).olderProducer r p := by
  obtain ⟨k, w, hk, hkc, hw, hwp⟩ := h
  refine ⟨k, w, hk, Nat.lt_succ_of_lt hkc, ?_, hwp⟩
  have hne : s.robIndex k ≠ s.tail := fun heq => by
    have hage := congrArg s.age heq
    rw [age_tail hr hc, age_robIndex (Nat.lt_of_lt_of_le hkc hr.countBound) hr.headBound] at hage
    omega
  show (s.withEntry e).robAt (s.robIndex k) = some w
  rw [withEntry_robAt hr, if_neg hne, hw]

/-- A new entry without a destination changes no result (51_rename_dispatch.md R212). -/
theorem State.ResultInv.withEntry {s : State} {written : Nat → Prop} (hr : s.RingInv) (hp : s.PipeInv)
    (h : s.ResultInv written) (hc : s.count ≠ s.cfg.robSize) {e : RobEntry} (hpdst : e.pdst = none)
    (hpprev : e.pprev = none) : (s.withEntry e).ResultInv written := by
  have hentries := withEntry_entries hr e hc
  refine ⟨fun x hx d hd => ?_, h.destByOpcode, h.destUnwritten, h.destWritten, fun d hd hdone hexc p hpd => ?_,
    fun p hpin hv => ?_, fun f hf o ho hready => ?_⟩
  · rw [withEntry_robAt hr, if_neg (openEntry_withEntry hr hc e (hp.destOpen hx)).1] at hd
    exact h.carriedDest x hx d hd
  · rw [hentries, List.mem_append, List.mem_singleton] at hd
    rcases hd with hd | rfl
    · exact h.doneWritten d hd hdone hexc p hpd
    · rw [hpdst] at hpd
      cases hpd
  · have hpin : p ∈ s.rat ++ (s.withEntry e).heldPrevious := hpin
    rw [withEntry_heldPrevious hr hc hpprev] at hpin
    obtain ⟨d, hd, hdp⟩ := h.unwrittenInFlight p hpin hv
    exact ⟨d, hentries ▸ List.mem_append_left _ hd, hdp⟩
  · obtain ⟨p, htag, hv, hprod⟩ := h.waitingProduced f hf o ho hready
    exact ⟨p, htag, hv, olderProducer_withEntry hr hc e hprod⟩

/-- A resolved operand that is not ready names a mapped register without a value (51_rename_dispatch.md R204). -/
theorem resolve_waiting {s : State} {src : Option Reg} (h : (s.resolve src).ready = false) :
    ∃ a, src = some a ∧ (s.resolve src).tag = some (s.mapping a) ∧ (s.preg (s.mapping a)).valid = false := by
  cases src with
  | none => cases h
  | some a =>
    refine ⟨a, rfl, ?_⟩
    unfold State.resolve at h ⊢
    cases hv : (s.preg (s.mapping a)).valid
    · simp [hv]
    · simp [hv] at h

theorem dispatched_pendingDests {s : State} {op : Op} {x : Operands} {y : Op × Nat × Option Nat} :
    y ∈ (s.dispatched op x).pendingDests ↔ y ∈ s.pendingDests ∨ y = (op, s.tail, s.newTag x) := by
  have hocc : (s.dispatched op x).occupants = s.occupants := rfl
  have hiq : (s.dispatched op x).iq = s.iq ++ [s.newIqEntry op x] := rfl
  simp only [State.pendingDests, hocc, hiq, State.newIqEntry, List.map_append, List.map_cons, List.map_nil,
    List.mem_append, List.mem_singleton]
  tauto

/-- What dispatch needs of an instruction's row of the operand map (30_encoding.md R86, R87). -/
structure Operands.Legal (numArch : Nat) (op : Op) (x : Operands) : Prop where
  a : ∀ r, x.a = some r → r.val < numArch
  b : ∀ r, x.b = some r → r.val < numArch
  d : ∀ r, x.d = some r → r.val < numArch
  dest : x.d.isSome = Op.writesDest op

/-- The new instruction has an unwritten destination of its own, and waits only for instructions in flight
(51_rename_dispatch.md R204 to R206). -/
theorem State.ResultInv.dispatched {s : State} {written : Nat → Prop} (hr : s.RingInv) (hs : s.ShapeInv)
    (hp : s.PipeInv) (hn : s.RenameInv) (h : s.ResultInv written) {op : Op} {x : Operands}
    (hstall : s.stallReasons op x = []) (hx : x.Legal s.cfg.numArch op) (hw : ¬ written s.tail) :
    (s.dispatched op x).ResultInv written := by
  obtain ⟨-, -, -, hc⟩ := stallReasons_eq_nil.mp hstall
  have hentries := dispatched_entries hr (op := op) (x := x) hc
  have hrob := withEntry_robAt hr (s.newRobEntry op x)
  have hold : ∀ p ∈ s.inUse, (s.dispatched op x).preg p = s.preg p := fun p hpin => by
    rw [dispatched_preg, if_neg fun hnew => ?_]
    have hfree := (newTag_free hnew).2
    rw [hn.inUse_not_free hs hpin] at hfree
    cases hfree
  have hnew : ∀ p, s.newTag x = some p → ((s.dispatched op x).preg p).valid = false := fun p hnew => by
    rw [dispatched_preg, if_pos hnew]
    rfl
  refine ⟨fun y hy d hd => ?_, fun y hy => ?_, fun y hy hnot p hpd => ?_, fun y hy hyw p hpd => ?_,
    fun d hd hdone hexc p hpd => ?_, fun p hpin hv => ?_, fun f hf o ho hready => ?_⟩
  · have hd : (s.withEntry (s.newRobEntry op x)).robAt y.2.1 = some d := hd
    rw [hrob] at hd
    rcases dispatched_pendingDests.mp hy with hy | rfl
    · rw [if_neg (openEntry_withEntry hr hc (s.newRobEntry op x) (hp.destOpen hy)).1] at hd
      exact h.carriedDest y hy d hd
    · rw [if_pos rfl] at hd
      cases hd
      rfl
  · rcases dispatched_pendingDests.mp hy with hy | rfl
    · exact h.destByOpcode y hy
    · exact (newTag_isSome hstall).trans hx.dest
  · rcases dispatched_pendingDests.mp hy with hy | rfl
    · rw [hold p (h.dest_inUse hr hp.pendingOpen hn hy hpd)]
      exact h.destUnwritten y hy hnot p hpd
    · exact hnew p hpd
  · rcases dispatched_pendingDests.mp hy with hy | rfl
    · rw [hold p (h.dest_inUse hr hp.pendingOpen hn hy hpd)]
      exact h.destWritten y hy hyw p hpd
    · exact absurd hyw hw
  · rw [hentries, List.mem_append, List.mem_singleton] at hd
    rcases hd with hd | rfl
    · rw [hold p (hn.pdst_inUse hd hpd)]
      exact h.doneWritten d hd hdone hexc p hpd
    · cases hdone
  · rw [(dispatched_inUse_perm hr hs hstall hx.d).mem_iff, List.mem_append, Option.mem_toList] at hpin
    rw [hentries]
    rcases hpin with htag | hpin
    · exact ⟨s.newRobEntry op x, by simp, htag⟩
    · rw [hold p hpin] at hv
      obtain ⟨d, hd, hdp⟩ := h.unwrittenInFlight p hpin hv
      exact ⟨d, List.mem_append_left _ hd, hdp⟩
  · rcases List.mem_append.mp hf with hf | hf
    · obtain ⟨p, htag, hv, hprod⟩ := h.waitingProduced f hf o ho hready
      obtain ⟨k, w, -, hkc, hwr, hwp⟩ := id hprod
      refine ⟨p, htag, ?_, olderProducer_withEntry hr hc _ hprod⟩
      rw [hold p (hn.pdst_inUse (mem_entries.mpr ⟨k, hkc, hwr⟩) hwp)]
      exact hv
    · obtain rfl := List.mem_singleton.mp hf
      obtain ⟨a, ha, htag, hv⟩ : ∃ a : Reg, a.val < s.cfg.numArch ∧ o.tag = some (s.mapping a)
          ∧ (s.preg (s.mapping a)).valid = false := by
        rcases ho with rfl | rfl
        · obtain ⟨a, hsrc, hres⟩ := resolve_waiting hready
          exact ⟨a, hx.a a hsrc, hres⟩
        · obtain ⟨a, hsrc, hres⟩ := resolve_waiting hready
          exact ⟨a, hx.b a hsrc, hres⟩
      have hpin : s.mapping a ∈ s.inUse := List.mem_append_left _ (mapping_mem_rat hs ha)
      obtain ⟨d, hd, hdp⟩ := h.unwrittenInFlight _ hpin hv
      obtain ⟨k, hkc, hwr⟩ := mem_entries.mp hd
      have hprod : s.olderProducer s.tail (s.mapping a) := ⟨k, d, by rwa [age_tail hr hc], hkc, hwr, hdp⟩
      refine ⟨_, htag, ?_, olderProducer_withEntry hr hc _ hprod⟩
      rw [hold _ hpin]
      exact hv

end Sys2Proof.Machine

namespace Sys2Proof.Machine

/-! ## The books, phase by phase -/

/-- What the default policies keep besides the structure: the books of renaming, and each result written once. -/
structure State.Books (s : State) : Prop where
  rename : s.RenameInv
  results : s.ResultInv s.linked

theorem linked_congr {s t : State} (h : t.uBr = s.uBr) (r : Nat) : s.linked r ↔ t.linked r := by
  rw [State.linked, State.linked, h]

/-- The books stay when what is in flight only narrows and no entry completes. -/
theorem State.Books.of_frame {s t : State} (h : s.Books) (cfg : t.cfg = s.cfg) (head : t.head = s.head)
    (count : t.count = s.count) (rat : t.rat = s.rat) (prf : t.prf = s.prf)
    (dest : ∀ r, (t.robAt r).map RobEntry.dest = (s.robAt r).map RobEntry.dest)
    (complete : ∀ r e, t.robAt r = some e → e.done = true → e.exc = .none →
      ∃ d, s.robAt r = some d ∧ d.done = true ∧ d.exc = .none)
    (slots : ∀ c ∈ t.ck, c.busy = true → c ∈ s.ck) (pending : ∀ x ∈ t.pendingDests, x ∈ s.pendingDests)
    (queue : ∀ e ∈ t.iq, e ∈ s.iq) (linked : ∀ r, s.linked r ↔ t.linked r) : t.Books where
  rename := h.rename.of_frame cfg head count rat dest (fun p => by rw [State.preg, prf, State.preg]) slots
  results := (h.results.of_frame cfg head count rat (fun p => by rw [State.preg, prf, State.preg]) dest
    (fun r e he hd hx => .inl (complete r e he hd hx)) pending queue).congr fun x _ => linked x.2.1

/-- The books stay when nothing they speak of changes. -/
theorem State.Books.of_eq {s t : State} (h : s.Books) (cfg : t.cfg = s.cfg) (head : t.head = s.head)
    (count : t.count = s.count) (rat : t.rat = s.rat) (prf : t.prf = s.prf) (rob : t.rob = s.rob)
    (slots : ∀ c ∈ t.ck, c.busy = true → c ∈ s.ck) (queue : t.iq = s.iq) (occupants : t.occupants = s.occupants)
    (uBr : t.uBr = s.uBr) : t.Books := by
  have hrob : ∀ r, t.robAt r = s.robAt r := fun r => by rw [State.robAt, rob, State.robAt]
  refine h.of_frame cfg head count rat prf (fun r => by rw [hrob])
    (fun r e he hd hx => ⟨e, by rwa [hrob] at he, hd, hx⟩) slots (fun x hx => ?_) (fun e he => queue ▸ he)
    (linked_congr uBr)
  rwa [State.pendingDests, queue, occupants] at hx

theorem commitPhase_books {s : State} (hpol : s.cfg.freePolicy = .prev) (hs : s.Structure) (h : s.Books) :
    (commitPhase s).Books := by
  rcases commitPhase_cases s with ⟨heq, -⟩ | ⟨e, he, hd, ⟨hx, heq⟩ | ⟨-, heq⟩⟩ <;> rw [heq]
  · exact h
  · obtain ⟨hc, he⟩ := headEntry_eq_some.mp he
    exact ⟨h.rename.retire hpol hs.ring hs.shape hs.pipe hc he hd, h.results.retire hs.ring hs.pipe hc he hd hx⟩
  · exact h.of_eq rfl rfl rfl rfl rfl rfl (fun _ hc _ => hc) rfl rfl rfl

/-! ### A unit writes and completes -/

/-- The integer unit writes the destination of its occupant, if it has one (52_issue_units.md R241). -/
theorem executeInt_writes {o : Occupant} (hu : o.op.unit = .int) (hd : o.pdst.isSome = Op.writesDest o.op)
    (s : State) : ∃ v z, executeInt o s = { s.writeBack o.pdst v with z := z } := by
  cases hop : o.op <;> rw [hop] at hu hd <;> simp only [Op.unit, reduceCtorEq] at hu <;>
    simp only [executeInt, hop]
  case add | sub | and | or | xor | movc => exact ⟨_, s.z, rfl⟩
  all_goals
    obtain hnone : o.pdst = none := by simpa [Op.writesDest] using hd
    rw [hnone, show s.writeBack none = fun _ => s from funext (writeBack_none s)]
  case cmp => exact ⟨0, zeroFlag o.a o.b, rfl⟩
  all_goals exact ⟨0, s.z, rfl⟩

/-- Branch stage 1 writes the link of its occupant, if it has one, and goes on to stage 2 (52_issue_units.md R245). -/
theorem brStage1_writes {o : Occupant} (hu : o.op.unit = .br) (hd : o.pdst.isSome = Op.writesDest o.op)
    (s : State) : ∃ v u, brStage1 o s = { s.writeBack o.pdst v with uBr := u } ∧ u.occ = s.uBr.occ
      ∧ u.stage = .two := by
  cases hop : o.op <;> rw [hop] at hu hd <;> simp only [Op.unit, reduceCtorEq] at hu <;>
    simp only [brStage1, hop]
  case jal => exact ⟨_, _, rfl, rfl, rfl⟩
  all_goals
    obtain hnone : o.pdst = none := by simpa [Op.writesDest] using hd
    rw [hnone, show s.writeBack none = fun _ => s from funext (writeBack_none s)]
    exact ⟨0, _, rfl, rfl, rfl⟩

/-- Memory stage 2 writes the destination of its occupant, if it has one and no exception (52_issue_units.md R244). -/
theorem memStage2_writes {o : Occupant} (hu : o.op.unit = .mem) (hd : o.pdst.isSome = Op.writesDest o.op)
    (s : State) : ∃ q v m, memStage2 o s = { (s.writeBack q v).complete o.rob with
          dm := m, uMem := { s.uMem with occ := none } }
        ∧ (q = o.pdst ∨ q = none ∧ s.noExc o.rob = false) := by
  unfold memStage2
  split
  · cases hop : o.op <;> rw [hop] at hu hd <;> simp only [Op.unit, reduceCtorEq] at hu <;>
      simp only [executeMem, hop]
    case load | ldr => exact ⟨o.pdst, _, s.dm, rfl, .inl rfl⟩
    all_goals
      obtain hnone : o.pdst = none := by simpa [Op.writesDest] using hd
      exact ⟨none, 0, _, by rw [writeBack_none]; rfl, .inl hnone.symm⟩
  · next hx => exact ⟨none, 0, s.dm, by rw [writeBack_none]; rfl, .inr ⟨rfl, by simpa using hx⟩⟩

/-- An occupant's write and its completion keep the books (52_issue_units.md R239, R240). -/
theorem State.Books.unitDone {s t : State} (hs : s.Structure) (h : s.Books) (ht : t.PipeInv) {o : Occupant}
    (ho : o ∈ s.occupants) {q : Option Nat} {v : Int} (outcome : q = o.pdst ∨ q = none ∧ s.noExc o.rob = false)
    (cfg : t.cfg = s.cfg) (head : t.head = s.head) (count : t.count = s.count) (rat : t.rat = s.rat)
    (prf : t.prf = (s.writeBack q v).prf) (queue : t.iq = (s.writeBack q v).iq) (rob : t.rob = (s.complete o.rob).rob)
    (ck : t.ck = s.ck) (occupants : ∀ d ∈ t.occupants, d ∈ s.occupants) (uBr : t.uBr = s.uBr) : t.Books := by
  have hmem := pendingDests_of_occupant ho
  have hpreg : ∀ p, t.preg p = (s.writeBack q v).preg p := fun p => by rw [State.preg, prf, State.preg]
  have hrob : ∀ r, t.robAt r = (s.complete o.rob).robAt r := fun r => by rw [State.robAt, rob, State.robAt]
  have hleft : ∀ y ∈ t.pendingDests, y.2.1 ≠ o.rob := fun y hy => by
    obtain ⟨-, -, e, he, -⟩ := hs.pipe.pendingOpen _ (pending_of_occupant ho)
    have hdone : t.robAt o.rob = some { e with done := true } := by
      rw [hrob, complete_robAt, if_pos rfl, he]
      rfl
    exact ne_of_openEntry (ht.destOpen hy) hdone rfl
  have hpending : ∀ y ∈ t.pendingDests, y ∈ (s.writeBack q v).pendingDests := fun y hy => by
    rw [State.pendingDests, queue] at hy
    refine List.mem_append.mpr ((List.mem_append.mp hy).imp_right fun hocc => ?_)
    obtain ⟨d, hd, rfl⟩ := List.mem_map.mp hocc
    exact List.mem_map_of_mem (occupants d hd)
  refine ⟨h.rename.of_frame cfg head count rat (fun r => by rw [hrob, complete_dest])
    (fun p => by rw [hpreg, writeBack_free]) fun c hc _ => ck ▸ hc, ?_⟩
  rcases outcome with rfl | ⟨rfl, hx⟩
  · have hwritten := h.results.writeBack hs.ring hs.shape hs.pipe h.rename hmem v
    refine (hwritten.finish (x := (o.op, o.rob, o.pdst)) (by simpa using hmem) cfg head count rat prf queue rob
      hpending (.inl (.inr rfl))).congr fun y hy => ?_
    rw [← linked_congr uBr]
    exact or_iff_left (hleft y hy)
  · rw [writeBack_none] at prf queue hpending
    exact (h.results.finish hmem cfg head count rat prf queue rob hpending (.inr hx)).congr
      fun y _ => linked_congr uBr _

theorem intPhase_books {s : State} (hs : s.Structure) (h : s.Books) : (intPhase s).Books := by
  have ht := (structure_phases.integer s hs).pipe
  rcases intPhase_cases s with heq | ⟨o, ho, heq⟩ <;> rw [heq] at ht ⊢
  · exact h
  · have hocc := mem_occupants.mpr (.inl ho)
    obtain ⟨v, z, hex⟩ := executeInt_writes (hs.pipe.intClass o ho)
      (h.results.destByOpcode _ (pendingDests_of_occupant hocc)) s
    rw [hex] at ht ⊢
    refine h.unitDone hs ht hocc (.inl rfl) rfl rfl rfl rfl rfl rfl rfl rfl (fun d hd => ?_) rfl
    rw [mem_occupants] at hd ⊢
    exact .inr (hd.resolve_left (nomatch ·))

theorem mulPhase_books {s : State} (hs : s.Structure) (h : s.Books) : (mulPhase s).Books := by
  have ht := (structure_phases.multiplier s hs).pipe
  rcases mulPhase_cases s with heq | ⟨o, -, -, heq⟩ | ⟨o, ho, heq⟩ <;> rw [heq] at ht ⊢
  · exact h
  · exact h.of_eq rfl rfl rfl rfl rfl rfl (fun _ hc _ => hc) rfl rfl rfl
  · have hocc := mem_occupants.mpr (.inr (.inl ho))
    refine h.unitDone hs ht hocc (v := s.cfg.wrap (o.a * o.b)) (.inl rfl) rfl rfl rfl rfl rfl rfl rfl rfl
      (fun d hd => ?_) rfl
    rw [mem_occupants] at hd ⊢
    exact hd.imp_right fun hd => .inr (hd.resolve_left (nomatch ·))

/-- Memory stage 1 changes no destination and completes nothing (42_memory_ops.md R141). -/
theorem memStage1_books {s : State} {o : Occupant} (hst : s.uMem.stage = .one) (h : s.Books) :
    (memStage1 o s).Books := by
  obtain ⟨raised, stage, sval, heq, -⟩ := memStage1_eq (o := o) hst
  rw [heq]
  refine h.of_frame rfl rfl rfl rfl rfl (modifyRob_dest s o.rob fun _ => rfl) (fun r e he hd hx => ?_)
    (fun _ hc _ => hc) (fun _ hx => hx) (fun _ he => he) (linked_congr rfl)
  have he : (s.modifyRob o.rob (RobEntry.addressed (s.effAddr o) raised)).robAt r = some e := he
  rw [modifyRob_robAt] at he
  split at he
  · next hr =>
    obtain ⟨d, hd', rfl⟩ := Option.map_eq_some_iff.mp he
    refine ⟨d, hr ▸ hd', hd, ?_⟩
    cases raised with
    | false => exact hx
    | true => cases hx
  · exact ⟨e, he, hd, hx⟩

theorem memPhase_books {s : State} (hdef : s.accessDefined = true) (hs : s.Structure) (h : s.Books) :
    (memPhase s).Books := by
  have ht := (structure_phases.memory s hdef hs).pipe
  rcases memPhase_cases s with heq | ⟨o, ho, ⟨hst, heq⟩ | ⟨-, heq⟩⟩ <;> rw [heq] at ht ⊢
  · exact h
  · exact memStage1_books hst h
  · have hocc := mem_occupants.mpr (.inr (.inr (.inl ho)))
    obtain ⟨q, v, m, hex, outcome⟩ := memStage2_writes (hs.pipe.memClass o ho)
      (h.results.destByOpcode _ (pendingDests_of_occupant hocc)) s
    rw [hex] at ht ⊢
    refine h.unitDone hs ht hocc outcome rfl rfl rfl rfl rfl rfl rfl rfl (fun d hd => ?_) rfl
    rw [mem_occupants] at hd ⊢
    exact hd.imp_right fun hd => hd.imp_right fun hd => .inr (hd.resolve_left (nomatch ·))

/-! ### The branch unit -/

theorem brStage1_books {s : State} {o : Occupant} (hs : s.Structure) (h : s.Books) (ho : s.uBr.occ = some o)
    (hst : s.uBr.stage = .one) : (brStage1 o s).Books := by
  have hmem := pendingDests_of_occupant (mem_occupants.mpr (.inr (.inr (.inr ho))))
  obtain ⟨v, u, heq, hocc, hstage⟩ := brStage1_writes (hs.pipe.brClass o ho) (h.results.destByOpcode _ hmem) s
  rw [heq]
  refine ⟨h.rename.of_frame rfl rfl rfl rfl (fun _ => rfl) (writeBack_free s _ v) fun _ hc _ => hc, ?_⟩
  have hwritten := h.results.writeBack hs.ring hs.shape hs.pipe h.rename hmem v
  have hpending : State.pendingDests { s.writeBack o.pdst v with uBr := u } = (s.writeBack o.pdst v).pendingDests := by
    simp [State.pendingDests, State.occupants, hocc]
  refine (hwritten.of_frame (t := { s.writeBack o.pdst v with uBr := u }) rfl rfl rfl rfl (fun _ => rfl) (fun _ => rfl)
    (fun _ e he hd hx => .inl ⟨e, he, hd, hx⟩) (fun _ hx => hpending ▸ hx) fun _ he => he).congr fun x _ => ?_
  constructor
  · rintro (⟨-, -, htwo, -⟩ | heq)
    · rw [hst] at htwo
      cases htwo
    · exact ⟨o, hocc.trans ho, hstage, heq.symm⟩
  · rintro ⟨d, hd, -, heq⟩
    obtain rfl : o = d := Option.some.inj (ho.symm.trans (hocc.symm.trans hd))
    exact .inr heq.symm

/-- The entries of what stays pending after the branch has left its unit are open (52_issue_units.md R246). -/
theorem brDone_pendingOpen {s : State} (hp : s.PipeInv) {o : Occupant} (ho : s.uBr.occ = some o) :
    ∀ y ∈ (s.brDone o).pending, y.2 ≠ o.rob ∧ (s.brDone o).openEntry y.1 y.2 := fun y hy => by
  have hperm := brDone_pending ho
  have hself := (List.nodup_cons.mp (hp.pendingDistinct.perm (hperm.map Prod.snd))).1
  have hne : y.2 ≠ o.rob := fun heq => hself (List.mem_map.mpr ⟨y, hy, heq⟩)
  refine ⟨hne, openEntry_of_frame (s := s) (t := s.brDone o) rfl rfl rfl (fun e he => ⟨e, ?_, rfl, rfl⟩)
    (hp.pendingOpen y (hperm.mem_iff.mpr (List.mem_cons_of_mem _ hy)))⟩
  show (s.complete o.rob).robAt y.2 = some e
  rw [complete_robAt, if_neg hne, he]

theorem brDone_rename {s : State} (h : s.RenameInv) (o : Occupant) : (s.brDone o).RenameInv :=
  h.of_frame rfl rfl rfl rfl (complete_dest s o.rob) (fun _ => rfl) fun _ hc _ => hc

/-- The branch leaves stage 2 with its link written, and no link is left (52_issue_units.md R246). -/
theorem brDone_results {s : State} (hp : s.PipeInv) (h : s.ResultInv s.linked) {o : Occupant}
    (ho : s.uBr.occ = some o) (hst : s.uBr.stage = .two) : (s.brDone o).ResultInv fun _ => False := by
  have hmem := pendingDests_of_occupant (mem_occupants.mpr (.inr (.inr (.inr ho))))
  refine (h.finish (t := s.brDone o) hmem rfl rfl rfl rfl rfl rfl rfl (fun y hy => ?_)
    (.inl ⟨o, ho, hst, rfl⟩)).congr fun y hy => ?_
  · rcases mem_pendingDests.mp hy with hq | ⟨d, hd, rfl⟩
    · exact mem_pendingDests.mpr (.inl hq)
    · refine pendingDests_of_occupant (mem_occupants.mpr ?_)
      rw [mem_occupants] at hd
      exact hd.imp_right fun hd => hd.imp_right fun hd => .inl (hd.resolve_right (nomatch ·))
  · refine iff_of_false ?_ id
    rintro ⟨d, hd, -, heq⟩
    obtain rfl : o = d := Option.some.inj (ho.symm.trans hd)
    exact (brDone_pendingOpen hp ho _ (pending_of_pendingDests hy)).1 heq.symm

/-- With the branch unit empty no link is written in it. -/
theorem not_linked {s : State} (h : s.uBr.occ = none) (r : Nat) : False ↔ s.linked r := by
  refine iff_of_false id ?_
  rintro ⟨o, ho, -⟩
  rw [h] at ho
  cases ho

theorem branchPhase_books {s : State} (hpol : s.cfg.restorePolicy = .selective) (hdef : s.branchDefined = true)
    (hs : s.Structure) (h : s.Books) : (branchPhase s).Books := by
  rcases branchPhase_cases hdef with heq | ⟨o, ho, hst, heq⟩ | ⟨o, ho, hst, hocc, -, hbr⟩
  · rwa [heq]
  · rw [heq]
    exact brStage1_books hs h ho hst
  · have hrename := brDone_rename h.rename o
    have hresults := brDone_results hs.pipe h.results ho hst
    rcases hbr with heq | ⟨c, hc, hb, hown, heq⟩ <;> rw [heq]
    · refine ⟨hrename.of_frame (by simp) (by simp) (by simp) (by simp) (fun r => by simp [State.robAt])
        (fun p => by simp [State.preg]) fun _ hc hb => busy_slot_kept (mem_releaseOwned_ck hc) hb, ?_⟩
      refine (hresults.of_frame (by simp) (by simp) (by simp) (by simp) (fun p => by simp [State.preg])
        (fun r => by simp [State.robAt]) (fun r e he hd hx => .inl ⟨e, by simpa [State.robAt] using he, hd, hx⟩)
        (fun x hx => by simpa [State.pendingDests, State.occupants] using hx) fun e he => by simpa using he).congr
        fun x _ => not_linked (by simp [State.brDone]) _
    · have hring := brDone_ring hs.ring o
      have hshape : (s.brDone o).ShapeInv := hs.shape.of_frame rfl rfl rfl rfl fun _ hc _ => hc
      rw [← hown] at hocc ⊢
      have hrecovered := hresults.recoverFrom (s := s.brDone o) hpol hring hshape
        (fun y hy => (brDone_pendingOpen hs.pipe ho y hy).2) hrename s.uBr.target hc hb hocc
      exact ⟨hrename.recoverFrom (s := s.brDone o) hpol hring hshape _ hc hb hocc,
        hrecovered.congr fun x _ => not_linked (by rfl) _⟩

/-! ### Issue, dispatch and fetch -/

theorem issue_books {s : State} {e : IqEntry} {before after : List IqEntry} (hiq : s.iq = before ++ e :: after)
    (hfree : s.unitFree e.op.unit = true) (h : s.Books) : State.Books { s.issueTo e with iq := before ++ after } := by
  refine h.of_frame (by simp) (by simp) (by simp) (by simp) (by simp) (fun r => by simp [State.robAt])
    (fun r d hd hdone hx => ⟨d, by simpa [State.robAt] using hd, hdone, hx⟩) (fun c hc _ => by simpa using hc)
    (fun x hx => ?_) (fun d hd => ?_) (fun r => ?_)
  · rcases mem_pendingDests.mp hx with ⟨d, hd, rfl⟩ | ⟨o, ho, rfl⟩
    · exact mem_pendingDests.mpr (.inl ⟨d, by rw [hiq]; simp at hd ⊢; tauto, rfl⟩)
    · rcases List.mem_cons.mp ((issueTo_occupants hfree).mem_iff.mp ho) with rfl | ho
      · exact mem_pendingDests.mpr (.inl ⟨e, by simp [hiq], rfl⟩)
      · exact pendingDests_of_occupant ho
  · rw [hiq]
    simp at hd ⊢
    tauto
  · cases hu : e.op.unit <;> simp only [State.issueTo, hu]
    case br =>
      have hnone : s.uBr.occ = none := by simpa [State.unitFree, hu] using hfree
      refine (not_linked hnone r).symm.trans (iff_of_false id ?_)
      rintro ⟨-, -, htwo, -⟩
      cases htwo
    all_goals exact linked_congr rfl r

theorem issuePhase_books {s : State} (h : s.Books) : (issuePhase s).Books :=
  issuePhase_keeps (fun _ _ _ _ hiq _ hfree hu => issue_books hiq hfree hu) h

theorem not_linked_tail {s : State} (hr : s.RingInv) (hp : s.PipeInv) (hc : s.count ≠ s.cfg.robSize) :
    ¬ s.linked s.tail := by
  rintro ⟨o, ho, -, heq⟩
  have hopen : s.openEntry o.op o.rob :=
    hp.pendingOpen _ (pending_of_occupant (mem_occupants.mpr (.inr (.inr (.inr ho)))))
  obtain ⟨-, hage, -⟩ := hopen
  rw [heq, age_tail hr hc] at hage
  exact Nat.lt_irrefl _ hage

theorem dispatchLegal_books {s : State} {op : Op} {x : Operands} (hx : x.Legal s.cfg.numArch op) (hs : s.Structure)
    (h : s.Books) : (dispatchLegal op x s).Books := by
  rcases dispatchLegal_cases op x s with ⟨-, hstall, heq⟩ | ⟨-, heq⟩ <;> rw [heq]
  · have hc := (stallReasons_eq_nil.mp hstall).2.2.2
    exact ⟨h.rename.dispatched hs.ring hs.shape hs.pipe hstall hx.d,
      h.results.dispatched hs.ring hs.shape hs.pipe h.rename hstall hx (not_linked_tail hs.ring hs.pipe hc)⟩
  · exact h

theorem dispatchIllegal_books {s : State} (hs : s.Structure) (h : s.Books) : (dispatchIllegal s).Books := by
  rcases dispatchIllegal_cases s with ⟨-, hc, heq⟩ | ⟨-, heq⟩ <;> rw [heq]
  · have hentry : (s.withEntry s.illegalEntry).Books :=
      ⟨h.rename.withEntry hs.ring hs.pipe hc rfl rfl rfl, h.results.withEntry hs.ring hs.pipe hc rfl rfl⟩
    exact hentry.of_eq rfl rfl rfl rfl rfl rfl (fun _ hc _ => hc) rfl rfl rfl
  · exact h

theorem fetchPhase_books {s : State} (h : s.Books) : (fetchPhase s).Books :=
  h.of_eq (by simp) (by simp) (by simp) (by simp) (by simp) (by simp) (fun c hc _ => by simpa using hc) (by simp)
    (by simp [State.occupants]) (by simp)

/-! ## The whole invariant -/

/-- The whole invariant with the default policies and legal parameters, as the phases keep it. -/
structure State.Whole (s : State) : Prop where
  structured : s.Structure
  freePolicy : s.cfg.freePolicy = .prev
  restorePolicy : s.cfg.restorePolicy = .selective
  books : s.Books

theorem State.Whole.inv {s : State} (h : s.Whole) : s.Inv :=
  have hs := h.structured
  ⟨hs.mem, hs.ring, hs.shape, hs.pipe, hs.values, h.books.rename,
    (operandInv_iff hs.ring hs.shape hs.pipe h.books.rename).mpr h.books.results⟩

theorem State.Inv.whole {s : State} (h : s.Inv) (hok : s.cfg.ok = true) (hfree : s.cfg.freePolicy = .prev)
    (hrestore : s.cfg.restorePolicy = .selective) : s.Whole :=
  ⟨⟨hok, h.mem, h.ring, h.shape, h.pipe, h.values⟩, hfree, hrestore, h.rename,
    (operandInv_iff h.ring h.shape h.pipe h.rename).mp h.operands⟩

/-- A phase that keeps structure, parameters and books keeps the whole. -/
theorem State.Whole.phase {s t : State} (h : s.Whole) (hs : t.Structure) (hcfg : t.cfg = s.cfg) (hb : t.Books) :
    t.Whole :=
  ⟨hs, hcfg ▸ h.freePolicy, hcfg ▸ h.restorePolicy, hb⟩

/-- A row that names only registers the instruction uses is legal when those are. -/
theorem Operands.Legal.of_regs {n : Nat} {op : Op} {x : Operands} {l : List Reg} (h : ∀ r ∈ l, r.val < n)
    (named : (∀ r, x.a = some r → r ∈ l) ∧ (∀ r, x.b = some r → r ∈ l) ∧ ∀ r, x.d = some r → r ∈ l)
    (dest : x.d.isSome = Op.writesDest op) : x.Legal n op :=
  ⟨fun r hr => h r (named.1 r hr), fun r hr => h r (named.2.1 r hr), fun r hr => h r (named.2.2 r hr), dest⟩

/-- A legal instruction's row of the operand map is legal, and its meaning is the tick that dispatches it
(30_encoding.md R86, R87; 51_rename_dispatch.md R214). -/
theorem exec_legal {n : Nat} (i : Instr) (h : ∀ r ∈ i.regs, r.val < n) : ∃ x : Operands,
    (∀ s, exec i s = clocked (dispatchLegal i.op x) s) ∧ x.Legal n i.op := by
  cases i <;> exact ⟨_, fun _ => rfl, .of_regs h (by
    simp [Operands.rrr, Operands.ri, Operands.rr, Operands.rri, Operands.sri, Operands.srr, Operands.ji, Operands.i,
      Operands.n, Instr.regs]) rfl⟩

/-- Every step is a clocked tick that dispatches nothing, an illegal bundle, or a legal instruction with a legal row
(51_rename_dispatch.md R200, R212, R214). -/
theorem step_dispatches (s : State) : ∃ d : State → State, step s = clocked d s ∧
    (d = dispatchNothing ∨ d = dispatchIllegal ∨ ∃ op x, d = dispatchLegal op x ∧ x.Legal s.cfg.numArch op) := by
  unfold step
  split
  · split
    · next i hdecode =>
      obtain ⟨x, hexec, hlegal⟩ := exec_legal i (regs_lt_of_decode hdecode)
      exact ⟨_, hexec s, .inr (.inr ⟨i.op, x, rfl, hlegal⟩)⟩
    · exact ⟨_, rfl, .inr (.inl rfl)⟩
  · exact ⟨_, rfl, .inl rfl⟩

/-- A dispatch phase of a step keeps the whole (51_rename_dispatch.md R200 to R214). -/
theorem dispatch_whole {s : State} {d : State → State} (h : s.Whole)
    (hd : d = dispatchNothing ∨ d = dispatchIllegal ∨ ∃ op x, d = dispatchLegal op x ∧ x.Legal s.cfg.numArch op) :
    (d s).Whole := by
  rcases hd with rfl | rfl | ⟨op, x, rfl, hx⟩
  · exact h
  · exact h.phase (structure_phases.illegal s h.structured) (by simp) (dispatchIllegal_books h.structured h.books)
  · exact h.phase (structure_phases.dispatch s op x h.structured) (by simp)
      (dispatchLegal_books hx h.structured h.books)

theorem afterCommit_whole {s : State} (h : s.Whole) : (afterCommit s).Whole := by
  have hbegin : (beginTick s).Whole := h.phase (structure_phases.begin s h.structured) rfl
    (h.books.of_eq rfl rfl rfl rfl rfl rfl (fun _ hc _ => hc) rfl rfl rfl)
  exact hbegin.phase (structure_phases.commit _ hbegin.structured) (commitPhase_cfg _)
    (commitPhase_books hbegin.freePolicy hbegin.structured hbegin.books)

theorem beforeDispatch_whole {s : State} (h : s.Whole) (hbr : (afterCommit s).branchDefined = true)
    (hacc : (afterBranch s).accessDefined = true) : (beforeDispatch s).Whole := by
  have hcommit := afterCommit_whole h
  have hbranch : (afterBranch s).Whole := hcommit.phase (structure_phases.branch _ hbr hcommit.structured)
    (branchPhase_cfg _) (branchPhase_books hcommit.restorePolicy hbr hcommit.structured hcommit.books)
  have hmem := hbranch.phase (structure_phases.memory _ hacc hbranch.structured) (by simp)
    (memPhase_books hacc hbranch.structured hbranch.books)
  have hmul := hmem.phase (structure_phases.multiplier _ hmem.structured) (by simp)
    (mulPhase_books hmem.structured hmem.books)
  have hint := hmul.phase (structure_phases.integer _ hmul.structured) (by simp)
    (intPhase_books hmul.structured hmul.books)
  exact hint.phase (structure_phases.issue _ hint.structured) (issuePhase_cfg _) (issuePhase_books hint.books)

/-- A state's parameters before dispatch are those of the tick's start. -/
theorem beforeDispatch_cfg (s : State) : (beforeDispatch s).cfg = s.cfg := by
  simp [beforeDispatch, afterBranch, afterCommit]

/-- Every step keeps the whole invariant under the default policies. -/
theorem step_whole {s t : State} (h : s.Whole) (hstep : step s = .next t) : t.Whole := by
  obtain ⟨d, hd, hphase⟩ := step_dispatches s
  have hhost : ∀ quit replies, State.Whole { s with quit := quit, replies := replies } := fun quit replies =>
    h.phase (structure_phases.host s quit replies h.structured) rfl
      (h.books.of_eq rfl rfl rfl rfl rfl rfl (fun _ hc _ => hc) rfl rfl rfl)
  rcases (clocked_next (hd ▸ hstep)).2 with rfl | ⟨rest, -, rfl⟩ | ⟨rest, -, htick⟩
  · exact h
  · exact hhost true rest
  · rcases tickWith_next htick with ⟨-, rfl⟩ | ⟨-, hbr, hacc, rfl⟩
    · exact afterCommit_whole (hhost s.quit rest)
    · have hbefore := beforeDispatch_whole (hhost s.quit rest) hbr hacc
      have hdispatch := dispatch_whole (d := d) hbefore (by rwa [beforeDispatch_cfg])
      exact hdispatch.phase (structure_phases.fetch _ hdispatch.structured) (by simp)
        (fetchPhase_books hdispatch.books)

end Sys2Proof.Machine

namespace Sys2Proof.Claims

open Sys2Proof.Machine

/-- Settles O54: the ring is kept by every phase, so by every step. -/
theorem stepKeepsRing : Obligations.StepKeepsRing := by
  unfold Obligations.StepKeepsRing
  exact fun s t h hstep => ring_phases.step h hstep

/-- Settles O56: structure and books are kept by every phase of the tick. -/
theorem stepKeepsInvariant : Obligations.StepKeepsInvariant := by
  unfold Obligations.StepKeepsInvariant
  exact fun s t hfree hrestore h hstep => (step_whole (h.whole (step_next_cfg_ok hstep) hfree hrestore) hstep).inv

end Sys2Proof.Claims

namespace Sys2Proof.Machine

/-! ## The reset state (10_state.md R42) -/

theorem resetPrf_length (c : Config) : (resetPrf c).length = c.numPhys := by simp [resetPrf]

section Boot

variable (c : Config) (program : List Bundle) (dmInit : Memory) (mode : RunMode) (replies : List Reply)

/-- The register file after reset, register by register. -/
theorem boot_preg {p : Nat} (hp : p < c.numPhys) : (State.boot c program dmInit mode replies).preg p
    = { value := 0, valid := decide (p < c.numArch), free := !decide (p < c.numArch) } := by
  simp [State.preg, State.boot, resetPrf, hp]

/-- After reset every architectural register maps to the physical one of its number. -/
theorem boot_mapping {a : Reg} (ha : a.val < c.numArch) :
    (State.boot c program dmInit mode replies).mapping a = a.val := by
  simp [State.mapping, State.boot, ha]

/-- After reset the reorder buffer is empty. -/
theorem boot_robAt (r : Nat) : (State.boot c program dmInit mode replies).robAt r = none := by
  by_cases hr : r < c.robSize <;> simp [State.robAt, State.boot, hr]

theorem boot_entries : (State.boot c program dmInit mode replies).entries = [] := entries_of_empty rfl

/-- After reset every checkpoint slot is the free one of `resetCkpt`. -/
theorem mem_boot_ck {k : Ckpt} (hk : k ∈ (State.boot c program dmInit mode replies).ck) : k = resetCkpt :=
  List.eq_of_mem_replicate hk

end Boot

/-- What `Config.sizesOk` and `Config.rulesApply` say of the sizes and of the reset pc
(70_reset_and_hazards.md R323). -/
theorem Config.ok_sizes {c : Config} (h : c.ok = true) : c.numArch < c.numPhys ∧ 1 ≤ c.robSize ∧ c.fits c.pcBase := by
  simp only [Config.ok, Config.sizesOk, Config.rulesApply, Bool.and_eq_true, decide_eq_true_eq] at h
  unfold Config.fits
  omega

section Boot

variable {c : Config} (program : List Bundle) {dmInit : Memory} (mode : RunMode) (replies : List Reply)

theorem boot_ring (hok : c.ok = true) : (State.boot c program dmInit mode replies).RingInv where
  robLength := List.length_replicate
  headBound := (Config.ok_sizes hok).2.1
  countBound := Nat.zero_le _
  tailIs := (Nat.zero_mod _).symm
  occupiedIff r _ := by
    rw [boot_robAt]
    exact iff_of_false (by simp) (Nat.not_lt_zero _)
  iqBound := Nat.zero_le _

/-- A slot of the reset state is not busy. -/
theorem not_busy_boot {k : Ckpt} (hk : k ∈ (State.boot c program dmInit mode replies).ck) : ¬ k.busy = true := by
  rw [mem_boot_ck c program dmInit mode replies hk]
  exact Bool.false_ne_true

theorem boot_shape (hok : c.ok = true) : (State.boot c program dmInit mode replies).ShapeInv where
  prfLength := resetPrf_length c
  ratLength := List.length_range
  ratTags _ hp := Nat.lt_trans (List.mem_range.mp hp) (Config.ok_sizes hok).1
  ckLength := List.length_replicate
  snapRatLength _ hk hb := absurd hb (not_busy_boot program mode replies hk)
  snapRatTags _ hk hb := absurd hb (not_busy_boot program mode replies hk)
  snapPrfLength _ hk hb := absurd hb (not_busy_boot program mode replies hk)

/-- After reset nothing is in flight, so nothing has to be linked. -/
theorem boot_pipe : (State.boot c program dmInit mode replies).PipeInv := by
  have howners : (State.boot c program dmInit mode replies).owners = [] :=
    List.eq_nil_iff_forall_not_mem.mpr fun r hr => by
      obtain ⟨k, hk, hb, -⟩ := mem_owners.mp hr
      exact not_busy_boot program mode replies hk hb
  have hpending : ∀ x, x ∉ (State.boot c program dmInit mode replies).pending := fun _ => List.not_mem_nil
  have hidle : ∀ {P : Occupant → Prop}, ∀ o, none = some o → P o := fun _ ho => nomatch ho
  exact .of_owners ⟨hidle, hidle, hidle, hidle, hidle, hidle, rfl⟩ (fun x hx => absurd hx (hpending x)) .nil .nil
    (fun x hx => absurd hx (hpending x)) (fun r hr => absurd (howners ▸ hr) List.not_mem_nil) (howners ▸ .nil)

theorem boot_values (hok : c.ok = true) (hdm : ∀ x ∈ dmInit, c.fits x.2) :
    (State.boot c program dmInit mode replies).ValueInv where
  regs r hr := by
    obtain ⟨p, -, rfl⟩ := List.mem_map.mp hr
    exact c.zero_fits
  snapRegs k hk r hr := by
    rw [mem_boot_ck c program dmInit mode replies hk] at hr
    cases hr
  pc := (Config.ok_sizes hok).2.2
  latchPc := c.zero_fits
  robPc r e he := by rw [boot_robAt] at he; cases he
  robAddr r e a he := by rw [boot_robAt] at he; cases he
  iq _ he := nomatch he
  units _ ho := nomatch ho
  memAddr := c.zero_fits
  storeData := c.zero_fits
  target := c.zero_fits
  cells := hdm
  faultPc _ hf := nomatch hf

/-- After reset the registers in use are P(0) to P(NUM_ARCH-1). -/
theorem boot_inUse : (State.boot c program dmInit mode replies).inUse = List.range c.numArch := by
  rw [State.inUse, State.heldPrevious, boot_entries]
  exact List.append_nil _

theorem boot_rename : (State.boot c program dmInit mode replies).RenameInv := by
  have hinUse := boot_inUse (c := c) (dmInit := dmInit) program mode replies
  have hentries := boot_entries c program dmInit mode replies
  have hnodup : (State.boot c program dmInit mode replies).inUse.Nodup := hinUse ▸ List.nodup_range
  refine ⟨hnodup, fun p hp => ?_, fun p hp => ?_, fun e he => ?_, fun e he => ?_, ?_,
    fun k hk hb => absurd hb (not_busy_boot program mode replies hk)⟩
  · show _ ↔ p ∈ (State.boot c program dmInit mode replies).inUse
    rw [hinUse, boot_preg c program dmInit mode replies hp, List.mem_range]
    simp
  · rw [State.heldPrevious, hentries] at hp
    cases hp
  · rw [hentries] at he
    cases he
  · rw [hentries] at he
    cases he
  · rw [hentries]
    trivial

theorem boot_results (hok : c.ok = true) : (State.boot c program dmInit mode replies).ResultInv
    (State.boot c program dmInit mode replies).linked := by
  have hpending : ∀ x, x ∉ (State.boot c program dmInit mode replies).pendingDests := fun _ => List.not_mem_nil
  refine ⟨fun x hx => absurd hx (hpending x), fun x hx => absurd hx (hpending x), fun x hx => absurd hx (hpending x),
    fun x hx => absurd hx (hpending x), fun e he => ?_, fun p hp hv => ?_,
    fun e he => absurd he List.not_mem_nil⟩
  · rw [boot_entries] at he
    cases he
  · rw [boot_inUse, List.mem_range] at hp
    rw [boot_preg c program dmInit mode replies (Nat.lt_trans hp (Config.ok_sizes hok).1)] at hv
    simp [hp] at hv

theorem boot_inv (hok : c.ok = true) (hmem : dmInit.wf c.memWords = true) (hdm : ∀ x ∈ dmInit, c.fits x.2) :
    (State.boot c program dmInit mode replies).Inv :=
  have hring := boot_ring (dmInit := dmInit) program mode replies hok
  have hshape := boot_shape (dmInit := dmInit) program mode replies hok
  have hpipe := boot_pipe (c := c) (dmInit := dmInit) program mode replies
  have hrename := boot_rename (c := c) (dmInit := dmInit) program mode replies
  { mem := hmem
    ring := hring
    shape := hshape
    pipe := hpipe
    values := boot_values program mode replies hok hdm
    rename := hrename
    operands := (operandInv_iff hring hshape hpipe hrename).mpr (boot_results program mode replies hok) }

end Boot

end Sys2Proof.Machine

namespace Sys2Proof.Machine

/-- No phase writes the parameters (10_state.md R43). -/
theorem cfg_phases (c : Config) : PhasesKeep fun s => s.cfg = c where
  host _ _ _ h := h
  begin _ h := h
  commit _ h := (commitPhase_cfg _).trans h
  branch _ _ h := (branchPhase_cfg _).trans h
  memory _ _ h := (memPhase_cfg _).trans h
  multiplier _ h := (mulPhase_cfg _).trans h
  integer _ h := (intPhase_cfg _).trans h
  issue _ h := (issuePhase_cfg _).trans h
  dispatch _ _ _ h := (dispatchLegal_cfg _ _ _).trans h
  illegal _ h := (dispatchIllegal_cfg _).trans h
  fetch _ h := (fetchPhase_cfg _).trans h

theorem step_cfg {s t : State} (h : step s = .next t) : t.cfg = s.cfg := (cfg_phases s.cfg).step rfl h

end Sys2Proof.Machine

namespace Sys2Proof.Claims

open Sys2Proof.Machine

/-- Settles O59: nothing is in flight after reset, and the registers in use are the mapped ones. -/
theorem bootSatisfiesInvariant : Obligations.BootSatisfiesInvariant := by
  unfold Obligations.BootSatisfiesInvariant
  exact fun c program dmInit mode replies hok hmem hdm => boot_inv program mode replies hok hmem hdm

/-- Settles O60: O59 applied to the default parameters and an empty memory. -/
theorem resetSatisfiesInvariant : Obligations.ResetSatisfiesInvariant :=
  boot_inv [] (.untilDone none) [] (by decide) rfl nofun

/-- Settles O57: the reset state has the whole invariant, every step keeps it, and a mapped register is in use and
mapped once. -/
theorem mappedRegistersAreNeverFree : Obligations.MappedRegistersAreNeverFree := by
  unfold Obligations.MappedRegistersAreNeverFree
  intro c program dmInit mode replies k t hok hfree hrestore hmem hdm hrun
  have hboot := (boot_inv program mode replies hok hmem hdm).whole hok hfree hrestore
  obtain ⟨ht, hcfg⟩ : t.Whole ∧ t.cfg = c := ticks_keeps (P := fun u => u.Whole ∧ u.cfg = c)
    (fun u v hu hv => ⟨step_whole hu.1 hv, (step_cfg hv).trans hu.2⟩) k ⟨hboot, rfl⟩ hrun
  have hshape := ht.structured.shape
  have hmapped : ∀ a : Reg, a.val < c.numArch → t.rat[a.val]? = some (t.mapping a) := fun a ha =>
    mapping_getElem? hshape (hcfg ▸ ha)
  refine ⟨fun a ha => ht.books.rename.inUse_not_free hshape
    (List.mem_append_left _ (List.mem_of_getElem? (hmapped a ha))), fun a b ha hb hab => ?_⟩
  have hnodup : t.rat.Nodup := (List.nodup_append.mp ht.books.rename.inUseDistinct).1
  have hlt : a.val < t.rat.length := (List.getElem?_eq_some_iff.mp (hmapped a ha)).1
  exact Fin.ext ((List.getElem?_inj hlt hnodup).mp ((hmapped a ha).trans (hab ▸ (hmapped b hb).symm)))

/-- Settles O6: each field of the reset state read off the rule's table. -/
theorem resetStateAsListed : Obligations.ResetStateAsListed := by
  unfold Obligations.ResetStateAsListed
  intro c program dmInit mode replies s
  refine ⟨fun p hp => ?_, resetPrf_length c, List.length_range,
    fun a ha => boot_mapping c program dmInit mode replies ha,
    rfl, rfl, rfl, rfl, rfl, rfl, rfl, rfl, List.length_replicate, boot_robAt c program dmInit mode replies, rfl,
    List.length_replicate, fun k hk => ?_, rfl, rfl, rfl, rfl, rfl, rfl, rfl, rfl, rfl, fun hok a ha => ?_⟩
  · rw [boot_preg c program dmInit mode replies hp]
    split
    · next h => simp [h]
    · next h => simp [h]
  · rw [mem_boot_ck c program dmInit mode replies hk]
    rfl
  · have hlt : a.val < c.numPhys := Nat.lt_trans ha (Config.ok_sizes hok).1
    have hpreg := boot_preg c program dmInit mode replies hlt
    have hmap := boot_mapping c program dmInit mode replies ha
    exact ⟨by rw [State.xValue, hmap, hpreg], by rw [State.xValid, hmap, hpreg]; simp [ha]⟩

end Sys2Proof.Claims

namespace Sys2Proof.Machine

/-! ## The counters, the flag and pc, through a step (10_state.md R26, R27; 60_exceptions.md R302) -/

/-- What a dispatch phase leaves alone, of what a tick has written before it (51_rename_dispatch.md R214). -/
structure State.DispatchFrame (s t : State) : Prop where
  cfg : t.cfg = s.cfg
  z : t.z = s.z
  pc : t.pc = s.pc
  fetchSuppress : t.fetchSuppress = s.fetchSuppress
  cycle : t.cycle = s.cycle
  committed : t.committed = s.committed

theorem dispatchLegal_frame (op : Op) (x : Operands) (s : State) : s.DispatchFrame (dispatchLegal op x s) := by
  constructor <;> simp

theorem dispatchIllegal_frame (s : State) : s.DispatchFrame (dispatchIllegal s) := by
  constructor <;> simp

/-- A step that answers a next state has run one tick when the clock runs one, and else changed at most the host's own
fields (50_cycle_and_fetch.md R183, R193 to R195). -/
theorem step_next_cases {s t : State} (h : step s = .next t) :
    (∃ rest d, s.clock = .tick rest ∧ tickWith d { s with replies := rest } = .next t
        ∧ ∀ u : State, u.DispatchFrame (d u))
      ∨ (∀ rest, s.clock ≠ .tick rest) ∧ ∃ quit replies, t = { s with quit := quit, replies := replies } := by
  obtain ⟨d, hd, hphase⟩ := step_cases s
  have hframe : ∀ u : State, u.DispatchFrame (d u) := by
    rcases hphase with rfl | rfl | ⟨op, x, rfl, -⟩
    · exact fun u => ⟨rfl, rfl, rfl, rfl, rfl, rfl⟩
    · exact dispatchIllegal_frame
    · exact dispatchLegal_frame op x
  obtain ⟨hok, hcases⟩ := clocked_next (hd ▸ h)
  by_cases htick : ∃ rest, s.clock = .tick rest
  · obtain ⟨rest, hrest⟩ := htick
    exact .inl ⟨rest, d, hrest, by rw [← clocked_tick hok hrest, ← hd, h], hframe⟩
  · have hnot : ∀ rest, s.clock ≠ .tick rest := fun rest hrest => htick ⟨rest, hrest⟩
    refine .inr ⟨hnot, ?_⟩
    rcases hcases with rfl | ⟨rest, -, rfl⟩ | ⟨rest, hrest, -⟩
    · exact ⟨t.quit, t.replies, rfl⟩
    · exact ⟨true, rest, rfl⟩
    · exact absurd hrest (hnot rest)

/-! ### Counters -/

/-- What a tick leaves in the two counters is what its commit phase leaves. -/
theorem tick_counters {d : State → State} {s t : State} (hd : ∀ u : State, u.DispatchFrame (d u))
    (h : tickWith d s = .next t) :
    t.cycle = s.cycle + 1 ∧ t.committed = (commitPhase (beginTick s)).committed := by
  rcases tickWith_next h with ⟨-, rfl⟩ | ⟨-, -, -, rfl⟩
  · exact ⟨commitPhase_cycle _, rfl⟩
  · have hframe := hd (beforeDispatch s)
    constructor
    · rw [fetchPhase_cycle, hframe.cycle]
      simp [beforeDispatch, afterBranch, afterCommit, beginTick]
    · rw [fetchPhase_committed, hframe.committed]
      simp [beforeDispatch, afterBranch, afterCommit]

/-- The head entry retires in this tick's commit phase (53_recovery_commit.md R270, R272). -/
def State.headRetires (s : State) (e : RobEntry) : Prop := 0 < s.count ∧ e.done = true ∧ e.exc = .none

theorem commitPhase_committed_retires {s : State} {e : RobEntry} (he : s.robAt s.head = some e)
    (h : s.headRetires e) : (commitPhase s).committed = s.committed + 1 := by
  obtain ⟨hcount, hdone, hexc⟩ := h
  have hhead : s.headEntry = some e := headEntry_eq_some.mpr ⟨Nat.ne_of_gt hcount, he⟩
  rcases commitPhase_cases s with ⟨-, hopen⟩ | ⟨d, hd, -, ⟨-, heq⟩ | ⟨hfault, -⟩⟩
  · rw [hopen e hhead] at hdone
    cases hdone
  · rw [heq]
    rfl
  · rw [hhead] at hd
    cases hd
    exact absurd hexc hfault

theorem commitPhase_committed_keeps {s : State} (h : ∀ e, s.robAt s.head = some e → ¬ s.headRetires e) :
    (commitPhase s).committed = s.committed := by
  rcases commitPhase_cases s with ⟨heq, -⟩ | ⟨e, he, hd, ⟨hx, -⟩ | ⟨-, heq⟩⟩
  · rw [heq]
  · obtain ⟨hcount, hrob⟩ := headEntry_eq_some.mp he
    exact absurd ⟨Nat.pos_of_ne_zero hcount, hd, hx⟩ (h e hrob)
  · rw [heq, takeFault_committed]

/-! ### The branch phase's part -/

/-- Branch stage 2 of a taken instruction sets pc to the target and keeps fetch quiet; the phase writes pc in no other
way (43_control_flow.md R160 to R163; 53_recovery_commit.md R267, R268). -/
theorem branchPhase_pc {s : State} (hdef : s.branchDefined = true) :
    (branchPhase s).pc = s.pc
      ∨ ∃ o, s.uBr.occ = some o ∧ s.uBr.stage = .two ∧ s.uBr.taken = true ∧ (branchPhase s).pc = s.uBr.target
          ∧ (branchPhase s).fetchSuppress = true := by
  cases ho : s.uBr.occ with
  | none => exact .inl (by rw [branchPhase_idle ho])
  | some o =>
    cases hs : s.uBr.stage with
    | one => exact .inl (by rw [branchPhase_one ho hs, brStage1_pc])
    | two =>
      rw [branchPhase_two ho hs]
      cases ht : s.uBr.taken with
      | false => exact .inl (by rw [brStage2_not_taken ht, releaseOwned_pc, brDone_pc])
      | true =>
        have hslot : s.occupied o.rob = true ∧ (s.ownedSlot o.rob).isSome = true := by
          simpa [State.branchDefined, ho, hs] using hdef
        obtain ⟨c, -, -, -, heq⟩ := brStage2_taken ht hslot.2
        rw [heq]
        exact .inr ⟨o, rfl, rfl, rfl, rfl, rfl⟩

/-- The branch phase brings nothing into the integer unit (53_recovery_commit.md R262). -/
theorem branchPhase_uInt_occ {s : State} (hdef : s.branchDefined = true) {o : Occupant}
    (h : (branchPhase s).uInt.occ = some o) : s.uInt.occ = some o := by
  rcases branchPhase_cases hdef with heq | ⟨d, -, -, heq⟩ | ⟨d, -, -, -, -, heq | ⟨c, -, -, -, heq⟩⟩ <;> rw [heq] at h
  · exact h
  · simpa using h
  · simpa using h
  · exact (Option.filter_eq_some_iff.mp h).1

/-! ### Z -/

/-- The integer unit writes Z only for a CMP (40_integer.md R117). -/
theorem intPhase_z {s : State} (h : (intPhase s).z ≠ s.z) :
    ∃ o, s.uInt.occ = some o ∧ o.op = .cmp ∧ (intPhase s).z = decide (o.a = o.b) := by
  rcases intPhase_cases s with heq | ⟨o, ho, heq⟩ <;> rw [heq] at h ⊢
  · exact absurd rfl h
  · refine ⟨o, ho, ?_⟩
    have hz : (executeInt o s).z ≠ s.z := h
    show o.op = .cmp ∧ (executeInt o s).z = _
    unfold executeInt at hz ⊢
    cases hop : o.op <;> rw [hop] at hz
    case cmp => exact ⟨rfl, rfl⟩
    all_goals exact absurd rfl hz

/-- The flag before dispatch is the integer unit's. -/
theorem beforeDispatch_z (s : State) :
    (beforeDispatch s).z = (intPhase (mulPhase (memPhase (afterBranch s)))).z :=
  issuePhase_z _

theorem tick_z {d : State → State} {s t : State} (hd : ∀ u : State, u.DispatchFrame (d u))
    (h : tickWith d s = .next t) (hne : t.z ≠ s.z) :
    ∃ o, s.uInt.occ = some o ∧ o.op = .cmp ∧ t.z = decide (o.a = o.b) := by
  rcases tickWith_next h with ⟨-, rfl⟩ | ⟨-, hbr, -, rfl⟩
  · exact absurd (commitPhase_z _) hne
  · rw [fetchPhase_z, (hd _).z, beforeDispatch_z] at hne ⊢
    have hbefore : (mulPhase (memPhase (afterBranch s))).z = s.z := by simp [afterBranch, afterCommit]
    rw [← hbefore] at hne
    obtain ⟨o, ho, hop, hz⟩ := intPhase_z hne
    rw [mulPhase_uInt, memPhase_uInt] at ho
    have hocc := branchPhase_uInt_occ hbr ho
    rw [afterCommit, commitPhase_uInt] at hocc
    exact ⟨o, hocc, hop, hz⟩

/-! ### pc -/

/-- Fetch advances pc by one instruction, and only when it is not kept quiet (50_cycle_and_fetch.md R186, R190). -/
theorem fetchPhase_pc (s : State) :
    (fetchPhase s).pc = s.pc
      ∨ (s.fetchSuppress = false ∧ (fetchPhase s).pc = s.cfg.wrap (s.pc + s.cfg.insnStride)) := by
  rcases fetchPhase_cases s with ⟨-, heq⟩ | ⟨-, heq⟩ | ⟨w, hquiet, -, -, -, heq⟩ <;> rw [heq]
  · exact .inl rfl
  · exact .inl rfl
  · exact .inr ⟨hquiet, rfl⟩

theorem tick_pc {d : State → State} {s t : State} (hd : ∀ u : State, u.DispatchFrame (d u))
    (h : tickWith d s = .next t) :
    t.pc = s.pc ∨ t.pc = s.cfg.wrap (s.pc + s.cfg.insnStride)
      ∨ ∃ o, s.uBr.occ = some o ∧ s.uBr.stage = .two ∧ s.uBr.taken = true ∧ t.pc = s.uBr.target := by
  rcases tickWith_next h with ⟨-, rfl⟩ | ⟨-, hbr, -, rfl⟩
  · exact .inl (commitPhase_pc _)
  · have hframe := hd (beforeDispatch s)
    have hpc : (d (beforeDispatch s)).pc = (afterBranch s).pc := by
      rw [hframe.pc]
      simp [beforeDispatch]
    have hquiet : (d (beforeDispatch s)).fetchSuppress = (afterBranch s).fetchSuppress := by
      rw [hframe.fetchSuppress]
      simp [beforeDispatch]
    have hcfg : (d (beforeDispatch s)).cfg = s.cfg := hframe.cfg.trans (beforeDispatch_cfg s)
    have hfetch := fetchPhase_pc (d (beforeDispatch s))
    rw [hpc, hquiet, hcfg] at hfetch
    have hcommit : (afterCommit s).pc = s.pc ∧ (afterCommit s).uBr = s.uBr := by simp [afterCommit]
    have hbranch := branchPhase_pc hbr
    rw [hcommit.1, hcommit.2] at hbranch
    rcases hbranch with hkept | ⟨o, ho, hs, ht, htarget, hsuppress⟩
    · have hkept : (afterBranch s).pc = s.pc := hkept
      rw [hkept] at hfetch
      exact hfetch.imp_right fun hnext => .inl hnext.2
    · have hsuppress : (afterBranch s).fetchSuppress = true := hsuppress
      rcases hfetch with hsame | ⟨hnot, -⟩
      · exact .inr (.inr ⟨o, ho, hs, ht, hsame.trans htarget⟩)
      · rw [hsuppress] at hnot
        cases hnot

end Sys2Proof.Machine

namespace Sys2Proof.Claims

open Sys2Proof.Machine

/-- Settles O49: of the phases only the commit phase counts, and it counts a retirement. -/
theorem countersOnlyCount : Obligations.CountersOnlyCount := by
  unfold Obligations.CountersOnlyCount
  intro s t hstep
  rcases step_next_cases hstep with ⟨rest, d, hclock, htick, hframe⟩ | ⟨hnot, quit, replies, rfl⟩
  · refine ⟨fun _ _ => ?_, fun hnot => absurd hclock (hnot rest)⟩
    obtain ⟨hcycle, hcommitted⟩ := tick_counters hframe htick
    refine ⟨hcycle, hcommitted.trans ?_⟩
    cases he : s.robAt s.head with
    | none => exact commitPhase_committed_keeps (s := beginTick { s with replies := rest }) fun e h =>
        nomatch he.symm.trans h
    | some e =>
      show _ = s.committed + (if 0 < s.count ∧ e.done = true ∧ e.exc = .none then 1 else 0)
      split
      · next hretires => exact commitPhase_committed_retires (s := beginTick { s with replies := rest }) he hretires
      · next hstays =>
        refine commitPhase_committed_keeps (s := beginTick { s with replies := rest }) fun d h => ?_
        obtain rfl : e = d := Option.some.inj (he.symm.trans h)
        exact hstays
  · exact ⟨fun rest hclock => absurd hclock (hnot rest), fun _ => ⟨rfl, rfl⟩⟩

/-- Settles O50: of the phases only the integer unit's writes Z, and only for a CMP. -/
theorem onlyCompareWritesZ : Obligations.OnlyCompareWritesZ := by
  unfold Obligations.OnlyCompareWritesZ
  intro s t hstep hne
  rcases step_next_cases hstep with ⟨rest, d, -, htick, hframe⟩ | ⟨-, quit, replies, rfl⟩
  · exact tick_z (s := { s with replies := rest }) hframe htick hne
  · exact absurd rfl hne

/-- Settles O51: of the phases only branch stage 2 and fetch write pc, and a redirect keeps fetch quiet. -/
theorem onlyFetchAndRecoveryWritePc : Obligations.OnlyFetchAndRecoveryWritePc := by
  unfold Obligations.OnlyFetchAndRecoveryWritePc
  intro s t hstep
  rcases step_next_cases hstep with ⟨rest, d, -, htick, hframe⟩ | ⟨-, quit, replies, rfl⟩
  · rw [sx, ← Config.wrap_eq_toInt_ofInt]
    exact tick_pc (s := { s with replies := rest }) hframe htick
  · exact .inl rfl

end Sys2Proof.Claims

namespace Sys2Proof.Machine

/-! ## The youngest checkpoint (10_state.md R37) -/

/-- The better of the best slot so far and slot k. -/
def youngerSlot (age : Nat → Nat) (k : Nat) (c : Ckpt) : Option (Nat × Nat) → Option (Nat × Nat)
  | none => some (k, age c.owner)
  | some (j, a) => if a < age c.owner then some (k, age c.owner) else some (j, a)

theorem youngestSlot_idle {age : Nat → Nat} {c : Ckpt} (cs : List Ckpt) (k : Nat) (best : Option (Nat × Nat))
    (h : c.busy = false) : youngestSlot age (c :: cs) k best = youngestSlot age cs (k + 1) best := by
  simp [youngestSlot, h]

theorem youngestSlot_busy {age : Nat → Nat} {c : Ckpt} (cs : List Ckpt) (k : Nat) (best : Option (Nat × Nat))
    (h : c.busy = true) :
    youngestSlot age (c :: cs) k best = youngestSlot age cs (k + 1) (youngerSlot age k c best) := by
  cases best <;> simp [youngestSlot, h, youngerSlot]

/-- The better slot is one of the two, and no older than either. -/
theorem youngerSlot_spec (age : Nat → Nat) (k : Nat) (c : Ckpt) (best : Option (Nat × Nat)) :
    ∃ j a, youngerSlot age k c best = some (j, a) ∧ (best = some (j, a) ∨ j = k ∧ a = age c.owner)
      ∧ age c.owner ≤ a ∧ ∀ i b, best = some (i, b) → b ≤ a := by
  cases best with
  | none => exact ⟨k, age c.owner, rfl, .inr ⟨rfl, rfl⟩, Nat.le_refl _, nofun⟩
  | some best =>
    obtain ⟨j, a⟩ := best
    by_cases hlt : a < age c.owner
    · refine ⟨k, age c.owner, if_pos hlt, .inr ⟨rfl, rfl⟩, Nat.le_refl _, fun i b hb => ?_⟩
      cases hb
      exact Nat.le_of_lt hlt
    · refine ⟨j, a, if_neg hlt, .inl rfl, Nat.le_of_not_lt hlt, fun i b hb => ?_⟩
      cases hb
      exact Nat.le_refl _

/-- The scan answers nothing only without a busy slot. -/
theorem youngestSlot_eq_none {age : Nat → Nat} {cs : List Ckpt} {k : Nat} {best : Option (Nat × Nat)} :
    youngestSlot age cs k best = none ↔ best = none ∧ ∀ c ∈ cs, c.busy = false := by
  induction cs generalizing k best with
  | nil => simp [youngestSlot]
  | cons c cs ih =>
    cases hb : c.busy with
    | false => simp [youngestSlot_idle cs k best hb, ih, hb]
    | true =>
      obtain ⟨j, a, heq, -⟩ := youngerSlot_spec age k c best
      simp [youngestSlot_busy cs k best hb, ih, hb, heq]

/-- The scan's answer is the best so far or a busy slot, and no busy slot has a younger owner. -/
theorem youngestSlot_eq_some {age : Nat → Nat} {cs : List Ckpt} {k : Nat} {best : Option (Nat × Nat)} {j a : Nat}
    (h : youngestSlot age cs k best = some (j, a)) :
    (best = some (j, a) ∨ ∃ i c, cs[i]? = some c ∧ c.busy = true ∧ j = k + i ∧ a = age c.owner)
      ∧ (∀ i b, best = some (i, b) → b ≤ a) ∧ ∀ d ∈ cs, d.busy = true → age d.owner ≤ a := by
  induction cs generalizing k best with
  | nil =>
    refine ⟨.inl h, fun i b hb => ?_, nofun⟩
    obtain rfl : b = a := congrArg Prod.snd (Option.some.inj (hb.symm.trans h))
    exact Nat.le_refl _
  | cons c cs ih =>
    have later : ∀ {best'}, (best' = some (j, a) ∨
        ∃ i c, cs[i]? = some c ∧ c.busy = true ∧ j = k + 1 + i ∧ a = age c.owner) → best' = some (j, a) ∨
          ∃ i d, (c :: cs)[i]? = some d ∧ d.busy = true ∧ j = k + i ∧ a = age d.owner :=
      fun hor => hor.imp_right fun ⟨i, d, hd, hbusy, hj, ha⟩ => ⟨i + 1, d, by simpa using hd, hbusy, by omega, ha⟩
    cases hb : c.busy with
    | false =>
      rw [youngestSlot_idle cs k best hb] at h
      obtain ⟨hfrom, hbest, hall⟩ := ih h
      refine ⟨later hfrom, hbest, fun d hd hbusy => ?_⟩
      rcases List.mem_cons.mp hd with rfl | hd
      · rw [hb] at hbusy
        cases hbusy
      · exact hall d hd hbusy
    | true =>
      rw [youngestSlot_busy cs k best hb] at h
      obtain ⟨hfrom, hbest, hall⟩ := ih h
      obtain ⟨i, b, heq, hone, hc, hold⟩ := youngerSlot_spec age k c best
      have hle := hbest i b heq
      refine ⟨?_, fun i' b' hb' => Nat.le_trans (hold i' b' hb') hle, fun d hd hbusy => ?_⟩
      · rcases later hfrom with hsame | hlater
        · rw [heq] at hsame
          cases hsame
          exact hone.imp_right fun ⟨hj, ha⟩ => ⟨0, c, rfl, hb, hj, ha⟩
        · exact .inr hlater
      · rcases List.mem_cons.mp hd with rfl | hd
        · exact Nat.le_trans hc hle
        · exact hall d hd hbusy

end Sys2Proof.Machine

namespace Sys2Proof.Claims

open Sys2Proof.Machine

/-- Settles O24: the scan over the slots keeps the best busy one. -/
theorem currentCheckpointIsTheYoungest : Obligations.CurrentCheckpointIsTheYoungest := by
  unfold Obligations.CurrentCheckpointIsTheYoungest
  intro s
  constructor
  · rw [State.currentCkpt, Option.map_eq_none_iff, youngestSlot_eq_none]
    exact and_iff_right rfl
  · intro k hk
    obtain ⟨⟨j, a⟩, hscan, rfl⟩ := Option.map_eq_some_iff.mp hk
    obtain ⟨hfrom, -, hall⟩ := youngestSlot_eq_some hscan
    rcases hfrom with hbest | ⟨i, c, hc, hb, rfl, rfl⟩
    · cases hbest
    · exact ⟨c, by simpa using hc, hb, hall⟩

end Sys2Proof.Claims

namespace Sys2Proof.Machine

open Sys2Proof.Claims

/-! ## The issue scan and the rules (52_issue_units.md R230 to R237) -/

theorem classOf_eq_unit (op : Op) : classOf op = op.unit := by cases op <;> rfl

theorem idle_eq_unitFree (s : State) (u : UnitClass) : idle s u = s.unitFree u := by cases u <;> rfl

theorem olderDone_eq_allOlder {s : State} {r : Nat} {codes : List OpField} {cond : RobEntry → Bool}
    (h : ∀ e, cond e = (!codes.contains e.op || e.done)) : olderDone s r codes = s.allOlder r cond := by
  unfold olderDone State.allOlder
  congr 1
  funext k
  show (match s.robAt (s.robIndex k) with | none => true | some w => !codes.contains w.op || w.done) = _
  cases s.robAt (s.robIndex k) with
  | none => rfl
  | some w => exact (h w).symm

theorem cmpDone_eq (e : RobEntry) : cmpDone e = (!List.contains [0x08] e.op || e.done) := by
  simp only [cmpDone, Op.code, List.contains_cons, List.contains_nil, Bool.or_false]

theorem cmpAndFlowDone_eq (e : RobEntry) :
    cmpAndFlowDone e = (!List.contains [0x08, 0x0D, 0x0E, 0x0F, 0x10] e.op || e.done) := by
  simp only [cmpAndFlowDone, isControlFlowCode, Op.code, List.contains_cons, List.contains_nil, Bool.or_false]
  congr 2
  ac_rfl

/-- The rules' eligibility is the scan's (52_issue_units.md R233 to R236). -/
theorem mayIssue_eq_eligible (s : State) (e : IqEntry) : mayIssue s e = s.eligible e := by
  unfold mayIssue State.eligible IqEntry.ready State.orderingMet
  rw [olderDone_eq_allOlder cmpDone_eq, olderDone_eq_allOlder cmpAndFlowDone_eq, classOf_eq_unit]
  cases e.op <;> rfl

/-- Every entry before the point where a scan stands has been issued or kept by the rules, and the units are free as
they were but for the classes of eligible entries passed. -/
structure ScanAt (s : State) (passed : List IqEntry) (u : State) : Prop where
  cfg : u.cfg = s.cfg
  rob : u.rob = s.rob
  head : u.head = s.head
  count : u.count = s.count
  free : ∀ c, u.unitFree c
    = (idle s c && passed.all fun d => !(mayIssue s d && decide (classOf d.op = c)))

/-- At the point where the scan stands its test is the rules' (52_issue_units.md R232). -/
theorem ScanAt.issues_iff {s u : State} {passed rest : List IqEntry} {e : IqEntry} (h : ScanAt s passed u)
    (hiq : s.iq = passed ++ e :: rest) :
    (u.eligible e && u.unitFree e.op.unit) = isTaken s e passed.length := by
  have htake : s.iq.take passed.length = passed := by rw [hiq, List.take_left]
  rw [isTaken, htake, eligible_congr h.cfg h.rob h.head h.count, ← mayIssue_eq_eligible, h.free, classOf_eq_unit]
  ac_rfl

theorem issueTo_unitFree (s : State) (e : IqEntry) (c : UnitClass) :
    (s.issueTo e).unitFree c = (s.unitFree c && !decide (e.op.unit = c)) := by
  cases hu : e.op.unit <;> cases c <;> simp [State.issueTo, State.unitFree, hu]

/-- Taking or keeping an entry moves the scan's point past it. -/
theorem ScanAt.issue {s u : State} {passed : List IqEntry} {e : IqEntry} (h : ScanAt s passed u)
    (hel : u.eligible e = true) : ScanAt s (passed ++ [e]) (u.issueTo e) where
  cfg := (issueTo_cfg u e).trans h.cfg
  rob := (issueTo_rob u e).trans h.rob
  head := (issueTo_head u e).trans h.head
  count := (issueTo_count u e).trans h.count
  free c := by
    have hmay : mayIssue s e = true := by
      rw [mayIssue_eq_eligible, ← eligible_congr h.cfg h.rob h.head h.count, hel]
    simp [issueTo_unitFree, h.free, hmay, classOf_eq_unit, Bool.and_assoc]

theorem ScanAt.keep {s u : State} {passed : List IqEntry} {e : IqEntry} (h : ScanAt s passed u)
    (hkeep : (u.eligible e && u.unitFree e.op.unit) = false) :
    ScanAt s (passed ++ [e]) { u with iq := u.iq ++ [e] } where
  cfg := h.cfg
  rob := h.rob
  head := h.head
  count := h.count
  free c := by
    have hmay : mayIssue s e = u.eligible e := by
      rw [mayIssue_eq_eligible, eligible_congr h.cfg h.rob h.head h.count]
    show u.unitFree c = _
    have hfree := h.free c
    rw [List.all_append, ← Bool.and_assoc, ← hfree, List.all_cons, List.all_nil, Bool.and_true, hmay, classOf_eq_unit]
    by_cases hc : e.op.unit = c
    · subst hc
      cases hel : u.eligible e <;> simp_all
    · simp [hc]

/-- The queue after a scan: what it kept before, and of the rest what the rules do not take. -/
theorem issueScan_iq {s : State} {es passed : List IqEntry} {u : State} (h : ScanAt s passed u)
    (hiq : s.iq = passed ++ es) : (issueScan es u).iq
      = u.iq ++ ((es.zipIdx passed.length).filter fun x => !isTaken s x.1 x.2).map Prod.fst := by
  induction es generalizing passed u with
  | nil => simp [issueScan]
  | cons e es ih =>
    have htest := h.issues_iff hiq
    have hrest : s.iq = (passed ++ [e]) ++ es := by simp [hiq]
    have hlen : (passed ++ [e]).length = passed.length + 1 := by simp
    cases hcase : isTaken s e passed.length with
    | true =>
      rw [hcase, Bool.and_eq_true] at htest
      rw [issueScan_issues htest.1 htest.2, ih (h.issue htest.1) hrest, issueTo_iq, hlen]
      simp [hcase]
    | false =>
      rw [hcase] at htest
      rw [issueScan_keeps (Bool.and_eq_false_iff.mp htest), ih (h.keep htest) hrest, hlen]
      simp [hcase]

/-- The queue after the issue phase (52_issue_units.md R232, R237). -/
theorem issuePhase_iq (s : State) :
    (issuePhase s).iq = (s.iq.zipIdx.filter fun x => !isTaken s x.1 x.2).map Prod.fst := by
  have hstart : ScanAt s [] { s with iq := [] } :=
    ⟨rfl, rfl, rfl, rfl, fun c => by simp [idle_eq_unitFree, State.unitFree]⟩
  exact (issueScan_iq hstart rfl).trans (List.nil_append _)

theorem issuePhase_iq_sublist (s : State) : (issuePhase s).iq.Sublist s.iq := by
  rw [issuePhase_iq]
  have hsub := (List.filter_sublist (p := fun x => !isTaken s x.1 x.2) (l := s.iq.zipIdx)).map Prod.fst
  rwa [List.zipIdx_map_fst] at hsub

/-- An entry that may not issue stays. -/
theorem mem_issuePhase_iq {s : State} {e : IqEntry} (he : e ∈ s.iq) (hnot : mayIssue s e = false) :
    e ∈ (issuePhase s).iq := by
  rw [issuePhase_iq, List.mem_map]
  obtain ⟨k, hk, rfl⟩ := List.mem_iff_getElem.mp he
  exact ⟨(s.iq[k], k), List.mem_filter.mpr ⟨List.mk_mem_zipIdx_iff_getElem?.mpr (List.getElem?_eq_getElem hk),
    by simp [isTaken, hnot]⟩, rfl⟩

/-- The units without an occupant. -/
def State.idleUnits (s : State) : List UnitClass := [UnitClass.int, .mul, .mem, .br].filter fun u => idle s u

/-- Issuing fills one unit that was free. -/
theorem issueTo_idleUnits {s : State} {e : IqEntry} (h : s.unitFree e.op.unit = true) :
    (s.issueTo e).idleUnits.length + 1 = s.idleUnits.length := by
  have hnodup : s.idleUnits.Nodup := List.Nodup.filter _ (by decide)
  have hmem : e.op.unit ∈ s.idleUnits := by
    refine List.mem_filter.mpr ⟨?_, (idle_eq_unitFree s _).trans h⟩
    cases e.op.unit <;> decide
  have herase : (s.issueTo e).idleUnits = s.idleUnits.erase e.op.unit := by
    rw [hnodup.erase_eq_filter, State.idleUnits, State.idleUnits, List.filter_filter]
    refine List.filter_congr fun c _ => ?_
    rw [idle_eq_unitFree, idle_eq_unitFree, issueTo_unitFree, Bool.and_comm]
    by_cases hc : e.op.unit = c
    · simp [hc]
    · simp [hc, Ne.symm hc]
  rw [herase, List.length_erase_of_mem hmem]
  exact Nat.sub_add_cancel (List.length_pos_of_mem hmem)

/-- A scan takes no more entries than it fills units (52_issue_units.md R232). -/
theorem issuePhase_fills (s : State) :
    s.iq.length + (issuePhase s).idleUnits.length ≤ (issuePhase s).iq.length + s.idleUnits.length := by
  refine issuePhase_keeps (P := fun u => s.iq.length + u.idleUnits.length ≤ u.iq.length + s.idleUnits.length)
    (fun u e before after hiq _ hfree hu => ?_) (Nat.le_refl _)
  have hfill := issueTo_idleUnits hfree
  have hsame : State.idleUnits { u.issueTo e with iq := before ++ after } = (u.issueTo e).idleUnits := rfl
  rw [hiq] at hu
  rw [hsame]
  simp only [List.length_append, List.length_cons] at hu ⊢
  omega

/-- Issue changes the queue and the units alone (52_issue_units.md R237). -/
theorem issuePhase_frame (s : State) :
    ∃ q a b c d, issuePhase s = { s with iq := q, uInt := a, uMul := b, uMem := c, uBr := d } := by
  refine issuePhase_keeps (P := fun u => ∃ q a b c d, u = { s with iq := q, uInt := a, uMul := b, uMem := c, uBr := d })
    ?_ ⟨s.iq, s.uInt, s.uMul, s.uMem, s.uBr, rfl⟩
  rintro u e before after - - - ⟨q, a, b, c, d, rfl⟩
  cases hu : e.op.unit <;> simp only [State.issueTo, hu] <;> exact ⟨_, _, _, _, _, rfl⟩

end Sys2Proof.Machine

namespace Sys2Proof.Claims

open Sys2Proof.Machine

/-- Settles O26: at every point of the scan its test is the rules' choice. -/
theorem issueKeepsTheOthersInOrder : Obligations.IssueKeepsTheOthersInOrder := by
  unfold Obligations.IssueKeepsTheOthersInOrder
  intro s t
  refine ⟨issuePhase_iq s, issuePhase_iq_sublist s, ?_, fun e he => mem_issuePhase_iq he, ?_⟩
  · exact Nat.le_trans (Nat.le_add_right _ _) (issuePhase_fills s)
  · obtain ⟨q, a, b, c, d, heq⟩ := issuePhase_frame s
    have ht : t = { s with iq := q, uInt := a, uMul := b, uMem := c, uBr := d } := heq
    rw [ht]

end Sys2Proof.Claims

namespace Sys2Proof.Machine

/-! ## Data memory, the inputs and the model's stops, through a step (20_memory.md; 53_recovery_commit.md R260) -/

/-- No phase writes the program image or the run mode (20_memory.md R72; 50_cycle_and_fetch.md R191). -/
theorem inputs_phases (program : List Bundle) (mode : RunMode) :
    PhasesKeep fun s => s.program = program ∧ s.mode = mode where
  host _ _ _ h := h
  begin _ h := h
  commit _ h := by simpa using h
  branch _ _ h := by simpa using h
  memory _ _ h := by simpa using h
  multiplier _ h := by simpa using h
  integer _ h := by simpa using h
  issue _ h := by simpa using h
  dispatch _ _ _ h := by simpa using h
  illegal _ h := by simpa using h
  fetch _ h := by simpa using h

/-! ### The model's own stops -/

/-- Branch stage 2 finds its entry occupied and a slot of its own when the links are intact (53_recovery_commit.md
R260). -/
theorem State.PipeInv.branchDefined {s : State} (h : s.PipeInv) : s.branchDefined = true := by
  unfold State.branchDefined
  split
  · next o ho _ =>
    have hpending : (o.op, o.rob) ∈ s.pending :=
      pending_of_occupant (mem_occupants.mpr (.inr (.inr (.inr ho))))
    obtain ⟨hlt, hage, -⟩ := h.pendingOpen _ hpending
    have howned : (s.ownedSlot o.rob).isSome = true :=
      ownedSlot_isSome.mpr (h.branchOwns _ hpending (h.brClass o ho))
    simp [occupied_iff.mpr ⟨hlt, hage⟩, howned]
  · rfl

/-- With ring and links intact a tick meets neither of the model's stops (assumption log 11). -/
theorem tickWith_answers {s : State} (hr : s.RingInv) (hp : s.PipeInv) (d : State → State) :
    ∃ t, tickWith d s = .next t := by
  have hring : (afterCommit s).RingInv := ring_phases.commit _ (ring_phases.begin s hr)
  have hpipe : (afterCommit s).PipeInv := commitPhase_pipe (ring_phases.begin s hr)
    (hp.of_eq rfl rfl rfl rfl rfl rfl rfl rfl rfl rfl)
  have hbranch : (afterCommit s).branchDefined = true := hpipe.branchDefined
  have haccess : (afterBranch s).accessDefined = true := (branchPhase_pipe hbranch hring hpipe).accessDefined
  cases hend : (afterCommit s).ended with
  | true => exact ⟨afterCommit s, by simp [tickWith, hend]⟩
  | false => exact ⟨_, tickWith_of_defined d hend hbranch haccess⟩

/-- A clock with legal parameters answers a next state when the tick that it may run does (70_reset_and_hazards.md
R323). -/
theorem clocked_answers {d : State → State} {s : State} (hok : s.cfg.ok = true)
    (htick : ∀ rest, ∃ t, tickWith d { s with replies := rest } = .next t) : ∃ t, clocked d s = .next t := by
  cases hclock : s.clock with
  | tick rest => rw [clocked_tick hok hclock]; exact htick rest
  | stopped | waiting | quits => simp [clocked, hok, hclock]

/-! ### The one writer of data memory -/

/-- Only STORE and STR write, and they write the cell addressed (42_memory_ops.md R145, R146). -/
theorem executeMem_writes {o : Occupant} {s : State} (h : (executeMem o s).dm ≠ s.dm) :
    (o.op = .store ∨ o.op = .str) ∧ executeMem o s = s.memWrite s.uMem.addr s.uMem.sval := by
  unfold executeMem at h ⊢
  cases hop : o.op <;> rw [hop] at h
  case store => exact ⟨.inl rfl, rfl⟩
  case str => exact ⟨.inr rfl, rfl⟩
  all_goals exact absurd rfl h

/-- What a store in memory stage 2 is: its entry has no exception, and its data goes to the cell it addresses
(20_memory.md R74; 52_issue_units.md R244). -/
structure State.Storing (s : State) (o : Occupant) : Prop where
  occ : s.uMem.occ = some o
  stage : s.uMem.stage = .two
  store : o.op = .store ∨ o.op = .str
  noExc : s.noExc o.rob = true

/-- The memory unit writes data memory only for a store in stage 2 (20_memory.md R74). -/
theorem memPhase_writes {s : State} (h : (memPhase s).dm ≠ s.dm) :
    (∃ o, s.Storing o) ∧ (memPhase s).dm = s.dm.write s.uMem.addr.toNat s.uMem.sval := by
  rcases memPhase_cases s with heq | ⟨o, ho, ⟨-, heq⟩ | ⟨hs, heq⟩⟩ <;> rw [heq] at h ⊢
  · exact absurd rfl h
  · exact absurd (memStage1_dm s o) h
  · unfold memStage2 at h ⊢
    split at h
    · next hx =>
      obtain ⟨hop, hwrite⟩ := executeMem_writes h
      rw [if_pos hx, hwrite]
      exact ⟨⟨o, ho, hs, hop, hx⟩, rfl⟩
    · exact absurd rfl h

/-- The branch phase gives the memory unit no new occupant and leaves its other fields (53_recovery_commit.md R262). -/
theorem branchPhase_uMem {s : State} (hdef : s.branchDefined = true) : ∃ occ,
    (branchPhase s).uMem = { s.uMem with occ := occ } ∧ ∀ o, occ = some o → s.uMem.occ = some o := by
  rcases branchPhase_cases hdef with heq | ⟨d, -, -, heq⟩ | ⟨d, -, -, -, -, heq | ⟨c, -, -, -, heq⟩⟩ <;> rw [heq]
  · exact ⟨_, rfl, fun _ => id⟩
  · exact ⟨_, brStage1_uMem s d, fun _ => id⟩
  · exact ⟨_, releaseOwned_uMem (s.brDone d) d.rob, fun _ => id⟩
  · exact ⟨_, rfl, fun _ ho => (Option.filter_eq_some_iff.mp ho).1⟩

/-- Whether an entry has an exception depends on the ROB alone. -/
theorem noExc_congr {s t : State} (h : t.rob = s.rob) (r : Nat) : t.noExc r = s.noExc r := by
  rw [State.noExc, State.noExc, State.robAt, State.robAt, h]

/-- The branch phase changes no exception: an entry without one after it had none before (52_issue_units.md R246;
53_recovery_commit.md R263). -/
theorem branchPhase_noExc {s : State} (hdef : s.branchDefined = true) {r : Nat}
    (h : (branchPhase s).noExc r = true) : s.noExc r = true := by
  rcases branchPhase_cases hdef with heq | ⟨d, -, -, heq⟩ | ⟨d, -, -, -, -, heq | ⟨c, -, -, -, heq⟩⟩ <;>
    rw [heq] at h
  · exact h
  · exact noExc_congr (brStage1_rob s d) r ▸ h
  · rw [noExc_congr (releaseOwned_rob (s.brDone d) d.rob)] at h
    exact noExc_complete s d.rob r ▸ h
  · obtain ⟨e, he, hexc⟩ := noExc_iff.mp h
    rw [recoverFrom_robAt] at he
    split at he
    · cases he
    · have hcomplete : (s.complete d.rob).noExc r = true := noExc_iff.mpr ⟨e, he, hexc⟩
      exact noExc_complete s d.rob r ▸ hcomplete

/-- A store in stage 2 after the branch phase was one before it. -/
theorem State.Storing.of_branchPhase {s : State} (hdef : s.branchDefined = true) {o : Occupant}
    (h : (branchPhase s).Storing o) : s.Storing o := by
  obtain ⟨occ, huMem, hocc⟩ := branchPhase_uMem hdef
  obtain ⟨ho, hs, hop, hx⟩ := h
  rw [huMem] at ho hs
  exact ⟨hocc o ho, hs, hop, branchPhase_noExc hdef hx⟩

/-- While the memory unit is occupied the commit phase waits: the occupant is the head and not complete (20_memory.md
R69; 53_recovery_commit.md R270). -/
theorem commitPhase_of_memory {s : State} (h : s.PipeInv) {o : Occupant} (ho : s.uMem.occ = some o) :
    commitPhase s = s := by
  rcases commitPhase_cases s with ⟨heq, -⟩ | ⟨e, he, hd, -⟩
  · exact heq
  · have hopen := h.pendingOpen _ (pending_of_occupant (mem_occupants.mpr (.inr (.inr (.inl ho)))))
    exact absurd (h.memAtHead o ho) (ne_of_openEntry hopen (headEntry_eq_some.mp he).2 hd)

/-- A step changes data memory only by the tick's memory phase (20_memory.md R74). -/
theorem step_dm {s t : State} (h : step s = .next t) (hne : t.dm ≠ s.dm) : ∃ replies,
    (afterCommit { s with replies := replies }).branchDefined = true
      ∧ t.dm = (memPhase (afterBranch { s with replies := replies })).dm := by
  obtain ⟨d, hd, hphase⟩ := step_cases s
  have hkeeps : ∀ u : State, (d u).dm = u.dm := by
    rcases hphase with rfl | rfl | ⟨op, x, rfl, -⟩
    · exact fun _ => rfl
    · exact dispatchIllegal_dm
    · exact fun u => dispatchLegal_dm u op x
  rcases (clocked_next (hd ▸ h)).2 with rfl | ⟨rest, -, rfl⟩ | ⟨rest, -, htick⟩
  · exact absurd rfl hne
  · exact absurd rfl hne
  · rcases tickWith_next htick with ⟨-, rfl⟩ | ⟨-, hbr, -, rfl⟩
    · exact absurd (commitPhase_dm _) hne
    · exact ⟨rest, hbr, by simp [hkeeps, beforeDispatch]⟩

/-- A tick whose memory phase writes has a store in stage 2 from its start, and writes that store's data to its cell
(20_memory.md R74, R75). -/
theorem tick_writes {s : State} (hp : s.PipeInv) (hdef : (afterCommit s).branchDefined = true)
    (hne : (memPhase (afterBranch s)).dm ≠ s.dm) :
    (∃ o, s.Storing o) ∧ (memPhase (afterBranch s)).dm = s.dm.write s.uMem.addr.toNat s.uMem.sval := by
  have hdm : (afterBranch s).dm = s.dm := by simp [afterBranch, afterCommit]
  have huMem : (afterCommit s).uMem = s.uMem := by simp [afterCommit]
  obtain ⟨occ, hunit, -⟩ := branchPhase_uMem hdef
  have hunit : (afterBranch s).uMem = { (afterCommit s).uMem with occ := occ } := hunit
  rw [← hdm] at hne
  obtain ⟨⟨o, hstoring⟩, hwrite⟩ := memPhase_writes hne
  obtain ⟨ho, hs, hop, hx⟩ := hstoring.of_branchPhase hdef
  rw [huMem] at ho hs
  have hwaits : afterCommit s = beginTick s :=
    commitPhase_of_memory (s := beginTick s) (hp.of_eq rfl rfl rfl rfl rfl rfl rfl rfl rfl rfl) ho
  rw [hwaits] at hx
  exact ⟨⟨o, ho, hs, hop, hx⟩, by rw [hwrite, hdm, hunit, huMem]⟩

end Sys2Proof.Machine

namespace Sys2Proof.Claims

open Sys2Proof.Machine

/-- Settles O53: the memory phase keeps the form by writing in range, and no other phase writes. -/
theorem stepKeepsMemoryCanonical : Obligations.StepKeepsMemoryCanonical := by
  unfold Obligations.StepKeepsMemoryCanonical
  exact fun s t h hstep => memory_phases.step h hstep

/-- Settles O48: no phase writes an input. -/
theorem inputsNeverChange : Obligations.InputsNeverChange := by
  unfold Obligations.InputsNeverChange
  intro s t hstep
  obtain ⟨hprogram, hmode⟩ := (inputs_phases s.program s.mode).step ⟨rfl, rfl⟩ hstep
  exact ⟨hprogram, step_cfg hstep, hmode⟩

/-- Settles O52: a write comes from a store in stage 2, whose occupant is the head and whose address is in range. -/
theorem onlyTheHeadStoreWritesMemory : Obligations.OnlyTheHeadStoreWritesMemory := by
  unfold Obligations.OnlyTheHeadStoreWritesMemory
  intro s t hmem _ hp hstep hne
  obtain ⟨replies, hdef, hdm⟩ := step_dm hstep hne
  obtain ⟨⟨o, ho, hs, hop, hx⟩, hwrite⟩ := tick_writes (s := { s with replies := replies })
    (hp.of_eq rfl rfl rfl rfl rfl rfl rfl rfl rfl rfl) hdef (hdm ▸ hne)
  have hhead : o.rob = s.head := hp.memAtHead o ho
  obtain ⟨e, he, hexc⟩ := noExc_iff.mp hx
  have hrange : InRange s s.uMem.addr := by
    simpa [addrInRange, InRange] using accessDefined_iff.mp hp.accessDefined o ho hs hx
  have hcells : t.dm = s.dm.write s.uMem.addr.toNat s.uMem.sval := hdm.trans hwrite
  refine ⟨o, e, ho, hs, hop, hhead, hhead ▸ he, hexc, hrange, ?_, fun x hother => ?_⟩ <;> rw [hcells]
  · exact Memory.read_write_same hmem _ _
  · exact Memory.read_write_other _ _ hother

/-- Settles O58: the links give each stop's premise where the tick tests it. -/
theorem stepNeverFaultsInTheInvariant : Obligations.StepNeverFaultsInTheInvariant := by
  unfold Obligations.StepNeverFaultsInTheInvariant
  intro s hok hr hp
  obtain ⟨d, hd, -⟩ := step_cases s
  rw [hd]
  exact clocked_answers hok fun rest => tickWith_answers (ring_phases.host s s.quit rest hr)
    (hp.of_eq rfl rfl rfl rfl rfl rfl rfl rfl rfl rfl) d

end Sys2Proof.Claims

namespace Sys2Proof

/-! ## The decoder and the encoder, by the fields an opcode uses (30_encoding.md R80 to R91)

The bundle that keeps the opcode and the used fields of a bundle and holds 0 elsewhere stands between the two: it decodes
as the bundle itself does, and it is what the encoder writes for the decoded instruction. -/

open Sys2Proof.Claims

/-- Decoding answers an instruction exactly when the opcode is assigned and the instruction of the fields is well-formed
(30_encoding.md R91). -/
theorem decode_eq_ok_iff {n : Nat} {w : Bundle} {i : Instr} : decode n w = .ok i ↔
    ∃ op, Op.ofCode? w.opcode = some op ∧ Instr.ofFields op w.rd w.rs1 w.rs2 w.rs3 w.imm = i ∧ i.wf n = true := by
  unfold decode
  cases hop : Op.ofCode? w.opcode with
  | none => simp
  | some op =>
    by_cases hwf : (Instr.ofFields op w.rd w.rs1 w.rs2 w.rs3 w.imm).wf n = true
    · simp only [hwf, if_true, Except.ok.injEq, Option.some.injEq, exists_eq_left']
      exact ⟨fun h => ⟨h, h ▸ hwf⟩, And.left⟩
    · simp only [hwf, if_false, Option.some.injEq, exists_eq_left', reduceCtorEq, false_iff]
      rintro ⟨rfl, h⟩
      exact hwf h

/-! ### The encoder's bundle -/

/-- The encoder writes the instruction's opcode number (30_encoding.md R83). -/
theorem encode_opcode (i : Instr) : (encode i).opcode = i.op.code := by
  cases i <;> exact Bundle.opcode_ofFields ..

/-- Every field that an instruction uses reads back from the encoder's bundle (30_encoding.md R86). -/
theorem ofFields_encode (i : Instr) : Instr.ofFields i.op (encode i).rd (encode i).rs1 (encode i).rs2 (encode i).rs3
    (encode i).imm = i := by
  cases i <;> simp [Instr.ofFields, Instr.op, encode]

/-- Decoding inverts encoding on the well-formed instructions (30_encoding.md R91). -/
theorem decode_encode {n : Nat} {i : Instr} (hwf : i.wf n = true) : decode n (encode i) = .ok i := by
  have hop : Op.ofCode? (encode i).opcode = some i.op := by rw [encode_opcode, Op.ofCode?_code]
  exact decode_eq_ok_iff.mpr ⟨i.op, hop, ofFields_encode i, hwf⟩

/-! ### Legal bundles -/

/-- The assigned opcode numbers are 0x00 to 0x11 (30_encoding.md R83). -/
theorem ofCode?_isSome_iff (c : OpField) : (Op.ofCode? c).isSome = true ↔ c.toNat ≤ 0x11 := by
  revert c; decide

/-- An instruction made of fields is well-formed when every register field that its opcode uses is below NUM_ARCH
(30_encoding.md R84, R87). -/
theorem ofFields_wf_iff (n : Nat) (op : Op) (rd rs1 rs2 rs3 : Reg) (imm : Imm) :
    (Instr.ofFields op rd rs1 rs2 rs3 imm).wf n = true ↔
      (usesRd op.code = true → rd.val < n) ∧ (usesRs1 op.code = true → rs1.val < n)
        ∧ (usesRs2 op.code = true → rs2.val < n) ∧ (usesRs3 op.code = true → rs3.val < n) := by
  cases op <;> simp [Instr.ofFields, Instr.wf, Instr.regs, Op.code, usesRd, usesRs1, usesRs2, usesRs3]

/-! ### The bundle with 0 in the ignored fields -/

/-- A bundle's opcode and used fields, with 0 in every other field and in the reserved bits (30_encoding.md R82). -/
def Bundle.usedOnly (w : Bundle) : Bundle :=
  Bundle.ofFields w.opcode (if usesRd w.opcode then w.rd else 0) (if usesRs1 w.opcode then w.rs1 else 0)
    (if usesRs2 w.opcode then w.rs2 else 0) (if usesRs3 w.opcode then w.rs3 else 0)
    (if usesImm w.opcode then w.imm else 0)

@[simp] theorem Bundle.opcode_usedOnly (w : Bundle) : w.usedOnly.opcode = w.opcode := Bundle.opcode_ofFields ..

theorem agreeOnUsed_usedOnly (w : Bundle) : AgreeOnUsed w.usedOnly w := by
  refine ⟨w.opcode_usedOnly, ?_, ?_, ?_, ?_, ?_⟩ <;> intro hused <;> simp [Bundle.usedOnly, hused]

theorem unusedZero_usedOnly (w : Bundle) : UnusedZero w.usedOnly := by
  unfold UnusedZero
  rw [Bundle.opcode_usedOnly]
  refine ⟨?_, ?_, ?_, ?_, ?_, Bundle.reserved_ofFields ..⟩ <;> intro hunused <;> simp [Bundle.usedOnly, hunused]

/-- Bundles that agree on the opcode and the used fields are one bundle once the other fields are 0. -/
theorem usedOnly_eq_of_agree {v w : Bundle} (h : AgreeOnUsed v w) : v.usedOnly = w.usedOnly := by
  obtain ⟨hop, hrd, hrs1, hrs2, hrs3, himm⟩ := h
  unfold Bundle.usedOnly
  rw [hop, ite_congr rfl hrd fun _ => rfl, ite_congr rfl hrs1 fun _ => rfl, ite_congr rfl hrs2 fun _ => rfl,
    ite_congr rfl hrs3 fun _ => rfl, ite_congr rfl himm fun _ => rfl]

/-- An instruction made of fields does not depend on those its opcode does not use (30_encoding.md R82). -/
theorem ofFields_usedOnly {w : Bundle} {op : Op} (hop : Op.ofCode? w.opcode = some op) :
    Instr.ofFields op w.usedOnly.rd w.usedOnly.rs1 w.usedOnly.rs2 w.usedOnly.rs3 w.usedOnly.imm
      = Instr.ofFields op w.rd w.rs1 w.rs2 w.rs3 w.imm := by
  unfold Bundle.usedOnly
  rw [← Op.code_of_ofCode? hop]
  cases op <;> simp [Instr.ofFields, Op.code, usesRd, usesRs1, usesRs2, usesRs3, usesImm]

/-- The ignored fields do not enter decoding, of legal and of illegal bundles (30_encoding.md R82). -/
theorem decode_usedOnly (n : Nat) (w : Bundle) : decode n w.usedOnly = decode n w := by
  unfold decode
  rw [Bundle.opcode_usedOnly]
  cases hop : Op.ofCode? w.opcode with
  | none => rfl
  | some op => simp only [ofFields_usedOnly hop]

/-- The bundle of an instruction made of a bundle's fields is that bundle with 0 in the ignored fields (30_encoding.md
R80, R84). -/
theorem encode_ofFields {w : Bundle} {op : Op} (hop : Op.ofCode? w.opcode = some op) :
    encode (Instr.ofFields op w.rd w.rs1 w.rs2 w.rs3 w.imm) = w.usedOnly := by
  unfold Bundle.usedOnly
  rw [← Op.code_of_ofCode? hop]
  cases op <;> rfl

/-- The bundle of a decoded instruction is the one decoded, with 0 in the ignored fields (30_encoding.md R82, R91). -/
theorem encode_of_decode {n : Nat} {w : Bundle} {i : Instr} (h : decode n w = .ok i) : encode i = w.usedOnly := by
  obtain ⟨op, hop, rfl, -⟩ := decode_eq_ok_iff.mp h
  exact encode_ofFields hop

end Sys2Proof

namespace Sys2Proof.Claims

/-- Settles O2: the fields that an instruction uses read back from its bundle. -/
theorem decodeEncodeAgree : Obligations.DecodeEncodeAgree := by
  unfold Obligations.DecodeEncodeAgree
  exact fun n i hwf => decode_encode hwf

/-- Settles O3: an assigned number is an opcode's, and the opcode's used registers are the well-formedness test. -/
theorem legalBundlesDecode : Obligations.LegalBundlesDecode := by
  unfold Obligations.LegalBundlesDecode
  intro n w
  rw [← ofCode?_isSome_iff]
  cases hop : Op.ofCode? w.opcode with
  | none => simp [decode_eq_ok_iff, hop]
  | some op => simp [decode_eq_ok_iff, hop, ofFields_wf_iff, Op.code_of_ofCode? hop]

/-- Settles O4: both bundles decode as the one bundle that keeps their opcode and used fields. -/
theorem ignoredFieldsDecodeAlike : Obligations.IgnoredFieldsDecodeAlike := by
  unfold Obligations.IgnoredFieldsDecodeAlike
  intro n v w hagree
  calc decode n v = decode n v.usedOnly := (decode_usedOnly n v).symm
    _ = decode n w.usedOnly := by rw [usedOnly_eq_of_agree hagree]
    _ = decode n w := decode_usedOnly n w

/-- Settles O5: the decoded instruction's own bundle is the bundle with 0 in the ignored fields. -/
theorem decodedKeepsUsedFields : Obligations.DecodedKeepsUsedFields := by
  unfold Obligations.DecodedKeepsUsedFields
  intro n w i hdecode
  obtain ⟨-, -, -, hwf⟩ := decode_eq_ok_iff.mp hdecode
  have hencode : encode i = w.usedOnly := encode_of_decode hdecode
  exact ⟨hwf, hencode ▸ agreeOnUsed_usedOnly w, hencode ▸ unusedZero_usedOnly w, decode_encode hwf⟩

/-- Settles O1: each instruction's bundle is the listed word, and it decodes back by the round trip. -/
theorem specBundlesDecode : Obligations.SpecBundlesDecode := by
  unfold Obligations.SpecBundlesDecode
  have listed {w : Bundle} {i : Instr} (hword : encode i = w) (hwf : i.wf 16 = true) :
      decode 16 w = .ok i ∧ encode i = w := ⟨hword ▸ decode_encode hwf, hword⟩
  exact ⟨listed rfl rfl, listed rfl rfl, listed rfl rfl, listed rfl rfl⟩

end Sys2Proof.Claims

namespace Sys2Proof.Machine

open Sys2Proof.Claims

/-! ## One instruction alone in the machine

The life of an instruction that a drained machine takes in: dispatch, issue, its unit, commit. `State.Living` is what
every tick before the commit leaves alone, and `State.Finished` what the unit must have done by then; neither names a
unit, so that a life in the integer unit adds only that unit's tick. -/

/-! ### Ticks of a machine that runs freely and fetches nothing -/

/-- Without a budget and before the run's end the clock runs one tick (50_cycle_and_fetch.md R193). -/
theorem clocked_of_freeRun {s : State} (d : State → State) (hok : s.cfg.ok = true) (hmode : s.mode = .untilDone none)
    (hhalted : s.halted = false) (hfault : s.fault = none) (hquit : s.quit = false) :
    clocked d s = tickWith d s := by
  have hclock : s.clock = .tick s.replies := by
    simp [State.clock, State.runEnd, State.budgetOut, RunMode.budget, hmode, hhalted, hfault, hquit]
  exact clocked_tick hok hclock

theorem State.FetchIdle.of_frame {s t : State} (h : s.FetchIdle) (cfg : t.cfg = s.cfg) (program : t.program = s.program)
    (pc : t.pc = s.pc) (stopped : t.fetchStopped = s.fetchStopped) : t.FetchIdle := by
  unfold State.FetchIdle State.bundleAt at h ⊢
  rwa [cfg, program, pc, stopped]

/-- An idle fetch phase changes nothing (50_cycle_and_fetch.md R187, R188). -/
theorem fetchPhase_idle {s : State} (hsup : s.fetchSuppress = false) (h : s.FetchIdle) : fetchPhase s = s := by
  unfold fetchPhase
  rcases h with hstop | hnone
  · simp [hsup, hstop]
  · simp [hsup, hnone]

/-- The commit phase waits for the head entry (53_recovery_commit.md R270). -/
theorem commitPhase_waits {s : State} (h : ∀ e, s.headEntry = some e → e.done = false) : commitPhase s = s := by
  rcases commitPhase_cases s with ⟨hsame, -⟩ | ⟨e, he, hdone, -⟩
  · exact hsame
  · exact absurd hdone (by simp [h e he])

/-- The commit phase retires a complete head entry without an exception (53_recovery_commit.md R272). -/
theorem commitPhase_retires {s : State} {e : RobEntry} (he : s.headEntry = some e) (hdone : e.done = true)
    (hexc : e.exc = .none) : commitPhase s = s.retire e := by
  simp [commitPhase, he, hdone, hexc]

theorem issuePhase_empty {s : State} (h : s.iq = []) : issuePhase s = s := by
  rw [issuePhase, h, issueScan_nil, ← h]

/-- A lone eligible entry moves into its unit (52_issue_units.md R232, R237). -/
theorem issuePhase_single {s : State} {e : IqEntry} (hiq : s.iq = [e]) (hel : s.eligible e = true)
    (hfree : s.unitFree e.op.unit = true) : issuePhase s = State.issueTo { s with iq := [] } e := by
  have hel' : State.eligible { s with iq := [] } e = true := (eligible_congr rfl rfl rfl rfl e).trans hel
  have hfree' : State.unitFree { s with iq := [] } e.op.unit = true := by
    cases hu : e.op.unit <;> rwa [hu] at hfree
  rw [issuePhase, hiq, issueScan_issues hel' hfree', issueScan_nil]

/-- The head entry waits for no older instruction (52_issue_units.md R234 to R236). -/
theorem orderingMet_head {s : State} {e : IqEntry} (hrob : e.rob = s.head) (hhead : s.head < s.cfg.robSize)
    (hcount : 0 < s.count) : s.orderingMet e = true := by
  have holder : ∀ cond, s.allOlder s.head cond = true := fun cond => by
    rw [State.allOlder, age_head hhead]
    rfl
  cases hop : e.op <;> simp [State.orderingMet, hop, holder, hrob, hcount]

theorem occupants_eq_nil {s : State} :
    s.occupants = [] ↔ s.uInt.occ = none ∧ s.uMul.occ = none ∧ s.uMem.occ = none ∧ s.uBr.occ = none := by
  simp [State.occupants]

/-- A tick whose commit phase leaves no unit and no queue entry at work: only dispatch and fetch act. -/
theorem tickWith_of_idle {u t : State} (d : State → State) (hcommit : afterCommit u = t) (hend : t.ended = false)
    (hunits : t.occupants = []) (hiq : t.iq = []) : tickWith d u = .next (fetchPhase (d t)) := by
  obtain ⟨hint, hmul, hmem, hbr⟩ := occupants_eq_nil.mp hunits
  have hbranch : afterBranch u = t := by rw [afterBranch, hcommit, branchPhase_idle hbr]
  have hbefore : beforeDispatch u = t := by
    rw [beforeDispatch, hbranch, memPhase_idle hmem, mulPhase_idle hmul, intPhase_idle hint, issuePhase_empty hiq]
  rw [tickWith_of_defined d (hcommit ▸ hend), hbefore]
  · rw [hcommit, State.branchDefined, hbr]
  · rw [hbranch, State.accessDefined, hmem]

/-! ### Dispatch from a drained machine -/

/-- What `Config.sizesOk` says of the tables that dispatch takes from (70_reset_and_hazards.md R323). -/
theorem Config.ok_capacities {c : Config} (h : c.ok = true) : 1 ≤ c.robSize ∧ 1 ≤ c.iqSize ∧ 1 ≤ c.numCkpt := by
  simp only [Config.ok, Config.sizesOk, Bool.and_eq_true, decide_eq_true_eq] at h
  omega

section Drained

variable {s : State} {op : Op} {x : Operands}

theorem State.Drained.shape (h : s.Drained) : s.ShapeInv where
  prfLength := h.prfLength
  ratLength := h.ratLength
  ratTags := h.ratTags
  ckLength := h.ckLength
  snapRatLength c hc hb := by simp [h.ckFree c hc] at hb
  snapRatTags c hc hb := by simp [h.ckFree c hc] at hb
  snapPrfLength c hc hb := by simp [h.ckFree c hc] at hb

theorem State.Drained.unitsFree (h : s.Drained) : s.occupants = [] :=
  occupants_eq_nil.mpr ⟨h.intFree, h.mulFree, h.memFree, h.brFree⟩

/-- A drained machine has every resource but perhaps a register (51_rename_dispatch.md R201). -/
theorem State.Drained.no_stall (h : s.Drained) (hfree : x.d.isSome = true → s.SomeFree) :
    s.stallReasons op x = [] := by
  obtain ⟨hrob, hiq, hckpt⟩ := Config.ok_capacities h.cfgOk
  refine stallReasons_eq_nil.mpr ⟨fun hd => ?_, fun _ => ?_, ?_, ?_⟩
  · obtain ⟨p, hp, hpfree⟩ := hfree hd
    have hlt : p < s.prf.length := h.prfLength ▸ hp
    rw [← Option.ne_none_iff_isSome, ne_eq, freeReg_eq_none]
    exact fun hnone => absurd (hnone _ (List.mem_of_getElem? (preg_of_lt hlt))) (by simp [hpfree])
  · have hlt : 0 < s.ck.length := h.ckLength ▸ hckpt
    rw [State.freeSlot, List.findIdx?_isSome, List.any_eq_true]
    exact ⟨s.ck[0], List.getElem_mem hlt, by simp [h.ckFree _ (List.getElem_mem hlt)]⟩
  · rw [h.iqEmpty, List.length_nil]; omega
  · rw [h.robEmpty]; omega

/-- Every source operand of a drained machine is ready, with its register's value (51_rename_dispatch.md R204). -/
theorem State.Drained.resolve (h : s.Drained) {r : Reg} (hr : r.val < s.cfg.numArch) :
    s.resolve (some r) = { tag := some (s.mapping r), ready := true, value := s.xValue r } :=
  if_pos (h.mappedValid _ (mapping_mem_rat h.shape hr))

theorem State.Drained.resolve_ready (h : s.Drained) {src : Option Reg}
    (hsrc : ∀ r, src = some r → r.val < s.cfg.numArch) : (s.resolve src).ready = true := by
  cases src with
  | none => rfl
  | some r => rw [h.resolve (hsrc r rfl)]

/-- The drained machine one tick on: the instruction waits in the issue queue. -/
def State.taken (s : State) (op : Op) (x : Operands) : State := beginTick (s.dispatched op x)

/-- A drained machine's dispatch tick only counts and takes the instruction in (51_rename_dispatch.md R214). -/
theorem State.Drained.dispatches (h : s.Drained) (hfree : x.d.isSome = true → s.SomeFree) :
    execWith op x s = .next (s.taken op x) := by
  have hcommit : afterCommit s = beginTick s :=
    commitPhase_waits fun e he => absurd (headEntry_eq_some.mp he).1 (by simp [h.robEmpty])
  have hend : (beginTick s).ended = false := by simp [State.ended, h.notHalted, h.notFaulted]
  have htaken : dispatchLegal op x (beginTick s) = s.taken op x :=
    if_pos (by rw [beginTick_fl, h.latched]; exact congrArg List.isEmpty (h.no_stall hfree))
  have hidle : (s.taken op x).FetchIdle := h.fetchIdle.of_frame rfl rfl rfl rfl
  rw [execWith, clocked_of_freeRun _ h.cfgOk h.freeRun h.notHalted h.notFaulted h.notQuit,
    tickWith_of_idle _ hcommit hend h.unitsFree h.iqEmpty, htaken,
    fetchPhase_idle (s := s.taken op x) h.notSuppressed hidle]

end Drained

/-! ### The instruction in flight -/

/-- u is the drained machine s, `k` ticks after it took the instruction in and before the instruction's commit: what no
unit but the branch unit writes. -/
structure State.Living (s : State) (op : Op) (x : Operands) (k : Nat) (u : State) : Prop where
  cfg : u.cfg = s.cfg
  program : u.program = s.program
  mode : u.mode = s.mode
  replies : u.replies = s.replies
  quit : u.quit = s.quit
  rat : u.rat = s.renamedRat x
  pc : u.pc = s.pc
  fl : u.fl = { s.fl with valid := false }
  fetchStopped : u.fetchStopped = s.fetchStopped
  fetchSuppress : u.fetchSuppress = s.fetchSuppress
  head : u.head = s.head
  count : u.count = 1
  cycle : u.cycle = s.cycle + k
  committed : u.committed = s.committed
  halted : u.halted = s.halted
  fault : u.fault = s.fault

/-- The unit is done with the instruction: its entry e is complete without an exception, its destination, if it has
one, holds v, and nothing else is at work. -/
structure State.Finished (s : State) (op : Op) (x : Operands) (v : Int) (e : RobEntry) (u : State) : Prop where
  entry : u.robAt s.head = some e
  opcode : e.op = op.code
  dest : e.dest = (s.newRobEntry op x).dest
  done : e.done = true
  noExc : e.exc = .none
  written : u.prf = updatePrf (s.renamedPrf x) (s.newTag x) (PhysReg.written v)
  iqEmpty : u.iq = []
  unitsFree : u.occupants = []
  ckFree : ∀ c ∈ u.ck, c.busy = false

section Living

variable {s u : State} {op : Op} {x : Operands} {k : Nat}

theorem State.Drained.living (h : s.Drained) : s.Living op x 1 (s.taken op x) where
  cfg := rfl
  program := rfl
  mode := rfl
  replies := rfl
  quit := rfl
  rat := rfl
  pc := rfl
  fl := rfl
  fetchStopped := rfl
  fetchSuppress := rfl
  head := rfl
  count := congrArg (· + 1) h.robEmpty
  cycle := rfl
  committed := rfl
  halted := rfl
  fault := rfl

theorem State.Living.headEntry (l : s.Living op x k u) : u.headEntry = u.robAt s.head := by
  rw [State.headEntry, l.count, l.head]
  rfl

/-- With the latch empty the step dispatches nothing (51_rename_dispatch.md R200). -/
theorem State.Living.step_eq (l : s.Living op x k u) (h : s.Drained) : step u = tickWith dispatchNothing u := by
  have hempty : u.fl.valid = false := by rw [l.fl]
  have hstep : step u = clocked dispatchNothing u := by simp [step, hempty]
  rw [hstep, clocked_of_freeRun _ (l.cfg ▸ h.cfgOk) (l.mode ▸ h.freeRun) (l.halted ▸ h.notHalted)
    (l.fault ▸ h.notFaulted) (l.quit ▸ h.notQuit)]

theorem State.Living.fetchIdle (l : s.Living op x k u) (h : s.Drained) : u.FetchIdle :=
  h.fetchIdle.of_frame l.cfg l.program l.pc l.fetchStopped

/-- Until its commit the instruction's tick is the work of the units and of issue: no fetch, no dispatch, no commit. -/
theorem State.Living.tick (l : s.Living op x k u) (h : s.Drained) {e : RobEntry} (he : u.robAt s.head = some e)
    (hopen : e.done = false) (hbr : u.uBr.occ = none) (hacc : u.accessDefined = true) :
    step u = .next (issuePhase (intPhase (mulPhase (memPhase (beginTick u)))))
      ∧ s.Living op x (k + 1) (issuePhase (intPhase (mulPhase (memPhase (beginTick u))))) := by
  have living : s.Living op x (k + 1) (issuePhase (intPhase (mulPhase (memPhase (beginTick u))))) := {
    cfg := by simp [l.cfg]
    program := by simp [l.program]
    mode := by simp [l.mode]
    replies := by simp [l.replies]
    quit := by simp [l.quit]
    rat := by simp [l.rat]
    pc := by simp [l.pc]
    fl := by simp [l.fl]
    fetchStopped := by simp [l.fetchStopped]
    fetchSuppress := by simp [l.fetchSuppress]
    head := by simp [l.head]
    count := by simp [l.count]
    cycle := by simp [beginTick, l.cycle, Nat.add_assoc]
    committed := by simp [l.committed]
    halted := by simp [l.halted]
    fault := by simp [l.fault] }
  refine ⟨?_, living⟩
  have hcommit : afterCommit u = beginTick u := commitPhase_waits fun d hd => by
    cases he.symm.trans (l.headEntry.symm.trans hd)
    exact hopen
  have hbranch : afterBranch u = beginTick u := by
    rw [afterBranch, hcommit, branchPhase_idle (s := beginTick u) hbr]
  have hend : (afterCommit u).ended = false := by
    simp [hcommit, State.ended, l.halted, l.fault, h.notHalted, h.notFaulted]
  have hbrdef : (afterCommit u).branchDefined = true := by rw [hcommit, State.branchDefined, beginTick_uBr, hbr]
  rw [l.step_eq h, tickWith_of_defined _ hend hbrdef (hbranch ▸ hacc), beforeDispatch, hbranch, dispatchNothing,
    fetchPhase_idle (living.fetchSuppress.trans h.notSuppressed) (living.fetchIdle h)]

/-! ### Issue -/

/-- The drained machine two ticks on: the instruction is in the unit of its class. -/
def State.issued (s : State) (op : Op) (x : Operands) : State :=
  State.issueTo { beginTick (s.taken op x) with iq := [] } (s.newIqEntry op x)

theorem State.Drained.taken_entry (h : s.Drained) : (s.taken op x).robAt s.head = some (s.newRobEntry op x) := by
  show (s.rob.set s.tail (some (s.newRobEntry op x))).getD s.head none = _
  rw [h.tailIs, robAt_set _ _ _ _ (h.robLength ▸ h.headBound), if_pos rfl]

theorem State.issued_rob (s : State) (op : Op) (x : Operands) : (s.issued op x).rob = (s.taken op x).rob :=
  issueTo_rob ..

theorem State.Drained.issued_entry (h : s.Drained) : (s.issued op x).robAt s.head = some (s.newRobEntry op x) := by
  rw [State.robAt, State.issued_rob]
  exact h.taken_entry

/-- Alone in the machine an instruction of any class waits for nothing (52_issue_units.md R233 to R236). -/
theorem State.Drained.taken_eligible (h : s.Drained) (hx : x.Legal s.cfg.numArch op) :
    (beginTick (s.taken op x)).eligible (s.newIqEntry op x) = true := by
  have hready : (s.newIqEntry op x).ready = true := by
    simp [IqEntry.ready, State.newIqEntry, h.resolve_ready hx.a, h.resolve_ready hx.b]
  have hordering : (beginTick (s.taken op x)).orderingMet (s.newIqEntry op x) = true :=
    orderingMet_head h.tailIs h.headBound (Nat.succ_pos s.count)
  rw [State.eligible, hready, hordering, Bool.and_self]

/-- One tick after its dispatch the instruction issues (70_reset_and_hazards.md R333). -/
theorem State.Drained.issues (h : s.Drained) (hx : x.Legal s.cfg.numArch op) :
    step (s.taken op x) = .next (s.issued op x) ∧ s.Living op x 2 (s.issued op x) := by
  have hint : (beginTick (s.taken op x)).uInt.occ = none := h.intFree
  have hmul : (beginTick (s.taken op x)).uMul.occ = none := h.mulFree
  have hmem : (beginTick (s.taken op x)).uMem.occ = none := h.memFree
  have hbr : (beginTick (s.taken op x)).uBr.occ = none := h.brFree
  have hacc : (s.taken op x).accessDefined = true := accessDefined_iff.mpr fun o ho => nomatch hmem.symm.trans ho
  have hfree : (beginTick (s.taken op x)).unitFree op.unit = true := by
    cases hu : op.unit <;> simp only [State.unitFree, hint, hmul, hmem, hbr, Option.isNone_none]
  have hiq : (beginTick (s.taken op x)).iq = [s.newIqEntry op x] :=
    congrArg (· ++ [s.newIqEntry op x]) h.iqEmpty
  have htick := (h.living (op := op) (x := x)).tick h h.taken_entry rfl hbr hacc
  rwa [memPhase_idle hmem, mulPhase_idle hmul, intPhase_idle hint,
    issuePhase_single hiq (h.taken_eligible hx) hfree] at htick

/-! ### The registers at the end -/

/-- Two architectural registers of a drained machine are never mapped alike (10_state.md R24). -/
theorem State.Drained.mapping_injective (h : s.Drained) {a b : Reg} (ha : a.val < s.cfg.numArch)
    (hb : b.val < s.cfg.numArch) (heq : s.mapping a = s.mapping b) : a = b := by
  have hlt : a.val < s.rat.length := h.ratLength ▸ ha
  refine Fin.val_injective ((List.getElem?_inj hlt h.ratDistinct).mp ?_)
  rw [mapping_getElem? h.shape ha, mapping_getElem? h.shape hb, heq]

theorem State.Drained.mapped_inUse (h : s.Drained) {a : Reg} (ha : a.val < s.cfg.numArch) :
    (s.preg (s.mapping a)).free = false :=
  h.mappedInUse _ (mapping_mem_rat h.shape ha)

/-- A new destination was mapped to no register (51_rename_dispatch.md R205). -/
theorem State.Drained.newTag_ne_mapping (h : s.Drained) {a : Reg} (ha : a.val < s.cfg.numArch) :
    s.newTag x ≠ some (s.mapping a) := fun hnew =>
  absurd (newTag_free hnew).2 (by simp [h.mapped_inUse ha])

/-- After the rename the destination, and it alone, is mapped anew (51_rename_dispatch.md R206). -/
theorem mapping_of_renamedRat {s u : State} (hrat : u.rat = s.renamedRat x) {a : Reg} (ha : x.d ≠ some a) :
    u.mapping a = s.mapping a := by
  rw [State.mapping, hrat, State.renamedRat]
  split
  · next rd p hd _ =>
    have hne : rd.val ≠ a.val := fun heq => ha (hd.trans (congrArg some (Fin.val_injective heq)))
    simp [State.mapping, List.getD_eq_getElem?_getD, List.getElem?_set_ne hne]
  · rfl

theorem mapping_of_renamedRat_dest {s u : State} (hrat : u.rat = s.renamedRat x) {a : Reg} (ha : x.d = some a)
    (hlt : a.val < s.rat.length) {p : Nat} (hp : s.newTag x = some p) : u.mapping a = p := by
  simp [State.mapping, hrat, State.renamedRat, ha, hp, List.getD_eq_getElem?_getD, hlt]

/-- The register that the commit releases is mapped no more, under either policy (53_recovery_commit.md R272). -/
theorem State.Living.releasedTag_ne (l : s.Living op x k u) (h : s.Drained) (hx : x.Legal s.cfg.numArch op)
    {v : Int} {e : RobEntry} (f : s.Finished op x v e u) {a : Reg} (ha : a.val < s.cfg.numArch) :
    u.releasedTag e ≠ some (u.mapping a) := by
  obtain ⟨hpdst, hadst, hpprev⟩ : e.pdst = s.newTag x ∧ e.adst = x.d ∧ e.pprev = x.d.map s.mapping := by
    simpa [RobEntry.dest, State.newRobEntry] using f.dest
  unfold State.releasedTag
  rw [hpdst, hadst, hpprev]
  cases hp : s.newTag x with
  | none => simp
  | some p =>
    cases hd : x.d with
    | none => simp [State.newTag, hd] at hp
    | some rd =>
      have hrd : rd.val < s.cfg.numArch := hx.d rd hd
      have hmapped : u.mapping rd = p := mapping_of_renamedRat_dest l.rat hd (h.ratLength ▸ hrd) hp
      cases hpol : u.cfg.freePolicy with
      | destIfRemapped => simp [hmapped]
      | prev =>
        show some (s.mapping rd) ≠ _
        by_cases hard : x.d = some a
        · rw [mapping_of_renamedRat_dest l.rat hard (h.ratLength ▸ ha) hp, ← hp]
          exact (h.newTag_ne_mapping hrd).symm
        · rw [mapping_of_renamedRat l.rat hard]
          exact fun heq => hard (hd.trans (congrArg some (h.mapping_injective hrd ha (Option.some.inj heq))))

/-- A register of the finished machine: the destination holds the result and no other has changed. -/
theorem State.Finished.preg {v : Int} {e : RobEntry} (f : s.Finished op x v e u) (p : Nat) :
    u.preg p = if s.newTag x = some p then { value := v, valid := true, free := false } else s.preg p := by
  rw [preg_of_updatePrf (s := s.dispatched op x) (t := u) f.written, dispatched_preg]
  by_cases hp : s.newTag x = some p
  · have hlt : p < (s.dispatched op x).prf.length := by
      show p < (updatePrf ..).length
      rw [updatePrf_length]
      exact newTag_lt hp
    rw [if_pos hp, if_pos hp, if_pos ⟨hp, hlt⟩]
    rfl
  · rw [if_neg hp, if_neg hp, if_neg fun hboth => hp hboth.1]

/-- What an architectural register names once the instruction has committed. -/
theorem State.Living.committed_preg (l : s.Living op x k u) (h : s.Drained) (hx : x.Legal s.cfg.numArch op)
    (hfree : x.d.isSome = true → s.SomeFree) {v : Int} {e : RobEntry} (f : s.Finished op x v e u)
    {a : Reg} (ha : a.val < s.cfg.numArch) :
    (u.retire e).preg (u.mapping a)
      = if x.d = some a then { value := v, valid := true, free := false } else s.preg (s.mapping a) := by
  rw [preg_of_updatePrf (s := u) (t := u.retire e) rfl, if_neg fun hboth => l.releasedTag_ne h hx f ha hboth.1,
    f.preg]
  by_cases hd : x.d = some a
  · obtain ⟨p, hp, -⟩ := newTag_of_dest (h.no_stall (op := op) hfree) hd
    rw [if_pos hd, mapping_of_renamedRat_dest l.rat hd (h.ratLength ▸ ha) hp, if_pos hp]
  · rw [if_neg hd, mapping_of_renamedRat l.rat hd, if_neg (h.newTag_ne_mapping ha)]

/-! ### Commit -/

/-- A finished instruction commits in the next tick, and then nothing is left in flight (53_recovery_commit.md R272 to
R274). -/
theorem State.Living.commits (l : s.Living op x k u) (h : s.Drained) {v : Int} {e : RobEntry}
    (f : s.Finished op x v e u) : step u = .next ((beginTick u).retire e) := by
  have hhead : (beginTick u).headEntry = some e := l.headEntry.trans f.entry
  have hcommit : afterCommit u = (beginTick u).retire e := commitPhase_retires hhead f.done f.noExc
  have hidle : ((beginTick u).retire e).FetchIdle := (l.fetchIdle h).of_frame rfl rfl rfl rfl
  rw [l.step_eq h]
  cases hend : ((beginTick u).retire e).ended with
  | true => simp [tickWith, hcommit, hend]
  | false =>
    rw [tickWith_of_idle dispatchNothing hcommit hend f.unitsFree f.iqEmpty, dispatchNothing,
      fetchPhase_idle (s := (beginTick u).retire e) (l.fetchSuppress.trans h.notSuppressed) hidle]

theorem Op.code_beq_halt (op : Op) : (op.code == Op.halt.code) = decide (op = .halt) := by cases op <;> rfl

/-- The whole life's effect: the destination, the flag and the cells that the unit left, and one commit. -/
theorem State.Living.effect (l : s.Living op x k u) (h : s.Drained) (hx : x.Legal s.cfg.numArch op)
    (hfree : x.d.isSome = true → s.SomeFree) {v : Int} {e : RobEntry} (f : s.Finished op x v e u)
    {store : Option (Nat × Int)}
    (hstored : ∀ a w, store = some (a, w) → u.dm.read a = w)
    (hcells : ∀ y, (∀ a w, store = some (a, w) → y ≠ a) → u.dm.read y = s.dm.read y) :
    s.Effect ((beginTick u).retire e) (k + 1)
      { dst := x.d.map fun rd => (rd, v), z := u.z, store := store, halted := decide (op = .halt) } where
  dstWritten rd w hdst := by
    obtain ⟨a, ha, hpair⟩ := Option.map_eq_some_iff.mp hdst
    cases hpair
    have hreg := l.committed_preg h hx hfree f (hx.d rd ha)
    rw [if_pos ha] at hreg
    exact ⟨congrArg PhysReg.value hreg, congrArg PhysReg.valid hreg⟩
  othersKept a ha hother := by
    have hne : x.d ≠ some a := fun hd => hother a v (by simp [hd]) rfl
    have hreg := l.committed_preg h hx hfree f ha
    rw [if_neg hne] at hreg
    exact ⟨congrArg PhysReg.value hreg, congrArg PhysReg.valid hreg, mapping_of_renamedRat l.rat hne⟩
  mappedInUse a ha := by
    refine (congrArg PhysReg.free (l.committed_preg h hx hfree f ha)).trans ?_
    split
    · rfl
    · exact h.mapped_inUse ha
  zIs := rfl
  storedTo := hstored
  otherCellsKept := hcells
  committedOnce := congrArg (· + 1) l.committed
  cyclesIs := congrArg (· + 1) l.cycle
  haltedIs := by
    show (u.halted || e.op == Op.halt.code) = _
    rw [l.halted, h.notHalted, f.opcode, Op.code_beq_halt, Bool.false_or]
  noFault := l.fault.trans h.notFaulted
  robEmpty := congrArg (· - 1) l.count
  iqEmpty := f.iqEmpty
  unitsFree := f.unitsFree
  ckFree := f.ckFree
  inputsKept := ⟨l.cfg, l.program, l.mode, l.replies, l.quit⟩

/-- A whole life, from the dispatch over k ticks to the finished instruction and its commit. -/
theorem State.Living.livesTo (l : s.Living op x (k + 1) u) (h : s.Drained) {i : Instr}
    (hexec : exec i s = execWith op x s) (hrun : ticks k (s.taken op x) = .next u) (hx : x.Legal s.cfg.numArch op)
    (hfree : x.d.isSome = true → s.SomeFree) {v : Int} {e : RobEntry} (f : s.Finished op x v e u)
    {store : Option (Nat × Int)} (hstored : ∀ a w, store = some (a, w) → u.dm.read a = w)
    (hcells : ∀ y, (∀ a w, store = some (a, w) → y ≠ a) → u.dm.read y = s.dm.read y) :
    LivesTo s i (k + 1)
      { dst := x.d.map fun rd => (rd, v), z := u.z, store := store, halted := decide (op = .halt) } := by
  refine ⟨s.taken op x, (beginTick u).retire e, hexec.trans (h.dispatches hfree), ?_,
    l.effect h hx hfree f hstored hcells, l.pc, congrArg Latch.valid l.fl⟩
  rw [ticks_add k 1 hrun, ticks_succ (l.commits h f), ticks_zero]

/-! ### The integer unit -/

theorem sx_eq_wrap (c : Config) (v : Int) : sx c v = c.wrap v := (Config.wrap_eq_toInt_ofInt c v).symm

/-- The integer unit's own writes by the rules' table (40_integer.md R111 to R119), for an occupant that has no
destination where its opcode writes none. -/
theorem executeInt_eq_intResult {o : Occupant} {s : State} (hunit : o.op.unit = .int)
    (hdst : Op.writesDest o.op = false → o.pdst = none) :
    executeInt o s = { s.writeBack o.pdst ((intResult s.cfg o).getD 0) with
      z := if o.op = .cmp then decide (o.a = o.b) else s.z } := by
  unfold executeInt intResult
  cases hop : o.op <;> rw [hop] at hdst
  case add | sub => simp only [sx_eq_wrap]; rfl
  case and | or | xor | movc => rfl
  case cmp | nop | halt => rw [hdst rfl, writeBack_none]; rfl
  all_goals rw [hop] at hunit; cases hunit

theorem Operands.Legal.newTag_eq_none (hx : x.Legal s.cfg.numArch op) (hwrites : Op.writesDest op = false) :
    s.newTag x = none := by
  have hd : x.d = none := by simpa [hwrites] using hx.dest
  simp [State.newTag, hd]

theorem State.issued_of_int (hunit : op.unit = .int) : s.issued op x
    = { beginTick (s.taken op x) with iq := [], uInt := { occ := some (s.newIqEntry op x).occupant } } := by
  simp [State.issued, State.issueTo, State.newIqEntry, hunit]

theorem checkpointed_of_int (hunit : op.unit = .int) : s.checkpointed op x = s.ck := by
  simp [State.checkpointed, Op.needsCkpt, hunit]

/-- The drained machine three ticks on, for an integer-unit instruction with the result v and the flag z: executed and
complete, not yet committed. -/
def State.executed (s : State) (op : Op) (x : Operands) (v : Int) (z : Bool) : State :=
  State.complete
    { State.writeBack { beginTick (beginTick (s.taken op x)) with iq := [] } (s.newTag x) v with
      z := z, uInt := { occ := none } } s.tail

theorem State.Drained.executed_finished (h : s.Drained) (hunit : op.unit = .int) (v : Int) (z : Bool) :
    s.Finished op x v { s.newRobEntry op x with done := true } (s.executed op x v z) where
  entry := by
    have hentry := h.taken_entry (op := op) (x := x)
    rw [State.executed, complete_robAt, h.tailIs, if_pos rfl]
    exact congrArg (Option.map _) hentry
  opcode := rfl
  dest := rfl
  done := rfl
  noExc := rfl
  written := rfl
  iqEmpty := rfl
  unitsFree := occupants_eq_nil.mpr ⟨rfl, h.mulFree, h.memFree, h.brFree⟩
  ckFree := fun c hc => h.ckFree c (checkpointed_of_int hunit ▸ hc)

/-- One tick after its issue an integer-unit instruction executes (52_issue_units.md R241; 70_reset_and_hazards.md
R333). -/
theorem State.Drained.executes (h : s.Drained) (hx : x.Legal s.cfg.numArch op) (hunit : op.unit = .int) {v : Int}
    (hv : v = (intResult s.cfg (s.newIqEntry op x).occupant).getD 0) {z : Bool}
    (hz : z = if op = .cmp then decide ((s.resolve x.a).value = (s.resolve x.b).value) else s.z) :
    ticks 2 (s.taken op x) = .next (s.executed op x v z) ∧ s.Living op x 3 (s.executed op x v z) := by
  obtain ⟨hissue, hliving⟩ := h.issues hx
  have hentry := h.issued_entry (op := op) (x := x)
  rw [ticks_succ hissue]
  rw [State.issued_of_int hunit] at hliving hentry ⊢
  have hacc : State.accessDefined
      { beginTick (s.taken op x) with iq := [], uInt := { occ := some (s.newIqEntry op x).occupant } } = true :=
    accessDefined_iff.mpr fun o ho => nomatch h.memFree.symm.trans ho
  have htick := hliving.tick h hentry rfl h.brFree hacc
  rw [memPhase_idle (by exact h.memFree), mulPhase_idle (by exact h.mulFree), intPhase_some (by rfl),
    executeInt_eq_intResult hunit hx.newTag_eq_none, issuePhase_empty (by rfl)] at htick
  subst hv hz
  exact ⟨(ticks_succ htick.1).trans rfl, htick.2⟩

/-- A whole life in the integer unit: dispatch, issue, execution, commit (70_reset_and_hazards.md R333). -/
theorem State.Drained.livesTo_of_int (h : s.Drained) {i : Instr} (hexec : exec i s = execWith op x s)
    (hx : x.Legal s.cfg.numArch op) (hunit : op.unit = .int) (hfree : x.d.isSome = true → s.SomeFree) {v : Int}
    (hv : v = (intResult s.cfg (s.newIqEntry op x).occupant).getD 0) {z : Bool}
    (hz : z = if op = .cmp then decide ((s.resolve x.a).value = (s.resolve x.b).value) else s.z) :
    LivesTo s i 3 { dst := x.d.map fun rd => (rd, v), z := z, store := none, halted := decide (op = .halt) } := by
  obtain ⟨hrun, hliving⟩ := h.executes hx hunit hv hz
  exact hliving.livesTo h hexec hrun hx hfree (h.executed_finished hunit v z) (fun _ _ hstore => nomatch hstore)
    fun _ _ => rfl

/-- A whole life of an integer-unit instruction with a destination (40_integer.md R110). -/
theorem State.Drained.livesTo_of_writer (h : s.Drained) {i : Instr} (hexec : exec i s = execWith op x s)
    (hx : x.Legal s.cfg.numArch op) (hunit : op.unit = .int) (hsome : s.SomeFree) {rd : Reg} (hd : x.d = some rd)
    {v : Int} (hv : intResult s.cfg (s.newIqEntry op x).occupant = some v) :
    LivesTo s i 3 { dst := some (rd, v), z := s.z, store := none, halted := false } := by
  have hwrites : Op.writesDest op = true := by rw [← hx.dest, hd]; rfl
  have hcmp : op ≠ .cmp := by rintro rfl; cases hwrites
  have hhalt : op ≠ .halt := by rintro rfl; cases hwrites
  have hlife := h.livesTo_of_int hexec hx hunit (fun _ => hsome) (v := v) (by rw [hv]; rfl) (if_neg hcmp).symm
  rwa [hd, Option.map_some, decide_eq_false hhalt] at hlife

end Living

/-- The rows of the operand map that the integer unit's instructions have are legal (30_encoding.md R84, R86). -/
theorem Operands.legal_rrr {n : Nat} {op : Op} {rd rs1 rs2 : Reg} (hd : rd.val < n) (h1 : rs1.val < n)
    (h2 : rs2.val < n) (hop : Op.writesDest op = true) : (Operands.rrr rd rs1 rs2).Legal n op where
  a _ hr := Option.some.inj hr ▸ h1
  b _ hr := Option.some.inj hr ▸ h2
  d _ hr := Option.some.inj hr ▸ hd
  dest := hop.symm

theorem Operands.legal_ri {n : Nat} {op : Op} {rd : Reg} {imm : Imm} (hd : rd.val < n)
    (hop : Op.writesDest op = true) : (Operands.ri rd imm).Legal n op where
  a _ hr := nomatch hr
  b _ hr := nomatch hr
  d _ hr := Option.some.inj hr ▸ hd
  dest := hop.symm

theorem Operands.legal_rr {n : Nat} {op : Op} {rs1 rs2 : Reg} (h1 : rs1.val < n) (h2 : rs2.val < n)
    (hop : Op.writesDest op = false) : (Operands.rr rs1 rs2).Legal n op where
  a _ hr := Option.some.inj hr ▸ h1
  b _ hr := Option.some.inj hr ▸ h2
  d _ hr := nomatch hr
  dest := hop.symm

theorem Operands.legal_n {n : Nat} {op : Op} (hop : Op.writesDest op = false) : Operands.n.Legal n op where
  a _ hr := nomatch hr
  b _ hr := nomatch hr
  d _ hr := nomatch hr
  dest := hop.symm

end Sys2Proof.Machine

namespace Sys2Proof.Claims

open Sys2Proof.Machine

/-- Settles O37: each result is the integer unit's for operands that hold the registers' values. -/
theorem integerWritersRunToCommit : Obligations.IntegerWritersRunToCommit := by
  unfold Obligations.IntegerWritersRunToCommit
  intro s rd rs1 rs2 imm h hsome hd h1 h2
  have ha : s.xValue rs1 = (s.resolve (some rs1)).value := (congrArg Operand.value (h.resolve h1)).symm
  have hb : s.xValue rs2 = (s.resolve (some rs2)).value := (congrArg Operand.value (h.resolve h2)).symm
  have lives {op : Op} {i : Instr} {v : Int} (hexec : exec i s = execWith op (.rrr rd rs1 rs2) s)
      (hwrites : Op.writesDest op = true) (hunit : op.unit = .int)
      (hv : intResult s.cfg (s.newIqEntry op (.rrr rd rs1 rs2)).occupant = some v) :
      LivesTo s i 3 ⟨some (rd, v), s.z, none, false⟩ :=
    h.livesTo_of_writer hexec (Operands.legal_rrr hd h1 h2 hwrites) hunit hsome rfl hv
  rw [ha, hb]
  exact ⟨lives (op := .add) rfl rfl rfl rfl, lives (op := .sub) rfl rfl rfl rfl, lives (op := .and) rfl rfl rfl rfl,
    lives (op := .or) rfl rfl rfl rfl, lives (op := .xor) rfl rfl rfl rfl,
    h.livesTo_of_writer (op := .movc) rfl (Operands.legal_ri hd rfl) rfl hsome rfl rfl⟩

/-- Settles O38: the flag is the equality of the two operands, which hold the registers' values. -/
theorem compareRunsToCommit : Obligations.CompareRunsToCommit := by
  unfold Obligations.CompareRunsToCommit
  intro s rs1 rs2 h h1 h2
  have hz : decide (s.xValue rs1 = s.xValue rs2)
      = decide ((s.resolve (some rs1)).value = (s.resolve (some rs2)).value) := by rw [h.resolve h1, h.resolve h2]
  exact h.livesTo_of_int (op := .cmp) rfl (Operands.legal_rr h1 h2 rfl) rfl nofun rfl hz

/-- Settles O39: without a destination and a result, only the commit is left, and HALT's own stop. -/
theorem nopAndHaltRunToCommit : Obligations.NopAndHaltRunToCommit := by
  unfold Obligations.NopAndHaltRunToCommit
  intro s h
  exact ⟨h.livesTo_of_int (op := .nop) rfl (Operands.legal_n rfl) rfl nofun rfl rfl,
    h.livesTo_of_int (op := .halt) rfl (Operands.legal_n rfl) rfl nofun rfl rfl⟩

end Sys2Proof.Claims

namespace Sys2Proof.Machine

open Sys2Proof.Claims

/-! ## The multiplier (41_multiply.md R130, R131; 52_issue_units.md R242)

`WrittenBack` and `Completed` are what the shared operations do, in the rules' terms; the multiplier's last step is one
of each. A MUL alone in the machine then lives by induction on the counter. -/

/-! ### The shared operations in the rules' terms -/

theorem woken_eq_wake (p : Nat) (v : Int) (o : Operand) : woken p v o = o.wake (some p) v :=
  (Operand.wake_some p v o).symm

/-- A write-back to a register of the file does what 52_issue_units.md R239 says. -/
theorem writtenBack_writeBack {s : State} {p : Nat} (v : Int) (hp : p < s.prf.length) :
    WrittenBack s (s.writeBack (some p) v) p v := by
  refine ⟨updatePrf_length _ (some p) _, writeBack_preg_same s v hp, fun x hx => writeBack_preg_other s v hx, ?_⟩
  simp only [writeBack_iq, woken_eq_wake]
  rfl

/-- Completing an entry does what 52_issue_units.md R240 says. -/
theorem completed_complete (s : State) (r : Nat) : Completed s (s.complete r) r := by
  refine ⟨complete_rob_length s r, fun e he => ?_, fun x hx => ?_⟩
  · rw [complete_robAt, if_pos rfl, he, Option.map_some]
  · rw [complete_robAt, if_neg hx]

/-! ### The multiplier's step -/

theorem mulPhase_counts {s : State} {o : Occupant} (h : s.uMul.occ = some o) (hr : 2 ≤ s.uMul.remaining) :
    mulPhase s = { s with uMul := { occ := some o, remaining := s.uMul.remaining - 1 } } := by
  have hmore : s.uMul.remaining - 1 ≠ 0 := by omega
  simp [mulPhase, h, hmore]

theorem mulPhase_finishes {s : State} {o : Occupant} (h : s.uMul.occ = some o) (hr : s.uMul.remaining = 1) :
    mulPhase s = finishMul o s := by
  simp [mulPhase, h, hr]

/-- The multiplier puts nothing into the issue queue. -/
theorem mulPhase_iq_nil {s : State} (h : s.iq = []) : (mulPhase s).iq = [] := by
  rcases mulPhase_cases s with heq | ⟨o, -, -, heq⟩ | ⟨o, -, heq⟩ <;> rw [heq]
  · exact h
  · exact h
  · rw [complete_iq]
    exact List.map_eq_nil_iff.mpr h

/-! ### A MUL alone in the machine -/

section Multiplying

variable {s : State} {x : Operands} {k r : Nat}

/-- The drained machine `k` ticks on, with a MUL in the multiplier that has `r` steps to go. -/
def State.multiplying (s : State) (x : Operands) (k r : Nat) : State :=
  { s.taken .mul x with
    cycle := s.cycle + k
    iq := []
    uMul := { occ := some (s.newIqEntry .mul x).occupant, remaining := r } }

/-- The drained machine `k` ticks on, the MUL multiplied and complete, not yet committed. -/
def State.multiplied (s : State) (x : Operands) (k : Nat) : State :=
  finishMul (s.newIqEntry .mul x).occupant (s.multiplying x k 1)

/-- The product that the multiplier writes (41_multiply.md R130). -/
def State.product (s : State) (x : Operands) : Int :=
  s.cfg.wrap ((s.resolve x.a).value * (s.resolve x.b).value)

/-- An issued MUL has MUL_LAT steps to go (52_issue_units.md R237, R242). -/
theorem State.issued_mul (s : State) (x : Operands) : s.issued .mul x = s.multiplying x 2 s.cfg.mulLat := rfl

theorem State.Drained.multiplied_finished (h : s.Drained) :
    s.Finished .mul x (s.product x) { s.newRobEntry .mul x with done := true } (s.multiplied x k) where
  entry := by
    obtain ⟨-, hdone, -⟩ := completed_complete (s.multiplying x k 1) s.head
    have hentry := hdone _ (h.taken_entry (op := .mul) (x := x))
    rwa [← h.tailIs] at hentry ⊢
  opcode := rfl
  dest := rfl
  done := rfl
  noExc := rfl
  written := rfl
  iqEmpty := rfl
  unitsFree := occupants_eq_nil.mpr ⟨h.intFree, rfl, h.memFree, h.brFree⟩
  ckFree := h.ckFree

/-- While a MUL is in the multiplier, alone in the machine, a tick is the multiplier's step. -/
theorem State.Living.tick_multiplying (l : s.Living .mul x k (s.multiplying x k r)) (h : s.Drained) :
    step (s.multiplying x k r) = .next (mulPhase (s.multiplying x (k + 1) r))
      ∧ s.Living .mul x (k + 1) (mulPhase (s.multiplying x (k + 1) r)) := by
  have hbegin : beginTick (s.multiplying x k r) = s.multiplying x (k + 1) r := rfl
  have hmem : (s.multiplying x (k + 1) r).uMem.occ = none := h.memFree
  have hint : (mulPhase (s.multiplying x (k + 1) r)).uInt.occ = none := by
    rw [mulPhase_uInt]
    exact h.intFree
  have hiq : (mulPhase (s.multiplying x (k + 1) r)).iq = [] := mulPhase_iq_nil rfl
  have hacc : (s.multiplying x k r).accessDefined = true :=
    accessDefined_iff.mpr fun o ho => nomatch hmem.symm.trans ho
  have htick := l.tick h (h.taken_entry (op := .mul) (x := x)) rfl h.brFree hacc
  rwa [hbegin, memPhase_idle hmem, intPhase_idle hint, issuePhase_empty hiq] at htick

/-- A MUL with r + 1 steps to go counts down and is multiplied after as many ticks. -/
theorem State.Living.multiplies (l : s.Living .mul x k (s.multiplying x k (r + 1))) (h : s.Drained) :
    ticks (r + 1) (s.multiplying x k (r + 1)) = .next (s.multiplied x (k + (r + 1)))
      ∧ s.Living .mul x (k + (r + 1)) (s.multiplied x (k + (r + 1))) := by
  induction r generalizing k with
  | zero =>
    obtain ⟨hstep, hliving⟩ := l.tick_multiplying h
    rw [mulPhase_finishes (o := (s.newIqEntry .mul x).occupant) rfl rfl] at hstep hliving
    exact ⟨ticks_succ hstep, hliving⟩
  | succ r ih =>
    obtain ⟨hstep, hliving⟩ := l.tick_multiplying h
    rw [mulPhase_counts (o := (s.newIqEntry .mul x).occupant) rfl (Nat.le_add_left 2 r)] at hstep hliving
    have hrest := ih hliving
    rw [ticks_succ hstep]
    rwa [Nat.add_assoc, Nat.add_comm 1] at hrest

/-- A whole life in the multiplier: dispatch, issue, MUL_LAT steps, commit (41_multiply.md R130). -/
theorem State.Drained.livesTo_of_mul (h : s.Drained) {i : Instr} (hexec : exec i s = execWith .mul x s)
    (hx : x.Legal s.cfg.numArch .mul) (hsome : s.SomeFree) :
    LivesTo s i (s.cfg.mulLat + 2)
      { dst := x.d.map fun rd => (rd, s.product x), z := s.z, store := none, halted := false } := by
  obtain ⟨hissue, hissued⟩ := h.issues hx
  obtain ⟨-, hlat⟩ := Config.ok_bounds h.cfgOk
  obtain ⟨r, hr⟩ : ∃ r, s.cfg.mulLat = r + 1 := ⟨s.cfg.mulLat - 1, by omega⟩
  rw [State.issued_mul, hr] at hissue hissued
  obtain ⟨hrun, hliving⟩ := hissued.multiplies h
  rw [hr]
  rw [Nat.add_comm 2] at hrun hliving
  exact hliving.livesTo h hexec ((ticks_succ hissue).trans hrun) hx (fun _ => hsome) h.multiplied_finished
    (fun _ _ hstore => nomatch hstore) fun _ _ => rfl

end Multiplying

end Sys2Proof.Machine

namespace Sys2Proof.Claims

open Sys2Proof.Machine

/-- Settles O30: the last step is a write-back and a completion, which touch different fields. -/
theorem multiplierExecutes : Obligations.MultiplierExecutes := by
  unfold Obligations.MultiplierExecutes
  intro s o ho
  refine ⟨fun hmore => mulPhase_counts ho hmore, fun hlast => ?_⟩
  rw [mulPhase_finishes ho hlast]
  refine ⟨rfl, rfl, completed_complete s o.rob, fun p hp hlt => ?_⟩
  have hwritten := writtenBack_writeBack (s.cfg.wrap (o.a * o.b)) hlt
  rw [← hp] at hwritten
  rw [sx_eq_wrap]
  exact hwritten

/-- Settles O40: the product is that of the two operands, which hold the registers' values. -/
theorem multiplyRunsToCommit : Obligations.MultiplyRunsToCommit := by
  unfold Obligations.MultiplyRunsToCommit
  intro s rd rs1 rs2 h hsome hd h1 h2
  have hproduct : sx s.cfg (s.xValue rs1 * s.xValue rs2) = s.product (.rrr rd rs1 rs2) := by
    rw [sx_eq_wrap, State.product]
    show _ = s.cfg.wrap ((s.resolve (some rs1)).value * (s.resolve (some rs2)).value)
    rw [h.resolve h1, h.resolve h2]
  rw [hproduct]
  exact h.livesTo_of_mul rfl (Operands.legal_rrr hd h1 h2 rfl) hsome

end Sys2Proof.Claims

namespace Sys2Proof.Machine

open Sys2Proof.Claims

/-! ## The memory unit (42_memory_ops.md R141 to R147; 52_issue_units.md R243, R244)

Stage 1 is one operation, `State.addressing`, with what it depends on said outright; stage 2's access is one
write-back and one memory, so that a life in the memory unit does not split over the four opcodes. -/

/-! ### Stage 1 -/

/-- The state after memory stage 1: the address recorded in the entry and in the unit, MEM_RANGE raised or not, and the
unit's stage and store data as they then are (42_memory_ops.md R141, R142). -/
def State.addressing (s : State) (o : Occupant) (raised : Bool) (stage : Stage) (sval : Int) : State :=
  { s.modifyRob o.rob (RobEntry.addressed (s.effAddr o) raised) with
    uMem := { s.uMem with stage := stage, addr := s.effAddr o, sval := sval } }

theorem addressing_robAt (s : State) (o : Occupant) (raised : Bool) (stage : Stage) (sval : Int) (r : Nat) :
    (s.addressing o raised stage sval).robAt r
      = if r = o.rob then (s.robAt r).map (RobEntry.addressed (s.effAddr o) raised) else s.robAt r := by
  refine (modifyRob_robAt s o.rob r _).trans ?_
  split
  · next hr => rw [hr]
  · rfl

/-- The range check of a recorded address raises MEM_RANGE exactly out of range (60_exceptions.md R293). -/
theorem checkRange_recordAddr (s : State) (o : Occupant) (sval : Int) :
    State.checkRange { s.recordAddr o with uMem := { (s.recordAddr o).uMem with sval := sval } } o
      = s.addressing o (!addrInRange s.cfg.memWords (s.effAddr o)) .two sval := by
  cases ha : addrInRange s.cfg.memWords (s.effAddr o) with
  | true => exact if_pos ha
  | false =>
    refine (if_neg fun hin => Bool.noConfusion (ha.symm.trans hin)).trans ?_
    exact congrArg
      (fun u : State => { u with uMem := { s.uMem with stage := .two, addr := s.effAddr o, sval := sval } })
      (modifyRob_modifyRob s o.rob _ _)

/-- A load, or a store whose data is there, goes on to stage 2 (42_memory_ops.md R141). -/
theorem memStage1_passes {s : State} {o : Occupant} (h : Op.isStore o.op = true → s.storeDataReady o = true) :
    memStage1 o s = s.addressing o (!addrInRange s.cfg.memWords (s.effAddr o)) .two
      (if Op.isStore o.op then s.storeData o else s.uMem.sval) := by
  unfold memStage1
  split
  · next hstore => rw [storeStage1, if_pos (h hstore), checkRange_recordAddr]
  · exact checkRange_recordAddr s o s.uMem.sval

/-- A store without its data stays in stage 1, a bubble (42_memory_ops.md R142). -/
theorem memStage1_bubble {s : State} {o : Occupant} (hs : s.uMem.stage = .one) (hstore : Op.isStore o.op = true)
    (hwait : s.storeDataReady o = false) : memStage1 o s = s.addressing o false .one s.uMem.sval := by
  rw [memStage1, if_pos hstore, storeStage1, if_neg (by simp [hwait]), State.addressing, ← hs]
  rfl

/-- Stage 1 in one form, with the condition under which it goes on (42_memory_ops.md R141, R142). -/
theorem memStage1_cases {s : State} (o : Occupant) (hs : s.uMem.stage = .one) :
    ((Op.isStore o.op = true → s.storeDataReady o = true)
        ∧ memStage1 o s = s.addressing o (!addrInRange s.cfg.memWords (s.effAddr o)) .two
          (if Op.isStore o.op then s.storeData o else s.uMem.sval))
      ∨ (Op.isStore o.op = true ∧ s.storeDataReady o = false
        ∧ memStage1 o s = s.addressing o false .one s.uMem.sval) := by
  by_cases h : Op.isStore o.op = true → s.storeDataReady o = true
  · exact .inl ⟨h, memStage1_passes h⟩
  · obtain ⟨hstore, hwait⟩ := Classical.not_imp.mp h
    have hwait : s.storeDataReady o = false := by simpa using hwait
    exact .inr ⟨hstore, hwait, memStage1_bubble hs hstore hwait⟩

theorem storeDataReady_of_tag {s : State} {o : Occupant} {p : Nat} (h : o.stag = some p) :
    s.storeDataReady o = (s.preg p).valid := by simp [State.storeDataReady, h]

theorem storeData_of_tag {s : State} {o : Occupant} {p : Nat} (h : o.stag = some p) :
    s.storeData o = (s.preg p).value := by simp [State.storeData, h]

theorem addrInRange_iff_inRange {s : State} {a : Int} : addrInRange s.cfg.memWords a = true ↔ InRange s a := by
  simp [addrInRange, InRange]

/-- The effective address by the rule's expression (42_memory_ops.md R141). -/
theorem effAddr_eq_sx {s : State} {o : Occupant} (h : o.op ∈ [Op.load, .ldr, .store, .str]) :
    s.effAddr o = sx s.cfg (o.a + if o.op = .load ∨ o.op = .store then o.imm else o.b) := by
  rw [sx_eq_wrap, State.effAddr, Occupant.offset]
  cases hop : o.op
  case load | ldr | store | str => rfl
  all_goals simp [hop] at h

theorem Op.isStore_eq (op : Op) : Op.isStore op = decide (op = .store ∨ op = .str) := by cases op <;> rfl

end Sys2Proof.Machine

namespace Sys2Proof.Claims

open Sys2Proof.Machine

/-- Settles O31: stage 1 goes on or is a bubble, and each clause is about one of the two. -/
theorem memoryStageOne : Obligations.MemoryStageOne := by
  unfold Obligations.MemoryStageOne
  intro s o e ho hs he hop off addr isStore t
  have haddr : s.effAddr o = addr := effAddr_eq_sx hop
  have hstore : Op.isStore o.op = isStore := Op.isStore_eq o.op
  have ht : t = memStage1 o s := memPhase_one ho hs
  have frame {raised : Bool} {stage : Stage} {sval : Int} (heq : t = s.addressing o raised stage sval) :
      t = { s with rob := t.rob, uMem := t.uMem } ∧ t.rob.length = s.rob.length
        ∧ t.uMem.occ = some o ∧ t.uMem.addr = addr ∧ (∀ x, x ≠ o.rob → t.robAt x = s.robAt x) := by
    rw [heq]
    exact ⟨rfl, modifyRob_rob_length .., ho, haddr, fun x hx => by rw [addressing_robAt, if_neg hx]⟩
  have entry {raised : Bool} {stage : Stage} {sval : Int} (heq : t = s.addressing o raised stage sval) :
      t.robAt o.rob = some (e.addressed addr raised) := by
    rw [heq, addressing_robAt, if_pos rfl, he, haddr, Option.map_some]
  have hcases := memStage1_cases o hs
  rw [hstore, ← ht, haddr] at hcases
  rcases hcases with ⟨hpass, heq⟩ | ⟨hst, hwait, heq⟩
  · obtain ⟨hframe, hlength, hocc, hat, hothers⟩ := frame heq
    refine ⟨hframe, hlength, hocc, hat, hothers, fun p hst hp hinvalid => ?_,
      fun _ => ⟨congrArg (·.uMem.stage) heq, fun hin => ?_, fun hout => ?_⟩, fun p hst hp _ => ?_⟩
    · exact absurd (hpass hst) (by simp [storeDataReady_of_tag hp, hinvalid])
    · rw [entry heq, addrInRange_iff_inRange.mpr hin]
      rfl
    · rw [entry heq, Bool.eq_false_iff.mpr fun hin => hout (addrInRange_iff_inRange.mp hin)]
      rfl
    · rw [heq, if_pos hst]
      exact storeData_of_tag hp
  · obtain ⟨hframe, hlength, hocc, hat, hothers⟩ := frame heq
    have hinvalid {p : Nat} (hp : o.stag = some p) : (s.preg p).valid ≠ true := by
      simp [← storeDataReady_of_tag hp, hwait]
    refine ⟨hframe, hlength, hocc, hat, hothers, fun _ _ _ _ => ⟨congrArg (·.uMem.stage) heq, entry heq⟩, ?_,
      fun p _ hp hvalid => absurd hvalid (hinvalid hp)⟩
    rintro (hload | ⟨p, hp, hvalid⟩)
    · exact absurd hst (by simp [hload])
    · exact absurd hvalid (hinvalid hp)

end Sys2Proof.Claims

namespace Sys2Proof.Machine

open Sys2Proof.Claims

/-! ### Stage 2 -/

/-- The access of stage 2 in one form, for an occupant that has no destination where it stores: one write-back, and one
memory (42_memory_ops.md R143 to R146). -/
theorem executeMem_eq {o : Occupant} {s : State} (hunit : o.op.unit = .mem)
    (hdst : Op.isStore o.op = true → o.pdst = none) :
    executeMem o s = { s.writeBack o.pdst (s.dm.read s.uMem.addr.toNat) with
      dm := if Op.isStore o.op then s.dm.write s.uMem.addr.toNat s.uMem.sval else s.dm } := by
  unfold executeMem
  cases hop : o.op <;> rw [hop] at hdst
  case load | ldr => rfl
  case store | str => rw [hdst rfl, writeBack_none]; rfl
  all_goals rw [hop] at hunit; cases hunit

/-- Stage 2 of an instruction without an exception (52_issue_units.md R244). -/
theorem memStage2_accesses {o : Occupant} {s : State} (hexc : s.noExc o.rob = true) (hunit : o.op.unit = .mem)
    (hdst : Op.isStore o.op = true → o.pdst = none) :
    memStage2 o s = State.complete { s.writeBack o.pdst (s.dm.read s.uMem.addr.toNat) with
      dm := if Op.isStore o.op then s.dm.write s.uMem.addr.toNat s.uMem.sval else s.dm
      uMem := { s.uMem with occ := none } } o.rob := by
  rw [memStage2, if_pos hexc, executeMem_eq hunit hdst]
  rfl

/-- The memory unit puts nothing into the issue queue. -/
theorem memPhase_iq_nil {s : State} (h : s.iq = []) : (memPhase s).iq = [] := by
  rcases memPhase_cases s with heq | ⟨o, -, ⟨-, heq⟩ | ⟨-, heq⟩⟩ <;> rw [heq]
  · exact h
  · rw [memStage1_iq, h]
  · obtain ⟨u, heq, ⟨p, v, rfl, -⟩ | ⟨-, rfl⟩⟩ := memStage2_cases o s <;> rw [heq, complete_iq]
    · exact List.map_eq_nil_iff.mpr h
    · exact h

/-! ### A memory instruction alone in the machine -/

/-- Nothing but the memory unit is at work. -/
structure State.OnlyMemory (u : State) : Prop where
  intFree : u.uInt.occ = none
  mulFree : u.uMul.occ = none
  brFree : u.uBr.occ = none
  iqEmpty : u.iq = []
  ckFree : ∀ c ∈ u.ck, c.busy = false

section Accessing

variable {s u : State} {op : Op} {x : Operands} {k : Nat} {r : Reg}

theorem State.OnlyMemory.memPhase (only : u.OnlyMemory) : (memPhase (beginTick u)).OnlyMemory where
  intFree := (congrArg IntUnit.occ (memPhase_uInt _)).trans only.intFree
  mulFree := (congrArg MulUnit.occ (memPhase_uMul _)).trans only.mulFree
  brFree := (congrArg BrUnit.occ (memPhase_uBr _)).trans only.brFree
  iqEmpty := memPhase_iq_nil only.iqEmpty
  ckFree := by rw [memPhase_ck]; exact only.ckFree

/-- While only the memory unit is at work, a tick is that unit's step. -/
theorem State.Living.tick_memory (l : s.Living op x k u) (h : s.Drained) (only : u.OnlyMemory) {e : RobEntry}
    (he : u.robAt s.head = some e) (hopen : e.done = false) (hacc : u.accessDefined = true) :
    step u = .next (memPhase (beginTick u)) ∧ s.Living op x (k + 1) (memPhase (beginTick u)) := by
  have htick := l.tick h he hopen only.brFree hacc
  rwa [mulPhase_idle only.memPhase.mulFree, intPhase_idle only.memPhase.intFree,
    issuePhase_empty only.memPhase.iqEmpty] at htick

/-- A drained machine and a row of the operand map for a memory instruction: a store's row names its data register
(30_encoding.md R86, R87). -/
structure State.TakesMemoryOp (s : State) (op : Op) (x : Operands) : Prop where
  drained : s.Drained
  legal : x.Legal s.cfg.numArch op
  unit : op.unit = .mem
  data : Op.isStore op = true → ∃ r, x.sd = some r ∧ r.val < s.cfg.numArch

/-- One tick after its dispatch the instruction is in stage 1 (52_issue_units.md R237). -/
theorem State.TakesMemoryOp.issued_eq (m : s.TakesMemoryOp op x) : s.issued op x
    = { beginTick (s.taken op x) with
        iq := [], uMem := { s.uMem with occ := some (s.newIqEntry op x).occupant, stage := .one } } := by
  simp only [State.issued, State.issueTo, State.newIqEntry, m.unit]
  rfl

theorem State.TakesMemoryOp.issued_onlyMemory (m : s.TakesMemoryOp op x) : (s.issued op x).OnlyMemory := by
  have hck : s.checkpointed op x = s.ck := by simp [State.checkpointed, Op.needsCkpt, m.unit]
  rw [m.issued_eq]
  exact ⟨m.drained.intFree, m.drained.mulFree, m.drained.brFree, rfl, fun c hc => m.drained.ckFree c (hck ▸ hc)⟩

/-- A store writes no register (30_encoding.md R86). -/
theorem Operands.Legal.newTag_of_store (hx : x.Legal s.cfg.numArch op) (hstore : Op.isStore op = true) :
    s.newTag x = none := by
  refine hx.newTag_eq_none ?_
  rw [Op.isStore_eq, decide_eq_true_eq] at hstore
  rcases hstore with rfl | rfl <;> rfl

/-- The address that the instruction accesses (42_memory_ops.md R141). -/
def State.accessAddr (s : State) (op : Op) (x : Operands) : Int := s.effAddr (s.newIqEntry op x).occupant

/-- The address by the registers' values: the base operand is ready (42_memory_ops.md R141). -/
theorem State.Drained.accessAddr_eq (h : s.Drained) (ha : x.a = some r) (hr : r.val < s.cfg.numArch) {off : Int}
    (hoff : (s.newIqEntry op x).occupant.offset = off) : s.accessAddr op x = sx s.cfg (s.xValue r + off) := by
  have hbase : (s.newIqEntry op x).occupant.a = s.xValue r := by
    show (s.resolve x.a).value = _
    rw [ha, h.resolve hr]
  rw [State.accessAddr, State.effAddr, hbase, hoff, sx_eq_wrap]

/-- The value of the instruction's data register (42_memory_ops.md R142). -/
def State.accessData (s : State) (x : Operands) : Int := (x.sd.map s.xValue).getD 0

/-- Stage 1 of a store finds its data register's value, which a drained machine has (42_memory_ops.md R142). -/
theorem State.TakesMemoryOp.issued_storeData (m : s.TakesMemoryOp op x) (hstore : Op.isStore op = true) :
    (beginTick (s.issued op x)).storeDataReady (s.newIqEntry op x).occupant = true
      ∧ (beginTick (s.issued op x)).storeData (s.newIqEntry op x).occupant = s.accessData x := by
  obtain ⟨r, hsd, hr⟩ := m.data hstore
  have htag : (s.newIqEntry op x).occupant.stag = some (s.mapping r) := congrArg (Option.map s.mapping) hsd
  have hprf : (beginTick (s.issued op x)).prf = s.prf := by
    rw [m.issued_eq]
    show updatePrf s.prf (s.newTag x) _ = s.prf
    rw [m.legal.newTag_of_store hstore]
    rfl
  have hpreg : (beginTick (s.issued op x)).preg (s.mapping r) = s.preg (s.mapping r) := by
    rw [State.preg, hprf, State.preg]
  constructor
  · rw [storeDataReady_of_tag htag, hpreg]
    exact m.drained.mappedValid _ (mapping_mem_rat m.drained.shape hr)
  · rw [storeData_of_tag htag, hpreg, State.accessData, hsd]
    rfl

/-- The drained machine three ticks on, after memory stage 1. -/
def State.addressed (s : State) (op : Op) (x : Operands) : State := memPhase (beginTick (s.issued op x))

/-- The drained machine four ticks on, after memory stage 2. -/
def State.accessed (s : State) (op : Op) (x : Operands) : State := memPhase (beginTick (s.addressed op x))

theorem State.TakesMemoryOp.issued_effAddr (m : s.TakesMemoryOp op x) :
    (beginTick (s.issued op x)).effAddr (s.newIqEntry op x).occupant = s.accessAddr op x := by
  rw [m.issued_eq]
  rfl

/-- Alone in the machine no store waits for its data: stage 1 goes on (42_memory_ops.md R141). -/
theorem State.TakesMemoryOp.addressed_eq (m : s.TakesMemoryOp op x) :
    s.addressed op x = (beginTick (s.issued op x)).addressing (s.newIqEntry op x).occupant
      (!addrInRange s.cfg.memWords (s.accessAddr op x)) .two
      (if Op.isStore op then s.accessData x else s.uMem.sval) := by
  have hsval : (if Op.isStore op then (beginTick (s.issued op x)).storeData (s.newIqEntry op x).occupant
      else (beginTick (s.issued op x)).uMem.sval) = if Op.isStore op then s.accessData x else s.uMem.sval := by
    split
    · next hstore => exact (m.issued_storeData hstore).2
    · rw [m.issued_eq]; rfl
  have hcfg : (beginTick (s.issued op x)).cfg = s.cfg := (m.drained.issues m.legal).2.cfg
  have hocc : (beginTick (s.issued op x)).uMem.occ = some (s.newIqEntry op x).occupant := by
    rw [m.issued_eq]; rfl
  have hstage : (beginTick (s.issued op x)).uMem.stage = .one := by rw [m.issued_eq]; rfl
  rw [State.addressed, memPhase_one hocc hstage, memStage1_passes fun hstore => (m.issued_storeData hstore).1,
    hcfg, m.issued_effAddr]
  exact congrArg _ hsval

/-- After stage 1 the unit holds the instruction, its address and, for a store, its data (42_memory_ops.md R141, R142). -/
theorem State.TakesMemoryOp.addressed_uMem (m : s.TakesMemoryOp op x) :
    (s.addressed op x).uMem = {
      occ := some (s.newIqEntry op x).occupant
      stage := .two
      addr := s.accessAddr op x
      sval := if Op.isStore op then s.accessData x else s.uMem.sval } := by
  rw [m.addressed_eq, State.addressing, m.issued_effAddr, m.issued_eq]
  rfl

/-- After stage 1 the instruction's entry has its address, and MEM_RANGE when that is out of range (42_memory_ops.md
R141). -/
theorem State.TakesMemoryOp.addressed_entry (m : s.TakesMemoryOp op x) :
    (s.addressed op x).robAt s.head = some ((s.newRobEntry op x).addressed (s.accessAddr op x)
      (!addrInRange s.cfg.memWords (s.accessAddr op x))) := by
  have hentry : (beginTick (s.issued op x)).robAt s.head = some (s.newRobEntry op x) := m.drained.issued_entry
  rw [m.addressed_eq, addressing_robAt, m.issued_effAddr, hentry]
  exact if_pos m.drained.tailIs.symm

/-- One tick after its issue a memory instruction has its address (52_issue_units.md R243; 70_reset_and_hazards.md
R333). -/
theorem State.TakesMemoryOp.addresses (m : s.TakesMemoryOp op x) :
    ticks 2 (s.taken op x) = .next (s.addressed op x) ∧ s.Living op x 3 (s.addressed op x) := by
  obtain ⟨hissue, hissued⟩ := m.drained.issues m.legal
  have hacc : (s.issued op x).accessDefined = true := by rw [m.issued_eq]; rfl
  obtain ⟨hstep, hliving⟩ := hissued.tick_memory m.drained m.issued_onlyMemory m.drained.issued_entry rfl hacc
  rw [ticks_succ hissue, ticks_succ hstep]
  exact ⟨rfl, hliving⟩

/-- Two ticks after its issue a memory instruction has been through stage 2, whether it has access or not
(52_issue_units.md R244; 70_reset_and_hazards.md R333). -/
theorem State.TakesMemoryOp.accesses (m : s.TakesMemoryOp op x) :
    ticks 3 (s.taken op x) = .next (s.accessed op x) ∧ s.Living op x 4 (s.accessed op x) := by
  obtain ⟨hrun, hliving⟩ := m.addresses
  have hentry := m.addressed_entry
  have hacc : (s.addressed op x).accessDefined = true := by
    refine accessDefined_iff.mpr fun o ho _ hexc => ?_
    rw [m.addressed_uMem] at ho ⊢
    obtain rfl := Option.some.inj ho
    have hexc : (s.addressed op x).noExc s.tail = true := hexc
    obtain ⟨e, he, hnone⟩ := noExc_iff.mp hexc
    obtain rfl := Option.some.inj (hentry.symm.trans (m.drained.tailIs ▸ he))
    rw [hliving.cfg]
    cases hin : addrInRange s.cfg.memWords (s.accessAddr op x) with
    | true => rfl
    | false => simp [RobEntry.addressed, hin] at hnone
  obtain ⟨hstep, hstepped⟩ := hliving.tick_memory m.drained m.issued_onlyMemory.memPhase hentry rfl hacc
  rw [ticks_add 2 1 hrun, ticks_succ hstep]
  exact ⟨rfl, hstepped⟩

/-- In range stage 2 makes the access and completes the entry (42_memory_ops.md R143 to R146). -/
theorem State.TakesMemoryOp.accessed_eq (m : s.TakesMemoryOp op x) (hin : InRange s (s.accessAddr op x)) :
    s.accessed op x = State.complete
      { State.writeBack (beginTick (s.addressed op x)) (s.newTag x) (s.dm.read (s.accessAddr op x).toNat) with
        dm := if Op.isStore op then s.dm.write (s.accessAddr op x).toNat (s.accessData x) else s.dm
        uMem := { (s.addressed op x).uMem with occ := none } } s.tail := by
  have huMem : (beginTick (s.addressed op x)).uMem = _ := m.addressed_uMem
  have haddr : (beginTick (s.addressed op x)).uMem.addr = s.accessAddr op x := by rw [huMem]
  have hdm : (beginTick (s.addressed op x)).dm = s.dm := by rw [m.addressed_eq, m.issued_eq]; rfl
  have hcells : (if Op.isStore op then s.dm.write (s.accessAddr op x).toNat (beginTick (s.addressed op x)).uMem.sval
      else s.dm) = if Op.isStore op then s.dm.write (s.accessAddr op x).toNat (s.accessData x) else s.dm := by
    split
    · next hstore => rw [huMem, if_pos hstore]
    · rfl
  have hexc : (beginTick (s.addressed op x)).noExc s.tail = true := by
    refine noExc_iff.mpr ⟨_, m.drained.tailIs ▸ m.addressed_entry, ?_⟩
    rw [addrInRange_iff_inRange.mpr hin]; rfl
  have hstage := memStage2_accesses (o := (s.newIqEntry op x).occupant) hexc m.unit
    fun hstore => m.legal.newTag_of_store hstore
  rw [haddr, hdm] at hstage
  rw [State.accessed, memPhase_two (by rw [huMem]) (by rw [huMem]), hstage, ← hcells]
  rfl

/-- In range the memory unit finishes the instruction, with the value read for a destination (42_memory_ops.md R143,
R144). -/
theorem State.TakesMemoryOp.accessed_finished (m : s.TakesMemoryOp op x) (hin : InRange s (s.accessAddr op x)) :
    s.Finished op x (s.dm.read (s.accessAddr op x).toNat)
      { (s.newRobEntry op x).addressed (s.accessAddr op x) false with done := true } (s.accessed op x) where
  entry := by
    have hentry : (s.addressed op x).robAt s.head = _ := m.addressed_entry
    rw [addrInRange_iff_inRange.mpr hin] at hentry
    rw [m.accessed_eq hin, complete_robAt, if_pos m.drained.tailIs.symm, m.drained.tailIs]
    exact congrArg (Option.map _) hentry
  opcode := rfl
  dest := rfl
  done := rfl
  noExc := rfl
  written := by
    have hprf : (s.addressed op x).prf = s.renamedPrf x := by rw [m.addressed_eq, m.issued_eq]; rfl
    rw [m.accessed_eq hin, ← hprf]; rfl
  iqEmpty := m.issued_onlyMemory.memPhase.memPhase.iqEmpty
  unitsFree := by
    have only := m.issued_onlyMemory.memPhase.memPhase
    refine occupants_eq_nil.mpr ⟨only.intFree, only.mulFree, ?_, only.brFree⟩
    show (s.accessed op x).uMem.occ = none
    rw [m.accessed_eq hin]; rfl
  ckFree := m.issued_onlyMemory.memPhase.memPhase.ckFree

theorem State.TakesMemoryOp.accessed_z (m : s.TakesMemoryOp op x) : (s.accessed op x).z = s.z := by
  rw [State.accessed, memPhase_z, beginTick_z, State.addressed, memPhase_z, beginTick_z, m.issued_eq]
  rfl

/-- The cell that the instruction stores to and its new value, if it is a store (42_memory_ops.md R145, R146). -/
def State.accessStore (s : State) (op : Op) (x : Operands) : Option (Nat × Int) :=
  if Op.isStore op then some ((s.accessAddr op x).toNat, s.accessData x) else none

/-- In range a store changes the cell it addresses and no other, and a load none (42_memory_ops.md R143 to R147). -/
theorem State.TakesMemoryOp.accessed_cells (m : s.TakesMemoryOp op x) (hmem : Op.isStore op = true → s.MemInv)
    (hin : InRange s (s.accessAddr op x)) :
    (∀ a v, s.accessStore op x = some (a, v) → (s.accessed op x).dm.read a = v)
      ∧ ∀ y, (∀ a v, s.accessStore op x = some (a, v) → y ≠ a) → (s.accessed op x).dm.read y = s.dm.read y := by
  rw [m.accessed_eq hin, complete_dm, State.accessStore]
  by_cases hstore : Op.isStore op = true
  · rw [if_pos hstore, if_pos hstore]
    refine ⟨fun a v heq => ?_, fun y hother => Memory.read_write_other _ _ (hother _ _ rfl)⟩
    cases heq
    exact Memory.read_write_same (hmem hstore) _ _
  · rw [if_neg hstore, if_neg hstore]
    exact ⟨nofun, fun _ _ => rfl⟩

/-- A whole life in the memory unit, at a cell that exists: dispatch, issue, two stages, commit (42_memory_ops.md R143 to
R147). -/
theorem State.TakesMemoryOp.livesTo (m : s.TakesMemoryOp op x) {i : Instr} (hexec : exec i s = execWith op x s)
    (hfree : x.d.isSome = true → s.SomeFree) (hmem : Op.isStore op = true → s.MemInv)
    (hin : InRange s (s.accessAddr op x)) :
    LivesTo s i 4 {
      dst := x.d.map fun rd => (rd, s.dm.read (s.accessAddr op x).toNat)
      z := s.z
      store := s.accessStore op x
      halted := false } := by
  obtain ⟨hrun, hliving⟩ := m.accesses
  obtain ⟨hstored, hcells⟩ := m.accessed_cells hmem hin
  have hhalt : op ≠ .halt := by rintro rfl; exact nomatch m.unit
  have hlife := hliving.livesTo m.drained hexec hrun m.legal hfree (m.accessed_finished hin) hstored hcells
  rwa [m.accessed_z, decide_eq_false hhalt] at hlife

end Accessing

/-- The rows of the operand map that only memory instructions and jumps have are legal (30_encoding.md R84, R86). -/
theorem Operands.legal_rri {n : Nat} {op : Op} {rd rs1 : Reg} {imm : Imm} (hd : rd.val < n) (h1 : rs1.val < n)
    (hop : Op.writesDest op = true) : (Operands.rri rd rs1 imm).Legal n op where
  a _ hr := Option.some.inj hr ▸ h1
  b _ hr := nomatch hr
  d _ hr := Option.some.inj hr ▸ hd
  dest := hop.symm

theorem Operands.legal_sri {n : Nat} {op : Op} {rs1 rs2 : Reg} {imm : Imm} (h2 : rs2.val < n)
    (hop : Op.writesDest op = false) : (Operands.sri rs1 rs2 imm).Legal n op where
  a _ hr := Option.some.inj hr ▸ h2
  b _ hr := nomatch hr
  d _ hr := nomatch hr
  dest := hop.symm

theorem Operands.legal_srr {n : Nat} {op : Op} {rs1 rs2 rs3 : Reg} (h2 : rs2.val < n) (h3 : rs3.val < n)
    (hop : Op.writesDest op = false) : (Operands.srr rs1 rs2 rs3).Legal n op where
  a _ hr := Option.some.inj hr ▸ h2
  b _ hr := Option.some.inj hr ▸ h3
  d _ hr := nomatch hr
  dest := hop.symm

end Sys2Proof.Machine

namespace Sys2Proof.Claims

open Sys2Proof.Machine

/-- Settles O41: the address is that of the operands, which hold the registers' values. -/
theorem loadsRunToCommit : Obligations.LoadsRunToCommit := by
  unfold Obligations.LoadsRunToCommit
  intro s rd rs1 rs2 imm h hsome hd h1 h2 d x
  have hload : s.accessAddr .load (Operands.rri rd rs1 imm) = d := h.accessAddr_eq rfl h1 rfl
  have hldr : s.accessAddr .ldr (Operands.rrr rd rs1 rs2) = x :=
    h.accessAddr_eq rfl h1 (congrArg Operand.value (h.resolve h2))
  rw [← hload, ← hldr]
  have mload : s.TakesMemoryOp .load (.rri rd rs1 imm) := ⟨h, Operands.legal_rri hd h1 rfl, rfl, nofun⟩
  have mldr : s.TakesMemoryOp .ldr (.rrr rd rs1 rs2) := ⟨h, Operands.legal_rrr hd h1 h2 rfl, rfl, nofun⟩
  exact ⟨mload.livesTo rfl (fun _ => hsome) nofun, mldr.livesTo rfl (fun _ => hsome) nofun⟩

/-- Settles O42: the address is that of the operands, and the data is read in stage 1, from the register file. -/
theorem storesRunToCommit : Obligations.StoresRunToCommit := by
  unfold Obligations.StoresRunToCommit
  intro s rs1 rs2 rs3 imm h hmem h1 h2 h3 d x
  have hstore : s.accessAddr .store (Operands.sri rs1 rs2 imm) = d := h.accessAddr_eq rfl h2 rfl
  have hstr : s.accessAddr .str (Operands.srr rs1 rs2 rs3) = x :=
    h.accessAddr_eq rfl h2 (congrArg Operand.value (h.resolve h3))
  rw [← hstore, ← hstr]
  have mstore : s.TakesMemoryOp .store (.sri rs1 rs2 imm) :=
    ⟨h, Operands.legal_sri h2 rfl, rfl, fun _ => ⟨rs1, rfl, h1⟩⟩
  have mstr : s.TakesMemoryOp .str (.srr rs1 rs2 rs3) :=
    ⟨h, Operands.legal_srr h2 h3 rfl, rfl, fun _ => ⟨rs1, rfl, h1⟩⟩
  exact ⟨mstore.livesTo rfl nofun fun _ => hmem, mstr.livesTo rfl nofun fun _ => hmem⟩

end Sys2Proof.Claims

namespace Sys2Proof.Machine

open Sys2Proof.Claims

/-! ## The branch unit (43_control_flow.md R160 to R163; 52_issue_units.md R245, R246)

Stage 1 is one write-back, one decision and one target, so that a life in the branch unit does not split over the four
opcodes. Whether stage 2 redirects or not, it leaves the instruction in the same state, `State.settled`, but for fetch:
a recovery from the only instruction in flight discards nothing. -/

/-! ### Stage 1 -/

/-- The decision: whether fetch goes to the target (43_control_flow.md R160 to R163). -/
def Op.redirects (op : Op) (z : Bool) : Bool := if op = .bz then z else if op = .bnz then !z else true

/-- The target (43_control_flow.md R160 to R163). -/
def Occupant.target (c : Config) (o : Occupant) : Int :=
  c.wrap ((if o.op = .bz ∨ o.op = .bnz then o.pc else o.a) + o.imm)

/-- Stage 1 in one form, for an occupant that has no destination where its opcode writes none (43_control_flow.md R160
to R163). -/
theorem brStage1_eq_resolved {o : Occupant} {s : State} (hunit : o.op.unit = .br)
    (hdst : Op.writesDest o.op = false → o.pdst = none) :
    brStage1 o s = (s.writeBack o.pdst (s.nextPc o.pc)).resolved (Op.redirects o.op s.z) (o.target s.cfg) := by
  unfold brStage1 Occupant.target
  cases hop : o.op <;> rw [hop] at hdst
  case jal => rfl
  case bz | bnz | jump => rw [hdst rfl, writeBack_none]; rfl
  all_goals rw [hop] at hunit; cases hunit

/-! ### Stage 2 with nothing else in flight -/

theorem releaseOwned_eq (s : State) (b : Nat) : s.releaseOwned b = { s with ck := (s.releaseOwned b).ck } := by
  unfold State.releaseOwned
  split <;> rfl

theorem owners_eq_nil {s : State} : s.owners = [] ↔ ∀ c ∈ s.ck, c.busy = false := by
  simp [State.owners]

/-- Nothing is younger than the only instruction in flight (10_state.md R31). -/
theorem youngerEntries_alone {s : State} (hcount : s.count = 1) (b : Nat) : s.youngerEntries b = [] := by
  simp [State.youngerEntries, hcount]

theorem truncatedRob_alone {s : State} (hcount : s.count = 1) (b : Nat) : s.truncatedRob b = s.rob := by
  refine List.mapIdx_eq_iff.mpr fun r => ?_
  have hkeeps : (s.youngerThan b r && decide (s.age r < s.count)) = false := by
    simp only [State.youngerThan, hcount, Bool.and_eq_false_iff, decide_eq_false_iff_not]
    omega
  simp [hkeeps]

/-- With nothing discarded only `verbatim` changes the register file (53_recovery_commit.md R265). -/
theorem restoredPrf_alone {s : State} (hcount : s.count = 1) (b : Nat) (c : Ckpt) :
    s.restoredPrf b c = if s.cfg.restorePolicy = .selective then s.prf else c.prfSnap := by
  unfold State.restoredPrf
  rw [youngerEntries_alone hcount]
  cases s.cfg.restorePolicy <;> rfl

theorem flushedOcc_idle (s : State) (b : Nat) {o : Option Occupant} (h : o = none) : s.flushedOcc b o = o := by
  rw [h]; rfl

/-- Recovery from the only instruction in flight discards nothing (53_recovery_commit.md R261 to R267). -/
theorem recoverFrom_alone {s : State} {b : Nat} (hb : b = s.head) (hhead : s.head < s.cfg.robSize)
    (hcount : s.count = 1) (hiq : s.iq = []) (hunits : s.occupants = []) (htail : s.tail = s.nextIndex b)
    (target : Int) (c : Ckpt) : s.recoverFrom b target c = { s with
      rat := c.ratSnap
      prf := if s.cfg.restorePolicy = .selective then s.prf else c.prfSnap
      ck := s.releasedCk b
      pc := target
      fl := { s.fl with valid := false }
      fetchStopped := false
      fetchSuppress := true } := by
  obtain ⟨hint, hmul, hmem, -⟩ := occupants_eq_nil.mp hunits
  have hqueue : s.flushedIq b = s.iq := by simp [State.flushedIq, hiq]
  have hage : s.age b + 1 = s.count := by rw [hb, age_head hhead, hcount]
  rw [State.recoverFrom, hqueue, flushedOcc_idle s _ hint, flushedOcc_idle s _ hmul, flushedOcc_idle s _ hmem,
    truncatedRob_alone hcount, restoredPrf_alone hcount, hage, ← htail]

/-! ### Ticks with only the branch unit at work -/

/-- Nothing but the branch unit is at work. -/
structure State.OnlyBranch (u : State) : Prop where
  intFree : u.uInt.occ = none
  mulFree : u.uMul.occ = none
  memFree : u.uMem.occ = none
  iqEmpty : u.iq = []

/-- The state with fetch sent to the target (53_recovery_commit.md R267). -/
def State.redirected (s : State) (target : Int) : State :=
  { s with pc := target, fetchStopped := false, fetchSuppress := false }

section Branching

variable {s t u : State} {op : Op} {x : Operands} {k cycles : Nat} {c : Change}

/-- While only the branch unit is at work, a tick is that unit's step and fetch. -/
theorem State.Living.tick_branch (l : s.Living op x k u) (h : s.Drained) {e : RobEntry} (he : u.robAt s.head = some e)
    (hopen : e.done = false) (hdef : u.branchDefined = true) (ht : branchPhase (beginTick u) = t)
    (only : t.OnlyBranch) : step u = .next (fetchPhase t) := by
  have hcommit : afterCommit u = beginTick u := commitPhase_waits fun d hd => by
    cases he.symm.trans (l.headEntry.symm.trans hd)
    exact hopen
  have hend : (afterCommit u).ended = false := by
    simp [hcommit, State.ended, l.halted, l.fault, h.notHalted, h.notFaulted]
  have hbranch : afterBranch u = t := by rw [afterBranch, hcommit, ht]
  have hacc : t.accessDefined = true := accessDefined_iff.mpr fun o ho => nomatch only.memFree.symm.trans ho
  rw [l.step_eq h, tickWith_of_defined _ hend (hcommit ▸ hdef) (hbranch ▸ hacc), beforeDispatch, hbranch,
    dispatchNothing, memPhase_idle only.memFree, mulPhase_idle only.mulFree, intPhase_idle only.intFree,
    issuePhase_empty only.iqEmpty]

/-- The fetch phase writes only fetch's own fields (50_cycle_and_fetch.md R186 to R190). -/
theorem fetchPhase_eq (s : State) : fetchPhase s = { s with
    pc := (fetchPhase s).pc, fl := (fetchPhase s).fl, fetchStopped := (fetchPhase s).fetchStopped,
    fetchSuppress := (fetchPhase s).fetchSuppress } := by
  rcases fetchPhase_cases s with ⟨-, heq⟩ | ⟨-, heq⟩ | ⟨w, -, -, -, -, heq⟩ <;> rw [heq]
  rfl

/-- The whole life's effect says nothing of fetch. -/
theorem State.Effect.fetch_redirected (h : s.Effect t cycles c) (target : Int) :
    s.Effect (fetchPhase (t.redirected target)) cycles c := by
  rw [fetchPhase_eq]
  exact { h with }

/-- The fetch phase latches the bundle that pc names (50_cycle_and_fetch.md R186). -/
theorem fetchPhase_latches {w : Bundle} (hsup : s.fetchSuppress = false) (hempty : s.fl.valid = false)
    (hstopped : s.fetchStopped = false) (hw : s.bundleAt s.pc = some w) : fetchPhase s = s.latch w := by
  simp [fetchPhase, hsup, hempty, hstopped, hw]

/-- Fetch that has been sent to the target reads it (50_cycle_and_fetch.md R186, R187). -/
theorem fetchedFrom_redirected {target : Int} (hcfg : t.cfg = s.cfg) (hprogram : t.program = s.program)
    (hempty : t.fl.valid = false) : FetchedFrom s (fetchPhase (t.redirected target)) target := by
  have hbundle : (t.redirected target).bundleAt target = s.bundleAt target := by
    simp [State.bundleAt, State.redirected, hcfg, hprogram]
  unfold FetchedFrom
  cases hw : s.bundleAt target with
  | none =>
    have hphase : fetchPhase (t.redirected target) = t.redirected target :=
      fetchPhase_idle rfl (.inr (hbundle.trans hw))
    rw [hphase]
    exact ⟨rfl, hempty⟩
  | some w =>
    have hphase : fetchPhase (t.redirected target) = (t.redirected target).latch w :=
      fetchPhase_latches rfl hempty rfl (hbundle.trans hw)
    rw [hphase, sx_eq_wrap, ← hcfg]
    exact ⟨rfl, rfl⟩

/-! ### A control-flow instruction alone in the machine -/

/-- A drained machine and a row of the operand map for a control-flow instruction (30_encoding.md R86, R87). -/
structure State.TakesBranchOp (s : State) (op : Op) (x : Operands) : Prop where
  drained : s.Drained
  legal : x.Legal s.cfg.numArch op
  unit : op.unit = .br
  free : x.d.isSome = true → s.SomeFree

/-- The address of the instruction after the latched one (43_control_flow.md R163). -/
def State.link (s : State) : Int := s.nextPc s.fl.pc

/-- The register file after branch stage 1: a JAL has written its link (43_control_flow.md R163). -/
def State.linkedPrf (s : State) (x : Operands) : List PhysReg :=
  updatePrf (s.renamedPrf x) (s.newTag x) (PhysReg.written s.link)

/-- The target that the instruction's stage 1 records (43_control_flow.md R160 to R163). -/
def State.flowTarget (s : State) (op : Op) (x : Operands) : Int := (s.newIqEntry op x).occupant.target s.cfg

/-- The drained machine `k` ticks on, its control-flow instruction resolved: what stage 2 and recovery write is left
open. -/
def State.resolving (s : State) (op : Op) (x : Operands) (k : Nat) (prf : List PhysReg) (ck : List Ckpt)
    (occ : Option Occupant) : State :=
  { s.taken op x with
    cycle := s.cycle + k
    iq := []
    prf := prf
    ck := ck
    uBr := { occ := occ, stage := .two, taken := Op.redirects op s.z, target := s.flowTarget op x } }

/-- The drained machine three ticks on, after branch stage 1. -/
def State.decided (s : State) (op : Op) (x : Operands) : State :=
  s.resolving op x 3 (s.linkedPrf x) (s.checkpointed op x) (some (s.newIqEntry op x).occupant)

/-- The drained machine four ticks on, after branch stage 2, fetch apart. -/
def State.settled (s : State) (op : Op) (x : Operands) (prf : List PhysReg) (ck : List Ckpt) : State :=
  (s.resolving op x 4 prf ck none).complete s.tail

/-- Stage 2 has completed the entry and left the unit, and is about to redirect or not (52_issue_units.md R246). -/
def State.leaving (s : State) (op : Op) (x : Operands) : State :=
  s.settled op x (s.linkedPrf x) (s.checkpointed op x)

/-- The register file after the recovery from the only instruction in flight: `verbatim` takes a link back
(53_recovery_commit.md R265; 93_implementation_defined.md X12). -/
def State.recoveredPrf (s : State) (x : Operands) : List PhysReg :=
  if s.cfg.restorePolicy = .selective then s.linkedPrf x else s.renamedPrf x

/-- Only a destination's link can be lost (53_recovery_commit.md R265). -/
theorem recoveredPrf_eq_linkedPrf (h : s.cfg.restorePolicy = .selective ∨ s.newTag x = none) :
    s.recoveredPrf x = s.linkedPrf x := by
  rcases h with hpol | hnone
  · exact if_pos hpol
  · rw [State.recoveredPrf, State.linkedPrf, hnone, updatePrf_none, ite_self]

theorem State.TakesBranchOp.issued_eq (m : s.TakesBranchOp op x) : s.issued op x
    = { beginTick (s.taken op x) with
        iq := [], uBr := { s.uBr with occ := some (s.newIqEntry op x).occupant, stage := .one } } := by
  simp only [State.issued, State.issueTo, State.newIqEntry, m.unit]
  rfl

theorem State.Drained.resolving_onlyBranch (h : s.Drained) {prf : List PhysReg} {ck : List Ckpt}
    {occ : Option Occupant} : (s.resolving op x k prf ck occ).OnlyBranch :=
  ⟨h.intFree, h.mulFree, h.memFree, rfl⟩

theorem State.Drained.resolving_living (h : s.Drained) {prf : List PhysReg} {ck : List Ckpt} {occ : Option Occupant} :
    s.Living op x k (s.resolving op x k prf ck occ) :=
  { h.living (op := op) (x := x) with cycle := rfl }

theorem State.Drained.settled_living (h : s.Drained) {prf : List PhysReg} {ck : List Ckpt} :
    s.Living op x 4 (s.settled op x prf ck) :=
  { h.resolving_living (op := op) (x := x) (prf := prf) (ck := ck) (occ := none) with }

/-- The target of an instruction whose base operand is a register (43_control_flow.md R162, R163). -/
theorem State.Drained.flowTarget_eq (h : s.Drained) {r : Reg} (ha : x.a = some r) (hr : r.val < s.cfg.numArch)
    {imm : Imm} (himm : x.imm = some imm) (hop : ¬(op = .bz ∨ op = .bnz)) :
    s.flowTarget op x = sx s.cfg (s.xValue r + imm.toInt) := by
  have hbase : (s.newIqEntry op x).occupant.a = s.xValue r := by
    show (s.resolve x.a).value = _
    rw [ha, h.resolve hr]
  have hdisp : (s.newIqEntry op x).occupant.imm = imm.toInt := by
    show s.entryImm x = _
    rw [State.entryImm, himm]
    rfl
  have hbase_used : ¬((s.newIqEntry op x).occupant.op = .bz ∨ (s.newIqEntry op x).occupant.op = .bnz) := hop
  rw [State.flowTarget, Occupant.target, hbase, hdisp, if_neg hbase_used, sx_eq_wrap]

/-- One tick after its issue a control-flow instruction is decided, and a JAL has written its link (52_issue_units.md
R245; 70_reset_and_hazards.md R333). -/
theorem State.TakesBranchOp.decides (m : s.TakesBranchOp op x) :
    ticks 2 (s.taken op x) = .next (s.decided op x) := by
  obtain ⟨hissue, hissued⟩ := m.drained.issues m.legal
  have hentry := m.drained.issued_entry (op := op) (x := x)
  have hliving : s.Living op x 3 (s.decided op x) := m.drained.resolving_living
  have hstage : branchPhase (beginTick (s.issued op x)) = s.decided op x := by
    rw [m.issued_eq, branchPhase_one (o := (s.newIqEntry op x).occupant) rfl rfl,
      brStage1_eq_resolved m.unit m.legal.newTag_eq_none]
    rfl
  have hdef : (s.issued op x).branchDefined = true := by rw [m.issued_eq]; rfl
  have htick := hissued.tick_branch m.drained hentry rfl hdef hstage m.drained.resolving_onlyBranch
  rw [fetchPhase_idle (hliving.fetchSuppress.trans m.drained.notSuppressed) (hliving.fetchIdle m.drained)] at htick
  rw [ticks_succ hissue, ticks_succ htick, ticks_zero]

/-- The instruction owns the one busy checkpoint slot (51_rename_dispatch.md R208). -/
theorem State.TakesBranchOp.decided_owners (m : s.TakesBranchOp op x) : (s.decided op x).owners = [s.tail] := by
  have hslot := (stallReasons_eq_nil.mp (m.drained.no_stall (op := op) m.free)).2.1
  rcases dispatched_owners (s := s) hslot with ⟨-, hperm⟩ | ⟨hunit, -⟩
  · rw [owners_eq_nil.mpr m.drained.ckFree] at hperm
    exact List.perm_singleton.mp hperm
  · exact absurd m.unit hunit

/-- The slot is a copy of the RAT and the register file after the rename (51_rename_dispatch.md R208). -/
theorem State.TakesBranchOp.decided_slot (m : s.TakesBranchOp op x) {c : Ckpt} (hc : c ∈ (s.decided op x).ck)
    (hbusy : c.busy = true) : c.ratSnap = s.renamedRat x ∧ c.prfSnap = s.renamedPrf x := by
  rcases mem_checkpointed hc with hold | rfl
  · simp [m.drained.ckFree c hold] at hbusy
  · exact ⟨rfl, rfl⟩

theorem State.TakesBranchOp.decided_ownedSlot (m : s.TakesBranchOp op x) :
    ((s.decided op x).ownedSlot s.tail).isSome = true :=
  ownedSlot_isSome.mpr (mem_owners.mp (by simp [m.decided_owners]))

theorem State.TakesBranchOp.decided_branchDefined (m : s.TakesBranchOp op x) :
    (s.decided op x).branchDefined = true := by
  have hoccupied : (s.decided op x).occupied s.tail = true := by
    have hage : (s.decided op x).age s.head = 0 := age_head (s := s.decided op x) m.drained.headBound
    rw [occupied_iff, m.drained.tailIs, hage]
    exact ⟨m.drained.headBound, Nat.succ_pos s.count⟩
  show ((s.decided op x).occupied s.tail && ((s.decided op x).ownedSlot s.tail).isSome) = true
  rw [hoccupied, m.decided_ownedSlot, Bool.and_self]

/-- Stage 2 of the decided instruction is a tick. -/
theorem State.TakesBranchOp.tick_decided (m : s.TakesBranchOp op x)
    (hstage : brStage2 (s.newIqEntry op x).occupant (beginTick (s.decided op x)) = t) (only : t.OnlyBranch) :
    step (s.decided op x) = .next (fetchPhase t) :=
  m.drained.resolving_living.tick_branch m.drained (m.drained.taken_entry (op := op) (x := x)) rfl
    m.decided_branchDefined ((branchPhase_two rfl rfl).trans hstage) only

theorem State.TakesBranchOp.leaving_owners (m : s.TakesBranchOp op x) : (s.leaving op x).owners = [s.tail] :=
  m.decided_owners

/-- Not taken, stage 2 frees the instruction's slot (53_recovery_commit.md R269). -/
theorem State.TakesBranchOp.settles_not_taken (m : s.TakesBranchOp op x) (hnot : Op.redirects op s.z = false) :
    ∃ ck, (∀ c ∈ ck, c.busy = false) ∧ step (s.decided op x) = .next (s.settled op x (s.linkedPrf x) ck) := by
  have howners : ((s.leaving op x).releaseOwned s.tail).owners = [] := by
    rw [releaseOwned_owners, m.leaving_owners, List.erase_cons_head]
  have hsettled : (s.leaving op x).releaseOwned s.tail
      = s.settled op x (s.linkedPrf x) ((s.leaving op x).releaseOwned s.tail).ck := releaseOwned_eq ..
  have hliving : s.Living op x 4 (s.settled op x (s.linkedPrf x) ((s.leaving op x).releaseOwned s.tail).ck) :=
    m.drained.settled_living
  have hstep := m.tick_decided ((brStage2_not_taken hnot).trans hsettled)
    ⟨m.drained.intFree, m.drained.mulFree, m.drained.memFree, rfl⟩
  rw [fetchPhase_idle (hliving.fetchSuppress.trans m.drained.notSuppressed) (hliving.fetchIdle m.drained)] at hstep
  exact ⟨_, owners_eq_nil.mp howners, hstep⟩

/-- Taken, stage 2 leaves the same state but for fetch, and for a link that `verbatim` takes back (53_recovery_commit.md
R260 to R267). -/
theorem State.TakesBranchOp.settles_taken (m : s.TakesBranchOp op x) (htaken : Op.redirects op s.z = true) :
    ∃ ck, (∀ c ∈ ck, c.busy = false) ∧ step (s.decided op x)
      = .next ((s.settled op x (s.recoveredPrf x) ck).redirected (s.flowTarget op x)) := by
  obtain ⟨c, hc, hbusy, -, hrecovers⟩ :=
    brStage2_taken (o := (s.newIqEntry op x).occupant) (s := beginTick (s.decided op x)) htaken m.decided_ownedSlot
  obtain ⟨hrat, hprf⟩ := m.decided_slot hc hbusy
  have hcount : (s.leaving op x).count = 1 := congrArg (· + 1) m.drained.robEmpty
  have hunits : (s.leaving op x).occupants = [] :=
    occupants_eq_nil.mpr ⟨m.drained.intFree, m.drained.mulFree, m.drained.memFree, rfl⟩
  have howners : ((s.leaving op x).recoverFrom s.tail (s.flowTarget op x) c).owners = [] := by
    simp [recoverFrom_owners, m.leaving_owners]
  have hstage := hrecovers.trans
    (recoverFrom_alone (s := s.leaving op x) m.drained.tailIs m.drained.headBound hcount rfl hunits rfl _ c)
  rw [hrat, hprf] at hstage
  refine ⟨(s.leaving op x).releasedCk s.tail, owners_eq_nil.mp howners, ?_⟩
  rw [m.tick_decided hstage ⟨m.drained.intFree, m.drained.mulFree, m.drained.memFree, rfl⟩]
  rfl

/-- A settled instruction that keeps its link is finished. -/
theorem State.Drained.settled_finished (h : s.Drained) {ck : List Ckpt} (hck : ∀ c ∈ ck, c.busy = false) :
    s.Finished op x s.link { s.newRobEntry op x with done := true } (s.settled op x (s.linkedPrf x) ck) where
  entry := by
    have hentry := h.taken_entry (op := op) (x := x)
    rw [State.settled, complete_robAt, h.tailIs, if_pos rfl]
    exact congrArg (Option.map _) hentry
  opcode := rfl
  dest := rfl
  done := rfl
  noExc := rfl
  written := rfl
  iqEmpty := rfl
  unitsFree := occupants_eq_nil.mpr ⟨h.intFree, h.mulFree, h.memFree, rfl⟩
  ckFree := hck

theorem State.TakesBranchOp.ne_halt (m : s.TakesBranchOp op x) : op ≠ .halt := by
  rintro rfl
  exact nomatch m.unit

/-- A finished instruction that has sent fetch elsewhere commits in the next tick, in which fetch reads the target
(43_control_flow.md R165). -/
theorem State.Living.commits_redirected (l : s.Living op x k u) (h : s.Drained) (hop : op ≠ .halt) {v : Int}
    {e : RobEntry} (f : s.Finished op x v e u) (target : Int) :
    step (u.redirected target) = .next (fetchPhase (((beginTick u).retire e).redirected target)) := by
  have hempty : u.fl.valid = false := congrArg Latch.valid l.fl
  have hstep : step (u.redirected target) = tickWith dispatchNothing (u.redirected target) := by
    have hclocked : step (u.redirected target) = clocked dispatchNothing (u.redirected target) :=
      if_neg (by simp [State.redirected, hempty])
    rw [hclocked]
    exact clocked_of_freeRun _ (l.cfg ▸ h.cfgOk) (l.mode ▸ h.freeRun) (l.halted ▸ h.notHalted) (l.fault ▸ h.notFaulted)
      (l.quit ▸ h.notQuit)
  have hhead : (beginTick (u.redirected target)).headEntry = some e := l.headEntry.trans f.entry
  have hcommit : afterCommit (u.redirected target) = ((beginTick u).retire e).redirected target :=
    commitPhase_retires hhead f.done f.noExc
  have hend : (((beginTick u).retire e).redirected target).ended = false := by
    show (u.halted || e.op == Op.halt.code || u.fault.isSome) = false
    simp [l.halted, h.notHalted, l.fault, h.notFaulted, f.opcode, Op.code_beq_halt, hop]
  rw [hstep, tickWith_of_idle dispatchNothing hcommit hend f.unitsFree f.iqEmpty, dispatchNothing]

/-- A whole life whose last tick before the commit has sent fetch to the target. -/
theorem State.Living.redirectsTo (l : s.Living op x 4 u) (h : s.Drained) {i : Instr}
    (hexec : exec i s = execWith op x s) {target : Int} (hrun : ticks 3 (s.taken op x) = .next (u.redirected target))
    (hx : x.Legal s.cfg.numArch op) (hfree : x.d.isSome = true → s.SomeFree) (hop : op ≠ .halt) {v : Int} {e : RobEntry}
    (f : s.Finished op x v e u) (hdm : u.dm = s.dm) :
    RedirectsTo s i { dst := x.d.map fun rd => (rd, v), z := u.z, store := none, halted := false } target := by
  have heffect := l.effect h hx hfree f (store := none) nofun fun y _ => congrArg (·.read y) hdm
  rw [decide_eq_false hop] at heffect
  refine ⟨s.taken op x, fetchPhase (((beginTick u).retire e).redirected target),
    hexec.trans (h.dispatches hfree), ?_, heffect.fetch_redirected target,
    fetchedFrom_redirected l.cfg l.program (congrArg Latch.valid l.fl)⟩
  rw [ticks_add 3 1 hrun, ticks_succ (l.commits_redirected h hop f target), ticks_zero]

/-- A whole life in the branch unit without a redirect: dispatch, issue, two stages, commit (43_control_flow.md R160,
R161). -/
theorem State.TakesBranchOp.livesTo (m : s.TakesBranchOp op x) {i : Instr} (hexec : exec i s = execWith op x s)
    (hnot : Op.redirects op s.z = false) :
    LivesTo s i 4 { dst := x.d.map fun rd => (rd, s.link), z := s.z, store := none, halted := false } := by
  obtain ⟨ck, hck, hstep⟩ := m.settles_not_taken hnot
  have hrun : ticks 3 (s.taken op x) = .next (s.settled op x (s.linkedPrf x) ck) := by
    rw [ticks_add 2 1 m.decides, ticks_succ hstep, ticks_zero]
  have hlife := m.drained.settled_living.livesTo m.drained hexec hrun m.legal m.free
    (m.drained.settled_finished hck) (store := none) nofun fun _ _ => rfl
  rwa [decide_eq_false m.ne_halt] at hlife

/-- A whole life in the branch unit with a redirect: dispatch, issue, two stages, and the commit with the fetch from the
target (43_control_flow.md R160 to R165). -/
theorem State.TakesBranchOp.redirectsTo (m : s.TakesBranchOp op x) {i : Instr} (hexec : exec i s = execWith op x s)
    (htaken : Op.redirects op s.z = true) (hkept : s.cfg.restorePolicy = .selective ∨ s.newTag x = none) :
    RedirectsTo s i { dst := x.d.map fun rd => (rd, s.link), z := s.z, store := none, halted := false }
      (s.flowTarget op x) := by
  obtain ⟨ck, hck, hstep⟩ := m.settles_taken htaken
  rw [recoveredPrf_eq_linkedPrf hkept] at hstep
  have hrun : ticks 3 (s.taken op x)
      = .next ((s.settled op x (s.linkedPrf x) ck).redirected (s.flowTarget op x)) := by
    rw [ticks_add 2 1 m.decides, ticks_succ hstep, ticks_zero]
  exact m.drained.settled_living.redirectsTo m.drained hexec hrun m.legal m.free m.ne_halt
    (m.drained.settled_finished hck) rfl

end Branching

/-- The rows of the operand map that only control-flow instructions have are legal (30_encoding.md R84, R86). -/
theorem Operands.legal_ji {n : Nat} {op : Op} {rs1 : Reg} {imm : Imm} (h1 : rs1.val < n)
    (hop : Op.writesDest op = false) : (Operands.ji rs1 imm).Legal n op where
  a _ hr := Option.some.inj hr ▸ h1
  b _ hr := nomatch hr
  d _ hr := nomatch hr
  dest := hop.symm

theorem Operands.legal_i {n : Nat} {op : Op} {imm : Imm} (hop : Op.writesDest op = false) :
    (Operands.i imm).Legal n op where
  a _ hr := nomatch hr
  b _ hr := nomatch hr
  d _ hr := nomatch hr
  dest := hop.symm

end Sys2Proof.Machine

namespace Sys2Proof.Claims

open Sys2Proof.Machine

/-- Settles O44: each branch's decision is Z or its negation, so one of the two redirects and the other does not. -/
theorem conditionalBranchesRunToCommit : Obligations.ConditionalBranchesRunToCommit := by
  unfold Obligations.ConditionalBranchesRunToCommit
  intro s imm h target nothing
  have mbz : s.TakesBranchOp .bz (.i imm) := ⟨h, Operands.legal_i rfl, rfl, nofun⟩
  have mbnz : s.TakesBranchOp .bnz (.i imm) := ⟨h, Operands.legal_i rfl, rfl, nofun⟩
  have hbz : s.flowTarget .bz (.i imm) = target := (sx_eq_wrap ..).symm
  have hbnz : s.flowTarget .bnz (.i imm) = target := (sx_eq_wrap ..).symm
  refine ⟨fun hz => ⟨?_, ?_⟩, fun hz => ⟨?_, ?_⟩⟩
  · exact hbz ▸ mbz.redirectsTo rfl hz (.inr rfl)
  · exact mbnz.livesTo rfl (congrArg not hz)
  · exact hbnz ▸ mbnz.redirectsTo rfl (congrArg not hz) (.inr rfl)
  · exact mbz.livesTo rfl hz

/-- Settles O45: the target is that of the operand, which holds the register's value, and `selective` keeps the link. -/
theorem jumpsRunToCommit : Obligations.JumpsRunToCommit := by
  unfold Obligations.JumpsRunToCommit
  intro s rd rs1 imm h hd h1 target
  have hjump : s.flowTarget .jump (.ji rs1 imm) = target := h.flowTarget_eq rfl h1 rfl (by decide)
  have hjal : s.flowTarget .jal (.rri rd rs1 imm) = target := h.flowTarget_eq rfl h1 rfl (by decide)
  have hlink : s.link = sx s.cfg (s.fl.pc + s.cfg.insnStride) := (sx_eq_wrap ..).symm
  have mjump : s.TakesBranchOp .jump (.ji rs1 imm) := ⟨h, Operands.legal_ji h1 rfl, rfl, nofun⟩
  refine ⟨hjump ▸ mjump.redirectsTo rfl rfl (.inr rfl), fun hsome hpol => ?_⟩
  have mjal : s.TakesBranchOp .jal (.rri rd rs1 imm) := ⟨h, Operands.legal_rri hd h1 rfl, rfl, fun _ => hsome⟩
  exact hlink ▸ hjal ▸ mjal.redirectsTo rfl rfl (.inl hpol)

end Sys2Proof.Claims

namespace Sys2Proof.Machine

/-! ## Fetch (50_cycle_and_fetch.md section 2) -/

/-- An address names instruction i exactly when it is i strides above PC_BASE (10_state.md R27; 50_cycle_and_fetch.md
R186). -/
theorem insnIndex_eq_some_iff {c : Config} {pc : Int} {i : Nat} (hstride : 1 ≤ c.insnStride) :
    Config.insnIndex c pc = some i ↔ pc = c.pcBase + c.insnStride * i := by
  unfold Config.insnIndex
  constructor
  · intro h
    split at h
    · cases h
    next hbase =>
      split at h
      · cases h
      next hmod =>
        have hdiv : ((pc - c.pcBase) / (c.insnStride : Int)).toNat = i := Option.some.inj h
        have hquot : (pc - c.pcBase) / (c.insnStride : Int) = i := by
          have : 0 ≤ (pc - c.pcBase) / (c.insnStride : Int) := Int.ediv_nonneg (by omega) (by omega)
          omega
        have hexact := Int.mul_ediv_add_emod (pc - c.pcBase) c.insnStride
        rw [hquot, not_not.mp hmod] at hexact
        omega
  · rintro rfl
    have hoff : 0 ≤ (c.insnStride : Int) * i := by positivity
    have hne : (c.insnStride : Int) ≠ 0 := by omega
    rw [if_neg (by omega), add_sub_cancel_left, Int.mul_emod_right, if_neg (by simp),
      Int.mul_ediv_cancel_left _ hne, Int.toNat_natCast]

/-- Fetch reads a bundle at the addresses that name an instruction of the program, and at no other (50_cycle_and_fetch.md
R186, R187). -/
theorem bundleAt_eq_some_iff {s : State} {pc : Int} {w : Bundle} (hstride : 1 ≤ s.cfg.insnStride) :
    s.bundleAt pc = some w ↔ ∃ i : Nat, pc = s.cfg.pcBase + s.cfg.insnStride * i ∧ s.program[i]? = some w := by
  simp only [← insnIndex_eq_some_iff hstride]
  unfold State.bundleAt
  cases Config.insnIndex s.cfg pc <;> simp

/-- Fetch waits while the latch is full (50_cycle_and_fetch.md R190). -/
theorem fetchPhase_full {s : State} (hsup : s.fetchSuppress = false) (hfull : s.fl.valid = true) :
    fetchPhase s = s := by
  simp [fetchPhase, hsup, hfull]

/-- A suppressed fetch only clears the suppression (50_cycle_and_fetch.md R189). -/
theorem fetchPhase_suppressed {s : State} (hsup : s.fetchSuppress = true) :
    fetchPhase s = { s with fetchSuppress := false } := by
  simp [fetchPhase, hsup]

/-! ## The clock (50_cycle_and_fetch.md R183, R193 to R196) -/

/-- A run goes on until one of the four ends (50_cycle_and_fetch.md R196). -/
theorem runEnd_eq_none_iff {s : State} :
    s.runEnd = none ↔ s.halted = false ∧ s.fault = none ∧ s.quit = false ∧ s.budgetOut = false := by
  unfold State.runEnd
  cases s.halted <;> cases s.fault <;> cases s.quit <;> cases s.budgetOut <;> simp

/-- The clock of a run that has ended stands still (50_cycle_and_fetch.md R183). -/
theorem clock_of_ended {s : State} (h : s.runEnd ≠ none) : s.clock = .stopped := by
  obtain ⟨x, hx⟩ := Option.ne_none_iff_exists'.mp h
  simp [State.clock, hx]

/-- What the host's unread answers make the clock do after a tick in single-step mode (50_cycle_and_fetch.md R194). -/
def clockOfReplies : List Reply → Clock
  | [] => .waiting
  | .continue :: rest => .tick rest
  | .quit :: rest => .quits rest

/-- After its first tick a single-stepped run does what the host answers (50_cycle_and_fetch.md R194). -/
theorem clock_of_singleStep {s : State} (hrun : s.runEnd = none) (hmode : s.mode = .singleStep)
    (hcycle : 0 < s.cycle) : s.clock = clockOfReplies s.replies := by
  simp only [State.clock, hrun, hmode, if_neg hcycle.ne']
  rcases s.replies with _ | ⟨_ | _, rest⟩ <;> rfl

/-- A clock that stands still, or waits for the host, keeps the state, whatever stands in the latch (assumption log 4). -/
theorem step_stands {s : State} (hok : s.cfg.ok = true) (hclock : s.clock = .stopped ∨ s.clock = .waiting) :
    step s = .next s := by
  obtain ⟨d, hd, -⟩ := step_cases s
  rcases hclock with h | h <;> simp [hd, clocked, hok, h]

/-- The host's quit is recorded and read, and nothing else happens (50_cycle_and_fetch.md R194). -/
theorem step_quits {s : State} {rest : List Reply} (hok : s.cfg.ok = true) (hclock : s.clock = .quits rest) :
    step s = .next { s with quit := true, replies := rest } := by
  obtain ⟨d, hd, -⟩ := step_cases s
  simp [hd, clocked, hok, hclock]

/-! ## A tick that its commit phase ends (50_cycle_and_fetch.md R184, R185) -/

/-- The commit phase takes the exception of a complete head entry (53_recovery_commit.md R271). -/
theorem commitPhase_faults {s : State} {e : RobEntry} (he : s.headEntry = some e) (hdone : e.done = true)
    (hexc : e.exc ≠ .none) : commitPhase s = s.takeFault e := by
  rcases commitPhase_cases s with ⟨-, hopen⟩ | ⟨e', he', -, ⟨hnone, -⟩ | ⟨-, hphase⟩⟩
  · exact absurd hdone (by simp [hopen e he])
  · cases he.symm.trans he'
    exact absurd hnone hexc
  · cases he.symm.trans he'
    exact hphase

/-- Once the commit phase has ended the run, the other phases of the tick do not run, whatever stands in the latch. -/
theorem step_of_commit_ends {s : State} {rest : List Reply} (hok : s.cfg.ok = true) (hclock : s.clock = .tick rest)
    (hend : (afterCommit { s with replies := rest }).ended = true) :
    step s = .next (afterCommit { s with replies := rest }) := by
  obtain ⟨d, hd, -⟩ := step_cases s
  rw [hd, clocked_tick hok hclock, tickWith, if_pos hend]

end Sys2Proof.Machine

namespace Sys2Proof.Claims

open Sys2Proof.Machine

/-- Settles O17: the address names the instruction, so its bundle is latched. -/
theorem fetchLatchesTheNamedInstruction : Obligations.FetchLatchesTheNamedInstruction := by
  unfold Obligations.FetchLatchesTheNamedInstruction
  intro s i w hsup hempty hstopped hstride hw hpc
  have hbundle : s.bundleAt s.pc = some w := (bundleAt_eq_some_iff hstride).mpr ⟨i, hpc, hw⟩
  have hhalt : (s.fetchStopped || w.opcode == Op.halt.code) = decide (w.opcode = 0x11) := by
    rw [hstopped]
    rfl
  rw [fetchPhase_latches hsup hempty hstopped hbundle, State.latch, State.nextPc, hhalt, sx_eq_wrap]

/-- Settles O18: a bundle at pc would be that of an instruction whose address pc is. -/
theorem fetchOfNoInstructionIsABubble : Obligations.FetchOfNoInstructionIsABubble := by
  unfold Obligations.FetchOfNoInstructionIsABubble
  intro s hsup hstride hnone
  have hbubble : s.bundleAt s.pc = none := Option.eq_none_iff_forall_ne_some.mpr fun w hw => by
    obtain ⟨i, hpc, hi⟩ := (bundleAt_eq_some_iff hstride).mp hw
    exact hnone i (List.getElem?_eq_some_iff.mp hi).1 hpc
  exact fetchPhase_idle hsup (.inr hbubble)

/-- Settles O9: neither of the model's stops is met, and the commit phase has not ended the tick. -/
theorem tickRunsPhasesInOrder : Obligations.TickRunsPhasesInOrder := by
  unfold Obligations.TickRunsPhasesInOrder
  intro s rest dispatch hok hclock s1 s2 hhalted hfault hbranch haccess
  have hend : s1.ended = false := by simp [State.ended, hhalted, hfault]
  rw [clocked_tick hok hclock]
  exact tickWith_of_defined dispatch hend hbranch haccess

/-- Settles O10: the run has ended, so its clock stands still. -/
theorem stoppedClockChangesNothing : Obligations.StoppedClockChangesNothing := by
  unfold Obligations.StoppedClockChangesNothing
  intro s hok hstop
  refine step_stands hok (.inl (clock_of_ended fun hrun => ?_))
  obtain ⟨hhalted, hfault, -, -⟩ := runEnd_eq_none_iff.mp hrun
  simp [hhalted, hfault] at hstop

/-- Settles O11: a spent budget is an end of the run; without a budget the host's answer is what the clock does. -/
theorem hostStopsTheClock : Obligations.HostStopsTheClock := by
  unfold Obligations.HostStopsTheClock
  intro s hok hhalted hfault hquit
  constructor
  · intro b hmode hspent
    have hcap : s.mode.budget = some b := by rcases hmode with h | h <;> rw [h] <;> rfl
    have hout : s.budgetOut = true := by simp [State.budgetOut, hcap, hspent]
    refine step_stands hok (.inl (clock_of_ended fun hrun => ?_))
    obtain ⟨-, -, -, hbudget⟩ := runEnd_eq_none_iff.mp hrun
    exact absurd hout (by simp [hbudget])
  · intro hmode hcycle
    have hrun : s.runEnd = none :=
      runEnd_eq_none_iff.mpr ⟨hhalted, hfault, hquit, by simp [State.budgetOut, RunMode.budget, hmode]⟩
    have hclock : s.clock = clockOfReplies s.replies := clock_of_singleStep hrun hmode hcycle
    refine ⟨fun hreplies => ?_, fun rest hreplies => ?_, fun rest hreplies => ?_⟩ <;> rw [hreplies] at hclock
    · exact step_stands hok (.inr hclock)
    · exact step_quits hok hclock
    · exact hclock

/-- Settles O13: the fault ends the tick. -/
theorem faultTakenAtCommit : Obligations.FaultTakenAtCommit := by
  unfold Obligations.FaultTakenAtCommit
  intro s rest e hok hclock hcount hhead hdone hexc
  have hcommit : afterCommit { s with replies := rest } = (beginTick { s with replies := rest }).takeFault e :=
    commitPhase_faults (headEntry_eq_some.mpr ⟨hcount.ne', hhead⟩) hdone hexc
  have hend : (afterCommit { s with replies := rest }).ended = true := by
    simp [hcommit, State.ended, State.takeFault]
  rw [step_of_commit_ends hok hclock hend, hcommit]
  rfl

/-- Settles O14: the halt ends the tick. -/
theorem haltCommitEndsTheRun : Obligations.HaltCommitEndsTheRun := by
  unfold Obligations.HaltCommitEndsTheRun
  intro s rest e hok hclock hcount hhead hdone hexc hop
  have hentry : s.headEntry = some e := headEntry_eq_some.mpr ⟨hcount.ne', hhead⟩
  have hcommit : afterCommit { s with replies := rest } = (beginTick { s with replies := rest }).retire e :=
    commitPhase_retires hentry hdone hexc
  have hhalted : (s.halted || e.op == Op.halt.code) = true := by simp [hop, Op.code]
  have hend : (afterCommit { s with replies := rest }).ended = true := by
    rw [hcommit, State.ended, Bool.or_eq_true]
    exact .inl hhalted
  rw [step_of_commit_ends hok hclock hend, hcommit, commitPhase_retires hentry hdone hexc, ← hhalted]
  rfl

/-- Settles O19: the cases of the fetch phase before it reads the program. -/
theorem fetchHoldsBack : Obligations.FetchHoldsBack := by
  unfold Obligations.FetchHoldsBack
  intro s
  refine ⟨fetchPhase_suppressed, fun hsup hholds => ?_⟩
  rcases hholds with hfull | hstopped
  · exact fetchPhase_full hsup hfull
  · exact fetchPhase_idle hsup (.inl hstopped)

end Sys2Proof.Claims

namespace Sys2Proof.Machine

open Sys2Proof.Claims

/-! ## Rename and dispatch (51_rename_dispatch.md R200 to R215) -/

/-! ### The model's operations in the rules' terms -/

/-- Every meaning is the tick that dispatches its opcode with its row of the operand map (30_encoding.md R86;
51_rename_dispatch.md R214). -/
theorem exec_eq_execWith (i : Instr) (s : State) : exec i s = execWith i.op (operandRow i) s := by
  cases i <;> rfl

/-- Exactly the control-flow opcodes take a checkpoint (00_scope.md R15; 51_rename_dispatch.md R208). -/
theorem needsCkpt_eq_isFlow (op : Op) : Op.needsCkpt op = isFlow op := by
  cases op <;> rfl

theorem descriptor_eq_resolve (s : State) (src : Option Reg) : descriptor s src = s.resolve src := by
  cases src <;> rfl

/-- The model finds a reason to stall exactly when a resource is missing (51_rename_dispatch.md R201, R203). -/
theorem stallReasons_eq_nil_iff_not_missing {s : State} {i : Instr} :
    s.stallReasons i.op (operandRow i) = [] ↔ ¬ Missing s i := by
  rw [stallReasons_eq_nil, Missing, needsCkpt_eq_isFlow, ← freeReg_eq_none, ← freeSlot_eq_none]
  simp only [not_or, not_and, ← ne_eq, Option.ne_none_iff_isSome]

/-! ### The dispatch phase -/

theorem dispatchLegal_takes {op : Op} {x : Operands} {s : State} (hfull : s.fl.valid = true)
    (hstall : s.stallReasons op x = []) : dispatchLegal op x s = s.dispatched op x := by
  simp [dispatchLegal, hfull, hstall]

theorem dispatchLegal_stands {op : Op} {x : Operands} {s : State}
    (h : s.fl.valid = false ∨ s.stallReasons op x ≠ []) : dispatchLegal op x s = s := by
  rcases h with h | h <;> simp [dispatchLegal, h]

/-- The rest of the tick, for a meaning whose tick runs the dispatch phase (50_cycle_and_fetch.md R181). -/
theorem exec_of_reachesDispatch {s p : State} (h : ReachesDispatch s p) (i : Instr) :
    exec i s = .next (fetchPhase (dispatchLegal i.op (operandRow i) p)) := by
  obtain ⟨rest, hclock, rfl, hend, hbranch, haccess⟩ := h.ticks
  rw [exec_eq_execWith, execWith, clocked_tick h.cfgOk hclock, tickWith_of_defined _ hend hbranch haccess]

/-! ### What taking an instruction in changes -/

/-- AllocPhys keeps the value of the register it takes (51_rename_dispatch.md R205; assumption log 16). -/
theorem updatePrf_allocated {s : State} {p : Nat} (hp : p < s.prf.length) :
    updatePrf s.prf (some p) PhysReg.allocated = s.prf.set p ⟨(s.preg p).value, false, false⟩ := by
  simp [updatePrf, List.modify_eq_set_getElem?, preg_of_lt hp, PhysReg.allocated]

/-- The destination gets the lowest-numbered free register (51_rename_dispatch.md R205, R206). -/
theorem renamed_dispatched {s : State} {op : Op} {x : Operands} (hstall : s.stallReasons op x = []) :
    Renamed s (s.dispatched op x) x.d (s.newTag x) := by
  cases hd : x.d with
  | none =>
    have htag : s.newTag x = none := by simp [State.newTag, hd]
    refine ⟨htag, ?_, ?_⟩
    · simp [State.dispatched, State.renamedPrf, htag]
    · simp [State.dispatched, State.renamedRat, hd]
  | some rd =>
    obtain ⟨p, htag, -⟩ := newTag_of_dest hstall hd
    have hfree : s.freeReg = some p := by simpa [State.newTag, hd] using htag
    obtain ⟨hlt, hpfree, hlowest⟩ := freeReg_eq_some.mp hfree
    refine ⟨p, htag, hlt, hpfree, hlowest, ?_, ?_⟩
    · simp [State.dispatched, State.renamedRat, hd, htag]
    · simp [State.dispatched, State.renamedPrf, htag, updatePrf_allocated hlt]

/-- A control-flow instruction gets the lowest-numbered free slot, which holds the RAT and the register file after its
own rename (51_rename_dispatch.md R208). -/
theorem checkpointed_dispatched {s : State} {op : Op} {x : Operands} (hstall : s.stallReasons op x = []) :
    Checkpointed s (s.dispatched op x) op := by
  obtain ⟨-, hslot, -, -⟩ := stallReasons_eq_nil.mp hstall
  have hneed := needsCkpt_eq_isFlow op
  unfold Checkpointed
  split
  next hflow =>
    rw [hflow] at hneed
    obtain ⟨k, hk⟩ := Option.isSome_iff_exists.mp (hslot hneed)
    obtain ⟨⟨c, hc, hidle⟩, hlowest⟩ := freeSlot_eq_some.mp hk
    refine ⟨k, (List.getElem?_eq_some_iff.mp hc).1, fun d hd => ?_, hlowest, ?_⟩
    · cases hc.symm.trans hd
      exact hidle
    · simp [State.dispatched, State.checkpointed, hneed, hk]
  next hflow =>
    rw [Bool.not_eq_true] at hflow
    simp [State.dispatched, State.checkpointed, hneed, hflow]

/-- The whole dispatch is the one the rules give (51_rename_dispatch.md R204 to R214). -/
theorem takenIn_dispatched {s : State} {i : Instr} (hstall : s.stallReasons i.op (operandRow i) = []) :
    TakenIn s (s.dispatched i.op (operandRow i)) i := by
  refine ⟨s.newTag (operandRow i), renamed_dispatched hstall, checkpointed_dispatched hstall, ?_⟩
  rw [descriptor_eq_resolve, descriptor_eq_resolve]
  rfl

end Sys2Proof.Machine

namespace Sys2Proof.Claims

open Sys2Proof.Machine

/-- Settles O20: nothing is missing, so the dispatch phase takes the instruction in. -/
theorem dispatchTakesInstructionIn : Obligations.DispatchTakesInstructionIn := by
  unfold Obligations.DispatchTakesInstructionIn
  intro i s p hreach hfull hfound
  have hstall := stallReasons_eq_nil_iff_not_missing.mpr hfound
  exact ⟨p.dispatched i.op (operandRow i), takenIn_dispatched hstall,
    by rw [exec_of_reachesDispatch hreach, dispatchLegal_takes hfull hstall]⟩

/-- Settles O21: the dispatch phase keeps the state, so the latch is still full when fetch looks. -/
theorem stalledDispatchChangesNothing : Obligations.StalledDispatchChangesNothing := by
  unfold Obligations.StalledDispatchChangesNothing
  intro i s p hreach hfull hsup hmissing
  have hstall := mt stallReasons_eq_nil_iff_not_missing.mp (not_not.mpr hmissing)
  rw [exec_of_reachesDispatch hreach, dispatchLegal_stands (.inr hstall), fetchPhase_full hsup hfull]

/-- Settles O7: the step's case of a latched bundle that decodes. -/
theorem stepRunsDecodedInstruction : Obligations.StepRunsDecodedInstruction := by
  unfold Obligations.StepRunsDecodedInstruction
  intro s i hfull hdecode
  simp [step, hfull, hdecode]

/-- Settles O8: the step's two other cases. -/
theorem stepWithoutLegalInstruction : Obligations.StepWithoutLegalInstruction := by
  unfold Obligations.StepWithoutLegalInstruction
  intro s
  constructor
  · intro hempty
    have hnothing : dispatchNothing = id := rfl
    simp [step, hempty, hnothing]
  · intro x hfull hdecode
    simp [step, hfull, hdecode]

/-- Settles O22: with an empty latch the dispatch phase keeps the state. -/
theorem discardedLatchIsNotDispatched : Obligations.DiscardedLatchIsNotDispatched := by
  unfold Obligations.DiscardedLatchIsNotDispatched
  intro i s p hreach hempty
  rw [exec_of_reachesDispatch hreach, dispatchLegal_stands (.inl hempty)]

/-- Settles O23: the two cases of the illegal dispatch, told apart by the ROB's count. -/
theorem illegalBundleTakesOnlyARobEntry : Obligations.IllegalBundleTakesOnlyARobEntry := by
  unfold Obligations.IllegalBundleTakesOnlyARobEntry
  intro s hfull
  rcases dispatchIllegal_cases s with ⟨-, hroom, hdispatch⟩ | ⟨hstands, hdispatch⟩
  · exact ⟨fun hcount => absurd hcount hroom, fun _ => hdispatch⟩
  · have hcount : s.count = s.cfg.robSize := hstands.resolve_left (by simp [hfull])
    exact ⟨fun _ => hdispatch, fun hroom => absurd hcount hroom⟩

end Sys2Proof.Claims

namespace Sys2Proof.Machine

open Sys2Proof.Claims

/-! ## What the units take at issue (52_issue_units.md R230 to R237)

A scan gives each free unit the first eligible entry of its class that it meets; what is known of an instruction as it
enters a unit is then the eligibility of the entry it comes from. -/

/-- The occupant of the unit of a class. -/
def State.occOf (s : State) : UnitClass → Option Occupant
  | .int => s.uInt.occ
  | .mul => s.uMul.occ
  | .mem => s.uMem.occ
  | .br => s.uBr.occ

theorem unitFree_eq_isNone (s : State) (c : UnitClass) : s.unitFree c = (s.occOf c).isNone := by cases c <;> rfl

theorem issueTo_occOf (s : State) (e : IqEntry) (c : UnitClass) :
    (s.issueTo e).occOf c = if e.op.unit = c then some (carried e) else s.occOf c := by
  unfold State.issueTo
  cases e.op.unit <;> cases c <;> rfl

/-- The oldest of the entries that is of the class and that its unit may take, as what it carries there
(52_issue_units.md R232, R237). -/
def State.pick (s : State) (es : List IqEntry) (c : UnitClass) : Option Occupant :=
  (es.find? fun e => mayIssue s e && decide (classOf e.op = c)).map carried

theorem pick_congr {s t : State} (hc : t.cfg = s.cfg) (hr : t.rob = s.rob) (hh : t.head = s.head)
    (hn : t.count = s.count) : t.pick = s.pick := by
  funext es c
  simp only [State.pick, mayIssue_eq_eligible, eligible_congr hc hr hh hn]

theorem pick_cons_of_unit {s : State} {e : IqEntry} (hmay : s.eligible e = true) (es : List IqEntry) :
    s.pick (e :: es) e.op.unit = some (carried e) := by
  simp [State.pick, mayIssue_eq_eligible, hmay, classOf_eq_unit]

theorem pick_cons_of_not {s : State} {e : IqEntry} {c : UnitClass} (h : s.eligible e = false ∨ e.op.unit ≠ c)
    (es : List IqEntry) : s.pick (e :: es) c = s.pick es c := by
  have hnot : (mayIssue s e && decide (classOf e.op = c)) = false := by
    rw [mayIssue_eq_eligible, classOf_eq_unit]
    rcases h with h | h <;> simp [h]
  simp [State.pick, hnot]

/-- After a scan an occupied unit has its occupant, and a free one what the rules pick for it (52_issue_units.md R231,
R232). -/
theorem issueScan_occOf (es : List IqEntry) (u : State) (c : UnitClass) :
    (issueScan es u).occOf c = (u.occOf c).or (u.pick es c) := by
  induction es generalizing u with
  | nil => exact Option.or_none.symm
  | cons e es ih =>
    by_cases htest : u.eligible e = true ∧ u.unitFree e.op.unit = true
    · obtain ⟨hel, hfree⟩ := htest
      rw [issueScan_issues hel hfree, ih, issueTo_occOf,
        pick_congr (issueTo_cfg u e) (issueTo_rob u e) (issueTo_head u e) (issueTo_count u e)]
      split
      · next hc =>
        subst hc
        rw [unitFree_eq_isNone, Option.isNone_iff_eq_none] at hfree
        rw [hfree, pick_cons_of_unit hel]
        rfl
      · next hc => rw [pick_cons_of_not (.inr hc)]
    · have hkeep : u.eligible e = false ∨ u.unitFree e.op.unit = false := by
        simpa only [not_and_or, Bool.not_eq_true] using htest
      have hocc : State.occOf { u with iq := u.iq ++ [e] } c = u.occOf c := by cases c <;> rfl
      have hpick : State.pick { u with iq := u.iq ++ [e] } = u.pick := pick_congr rfl rfl rfl rfl
      rw [issueScan_keeps hkeep, ih, hocc, hpick]
      by_cases hc : e.op.unit = c
      · rcases hkeep with hel | hbusy
        · rw [pick_cons_of_not (.inl hel)]
        · rw [unitFree_eq_isNone, hc] at hbusy
          obtain ⟨o, ho⟩ := Option.isSome_iff_exists.mp (Option.isNone_eq_false_iff.mp hbusy)
          rw [ho, Option.some_or, Option.some_or]
      · rw [pick_cons_of_not (.inr hc)]

/-- The occupants after the issue phase (52_issue_units.md R231, R232). -/
theorem issuePhase_occOf (s : State) (c : UnitClass) :
    (issuePhase s).occOf c = if (s.occOf c).isNone then s.pick s.iq c else s.occOf c := by
  have hscan : (issuePhase s).occOf c = (s.occOf c).or (s.pick s.iq c) := by
    refine (issueScan_occOf s.iq { s with iq := [] } c).trans ?_
    have hpick : State.pick { s with iq := [] } = s.pick := pick_congr rfl rfl rfl rfl
    rw [hpick]
    cases c <;> rfl
  rw [hscan]
  cases s.occOf c <;> rfl

/-- What has entered a free unit comes from an eligible entry of its class (52_issue_units.md R232, R237). -/
theorem issuePhase_took {s : State} {c : UnitClass} {o : Occupant} (hfree : s.occOf c = none)
    (ho : (issuePhase s).occOf c = some o) : ∃ e ∈ s.iq, mayIssue s e = true ∧ classOf e.op = c ∧ carried e = o := by
  rw [issuePhase_occOf, hfree, Option.isNone_none, if_pos rfl, State.pick, Option.map_eq_some_iff] at ho
  obtain ⟨e, hfind, hcarried⟩ := ho
  obtain ⟨hmay, hclass⟩ : mayIssue s e = true ∧ classOf e.op = c := by simpa using List.find?_some hfind
  exact ⟨e, List.mem_of_find?_eq_some hfind, hmay, hclass, hcarried⟩

/-- A unit that an instruction has entered since the state s stands at its first stage, the multiplier at MUL_LAT
(52_issue_units.md R237, R242). -/
structure EntersFresh (s u : State) : Prop where
  cfg : u.cfg = s.cfg
  mul : s.uMul.occ = none → u.uMul.occ.isSome = true → u.uMul.remaining = s.cfg.mulLat
  mem : s.uMem.occ = none → u.uMem.occ.isSome = true → u.uMem.stage = .one
  br : s.uBr.occ = none → u.uBr.occ.isSome = true → u.uBr.stage = .one

theorem EntersFresh.refl (s : State) : EntersFresh s s where
  cfg := rfl
  mul hfree hocc := by rw [hfree] at hocc; cases hocc
  mem hfree hocc := by rw [hfree] at hocc; cases hocc
  br hfree hocc := by rw [hfree] at hocc; cases hocc

theorem EntersFresh.issueTo {s u : State} (h : EntersFresh s u) (e : IqEntry) : EntersFresh s (u.issueTo e) := by
  unfold State.issueTo
  cases e.op.unit
  case int => exact { h with }
  case mul => exact { h with mul := fun _ _ => congrArg Config.mulLat h.cfg }
  case mem => exact { h with mem := fun _ _ => rfl }
  case br => exact { h with br := fun _ _ => rfl }

theorem issuePhase_entersFresh (s : State) : EntersFresh s (issuePhase s) :=
  issuePhase_keeps (P := EntersFresh s) (fun _ e _ _ _ _ _ h => { h.issueTo e with }) (.refl s)

/-- What eligibility says of readiness and order (52_issue_units.md R233 to R236). -/
theorem mayIssue_iff {s : State} {e : IqEntry} : mayIssue s e = true ↔
    e.a.ready = true ∧ e.b.ready = true ∧ (classOf e.op = .mem → e.rob = s.head ∧ 0 < s.count)
      ∧ (e.op = .bz ∨ e.op = .bnz → olderDone s e.rob [0x08] = true)
      ∧ (e.op = .cmp → olderDone s e.rob [0x08, 0x0D, 0x0E, 0x0F, 0x10] = true) := by
  unfold mayIssue
  rw [Bool.and_eq_true, Bool.and_eq_true, and_assoc]
  cases e.op <;> simp [classOf, isFlow]

/-- The ordering rules, said of each older entry (10_state.md R31; 52_issue_units.md R235, R236). -/
theorem done_of_olderDone {s : State} {r x : Nat} {codes : List OpField} {e : RobEntry} (h : olderDone s r codes = true)
    (hhead : s.head < s.cfg.robSize) (hr : r < s.cfg.robSize) (hx : x < s.cfg.robSize) (hage : s.age x < s.age r)
    (he : s.robAt x = some e) (hop : e.op ∈ codes) : e.done = true := by
  rw [olderDone_eq_allOlder (cond := fun w => !codes.contains w.op || w.done) fun _ => rfl, allOlder_iff hr hhead] at h
  simpa [hop] using h x hx hage e he

/-- The memory class (52_issue_units.md R230). -/
theorem unit_eq_mem_iff {op : Op} : op.unit = .mem ↔ op ∈ [Op.load, .ldr, .store, .str] := by
  cases op <;> decide

end Sys2Proof.Machine

namespace Sys2Proof.Claims

open Sys2Proof.Machine

/-- Settles O25: a scan gives a free unit what the rules pick, at the unit's first stage. -/
theorem issueTakesTheOldestEligible : Obligations.IssueTakesTheOldestEligible := by
  unfold Obligations.IssueTakesTheOldestEligible
  intro s pick t
  have hfresh := issuePhase_entersFresh s
  exact ⟨issuePhase_occOf s .int, issuePhase_occOf s .mul, issuePhase_occOf s .mem, issuePhase_occOf s .br,
    hfresh.mul, hfresh.mem, hfresh.br⟩

/-- Settles O27: the entry it comes from was eligible. -/
theorem memoryIssuesOnlyFromTheHead : Obligations.MemoryIssuesOnlyFromTheHead := by
  unfold Obligations.MemoryIssuesOnlyFromTheHead
  intro s o hfree ho
  obtain ⟨e, he, hmay, hclass, rfl⟩ := issuePhase_took (c := .mem) hfree ho
  obtain ⟨ha, hb, hatHead, -, -⟩ := mayIssue_iff.mp hmay
  obtain ⟨hhead, hcount⟩ := hatHead hclass
  exact ⟨hhead, hcount, unit_eq_mem_iff.mp (classOf_eq_unit e.op ▸ hclass), e, he, rfl, ha, hb⟩

/-- Settles O28: the entry it comes from was eligible, so every older entry of the rule's opcodes is complete. -/
theorem flagInstructionsIssueInOrder : Obligations.FlagInstructionsIssueInOrder := by
  unfold Obligations.FlagInstructionsIssueInOrder
  intro s o r w hring ho hr hage hw
  constructor
  · intro hfree htook hop hcode
    obtain ⟨e, -, hmay, -, rfl⟩ := issuePhase_took (c := .br) hfree htook
    obtain ⟨-, -, -, hcmps, -⟩ := mayIssue_iff.mp hmay
    exact done_of_olderDone (hcmps hop) hring.headBound ho hr hage hw (List.mem_singleton.mpr hcode)
  · intro hfree htook hop hcode
    obtain ⟨e, -, hmay, -, rfl⟩ := issuePhase_took (c := .int) hfree htook
    obtain ⟨-, -, -, -, hflow⟩ := mayIssue_iff.mp hmay
    exact done_of_olderDone (hflow hop) hring.headBound ho hr hage hw hcode

end Sys2Proof.Claims

namespace Sys2Proof.Machine

open Sys2Proof.Claims

/-! ## What a unit's step writes (40_integer.md R111 to R119; 42_memory_ops.md R143 to R146; 43_control_flow.md R160 to
R163)

An opcode that writes no destination does not look at the occupant's destination tag. The one form that each unit's
step has for an occupant without a tag it does not use is therefore its form for every occupant. -/

/-- The occupant with a destination tag only where its opcode writes one. -/
def Occupant.destByOpcode (o : Occupant) : Occupant := { o with pdst := if Op.writesDest o.op then o.pdst else none }

theorem destByOpcode_pdst_of_writes {o : Occupant} (h : Op.writesDest o.op = true) : o.destByOpcode.pdst = o.pdst :=
  if_pos h

theorem destByOpcode_pdst_of_not {o : Occupant} (h : Op.writesDest o.op = false) : o.destByOpcode.pdst = none := by
  simp [Occupant.destByOpcode, h]

theorem executeInt_destByOpcode (o : Occupant) (s : State) : executeInt o s = executeInt o.destByOpcode s := by
  unfold executeInt Occupant.destByOpcode
  cases o.op <;> rfl

theorem executeMem_destByOpcode (o : Occupant) (s : State) : executeMem o s = executeMem o.destByOpcode s := by
  unfold executeMem Occupant.destByOpcode
  cases o.op <;> rfl

theorem brStage1_destByOpcode (o : Occupant) (s : State) : brStage1 o s = brStage1 o.destByOpcode s := by
  unfold brStage1 Occupant.destByOpcode
  cases o.op <;> rfl

/-- A write-back without a tag writes nothing, in the rules' terms (52_issue_units.md R239). -/
theorem nothingWritten_writeBack_none (s : State) (v : Int) : NothingWritten s (s.writeBack none v) := by
  rw [writeBack_none]
  exact ⟨rfl, rfl⟩

/-- A unit's write for an opcode without a destination. -/
theorem nothingWritten_of_not {o : Occupant} (s : State) (v : Int) (h : Op.writesDest o.op = false) :
    NothingWritten s (s.writeBack o.destByOpcode.pdst v) := by
  rw [destByOpcode_pdst_of_not h]
  exact nothingWritten_writeBack_none s v

/-- A unit's write for an opcode with a destination. -/
theorem writtenBack_of_writes {o : Occupant} {s : State} {p : Nat} (v : Int) (h : Op.writesDest o.op = true)
    (hp : o.pdst = some p) (hlt : p < s.prf.length) : WrittenBack s (s.writeBack o.destByOpcode.pdst v) p v := by
  rw [destByOpcode_pdst_of_writes h, hp]
  exact writtenBack_writeBack v hlt

/-- An integer-unit opcode has a result exactly when it writes a destination (40_integer.md R110). -/
theorem intResult_isSome (c : Config) {o : Occupant} (hunit : o.op.unit = .int) :
    (intResult c o).isSome = Op.writesDest o.op := by
  unfold intResult
  cases hop : o.op
  case mul | load | ldr | store | str | jump | jal | bz | bnz => rw [hop] at hunit; cases hunit
  all_goals rfl

/-- The integer unit's step in one form (52_issue_units.md R241). -/
theorem intPhase_eq {s : State} {o : Occupant} (ho : s.uInt.occ = some o) (hunit : o.op.unit = .int) :
    intPhase s = State.complete { s.writeBack o.destByOpcode.pdst ((intResult s.cfg o).getD 0) with
      z := if o.op = .cmp then decide (o.a = o.b) else s.z
      uInt := { occ := none } } o.rob := by
  rw [intPhase_some ho, executeInt_destByOpcode,
    executeInt_eq_intResult (o := o.destByOpcode) hunit (destByOpcode_pdst_of_not (o := o))]
  rfl

theorem writesDest_of_unit_mem {op : Op} (h : op.unit = .mem) : Op.writesDest op = !Op.isStore op := by
  cases op
  case load | ldr | store | str => rfl
  all_goals cases h

/-- Memory stage 2 in one form: the access, if the entry has no exception, then completion (52_issue_units.md R244). -/
theorem memPhase_accesses {s : State} {o : Occupant} (ho : s.uMem.occ = some o) (hs : s.uMem.stage = .two)
    (hunit : o.op.unit = .mem) (hexc : s.noExc o.rob = true) :
    memPhase s = State.complete { s.writeBack o.destByOpcode.pdst (s.dm.read s.uMem.addr.toNat) with
      dm := if Op.isStore o.op then s.dm.write s.uMem.addr.toNat s.uMem.sval else s.dm
      uMem := { s.uMem with occ := none } } o.rob := by
  have hdst : Op.isStore o.destByOpcode.op = true → o.destByOpcode.pdst = none := fun hstore =>
    destByOpcode_pdst_of_not ((writesDest_of_unit_mem hunit).trans (congrArg not hstore))
  rw [memPhase_two ho hs, memStage2, if_pos hexc, executeMem_destByOpcode,
    executeMem_eq (o := o.destByOpcode) hunit hdst]
  rfl

theorem memPhase_of_exc {s : State} {o : Occupant} (ho : s.uMem.occ = some o) (hs : s.uMem.stage = .two)
    (hexc : s.noExc o.rob = false) :
    memPhase s = { s.complete o.rob with uMem := { s.uMem with occ := none } } := by
  rw [memPhase_two ho hs, memStage2, hexc]
  rfl

theorem noExc_of_entry {s : State} {r : Nat} {e : RobEntry} (he : s.robAt r = some e) :
    s.noExc r = decide (e.exc = .none) := by simp [State.noExc, he]

theorem unit_of_isFlow {op : Op} (h : isFlow op = true) : op.unit = .br := by
  rw [← needsCkpt_eq_isFlow] at h
  simpa [Op.needsCkpt] using h

theorem writesDest_of_isFlow {op : Op} (h : isFlow op = true) : Op.writesDest op = decide (op = .jal) := by
  cases op
  case jump | jal | bz | bnz => rfl
  all_goals cases h

/-- The target by the rules' expressions (43_control_flow.md R160 to R163). -/
theorem Occupant.target_eq_sx (c : Config) (o : Occupant) :
    o.target c = if o.op = .bz ∨ o.op = .bnz then sx c (o.pc + o.imm) else sx c (o.a + o.imm) := by
  rw [Occupant.target, sx_eq_wrap, sx_eq_wrap]
  split <;> rfl

/-- Branch stage 1 in one form (52_issue_units.md R245). -/
theorem branchPhase_resolves {s : State} {o : Occupant} (ho : s.uBr.occ = some o) (hs : s.uBr.stage = .one)
    (hunit : o.op.unit = .br) :
    branchPhase s
      = (s.writeBack o.destByOpcode.pdst (s.nextPc o.pc)).resolved (Op.redirects o.op s.z) (o.target s.cfg) := by
  rw [branchPhase_one ho hs, brStage1_destByOpcode,
    brStage1_eq_resolved (o := o.destByOpcode) hunit (destByOpcode_pdst_of_not (o := o))]
  rfl

end Sys2Proof.Machine

namespace Sys2Proof.Claims

open Sys2Proof.Machine

/-- Settles O29: the unit's step is one write-back, for the opcodes with a result, a flag and a completion. -/
theorem integerUnitExecutes : Obligations.IntegerUnitExecutes := by
  unfold Obligations.IntegerUnitExecutes
  intro s o ho hunit
  have hwrites := intResult_isSome s.cfg hunit
  rw [intPhase_eq ho hunit]
  refine ⟨rfl, completed_complete s o.rob, rfl, fun v p hv hp hlt => ?_, fun hnone => ?_⟩
  · rw [hv] at hwrites ⊢
    exact writtenBack_of_writes v hwrites.symm hp hlt
  · rw [hnone] at hwrites ⊢
    exact nothingWritten_of_not s 0 hwrites.symm

/-- Settles O32: with an exception stage 2 only completes and frees the unit; without one a load's access is a
write-back and a store's a written cell. -/
theorem memoryStageTwo : Obligations.MemoryStageTwo := by
  unfold Obligations.MemoryStageTwo
  intro s o e hmem ho hs he hop hin
  have hunit := unit_eq_mem_iff.mpr hop
  have hwrites := writesDest_of_unit_mem hunit
  by_cases hexc : e.exc = .none
  · rw [memPhase_accesses ho hs hunit (by simp [noExc_of_entry he, hexc])]
    refine ⟨rfl, rfl, completed_complete s o.rob, fun h => absurd hexc h, fun _ hload => ?_, fun _ hstore => ?_⟩
    · have hread : Op.isStore o.op = false := by rcases hload with h | h <;> rw [h] <;> rfl
      rw [hread] at hwrites ⊢
      exact ⟨rfl, fun p hp hlt => writtenBack_of_writes _ hwrites hp hlt⟩
    · have hwrite : Op.isStore o.op = true := (Op.isStore_eq o.op).trans (decide_eq_true hstore)
      rw [hwrite] at hwrites ⊢
      exact ⟨nothingWritten_of_not s _ hwrites, Memory.read_write_same hmem _ _,
        fun x hx => Memory.read_write_other _ _ hx⟩
  · rw [memPhase_of_exc ho hs (by simp [noExc_of_entry he, hexc])]
    exact ⟨rfl, rfl, completed_complete s o.rob, fun _ => ⟨⟨rfl, rfl⟩, rfl⟩, fun h => absurd h hexc,
      fun h => absurd h hexc⟩

/-- Settles O33: stage 1 is one write-back, for a JAL, and the unit's decision and target. -/
theorem branchStageOne : Obligations.BranchStageOne := by
  unfold Obligations.BranchStageOne
  intro s o ho hs hflow
  have hwrites := writesDest_of_isFlow hflow
  rw [branchPhase_resolves ho hs (unit_of_isFlow hflow)]
  refine ⟨rfl, ho, rfl, rfl, Occupant.target_eq_sx s.cfg o, fun hnot => ?_, fun p hjal hp hlt => ?_⟩
  · exact nothingWritten_of_not s _ (hwrites.trans (decide_eq_false hnot))
  · rw [sx_eq_wrap]
    exact writtenBack_of_writes (s.nextPc o.pc) (hwrites.trans (decide_eq_true hjal)) hp hlt

end Sys2Proof.Claims

namespace Sys2Proof.Machine

/-! ## Which parameters run (70_reset_and_hazards.md R323; assumption logs 1 and 14) -/

/-- The parameters that run, by the spec's constraints and the values its rules are written for. -/
theorem Config.ok_iff {c : Config} : c.ok = true ↔
    (1 ≤ c.numArch ∧ c.numArch ≤ 16 ∧ c.numArch + 1 ≤ c.numPhys ∧ 1 ≤ c.robSize ∧ 1 ≤ c.iqSize ∧ 1 ≤ c.numCkpt
        ∧ 1 ≤ c.memWords ∧ 1 ≤ c.mulLat)
      ∧ 1 ≤ c.insnStride ∧ 32 ≤ c.xlen ∧ c.fits c.pcBase ∧ c.intLat = 1 ∧ c.memStages = 2 ∧ c.brStages = 2
      ∧ c.fetchWidth = 1 ∧ c.dispatchWidth = 1 ∧ c.commitWidth = 1 := by
  simp only [Config.ok, Config.sizesOk, Config.rulesApply, Bool.and_eq_true, decide_eq_true_eq, and_assoc]

/-- Whatever stands in the latch, other parameters are refused (93_implementation_defined.md X13). -/
theorem step_refuses {s : State} (h : s.cfg.ok ≠ true) : step s = .refused .configuration := by
  obtain ⟨d, hd, -⟩ := step_cases s
  rw [hd, clocked, if_neg h]

/-! ## Commit (53_recovery_commit.md R270 to R274) -/

theorem releasedTag_of_no_dest {s : State} {e : RobEntry} (h : e.pdst = none) : s.releasedTag e = none := by
  simp [State.releasedTag, h]

/-- Under `prev` the commit releases the register that the destination was mapped to (53_recovery_commit.md R272). -/
theorem releasedTag_prev {s : State} {e : RobEntry} {d : Nat} (h : e.pdst = some d) (hpol : s.cfg.freePolicy = .prev) :
    s.releasedTag e = e.pprev := by
  simp [State.releasedTag, h, hpol]

/-- Under `dest_if_remapped` it releases the instruction's own register once that is mapped no more
(53_recovery_commit.md R272). -/
theorem releasedTag_destIfRemapped {s : State} {e : RobEntry} {d : Nat} {a : Reg} (h : e.pdst = some d)
    (ha : e.adst = some a) (hpol : s.cfg.freePolicy = .destIfRemapped) :
    s.releasedTag e = if s.mapping a = d then none else some d := by
  simp [State.releasedTag, h, ha, hpol, ite_not]

/-- Retiring marks the released register free, and no other record changes (53_recovery_commit.md R272). -/
theorem retire_preg (s : State) (e : RobEntry) (p : Nat) : (s.retire e).preg p
    = if s.releasedTag e = some p ∧ p < s.prf.length then PhysReg.freed (s.preg p) else s.preg p :=
  preg_of_updatePrf rfl p

/-- A commit that names no register to release leaves the file as it is (53_recovery_commit.md R272). -/
theorem retire_prf_of_none {s : State} {e : RobEntry} (h : s.releasedTag e = none) : (s.retire e).prf = s.prf := by
  rw [State.retire, h, updatePrf_none]

/-- A commit that names one frees that one alone (53_recovery_commit.md R272). -/
theorem retire_preg_of_some {s : State} {e : RobEntry} {q : Nat} (h : s.releasedTag e = some q)
    (hq : q < s.prf.length) : (s.retire e).preg q = { s.preg q with free := true }
      ∧ ∀ p, p ≠ q → (s.retire e).preg p = s.preg p := by
  refine ⟨by rw [retire_preg, if_pos ⟨h, hq⟩, PhysReg.freed], fun p hp => ?_⟩
  rw [retire_preg, if_neg fun hboth => hp (Option.some.inj (hboth.1.symm.trans h))]

/-! ## Branch stage 2 (53_recovery_commit.md R260 to R269; 52_issue_units.md R246) -/

theorem branchPhase_falls {s : State} {o : Occupant} (ho : s.uBr.occ = some o) (hs : s.uBr.stage = .two)
    (hnot : s.uBr.taken = false) : branchPhase s = (s.brDone o).releaseOwned o.rob :=
  (branchPhase_two ho hs).trans (brStage2_not_taken hnot)

/-- A branch that owns one slot releases that slot (53_recovery_commit.md R269). -/
theorem releaseOwned_of_owns {s : State} {b k : Nat} {c : Ckpt} (hc : s.ck[k]? = some c) (hbusy : c.busy = true)
    (hown : c.owner = b) (hone : ∀ j d, s.ck[j]? = some d → d.busy = true → d.owner = b → j = k) :
    s.releaseOwned b = { s with ck := s.ck.set k { c with busy := false } } := by
  have hslot : s.ownedSlot b = some k := ownedSlot_eq_some.mpr
    ⟨⟨c, hc, hbusy, hown⟩, fun j hj d hd hboth => absurd (hone j d hd hboth.1 hboth.2) (Nat.ne_of_lt hj)⟩
  simp [State.releaseOwned, hslot, List.modify_eq_set_getElem?, hc]

end Sys2Proof.Machine

namespace Sys2Proof.Claims

open Sys2Proof.Machine

/-- Settles O12: each condition contradicts one of those that the parameters must meet. -/
theorem badConfigurationRefused : Obligations.BadConfigurationRefused := by
  unfold Obligations.BadConfigurationRefused
  intro s hbad
  refine step_refuses fun hok => ?_
  obtain ⟨hsizes, hstride, hxlen, hfits, hunits⟩ := Config.ok_iff.mp hok
  rw [iff_false_intro (not_not.mpr hfits), false_or] at hbad
  omega

/-- Settles O16: there is no complete head entry. -/
theorem commitWaitsForTheHead : Obligations.CommitWaitsForTheHead := by
  unfold Obligations.CommitWaitsForTheHead
  intro s hwait
  refine commitPhase_waits fun e he => ?_
  obtain ⟨hcount, hhead⟩ := headEntry_eq_some.mp he
  rcases hwait with hempty | ⟨e', he', hopen⟩
  · exact absurd hempty hcount
  · cases hhead.symm.trans he'
    exact hopen

/-- Settles O15: the released register is none, `pprev` or `pdst`, by the policy. -/
theorem commitRetiresTheHead : Obligations.CommitRetiresTheHead := by
  unfold Obligations.CommitRetiresTheHead
  intro s e hcount hhead hdone hexc
  have hretire : commitPhase s = s.retire e :=
    commitPhase_retires (headEntry_eq_some.mpr ⟨hcount.ne', hhead⟩) hdone hexc
  rw [hretire]
  refine ⟨rfl, updatePrf_length .., fun hnone => retire_prf_of_none (releasedTag_of_no_dest hnone),
    fun d q hd hpol hq hlt => retire_preg_of_some ((releasedTag_prev hd hpol).trans hq) hlt,
    fun d a hd hpol ha hlt => ?_⟩
  have htag := releasedTag_destIfRemapped hd ha hpol
  exact ⟨fun hmapped => retire_prf_of_none (htag.trans (if_pos hmapped)),
    fun hremapped => retire_preg_of_some (htag.trans (if_neg hremapped)) hlt⟩

/-- Settles O34: the slot released is the one that the branch owns. -/
theorem notTakenReleasesItsCheckpoint : Obligations.NotTakenReleasesItsCheckpoint := by
  unfold Obligations.NotTakenReleasesItsCheckpoint
  intro s o k c ho hs hnot hc hbusy hown hone
  rw [branchPhase_falls ho hs hnot, releaseOwned_of_owns (s := s.brDone o) hc hbusy hown hone]
  exact ⟨rfl, completed_complete s o.rob⟩

end Sys2Proof.Claims

namespace Sys2Proof.Machine

open Sys2Proof.Claims

/-! ## Recovery from a taken branch, with anything in flight (53_recovery_commit.md R260 to R267) -/

/-- A taken branch that owns a slot completes, leaves its unit and recovers from a slot that it owns
(53_recovery_commit.md R260; 52_issue_units.md R246). -/
theorem branchPhase_recovers {s : State} {o : Occupant} (ho : s.uBr.occ = some o) (hs : s.uBr.stage = .two)
    (htaken : s.uBr.taken = true) (howns : ∃ c ∈ s.ck, c.busy = true ∧ c.owner = o.rob) :
    ∃ c ∈ s.ck, c.busy = true ∧ c.owner = o.rob
      ∧ branchPhase s = (s.brDone o).recoverFrom o.rob s.uBr.target c := by
  rw [branchPhase_two ho hs]
  exact brStage2_taken htaken (ownedSlot_isSome.mpr howns)

/-- An occupied index is one that holds an entry (10_state.md R30). -/
theorem State.RingInv.age_lt_count {s : State} (h : s.RingInv) {r : Nat} (hr : r < s.cfg.robSize) {e : RobEntry}
    (he : s.robAt r = some e) : s.age r < s.count :=
  (h.occupiedIff r hr).mp (by simp [he])

/-- The set D by indices: what is younger than b holds an entry at an index of the ring (53_recovery_commit.md R263). -/
theorem mem_youngerEntries_iff_index {s : State} (h : s.RingInv) {b : Nat} {e : RobEntry} :
    e ∈ s.youngerEntries b ↔ ∃ r < s.cfg.robSize, s.age b < s.age r ∧ s.robAt r = some e := by
  rw [mem_youngerEntries]
  constructor
  · rintro ⟨k, hyoung, hk, he⟩
    have hage := age_robIndex (Nat.lt_of_lt_of_le hk h.countBound) h.headBound
    exact ⟨s.robIndex k, robIndex_lt k h.headBound, hage.symm ▸ hyoung, he⟩
  · rintro ⟨r, hr, hyoung, he⟩
    exact ⟨s.age r, hyoung, h.age_lt_count hr he, by rwa [robIndex_age hr h.headBound]⟩

/-- Completing the branch changes no destination of D. -/
theorem brDone_youngerDests (s : State) (o : Occupant) (b : Nat) :
    ((s.brDone o).youngerEntries b).filterMap (·.pdst) = (s.youngerEntries b).filterMap (·.pdst) := by
  have hdest := youngerEntries_dest_congr (s := s) (t := s.brDone o) rfl rfl rfl (complete_dest s o.rob) b
  simpa [List.filterMap_map, Function.comp_def, RobEntry.dest] using
    congrArg (List.filterMap fun d : Option Nat × Option Reg × Option Nat => d.1) hdest

/-- p is the destination of an instruction younger than b (53_recovery_commit.md R265). -/
def State.YoungerDest (s : State) (b p : Nat) : Prop :=
  ∃ r e, r < s.cfg.robSize ∧ s.age b < s.age r ∧ s.robAt r = some e ∧ e.pdst = some p

/-- The destinations of D, as the recovery collects them (53_recovery_commit.md R265). -/
theorem mem_youngerDests_iff {s : State} (h : s.RingInv) {b p : Nat} :
    p ∈ (s.youngerEntries b).filterMap (·.pdst) ↔ s.YoungerDest b p := by
  rw [List.mem_filterMap]
  simp only [mem_youngerEntries_iff_index h]
  constructor
  · rintro ⟨e, ⟨r, hr, hyoung, he⟩, hp⟩
    exact ⟨r, e, hr, hyoung, he, hp⟩
  · rintro ⟨r, e, hr, hyoung, he, hp⟩
    exact ⟨e, ⟨r, hr, hyoung, he⟩, hp⟩

/-- A register after the recovery under `selective` (53_recovery_commit.md R265). -/
theorem recovery_preg {s : State} (h : s.RingInv) (hpol : s.cfg.restorePolicy = .selective) (o : Occupant)
    (target : Int) (c : Ckpt) {p : Nat} (hp : p < s.prf.length) :
    (s.YoungerDest o.rob p →
        ((s.brDone o).recoverFrom o.rob target c).preg p = ⟨(s.preg p).value, false, true⟩)
      ∧ (¬ s.YoungerDest o.rob p → ((s.brDone o).recoverFrom o.rob target c).preg p = s.preg p) := by
  rw [recoverFrom_preg (s := s.brDone o) hpol o.rob target c hp, brDone_youngerDests, ← mem_youngerDests_iff h]
  exact ⟨fun hmem => if_pos hmem, fun hnot => if_neg hnot⟩

theorem restoredPrf_verbatim {s : State} (hpol : s.cfg.restorePolicy = .verbatim) (b : Nat) (c : Ckpt) :
    s.restoredPrf b c = c.prfSnap := by
  rw [State.restoredPrf, hpol]

theorem restoredPrf_length_selective {s : State} (hpol : s.cfg.restorePolicy = .selective) (b : Nat) (c : Ckpt) :
    (s.restoredPrf b c).length = s.prf.length := by
  rw [State.restoredPrf, hpol]
  exact releaseAll_length ..

theorem flushedIq_eq (s : State) (b : Nat) : s.flushedIq b = s.iq.filter fun e => decide (s.age e.rob ≤ s.age b) :=
  List.filter_congr fun e _ => by rw [Bool.eq_iff_iff, not_youngerThan_iff, decide_eq_true_eq]

/-- A unit keeps its occupant exactly when that is not younger (53_recovery_commit.md R262). -/
theorem flushedOcc_eq_some {s : State} {b : Nat} {occ : Option Occupant} {x : Occupant} :
    s.flushedOcc b occ = some x ↔ occ = some x ∧ s.age x.rob ≤ s.age b := by
  rw [State.flushedOcc, Option.filter_eq_some_iff, not_youngerThan_iff]

/-- The release of slots in the rule's terms (53_recovery_commit.md R266). -/
theorem releasedCk_eq (s : State) (b : Nat) : s.releasedCk b
    = s.ck.map fun d => if d.busy = true ∧ s.age b ≤ s.age d.owner then { d with busy := false } else d := by
  simp only [State.releasedCk, Bool.and_eq_true, decide_eq_true_eq]

/-- A slot that is not b's own or of anything younger stays as it is (53_recovery_commit.md R266). -/
theorem releasedCk_kept {s : State} {b k : Nat} {c : Ckpt} (hc : s.ck[k]? = some c)
    (h : c.busy = true → s.age c.owner < s.age b) : (s.releasedCk b)[k]? = some c := by
  rw [releasedCk_eq, List.getElem?_map, hc, Option.map_some,
    if_neg fun hboth => Nat.not_le.mpr (h hboth.1) hboth.2]

/-- The slot of b or of anything younger is not busy afterwards (53_recovery_commit.md R266). -/
theorem releasedCk_released {s : State} {b k : Nat} {c : Ckpt} (hc : s.ck[k]? = some c) (h : s.age b ≤ s.age c.owner) :
    (s.releasedCk b)[k]? = some { c with busy := false } := by
  rw [releasedCk_eq, List.getElem?_map, hc, Option.map_some]
  split
  · rfl
  · next hnot =>
    have hidle : c.busy = false := by simpa [h] using hnot
    rw [← hidle]

/-- Nothing younger than the branch stays in the buffer (53_recovery_commit.md R263). -/
theorem recovery_robAt_younger {s : State} (hr : s.RingInv) {o : Occupant} (target : Int) (c : Ckpt) {r : Nat}
    (hlt : r < s.cfg.robSize) (hage : s.age o.rob < s.age r) :
    ((s.brDone o).recoverFrom o.rob target c).robAt r = none := by
  rw [recoverFrom_robAt]
  split
  · rfl
  · next hkept =>
    have hout : ¬ s.age r < s.count := fun hin => hkept ⟨hage, hin⟩
    have hempty := mt ((brDone_ring hr o).occupiedIff r hlt).mp hout
    simpa using hempty

end Sys2Proof.Machine

namespace Sys2Proof.Claims

open Sys2Proof.Machine

/-- Settles O35: the branch owns one slot, so the recovery is from that one. -/
theorem takenBranchRecovers : Obligations.TakenBranchRecovers := by
  unfold Obligations.TakenBranchRecovers
  intro s o c hring ho hs htaken _ hc hbusy hown hone t discarded
  obtain ⟨d, hd, hdbusy, hdown, ht⟩ := branchPhase_recovers ho hs htaken ⟨c, hc, hbusy, hown⟩
  obtain rfl : d = c := hone d hd hdbusy hdown
  have ht : t = (s.brDone o).recoverFrom o.rob s.uBr.target d := ht
  rw [ht]
  exact ⟨rfl, fun hpol => restoredPrf_verbatim (s := s.brDone o) hpol o.rob d,
    fun hpol => ⟨restoredPrf_length_selective (s := s.brDone o) hpol o.rob d,
      fun p hp => recovery_preg hring hpol o s.uBr.target d hp⟩,
    releasedCk_eq (s.brDone o) o.rob⟩

/-- Settles O36: every part of the recovery keeps by age. -/
theorem recoveryFlushesExactlyTheYounger : Obligations.RecoveryFlushesExactlyTheYounger := by
  unfold Obligations.RecoveryFlushesExactlyTheYounger
  intro s o hring ho hs htaken hocc howns t older
  obtain ⟨c, -, -, -, ht⟩ := branchPhase_recovers ho hs htaken howns
  have ht : t = (s.brDone o).recoverFrom o.rob s.uBr.target c := ht
  obtain ⟨hlt, hage⟩ := occupied_iff.mp hocc
  obtain ⟨e, he⟩ := Option.isSome_iff_exists.mp ((hring.occupiedIff o.rob hlt).mpr hage)
  rw [ht]
  refine ⟨flushedIq_eq (s.brDone o) o.rob, fun x => flushedOcc_eq_some, fun x => flushedOcc_eq_some,
    fun x => flushedOcc_eq_some, fun r _ hold hne => ?_, fun r hr hyoung => ?_, ⟨e, he, ?_⟩, ?_, ?_, ?_⟩
  · rw [recovery_robAt _ _ hold, complete_robAt, if_neg hne]
  · exact recovery_robAt_younger hring _ _ hr (Nat.not_le.mp hyoung)
  · rw [recovery_robAt _ _ (Nat.le_refl _), complete_robAt, if_pos rfl, he, Option.map_some]
  · exact List.length_map _
  · exact fun k d hd hkept => releasedCk_kept (s := s.brDone o) hd hkept
  · exact fun k d hd hreleased => releasedCk_released (s := s.brDone o) hd hreleased

end Sys2Proof.Claims

namespace Sys2Proof.Machine

open Sys2Proof.Claims

/-! ## Exceptions of an instruction alone in the machine (60_exceptions.md R290 to R295)

An instruction that never writes its destination leaves the register file as its rename left it: `State.Living` and
that one field say which registers have kept their values and that the destination has none. -/

/-- Without a budget and before the run's end the clock runs (50_cycle_and_fetch.md R193). -/
theorem clock_of_freeRun {s : State} (hmode : s.mode = .untilDone none) (hhalted : s.halted = false)
    (hfault : s.fault = none) (hquit : s.quit = false) : s.clock = .tick s.replies := by
  have hrun : s.runEnd = none :=
    runEnd_eq_none_iff.mpr ⟨hhalted, hfault, hquit, by simp [State.budgetOut, RunMode.budget, hmode]⟩
  simp [State.clock, hrun, hmode]

section Faulting

variable {s u : State} {op : Op} {x : Operands} {k : Nat}

/-- The exception of the complete instruction is taken at its commit (53_recovery_commit.md R271). -/
theorem State.Living.faults (l : s.Living op x k u) (h : s.Drained) {e : RobEntry} (he : u.robAt s.head = some e)
    (hdone : e.done = true) (hexc : e.exc ≠ .none) :
    step u = .next { u with cycle := u.cycle + 1, fault := some ⟨e.exc, e.pc⟩ } := by
  have hclock : u.clock = .tick u.replies := clock_of_freeRun (l.mode ▸ h.freeRun) (l.halted ▸ h.notHalted)
    (l.fault ▸ h.notFaulted) (l.quit ▸ h.notQuit)
  exact faultTakenAtCommit u u.replies e (l.cfg ▸ h.cfgOk) hclock (l.count ▸ Nat.one_pos) (l.head ▸ he) hdone hexc

/-- A register while the destination is not written (51_rename_dispatch.md R205). -/
theorem preg_of_renamedPrf (hprf : u.prf = s.renamedPrf x) (p : Nat) :
    u.preg p = if s.newTag x = some p then PhysReg.allocated (s.preg p) else s.preg p := by
  rw [← dispatched_preg s .nop x p, State.preg, hprf]
  rfl

/-- Every architectural register but the destination has its value (51_rename_dispatch.md R206). -/
theorem State.Living.unwritten_others (l : s.Living op x k u) (h : s.Drained) (hprf : u.prf = s.renamedPrf x) {a : Reg}
    (ha : a.val < s.cfg.numArch) (hother : x.d ≠ some a) : u.xValue a = s.xValue a ∧ u.xValid a = s.xValid a := by
  have hreg : u.preg (u.mapping a) = s.preg (s.mapping a) := by
    rw [mapping_of_renamedRat l.rat hother, preg_of_renamedPrf hprf, if_neg (h.newTag_ne_mapping ha)]
  exact ⟨congrArg PhysReg.value hreg, congrArg PhysReg.valid hreg⟩

/-- The destination is not valid before its write (51_rename_dispatch.md R205). -/
theorem State.Living.unwritten_dest (l : s.Living op x k u) (h : s.Drained) (hprf : u.prf = s.renamedPrf x)
    (hsome : s.SomeFree) {rd : Reg} (hd : x.d = some rd) (hlt : rd.val < s.cfg.numArch) : u.xValid rd = false := by
  obtain ⟨p, hp, -⟩ := newTag_of_dest (h.no_stall (op := op) fun _ => hsome) hd
  rw [State.xValid, mapping_of_renamedRat_dest l.rat hd (h.ratLength ▸ hlt) hp, preg_of_renamedPrf hprf, if_pos hp]
  rfl

/-! ### MEM_RANGE (60_exceptions.md R293) -/

theorem addrInRange_eq_false {a : Int} (hout : ¬ InRange s a) : addrInRange s.cfg.memWords a = false :=
  Bool.eq_false_iff.mpr (mt addrInRange_iff_inRange.mp hout)

/-- Out of range stage 2 only completes the entry (52_issue_units.md R244). -/
theorem State.TakesMemoryOp.accessed_of_out (m : s.TakesMemoryOp op x) (hout : ¬ InRange s (s.accessAddr op x)) :
    s.accessed op x = State.complete
      { beginTick (s.addressed op x) with uMem := { (s.addressed op x).uMem with occ := none } } s.tail := by
  have huMem : (beginTick (s.addressed op x)).uMem = _ := m.addressed_uMem
  have hentry : (beginTick (s.addressed op x)).robAt s.tail = _ := m.drained.tailIs ▸ m.addressed_entry
  have hraised : (beginTick (s.addressed op x)).noExc s.tail = false := by
    rw [noExc_of_entry hentry, addrInRange_eq_false hout]
    rfl
  exact memPhase_of_exc (o := (s.newIqEntry op x).occupant) (by rw [huMem]) (by rw [huMem]) hraised

/-- Out of range the complete entry has the exception (60_exceptions.md R293). -/
theorem State.TakesMemoryOp.accessed_entry_of_out (m : s.TakesMemoryOp op x) (hout : ¬ InRange s (s.accessAddr op x)) :
    (s.accessed op x).robAt s.head
      = some { (s.newRobEntry op x).addressed (s.accessAddr op x) true with done := true } := by
  have hentry : (s.addressed op x).robAt s.head = _ := m.addressed_entry
  rw [addrInRange_eq_false hout] at hentry
  rw [m.accessed_of_out hout, complete_robAt, if_pos m.drained.tailIs.symm, m.drained.tailIs]
  exact congrArg (Option.map _) hentry

theorem addressing_dm (s : State) (o : Occupant) (raised : Bool) (stage : Stage) (sval : Int) :
    (s.addressing o raised stage sval).dm = s.dm := rfl

/-- Out of range neither a register nor a cell is written (60_exceptions.md R293). -/
theorem State.TakesMemoryOp.accessed_unwritten (m : s.TakesMemoryOp op x) (hout : ¬ InRange s (s.accessAddr op x)) :
    (s.accessed op x).prf = s.renamedPrf x ∧ (s.accessed op x).dm = s.dm := by
  have hprf : (s.addressed op x).prf = s.renamedPrf x := by rw [m.addressed_eq, m.issued_eq]; rfl
  have hdm : (s.addressed op x).dm = s.dm := by
    rw [m.addressed_eq, addressing_dm, beginTick_dm, State.issued, issueTo_dm]
    rfl
  rw [m.accessed_of_out hout]
  exact ⟨hprf, hdm⟩

/-- A whole life in the memory unit out of range: dispatch, issue, two stages, and the fault at commit (60_exceptions.md
R293, R294). -/
theorem State.TakesMemoryOp.faultsOn {i : Instr} (m : s.TakesMemoryOp i.op (operandRow i))
    (hfree : (operandRow i).d.isSome = true → s.SomeFree)
    (hout : ¬ InRange s (s.accessAddr i.op (operandRow i))) : FaultsOn s i := by
  obtain ⟨hrun, hliving⟩ := m.accesses
  obtain ⟨hprf, hdm⟩ := m.accessed_unwritten hout
  have hfault := hliving.faults m.drained (m.accessed_entry_of_out hout) rfl nofun
  refine ⟨s.taken i.op (operandRow i), _, (exec_eq_execWith i s).trans (m.drained.dispatches hfree),
    (ticks_add 3 1 hrun).trans (ticks_succ hfault), rfl, hliving.halted.trans m.drained.notHalted, hliving.committed,
    congrArg (· + 1) hliving.cycle, m.accessed_z, hdm, fun a ha hother => ?_, fun rd hd => ?_⟩
  · exact hliving.unwritten_others m.drained hprf ha hother
  · exact hliving.unwritten_dest m.drained hprf (hfree (by simp [hd])) hd (m.legal.d rd hd)

/-! ### ILLEGAL (60_exceptions.md R291) -/

/-- The drained machine one tick on: the illegal bundle has a complete entry with its exception (51_rename_dispatch.md
R212). -/
def State.takenIllegal (s : State) : State :=
  { (beginTick s).withEntry s.illegalEntry with fl := { s.fl with valid := false } }

/-- A drained machine has room for an illegal bundle (51_rename_dispatch.md R212). -/
theorem State.Drained.dispatchIllegal_eq (h : s.Drained) : dispatchIllegal (beginTick s) = s.takenIllegal := by
  obtain ⟨hrob, -⟩ := Config.ok_capacities h.cfgOk
  have hroom : (beginTick s).count ≠ (beginTick s).cfg.robSize := by
    rw [beginTick_count, beginTick_cfg, h.robEmpty]
    omega
  exact (illegalBundleTakesOnlyARobEntry (beginTick s) h.latched).2 hroom

/-- The dispatch tick of an illegal bundle (51_rename_dispatch.md R212). -/
theorem State.Drained.dispatches_illegal (h : s.Drained) {err : DecodeError}
    (hbad : decode s.cfg.numArch s.fl.bundle = .error err) : step s = .next s.takenIllegal := by
  have hcommit : afterCommit s = beginTick s :=
    commitPhase_waits fun e he => absurd (headEntry_eq_some.mp he).1 (by simp [h.robEmpty])
  have hend : (beginTick s).ended = false := by simp [State.ended, h.notHalted, h.notFaulted]
  have hidle : s.takenIllegal.FetchIdle := h.fetchIdle.of_frame rfl rfl rfl rfl
  rw [(stepWithoutLegalInstruction s).2 err h.latched hbad,
    clocked_of_freeRun _ h.cfgOk h.freeRun h.notHalted h.notFaulted h.notQuit,
    tickWith_of_idle _ hcommit hend h.unitsFree h.iqEmpty, h.dispatchIllegal_eq,
    fetchPhase_idle (s := s.takenIllegal) h.notSuppressed hidle]

/-- The illegal bundle is in flight as an instruction without operands is: it renames nothing. -/
theorem State.Drained.takenIllegal_living (h : s.Drained) : s.Living op Operands.n 1 s.takenIllegal :=
  { h.living (op := op) (x := Operands.n) with }

theorem State.Drained.takenIllegal_entry (h : s.Drained) : s.takenIllegal.robAt s.head = some s.illegalEntry := by
  show (s.rob.set s.tail (some s.illegalEntry)).getD s.head none = _
  rw [h.tailIs, robAt_set _ _ _ _ (h.robLength ▸ h.headBound), if_pos rfl]

end Faulting

/-! ## A link that `verbatim` takes back (53_recovery_commit.md R265; 93_implementation_defined.md X12) -/

/-- Freeing a register does not touch what it holds (53_recovery_commit.md R272). -/
theorem retire_xValid (s : State) (e : RobEntry) (a : Reg) : (s.retire e).xValid a = s.xValid a := by
  show ((s.retire e).preg (s.mapping a)).valid = _
  rw [retire_preg]
  split <;> rfl

section Unlinking

variable {s u : State} {op : Op} {x : Operands} {k : Nat}

/-- A complete instruction that has sent fetch elsewhere commits in the next tick, whatever its destination holds, and
fetch reads the target in it (53_recovery_commit.md R272; 43_control_flow.md R165). -/
theorem State.Living.retires_redirected (l : s.Living op x k u) (h : s.Drained) {e : RobEntry}
    (he : u.robAt s.head = some e) (hop : e.op ≠ Op.halt.code) (hdone : e.done = true) (hexc : e.exc = .none)
    (hunits : u.occupants = []) (hiq : u.iq = []) (target : Int) :
    step (u.redirected target) = .next (fetchPhase (((beginTick u).retire e).redirected target)) := by
  have hempty : (u.redirected target).fl.valid = false := congrArg Latch.valid l.fl
  have hcommit : afterCommit (u.redirected target) = ((beginTick u).retire e).redirected target :=
    commitPhase_retires (s := beginTick (u.redirected target)) (l.headEntry.trans he) hdone hexc
  have hend : (((beginTick u).retire e).redirected target).ended = false := by
    show (u.halted || e.op == Op.halt.code || u.fault.isSome) = false
    simp [l.halted, h.notHalted, l.fault, h.notFaulted, hop]
  rw [(stepWithoutLegalInstruction (u.redirected target)).1 hempty,
    clocked_of_freeRun (s := u.redirected target) _ (l.cfg ▸ h.cfgOk) (l.mode ▸ h.freeRun) (l.halted ▸ h.notHalted)
      (l.fault ▸ h.notFaulted) (l.quit ▸ h.notQuit),
    tickWith_of_idle id hcommit hend hunits hiq, id]

/-- A jump under `verbatim`: the register file of its slot has no link (53_recovery_commit.md R265). -/
theorem State.TakesBranchOp.settles_unlinked (m : s.TakesBranchOp op x) (htaken : Op.redirects op s.z = true)
    (hpol : s.cfg.restorePolicy = .verbatim) :
    ∃ ck, ticks 3 (s.taken op x)
      = .next ((s.settled op x (s.renamedPrf x) ck).redirected (s.flowTarget op x)) := by
  obtain ⟨ck, -, hstep⟩ := m.settles_taken htaken
  have hprf : s.recoveredPrf x = s.renamedPrf x := if_neg (by simp [hpol])
  exact ⟨ck, by rw [ticks_add 2 1 m.decides, ticks_succ hstep, ticks_zero, hprf]⟩

/-- The settled instruction's entry, whatever recovery has left in the register file. -/
theorem State.Drained.settled_entry (h : s.Drained) {prf : List PhysReg} {ck : List Ckpt} :
    (s.settled op x prf ck).robAt s.head = some { s.newRobEntry op x with done := true } := by
  have hentry := h.taken_entry (op := op) (x := x)
  rw [State.settled, complete_robAt, h.tailIs, if_pos rfl]
  exact congrArg (Option.map _) hentry

/-- Under `verbatim` a jump with a destination commits and redirects, and its destination is not valid
(93_implementation_defined.md X12). -/
theorem State.TakesBranchOp.losesLink (m : s.TakesBranchOp op x) (htaken : Op.redirects op s.z = true)
    (hpol : s.cfg.restorePolicy = .verbatim) {rd : Reg} (hd : x.d = some rd) :
    ∃ t, ticks 4 (s.taken op x) = .next t ∧ t.xValid rd = false ∧ t.committed = s.committed + 1
      ∧ FetchedFrom s t (s.flowTarget op x) := by
  obtain ⟨ck, hrun⟩ := m.settles_unlinked htaken hpol
  have hliving : s.Living op x 4 (s.settled op x (s.renamedPrf x) ck) := m.drained.settled_living
  have hunits : (s.settled op x (s.renamedPrf x) ck).occupants = [] :=
    occupants_eq_nil.mpr ⟨m.drained.intFree, m.drained.mulFree, m.drained.memFree, rfl⟩
  have hhalt : op.code ≠ Op.halt.code := fun hcode => m.ne_halt (Op.code_injective hcode)
  have hstep := hliving.retires_redirected m.drained m.drained.settled_entry hhalt rfl rfl hunits rfl
    (s.flowTarget op x)
  refine ⟨_, (ticks_add 3 1 hrun).trans (ticks_succ hstep), ?_, ?_,
    fetchedFrom_redirected hliving.cfg hliving.program (congrArg Latch.valid hliving.fl)⟩
  · have hunwritten := hliving.unwritten_dest m.drained rfl (m.free (by simp [hd])) hd (m.legal.d rd hd)
    rw [fetchPhase_eq]
    exact (retire_xValid (beginTick (s.settled op x (s.renamedPrf x) ck)) _ rd).trans hunwritten
  · rw [fetchPhase_committed]
    rfl

end Unlinking

end Sys2Proof.Machine

namespace Sys2Proof.Claims

open Sys2Proof.Machine

/-- Settles O43: the address is that of the operands, which hold the registers' values. -/
theorem outOfRangeAccessFaults : Obligations.OutOfRangeAccessFaults := by
  unfold Obligations.OutOfRangeAccessFaults
  intro s rd rs1 rs2 rs3 imm h hd h1 h2 h3
  have mload : s.TakesMemoryOp .load (.rri rd rs1 imm) := ⟨h, Operands.legal_rri hd h1 rfl, rfl, nofun⟩
  have mldr : s.TakesMemoryOp .ldr (.rrr rd rs1 rs2) := ⟨h, Operands.legal_rrr hd h1 h2 rfl, rfl, nofun⟩
  have mstore : s.TakesMemoryOp .store (.sri rs1 rs2 imm) :=
    ⟨h, Operands.legal_sri h2 rfl, rfl, fun _ => ⟨rs1, rfl, h1⟩⟩
  have mstr : s.TakesMemoryOp .str (.srr rs1 rs2 rs3) :=
    ⟨h, Operands.legal_srr h2 h3 rfl, rfl, fun _ => ⟨rs1, rfl, h1⟩⟩
  have hload := h.accessAddr_eq (op := .load) (x := .rri rd rs1 imm) rfl h1 rfl
  have hldr := h.accessAddr_eq (op := .ldr) (x := .rrr rd rs1 rs2) rfl h1 (congrArg Operand.value (h.resolve h2))
  have hstore := h.accessAddr_eq (op := .store) (x := .sri rs1 rs2 imm) rfl h2 rfl
  have hstr := h.accessAddr_eq (op := .str) (x := .srr rs1 rs2 rs3) rfl h2 (congrArg Operand.value (h.resolve h3))
  refine ⟨fun hsome hout => ?_, fun hsome hout => ?_, fun hout => ?_, fun hout => ?_⟩
  · exact State.TakesMemoryOp.faultsOn (i := .load rd rs1 imm) mload (fun _ => hsome) (hload ▸ hout)
  · exact State.TakesMemoryOp.faultsOn (i := .ldr rd rs1 rs2) mldr (fun _ => hsome) (hldr ▸ hout)
  · exact State.TakesMemoryOp.faultsOn (i := .store rs1 rs2 imm) mstore nofun (hstore ▸ hout)
  · exact State.TakesMemoryOp.faultsOn (i := .str rs1 rs2 rs3) mstr nofun (hstr ▸ hout)

/-- Settles O46: the target is that of the operand, and the slot's register file has the destination unwritten. -/
theorem verbatimRestoreLosesTheLink : Obligations.VerbatimRestoreLosesTheLink := by
  unfold Obligations.VerbatimRestoreLosesTheLink
  intro s rd rs1 imm h hsome hpol hd h1
  have m : s.TakesBranchOp .jal (.rri rd rs1 imm) := ⟨h, Operands.legal_rri hd h1 rfl, rfl, fun _ => hsome⟩
  have htarget : s.flowTarget .jal (.rri rd rs1 imm) = sx s.cfg (s.xValue rs1 + imm.toInt) :=
    h.flowTarget_eq rfl h1 rfl (by decide)
  obtain ⟨t, hrun, hinvalid, hcommitted, hfetched⟩ := m.losesLink rfl hpol rfl
  exact ⟨_, t, h.dispatches m.free, hrun, hinvalid, hcommitted, htarget ▸ hfetched⟩

/-- Settles O47: the entry is complete with its exception when dispatch makes it, so the next tick takes the fault. -/
theorem illegalBundleFaults : Obligations.IllegalBundleFaults := by
  unfold Obligations.IllegalBundleFaults
  intro s err h hbad
  have hfault := (h.takenIllegal_living (op := .nop)).faults h h.takenIllegal_entry rfl nofun
  exact ⟨_, _, h.dispatches_illegal hbad, ticks_succ hfault, rfl, h.notHalted, rfl, rfl, rfl, rfl, rfl, rfl⟩

end Sys2Proof.Claims
